-- ==== Sys2Proof/Word.lean ====
section
/-! DEFINITION. The words of the RN-480: the widths the spec gives to registers, elements, masks and bytes. -/

namespace Sys2Proof

/-- A scalar register, a broadcast register or an address: 64 bits (R19). -/
abbrev Word := BitVec 64

/-- One lane of a vector register: 32 bits (R19). -/
abbrev Elem := BitVec 32

/-- A lane mask: W = 64 bits, bit i for lane i (R19). -/
abbrev LaneMask := BitVec 64

/-- One byte of any memory (R3). -/
abbrev Byte := BitVec 8

end Sys2Proof
end

