-- ==== Sys2Proof/Machine/Bits.lean ====
section
/-! DEFINITION. Bit fields, sign extension and byte order (R3, R65): every field of a word, a record or a page-table
entry is taken with these. -/

namespace Sys2Proof.Machine

/-- The len bits of w from bit lo up, as a number. -/
def fld (w lo len : Nat) : Nat := w / 2 ^ lo % 2 ^ len

/-- The same bits as a bit vector. -/
def bits (w lo len : Nat) : BitVec len := BitVec.ofNat len (w / 2 ^ lo)

/-- Bit n of w. -/
def bit (w n : Nat) : Bool := w / 2 ^ n % 2 == 1

def boolNat (b : Bool) : Nat := if b then 1 else 0

/-- Little-endian bytes to a number: the first byte is the least significant (R3). -/
def natOfBytes : List Byte → Nat
  | [] => 0
  | b :: bs => b.toNat + 256 * natOfBytes bs

/-- A number as n little-endian bytes. -/
def bytesOfNat : Nat → Nat → List Byte
  | 0, _ => []
  | n + 1, v => BitVec.ofNat 8 v :: bytesOfNat n (v / 256)

/-- Bytes lo to lo + n - 1 of a record, as a little-endian number; absent bytes read 0. -/
def recNat (r : List Byte) (lo n : Nat) : Nat := natOfBytes ((r.drop lo).take n)

/-- The same bytes. -/
def recBytes (r : List Byte) (lo n : Nat) : List Byte := (r.drop lo).take n

/-- All bytes of a list are zero. -/
def allZero (bs : List Byte) : Bool := bs.all (· == 0)

/-- A w-bit pattern read as two's complement. -/
def signed (w v : Nat) : Int := if v % 2 ^ w < 2 ^ (w - 1) then (v % 2 ^ w : Nat) else ((v % 2 ^ w : Nat) : Int) - 2 ^ w

/-- An integer modulo 2^w. -/
def wrap (w : Nat) (v : Int) : Nat := (v % (2 ^ w : Int)).toNat

/-- Sign extension of a w-bit pattern to a 64-bit word. -/
def sext64 (w v : Nat) : Word := BitVec.ofInt 64 (signed w v)

/-- Round up to a multiple of m. -/
def alignUp (m v : Nat) : Nat := (v + m - 1) / m * m

/-- Lanes of a mask in ascending order. -/
def lanesOf (m : LaneMask) : List Nat := (List.range 64).filter fun i => m.getLsbD i

/-- The mask of one lane. -/
def laneBit (i : Nat) : LaneMask := BitVec.ofNat 64 (2 ^ i)

/-- The mask holding exactly the lanes of a list. -/
def maskOf (ls : List Nat) : LaneMask := ls.foldl (fun m i => m ||| laneBit i) 0

/-- A mask with bit i set to b. -/
def setLane (m : LaneMask) (i : Nat) (b : Bool) : LaneMask := if b then m ||| laneBit i else m &&& ~~~ laneBit i

/-- Number of set bits. -/
def popCount (m : LaneMask) : Nat := (lanesOf m).length

end Sys2Proof.Machine
end

