-- ==== Sys2Proof/Syntax.lean ====
section
/-! DEFINITION. The instruction set of the RN-480 as syntax: one constructor of Instr for each row of
spec/opcode_table.json. Register numbers, operand classes, types, scopes and orders are typed here, so that the
machine never sees an encoding. The rows with no encoding (wake events, engine steps, device steps, host commands,
fabric requests) carry as arguments what the row acts on. -/

namespace Sys2Proof

/-! Fields of the scalar words. -/

/-- A scalar register number, s0 to s63 (R19, R66). -/
abbrev SReg := BitVec 6
/-- A mask number, m0 to m15. -/
abbrev MReg := BitVec 4
/-- A broadcast register number, b0 to b15. -/
abbrev BReg := BitVec 4
/-- A vector register number, v0 to v255. -/
abbrev VReg := BitVec 8
/-- A timeline counter number, k0 to k15 (R277). -/
abbrev KReg := BitVec 4
/-- An operand queue number, q0 to q7 (R285). -/
abbrev QReg := BitVec 3
/-- An accumulator tile number, a0 to a31 (R318). -/
abbrev TileReg := BitVec 5

/-- Memory scopes that an instruction or a record may name (R70; code 6, .bank, is accepted nowhere, R93). -/
inductive Scope where
  | grp | wg | cl | die | dev | sys
  deriving DecidableEq, Repr

/-- Memory orders (R70). -/
inductive Order where
  | rlx | acq | rel | ar
  deriving DecidableEq, Repr

/-- Sizes and extensions of LDS (R67). -/
inductive LdSize where
  | i8 | i16 | i32 | b64 | n8 | n16 | n32
  deriving DecidableEq, Repr

/-- Sizes of STS (R67). -/
inductive StSize where
  | i8 | i16 | i32 | b64
  deriving DecidableEq, Repr

/-- Operations of SATOM (R93). -/
inductive SAtomOp where
  | add | min | max | minn | maxn | and | or | xor | exch
  deriving DecidableEq, Repr

/-- Comparisons of BR (R109). -/
inductive BrCond where
  | eq | ne | lt | ge | ltn | gen
  deriving DecidableEq, Repr

/-- Kinds of BRM (R112). -/
inductive BrmKind where
  | any | all | none | div
  deriving DecidableEq, Repr

/-- Kinds of OPLD (R309). -/
inductive OpldKind where
  | plain | conv | segr | segc
  deriving DecidableEq, Repr

/-- The start condition of a command: counter J at least the value of a register (R280). -/
structure StartCond where
  counter : KReg
  value : SReg
  deriving DecidableEq, Repr

/-! Fields of the lane word (R71). -/

/-- Element types (R71, codes 0 to 21). -/
inductive ElemTy where
  | i8 | i16 | i32 | i64 | n8 | n16 | n32 | n64 | b32 | b64
  | f16 | bf16 | f32 | f64 | e4m3 | e5m2 | e3m2 | e2m3 | e2m1 | e8m0 | aq8 | aq4
  deriving DecidableEq, Repr

/-- Rounding codes (R71); DYN takes the mode of FLAGS.RM. -/
inductive Rnd where
  | rne | rtz | rdn | rup | rna | sr | dyn
  deriving DecidableEq, Repr

/-- One mask of a guard, plain or negated (R71). -/
structure GuardMask where
  negate : Bool
  mask : MReg
  deriving DecidableEq, Repr

/-- How two guard masks combine (R71). -/
inductive Combine where
  | aOnly | and | or | xor
  deriving DecidableEq, Repr

/-- The guard of a lane instruction (R72). -/
structure Guard where
  a : GuardMask
  b : GuardMask
  combine : Combine
  deriving DecidableEq, Repr

/-- An operand specifier (R73). -/
inductive Operand where
  | v (r : VReg)
  | q (n : QReg) (peek : Bool)
  | b (r : BReg)
  | imm (n : BitVec 8)
  | m (r : MReg)
  | a (t : TileReg)
  | x
  deriving DecidableEq, Repr

/-- A lane instruction that makes no memory access by address (R71). -/
structure LaneOp where
  ty : ElemTy
  rnd : Rnd
  guard : Guard
  d : Operand
  a : Operand
  b : Operand
  c : Operand
  e : Operand
  hint : BitVec 3
  bypass : Bool
  mods : BitVec 7
  deriving DecidableEq, Repr

/-- A lane memory instruction: A, B and C form the address (R77), the modifiers hold scope, order, .fe and bit 6 (R78). -/
structure MemOp where
  ty : ElemTy
  rnd : Rnd
  guard : Guard
  d : Operand
  base : Option BReg
  index : Option VReg
  scale : BitVec 3
  disp : BitVec 8
  e : Operand
  hint : BitVec 3
  bypass : Bool
  scope : Scope
  order : Order
  fe : Bool
  bit6 : Bool
  deriving DecidableEq, Repr

/-- VIMM (R81): a destination and a 32-bit immediate. -/
structure ImmOp where
  ty : ElemTy
  rnd : Rnd
  guard : Guard
  d : Operand
  imm : BitVec 32
  hint : BitVec 3
  bypass : Bool
  mods : BitVec 7
  deriving DecidableEq, Repr

/-! What the rows without an encoding act on. -/

/-- Indexes of things the machine holds; plain numbers. -/
abbrev CoreIx := Nat
abbrev WgIx := Nat
abbrev GroupIx := Nat
abbrev SplitIx := Nat
abbrev PcIx := Nat

/-- A command of a timeline counter: workgroup, counter, number (R278). -/
structure CmdRef where
  wg : WgIx
  counter : Nat
  num : Nat
  deriving DecidableEq, Repr

/-- The requester identity of a fabric request (R410). -/
structure ReqId where
  origin : BitVec 16
  ctx : BitVec 20
  engine : BitVec 4
  deriving DecidableEq, Repr

/-- The header of a fabric request but for its kind (R410). tag is the model's own: the requester's number for the
request, which its response repeats, since a request without a serial has no other identity (log 24). -/
structure ReqHeader where
  ser : Bool
  lifetime : Nat
  retdev : Nat
  inc : Nat
  reqid : ReqId
  serial : BitVec 32
  ack : BitVec 32
  addr : Nat
  tag : Nat
  deriving DecidableEq, Repr

/-- Read-modify-write operations (R106, R261). -/
inductive RmwOp where
  | add | min | max | and | or | xor | exch
  deriving DecidableEq, Repr

/-- One read-modify-write: its operation, type and, for a float add, its rounding: mode, FTZ and the random 32 bits
of SR (R50). -/
structure Rmw where
  op : RmwOp
  ty : ElemTy
  mode : Rnd
  ftz : Bool
  rand : Nat
  deriving DecidableEq, Repr

/-- One element access of a far view request: the owner PA of the element's first byte, the nibble it starts at and
its width in bits. The requester evaluates the descriptor's affine fields or GATHER slice into this list (R409). -/
structure FarElem where
  addr : Nat
  high : Bool
  bits : Nat
  deriving DecidableEq, Repr

/-- What a far view atomic does to each element: an atomic with its operand and its random bits under SR, or a
compare-and-swap (R409). -/
inductive FarAtomic where
  | rmw (r : Rmw) (operands rands : List Nat)
  | cas (expected replacement : List Nat)
  deriving DecidableEq, Repr

/-- One chunk of a reduce-copy (R426, R427): the source elements as read, how they reduce, and the checksum. -/
structure RChunk where
  /-- model: which chunk of its command (log 24) -/
  number : Nat
  /-- R294 element type and operation codes of the slice record -/
  ty : Nat
  op : Nat
  exact : Bool
  ximg : Bool
  /-- owner PA and source bits of each element, in chunk order -/
  elems : List (Nat × Nat)
  /-- the linear checksum image of 288 bytes, when CSUM is set -/
  csum : Option (List Byte)
  deriving DecidableEq, Repr

/-- Bank instructions (R330). -/
inductive BankKind where
  | load | run | fence
  deriving DecidableEq, Repr

/-- A fabric response (R410). -/
structure Response where
  kind : Nat
  status : BitVec 16
  inc : Nat
  reqid : ReqId
  serial : BitVec 32
  busy : Bool
  fromCache : Bool
  data : List Byte
  tag : Nat
  deriving DecidableEq, Repr

/-- A host port's link mode (R429). -/
inductive PortMode where
  | down | pcie | cxl
  deriving DecidableEq, Repr

/-- What a host access does (R432). -/
inductive HostOp where
  | read (n : Nat)
  | write (bytes : List Byte)
  | fetchAdd (size operand : Nat)
  | swap (size operand : Nat)
  | cas (size expected replacement : Nat)
  deriving DecidableEq, Repr

/-- Where a host access lands: BAR2 (an HBM offset; in a REPL page, R405), or host memory (a host PA) (R430, R432). -/
inductive HostTarget where
  | bar2 (offset : Nat)
  | bar2Repl (offset : Nat)
  | hostMem (hpa : Nat)
  deriving DecidableEq, Repr

/-- The outcome of boot verification (R440). digests are the SHA-512 digests of the verified images (R441). -/
structure BootOutcome where
  /-- bootstat: 1 ready, 2 signature failure, 3 rollback refused, 4 self-test failure -/
  bootstat : BitVec 32
  digests : List (List Byte)
  deriving DecidableEq, Repr

/-- A protected store that a soft error strikes (R385): a sector of HBM or of L2 by its physical address, a CC sector by its
locator, an L1 or instruction-cache sector, a TLB entry, a vault granule, registers, an operand slot, an accumulator tile,
or an entry of the state a workgroup shares. -/
inductive ErrorSite where
  | hbm (pa : Nat)
  | cc (key : Nat)
  | l2 (pa : Nat)
  | l1 (core key : Nat)
  | code (core key : Nat)
  | tlb (reach : Nat) (ctx : BitVec 20) (base : Nat)
  | coreTlb (core : Nat) (ctx : BitVec 20) (base : Nat)
  | vault (wg : WgIx) (offset : Nat)
  | vreg (wg : WgIx) (g : GroupIx) (reg lane : Nat)
  | sreg (wg : WgIx) (g : GroupIx) (reg : Nat)
  | mreg (wg : WgIx) (g : GroupIx) (reg : Nat)
  | breg (wg : WgIx) (g : GroupIx) (reg : Nat)
  | xreg (wg : WgIx) (g : GroupIx)
  | tile (wg : WgIx) (tile : Nat)
  | slot (core slot : Nat)
  | shared (wg : WgIx)
  deriving DecidableEq, Repr

/-- A soft error: where, whether the code corrects it, and the number of the unit it counts against (R385, R394). -/
structure SoftError where
  site : ErrorSite
  corrected : Bool
  unit : Nat
  deriving DecidableEq, Repr

/-- Element formats of BMAC (R340). -/
inductive BankFmt where
  | bf16 | e4m3 | e5m2 | int8
  deriving DecidableEq, Repr

/-- A clock and voltage the power controller sets for one island (R16, R444). -/
structure IslandSetting where
  island : Nat
  mhz : Nat
  millivolts : Nat
  deriving DecidableEq, Repr

/-- The instructions: one constructor per row of spec/opcode_table.json. -/
inductive Instr where
  /- Scalar instructions (05 R90; 06). -/
  | nop
  | exit
  | yield
  | brk
  | sysr (sd : SReg) (n : BitVec 6)
  | sysw (n : BitVec 6) (sa : SReg)
  | irb
  | ire
  | fence (scope : Scope) (order : Order)
  | trap (code : BitVec 20)
  | addpc (sd : SReg) (imm : BitVec 20)
  | add (sd sa sb : SReg)
  | sub (sd sa sb : SReg)
  | and (sd sa sb : SReg)
  | or (sd sa sb : SReg)
  | xor (sd sa sb : SReg)
  | shl (sd sa sb : SReg)
  | shr (sd sa sb : SReg)
  | sra (sd sa sb : SReg)
  | min (sd sa sb : SReg)
  | max (sd sa sb : SReg)
  | minn (sd sa sb : SReg)
  | maxn (sd sa sb : SReg)
  | slt (sd sa sb : SReg)
  | sltn (sd sa sb : SReg)
  | mul (sd sa sb : SReg)
  | mulh (sd sa sb : SReg)
  | mulhn (sd sa sb : SReg)
  | div (sd sa sb : SReg)
  | divn (sd sa sb : SReg)
  | rem (sd sa sb : SReg)
  | remn (sd sa sb : SReg)
  | csel (sd sa sb : SReg)
  | addi (sd sa : SReg) (imm : BitVec 14)
  | andi (sd sa : SReg) (imm : BitVec 14)
  | ori (sd sa : SReg) (imm : BitVec 14)
  | xori (sd sa : SReg) (imm : BitVec 14)
  | shli (sd sa : SReg) (count : BitVec 6)
  | shri (sd sa : SReg) (count : BitVec 6)
  | srai (sd sa : SReg) (count : BitVec 6)
  | slti (sd sa : SReg) (imm : BitVec 14)
  | sltni (sd sa : SReg) (imm : BitVec 14)
  | lih (sd : SReg) (imm : BitVec 20)
  | lit (sd : SReg) (imm : BitVec 20)
  | lds (size : LdSize) (acq : Bool) (sd sa : SReg) (imm : BitVec 9)
  | sts (size : StSize) (rel : Bool) (sd sa : SReg) (imm : BitVec 9)
  | satom (op : SAtomOp) (scope : Scope) (ar : Bool) (sa sb sc : SReg)
  | scas (scope : Scope) (ar : Bool) (sa sb sc : SReg)
  | br (cond : BrCond) (sa sb : SReg) (offset : BitVec 11)
  | j (offset : BitVec 26)
  | jl (offset : BitVec 26)
  | jr (sd sa : SReg)
  | brm (kind : BrmKind) (m : MReg) (offset : BitVec 20)
  | lx (count1 : BitVec 6) (index : BitVec 20)
  | lxr (sa sb : SReg)
  | setb (b : BReg) (sa : SReg)
  | mrd (sa : SReg) (m : MReg)
  | vrd (wide : Bool) (sa sb sc : SReg)
  | mset (m : MReg) (sa : SReg)
  | barArrive (cl : Bool) (bar : BitVec 4) (sa sb : SReg)
  | barWait (cl : Bool) (bar : BitVec 4) (sb : SReg)
  | barSync (cl : Bool) (bar : BitVec 4) (sa sb : SReg)
  | barRemote (bar : BitVec 4) (sa sb sc : SReg)
  | waitc (scope : Scope) (k : KReg) (sa : SReg)
  | waitcFe (scope : Scope) (sa : SReg)
  | strm (q : QReg) (sa : SReg)
  | qclr (q : QReg)
  | cpy (k : KReg) (sa sb : SReg) (start : Option StartCond)
  | cpyr (k : KReg) (sa sb : SReg) (start : Option StartCond)
  | oclaim (count1 : BitVec 2) (sa : SReg)
  | orel (sa : SReg)
  | opld (kind : OpldKind) (fe : Bool) (sa sb : SReg)
  | mma (t oA oB : BitVec 5) (sa : SReg) (accumulate seg causal : Bool)
  | gang (sa : SReg)
  | tqpush (sa sb sc : SReg)
  | tqpull (sa sb sc : SReg)
  | tqjoin (sa sc : SReg)
  | bkload (sa sb : SReg)
  | bkrun (sa sb : SReg) (start : Option StartCond)
  | bkfence (sa sb : SReg)
  | viewb (sa sb sc : SReg)
  | viewi (k : KReg) (sa sb : SReg)
  | rminv (k : KReg) (sa sb sc : SReg)
  | lnch (sa sb sc : SReg)
  /- Lane instructions (05 R94; 07, 08, 13, 15). -/
  | vadd (o : LaneOp)
  | vsub (o : LaneOp)
  | vmul (o : LaneOp)
  | vmulh (o : LaneOp)
  | vmad (o : LaneOp)
  | vdiv (o : LaneOp)
  | vrem (o : LaneOp)
  | vmin (o : LaneOp)
  | vmax (o : LaneOp)
  | vabs (o : LaneOp)
  | vneg (o : LaneOp)
  | vand (o : LaneOp)
  | vor (o : LaneOp)
  | vxor (o : LaneOp)
  | vnot (o : LaneOp)
  | vshl (o : LaneOp)
  | vshr (o : LaneOp)
  | vsra (o : LaneOp)
  | vpopc (o : LaneOp)
  | vclz (o : LaneOp)
  | vbfe (o : LaneOp)
  | vbfi (o : LaneOp)
  | vcmp (o : LaneOp)
  | vsel (o : LaneOp)
  | vmov (o : LaneOp)
  | vimm (o : ImmOp)
  | vlane (o : LaneOp)
  | mand (o : LaneOp)
  | mor (o : LaneOp)
  | mxor (o : LaneOp)
  | mnot (o : LaneOp)
  | mfirst (o : LaneOp)
  | mpopc (o : LaneOp)
  | vshfl (o : LaneOp)
  | vperm (o : LaneOp)
  | vstep (o : LaneOp)
  | vscan (o : LaneOp)
  | vcomp (o : LaneOp)
  | viota (o : LaneOp)
  | vfadd (o : LaneOp)
  | vfsub (o : LaneOp)
  | vfmul (o : LaneOp)
  | vfma (o : LaneOp)
  | vfmin (o : LaneOp)
  | vfmax (o : LaneOp)
  | vfabs (o : LaneOp)
  | vfneg (o : LaneOp)
  | vfdiv (o : LaneOp)
  | vfsqrt (o : LaneOp)
  | vfrcp (o : LaneOp)
  | vfrsq (o : LaneOp)
  | vfex2 (o : LaneOp)
  | vflg2 (o : LaneOp)
  | vfsin (o : LaneOp)
  | vfcos (o : LaneOp)
  | vfcls (o : LaneOp)
  | vcvt (o : LaneOp)
  | vpack (o : LaneOp)
  | vunpk (o : LaneOp)
  | vqmx (o : LaneOp)
  | vqaq (o : LaneOp)
  | vdq (o : LaneOp)
  | xclr (o : LaneOp)
  | xadd (o : LaneOp)
  | xsub (o : LaneOp)
  | xrnd (o : LaneOp)
  | xst (o : MemOp)
  | xlda (o : MemOp)
  | vld (o : MemOp)
  | vst (o : MemOp)
  | vpref (o : MemOp)
  | vatom (o : MemOp)
  | vcas (o : MemOp)
  | vred (o : MemOp)
  | acrd (o : LaneOp)
  | acwr (o : LaneOp)
  | acscl (o : LaneOp)
  | acmax (o : LaneOp)
  | acexp (o : LaneOp)
  /- Lane-queue entries and the steps of engines and wake conditions (02, 09, 10, 13 to 16). -/
  | setbEntry
  | msetEntry
  | openEntry
  | closeEntry
  | laneQueueRoom (wg : WgIx) (g : GroupIx) (split : SplitIx)
  | fusionHoldRelease (wg : WgIx) (g : GroupIx) (split : SplitIx)
  | barrierWake (wg : WgIx) (g : GroupIx) (split : SplitIx)
  | waitcWake (wg : WgIx) (g : GroupIx) (split : SplitIx)
  | feLanePerform (wg : WgIx) (g : GroupIx) (lane : Nat)
  | tqpullRemove (wg : WgIx) (g : GroupIx) (split : SplitIx)
  | oclaimGrant (core : CoreIx)
  | acsclWaitEnd (wg : WgIx) (g : GroupIx)
  | operandLoadComplete (core : CoreIx) (slot : Nat) (segment : Bool)
  | mmaExecute (wg : WgIx) (seqNo : Nat)
  | slotFree (core : CoreIx) (slot : Nat)
  | collectiveStart (cmd : CmdRef)
  | copyComplete (cmd : CmdRef)
  | copyCut (cmd : CmdRef) (chunks : Nat)
  | streamComplete (cmd : CmdRef)
  | bkloadExecute (pc : PcIx)
  | bkrunExecute (pc : PcIx)
  | runComplete (id : Nat)
  | bkfenceAct (pc : PcIx)
  /- A word that encodes no instruction (04 R83). -/
  | illegalEncoding (lane : Bool)
  /- Bank micro-operations (16 R340). -/
  | bnop
  | bact (range inc : Bool)
  | bpre
  | bmac (j : BitVec 3) (fmt : BankFmt) (incC incX : Bool)
  | bzero (mask : BitVec 8)
  | bscl (j : BitVec 3) (factor : BitVec 16)
  | bwra (j : BitVec 3)
  | bwrb (col : BitVec 5)
  | bloop (count : BitVec 16)
  | bend
  | bstop
  | bxld (first chunks1 : BitVec 6)
  /- Steps of the device itself (13, 18, 19, 21). -/
  | viewiComplete (cmd : CmdRef)
  | rminvComplete (cmd : CmdRef)
  | pageInComplete (reach ix : Nat)
  | placement
  | preemption (wg : WgIx)
  | depEvaluation (launch : Nat)
  | period
  | budget (region which : Nat)
  | watchdog (ctx : BitVec 20)
  | heldTrapRecord (ix : Nat)
  | poisonConsumed (wg : WgIx) (g : GroupIx) (split : SplitIx)
  | eddyRecheck (core quarter ix : Nat) (mismatch : Bool)
  | patrol
  | scan (reach : Nat)
  | scanResult (core : CoreIx) (passed : Bool)
  /- Fabric requests this device serves as owner, and the requester's events (20). -/
  | fabLoad (h : ReqHeader) (n : Nat)
  | fabStore (h : ReqHeader) (bytes : List Byte)
  | fabAtom (h : ReqHeader) (op : Rmw) (operand : Nat)
  | fabCas (h : ReqHeader) (size expected replacement : Nat)
  | fabRed (h : ReqHeader) (op : Rmw) (operand : Nat)
  | fabVload (h : ReqHeader) (elems : List FarElem)
  | fabVstore (h : ReqHeader) (elems : List (FarElem × Nat))
  | fabVatomic (h : ReqHeader) (elems : List FarElem) (op : FarAtomic)
  | fabDoor (h : ReqHeader) (bytes : List Byte)
  | fabBank (h : ReqHeader) (kind : BankKind) (record : List Byte) (payload : List Byte)
  | fabPush (h : ReqHeader) (item : List Byte)
  | fabRchunk (h : ReqHeader) (chunk : RChunk)
  | fabProbe (h : ReqHeader)
  | fabAck (h : ReqHeader)
  | fabClose (h : ReqHeader)
  | unknownKind (h : ReqHeader) (kind : Nat)
  | response (r : Response)
  | retransmit (op : Nat)
  | giveUp (op : Nat)
  | waitbusy (op : Nat)
  | ackTimer (stream : Nat)
  | streamEntryFree (ix : Nat)
  | savedRetransmit (op : Nat)
  /- Host commands, each read from the command ring by CMDTAIL (21 R433); ring is the command's ring index. -/
  | register (ring : Nat)
  | destroy (ring : Nat)
  | launch (ring : Nat)
  | dispose (ring : Nat)
  | invalidate (ring : Nat)
  | switchOut (ring : Nat)
  | resume (ring : Nat)
  | rmset (ring : Nat)
  | frames (ring : Nat)
  | viewset (ring : Nat)
  | grant (ring : Nat)
  | revoke (ring : Nat)
  | bindDoor (ring : Nat)
  | config (ring : Nat)
  | attest (ring : Nat)
  | warmReset (ring : Nat)
  | hostRminv (ring : Nat)
  | hostViewi (ring : Nat)
  /- Host register writes, host accesses, resets and boot (21). -/
  | cmdtail (v : BitVec 32)
  | evread (v : BitVec 32)
  | incarn (v : BitVec 16)
  | registerWrite (offset size value : Nat)
  | hostAccess (port : Nat) (target : HostTarget) (op : HostOp)
  | snoop (port hpa : Nat) (invalidating : Bool)
  | linkUp (port : Nat) (mode : PortMode)
  | coldReset
  | functionLevelReset
  | boot (outcome : BootOutcome)
  /- The rows of the lower layers (20, 21). -/
  | replicaApply (seqReach replica : Nat)
  | lifetimeExpiry (flit : Nat)
  | crcFailedFlit (port : Nat)
  | msiXSignal (port vector : Nat)
  | softError (err : SoftError)
  | junctionTemperatureLimit (settings : List IslandSetting)
  deriving DecidableEq, Repr

end Sys2Proof
end

