-- ==== Sys2Proof/Machine/Legal.lean ====
section
/-! DEFINITION. Which instructions are legal encodings: the static checks that raise ILLEGAL (R69, R74, R75, R80,
R83, R97). Checks that depend on the state (register allocation R20, register values) belong to the meanings. -/

namespace Sys2Proof.Machine

/-! Element types (R71, R126). -/

/-- Width of an element in bits. -/
def tyBits : ElemTy → Nat
  | .i8 | .n8 | .e4m3 | .e5m2 | .e8m0 | .aq8 => 8
  | .i16 | .n16 | .f16 | .bf16 => 16
  | .i32 | .n32 | .b32 | .f32 => 32
  | .i64 | .n64 | .b64 | .f64 => 64
  | .e3m2 | .e2m3 => 6
  | .e2m1 | .aq4 => 4

/-- Integer types, codes 0 to 7. -/
def tyInt : ElemTy → Bool
  | .i8 | .i16 | .i32 | .i64 | .n8 | .n16 | .n32 | .n64 => true
  | _ => false

/-- Signed integer types. -/
def tySigned : ElemTy → Bool
  | .i8 | .i16 | .i32 | .i64 => true
  | _ => false

/-- Bit types. -/
def tyBit : ElemTy → Bool
  | .b32 | .b64 => true
  | _ => false

/-- The four wide float types, codes 10 to 13. -/
def tyFloat : ElemTy → Bool
  | .f16 | .bf16 | .f32 | .f64 => true
  | _ => false

/-- The MX element formats, codes 14 to 18 (R44). -/
def tyMx : ElemTy → Bool
  | .e4m3 | .e5m2 | .e3m2 | .e2m3 | .e2m1 => true
  | _ => false

/-- Types of a plain lane access, codes 0 to 13 (R141). -/
def tyMem (t : ElemTy) : Bool := tyInt t || tyBit t || tyFloat t

/-- The element type of a code (R71); codes 22 to 31 name none. -/
def tyOfCode : Nat → Option ElemTy
  | 0 => some .i8 | 1 => some .i16 | 2 => some .i32 | 3 => some .i64
  | 4 => some .n8 | 5 => some .n16 | 6 => some .n32 | 7 => some .n64
  | 8 => some .b32 | 9 => some .b64 | 10 => some .f16 | 11 => some .bf16
  | 12 => some .f32 | 13 => some .f64 | 14 => some .e4m3 | 15 => some .e5m2
  | 16 => some .e3m2 | 17 => some .e2m3 | 18 => some .e2m1 | 19 => some .e8m0
  | 20 => some .aq8 | 21 => some .aq4
  | _ => none

/-! Operand classes (R73, R74). -/

def opV : Operand → Bool | .v _ => true | _ => false
def opB : Operand → Bool | .b _ => true | _ => false
def opImm : Operand → Bool | .imm _ => true | _ => false
def opM : Operand → Bool | .m _ => true | _ => false
def opQ : Operand → Bool | .q _ _ => true | _ => false
def opA : Operand → Bool | .a _ => true | _ => false

/-- The encoding of v0, which an unused position holds (R74). -/
def unused (o : Operand) : Bool := o == .v 0

/-- A vector operand of w bits: a 64-bit one names an even register (R20). -/
def pairOk (w : Nat) : Operand → Bool
  | .v r => w != 64 || r.toNat % 2 == 0
  | _ => true

/-- The source classes of R129: vector, queue, broadcast, immediate, of w bits. -/
def srcOk (w : Nat) (o : Operand) : Bool := (opV o || opQ o || opB o || opImm o) && pairOk w o

/-- Vector, queue or broadcast (R154, R158, R159). -/
def vqbOk (w : Nat) (o : Operand) : Bool := (opV o || opQ o || opB o) && pairOk w o

/-- The destination classes of R129: a vector, or a queue without peek. -/
def dstOk (w : Nat) : Operand → Bool
  | .v r => pairOk w (.v r)
  | .q _ peek => !peek
  | _ => false

/-- A vector of w bits. -/
def vecOk (w : Nat) (o : Operand) : Bool := opV o && pairOk w o

/-- A destination mask is not m0 (R20, R74). -/
def dstMaskOk : Operand → Bool
  | .m r => r != 0
  | _ => false

/-- A fill operand: vector, broadcast or immediate (R135). -/
def fillOk (w : Nat) (o : Operand) : Bool := (opV o || opB o || opImm o) && pairOk w o

/-- The optional status mask of R135. -/
def statusOk (o : Operand) : Bool := unused o || dstMaskOk o

/-- Guard B is zero when the guard uses mask A alone (R72). -/
def guardOk (g : Guard) : Bool := g.combine != .aOnly || g.b == ⟨false, 0⟩

/-- Some position names an operand queue. -/
def usesQueue (o : LaneOp) : Bool := opQ o.d || opQ o.a || opQ o.b || opQ o.c || opQ o.e

/-- Checks common to every non-memory form: the guard, and hint and bypass (R79, R95). -/
def commonOk (o : LaneOp) : Bool := guardOk o.guard && ((o.hint == 0 && !o.bypass) || usesQueue o)

/-- Forms that do not round carry rounding code 0 (R80). -/
def noRnd (o : LaneOp) : Bool := o.rnd == .rne

def noMods (o : LaneOp) : Bool := o.mods == 0

/-! Families. -/

/-- Integer arithmetic (R129). n is the number of sources, sat whether .sat is accepted, signedOnly for VABS, VNEG. -/
def intOk (n : Nat) (sat signedOnly : Bool) (o : LaneOp) : Bool :=
  let w := tyBits o.ty
  commonOk o && noRnd o && (if signedOnly then tySigned o.ty else tyInt o.ty) &&
  (o.mods == 0 || (sat && o.mods == 1)) && dstOk w o.d && srcOk w o.a &&
  (if 2 ≤ n then srcOk w o.b else unused o.b) && (if 3 ≤ n then srcOk w o.c else unused o.c) && unused o.e

/-- VAND, VOR, VXOR (n = 2) and VNOT (n = 1) (R131). -/
def bitOk (n : Nat) (o : LaneOp) : Bool :=
  let w := tyBits o.ty
  commonOk o && noRnd o && noMods o && tyBit o.ty && dstOk w o.d && srcOk w o.a &&
  (if 2 ≤ n then srcOk w o.b else unused o.b) && unused o.c && unused o.e

/-- Shifts: the count is a 32-bit element (R131). -/
def shiftOk (o : LaneOp) : Bool :=
  let w := tyBits o.ty
  commonOk o && noRnd o && noMods o && tyBit o.ty && dstOk w o.d && srcOk w o.a && srcOk 32 o.b &&
  unused o.c && unused o.e

/-- VPOPC, VCLZ: D is one 32-bit register (R131). -/
def countOk (o : LaneOp) : Bool :=
  commonOk o && noRnd o && noMods o && tyBit o.ty && dstOk 32 o.d && srcOk (tyBits o.ty) o.a &&
  unused o.b && unused o.c && unused o.e

def bfeOk (o : LaneOp) : Bool :=
  let w := tyBits o.ty
  commonOk o && noRnd o && noMods o && (o.ty == .i32 || o.ty == .i64 || o.ty == .n32 || o.ty == .n64) &&
  dstOk w o.d && srcOk w o.a && srcOk 32 o.b && srcOk 32 o.c && unused o.e

def bfiOk (o : LaneOp) : Bool :=
  let w := tyBits o.ty
  commonOk o && noRnd o && noMods o && tyBit o.ty && dstOk w o.d && srcOk w o.a && srcOk w o.b &&
  srcOk 32 o.c && srcOk 32 o.e

/-- VCMP (R132): the condition is in modifier bits [2:0]. -/
def cmpOk (o : LaneOp) : Bool :=
  let w := tyBits o.ty
  commonOk o && noRnd o && o.mods.toNat < 8 && dstMaskOk o.d && srcOk w o.a && srcOk w o.b && unused o.c &&
  unused o.e && (if tyInt o.ty then o.mods.toNat < 6 else if tyBit o.ty then o.mods.toNat < 2 else tyFloat o.ty)

def selOk (o : LaneOp) : Bool :=
  let w := tyBits o.ty
  commonOk o && noRnd o && noMods o && tyBit o.ty && dstOk w o.d && srcOk w o.a && srcOk w o.b && opM o.c && unused o.e

def immOk (o : ImmOp) : Bool :=
  guardOk o.guard && ((o.hint == 0 && !o.bypass) || opQ o.d) && o.rnd == .rne && o.mods == 0 && tyBit o.ty &&
  dstOk (tyBits o.ty) o.d

/-- VLANE (R133). -/
def laneNoOk (o : LaneOp) : Bool :=
  commonOk o && noRnd o && noMods o && o.ty == .n32 && dstOk 32 o.d && unused o.a && unused o.b && unused o.c && unused o.e

/-- MAND, MOR, MXOR (n = 2), MNOT, MFIRST (n = 1) (R134). -/
def maskOk (n : Nat) (o : LaneOp) : Bool :=
  commonOk o && noRnd o && noMods o && o.ty == .i8 && dstMaskOk o.d && opM o.a &&
  (if 2 ≤ n then opM o.b else unused o.b) && unused o.c && unused o.e

/-- MPOPC, VIOTA (R134). -/
def maskCountOk (o : LaneOp) : Bool :=
  commonOk o && noRnd o && noMods o && o.ty == .n32 && dstOk 32 o.d && opM o.a && unused o.b && unused o.c && unused o.e

/-- VSHFL (R136): mode in [5:4], off in [3:0]. -/
def shflOk (o : LaneOp) : Bool :=
  let w := tyBits o.ty
  let off := o.mods.toNat % 16
  commonOk o && noRnd o && o.mods.toNat < 64 && off != 6 && off != 7 && tyBit o.ty && dstOk w o.d && vecOk w o.a &&
  unused o.b && fillOk w o.c && statusOk o.e

def permOk (o : LaneOp) : Bool :=
  let w := tyBits o.ty
  commonOk o && noRnd o && noMods o && tyBit o.ty && dstOk w o.d && vecOk w o.a && vecOk 32 o.b && fillOk w o.c && statusOk o.e

/-- VSTEP (R138): op in [5:3], k in [2:0]. -/
def stepOk (o : LaneOp) : Bool :=
  let w := tyBits o.ty
  let op := o.mods.toNat / 8
  commonOk o && noRnd o && o.mods.toNat < 64 && op != 7 && o.mods.toNat % 8 < 6 && (tyInt o.ty || tyBit o.ty) &&
  (tyInt o.ty || (op != 1 && op != 2)) && dstOk w o.d && vecOk w o.a && unused o.b && fillOk w o.c && statusOk o.e

/-- VSCAN (R139): op in [1:0], .excl in [2]. -/
def scanOk (o : LaneOp) : Bool :=
  let w := tyBits o.ty
  commonOk o && o.mods.toNat < 8 && o.mods.toNat % 4 != 3 && (tyFloat o.ty || (tyInt o.ty && noRnd o)) &&
  dstOk w o.d && (opV o.a || opQ o.a) && pairOk w o.a && unused o.b && unused o.c && unused o.e

/-- VCOMP (R140). -/
def compOk (o : LaneOp) : Bool :=
  let w := tyBits o.ty
  commonOk o && noRnd o && noMods o && tyBit o.ty && dstOk w o.d && vecOk w o.a && opM o.b && fillOk w o.c && statusOk o.e

/-- Floating point (R146). rounds: the form reads the rounding field. -/
def floatOk (n : Nat) (rounds : Bool) (o : LaneOp) : Bool :=
  let w := tyBits o.ty
  commonOk o && (rounds || noRnd o) && noMods o && tyFloat o.ty && dstOk w o.d && srcOk w o.a &&
  (if 2 ≤ n then srcOk w o.b else unused o.b) && (if 3 ≤ n then srcOk w o.c else unused o.c) && unused o.e

/-- VFCLS: D is one register even for .f64 (R151). -/
def clsOk (o : LaneOp) : Bool :=
  commonOk o && noRnd o && noMods o && tyFloat o.ty && dstOk 32 o.d && srcOk (tyBits o.ty) o.a && unused o.b &&
  unused o.c && unused o.e

/-! Conversions (R152). -/

/-- The source type in modifier bits [4:0]. -/
def srcTy (o : LaneOp) : Option ElemTy := tyOfCode (o.mods.toNat % 32)

/-- The .inf modifier, bit [5]. -/
def infBit (o : LaneOp) : Bool := o.mods.toNat / 32 % 2 == 1

/-- Bit [6] is zero, and .inf only with destination .e5m2 (R152). -/
def cvtModsOk (o : LaneOp) : Bool := o.mods.toNat < 64 && (!infBit o || o.ty == .e5m2)

/-- The pairs of VCVT (R154). -/
def cvtPair (src dst : ElemTy) : Bool :=
  if tyFloat src then tyFloat dst || tyMx dst || dst == .e8m0 || tyInt dst
  else if tyMx src || src == .e8m0 then tyFloat dst
  else if tyInt src then tyFloat dst || tyInt dst
  else false

def cvtOk (o : LaneOp) : Bool :=
  match srcTy o with
  | none => false
  | some s => commonOk o && cvtModsOk o && cvtPair s o.ty && dstOk (tyBits o.ty) o.d && vqbOk (tyBits s) o.a &&
      unused o.b && unused o.c && unused o.e

/-- The pairs of VPACK (R155). -/
def packPair (src dst : ElemTy) : Bool :=
  match src with
  | .f16 | .bf16 | .f32 => dst == .f16 || dst == .bf16 || tyMx dst || dst == .e8m0
  | .i32 => dst == .i8 || dst == .i16
  | .n32 => dst == .n8 || dst == .n16
  | _ => false

def packOk (o : LaneOp) : Bool :=
  match srcTy o with
  | none => false
  | some s => commonOk o && cvtModsOk o && packPair s o.ty && opV o.d && opV o.a && unused o.b && unused o.c && unused o.e

/-- The pairs of VUNPK (R156). -/
def unpkPair (src dst : ElemTy) : Bool :=
  match src with
  | .f16 | .bf16 => dst == .f32
  | .e4m3 | .e5m2 | .e3m2 | .e2m3 | .e2m1 => dst == .f32 || dst == .f16 || dst == .bf16
  | .e8m0 => dst == .f32 || dst == .bf16
  | .i8 | .i16 => dst == .i32
  | .n8 | .n16 => dst == .n32
  | _ => false

def unpkOk (o : LaneOp) : Bool :=
  match srcTy o with
  | none => false
  | some s => commonOk o && noRnd o && o.mods.toNat < 32 && unpkPair s o.ty && opV o.d && opV o.a && unused o.b &&
      unused o.c && unused o.e

def tyHalf (t : ElemTy) : Bool := t == .f16 || t == .bf16 || t == .f32

/-- VQMX (R157). -/
def qmxOk (o : LaneOp) : Bool :=
  match srcTy o with
  | none => false
  | some s => commonOk o && o.mods.toNat < 32 && tyMx o.ty && tyHalf s && opV o.d && opV o.a && opV o.e && o.d != o.e &&
      unused o.b && unused o.c

/-- VQAQ (R158). -/
def qaqOk (o : LaneOp) : Bool :=
  match srcTy o with
  | none => false
  | some s => commonOk o && o.mods.toNat < 32 && (o.ty == .aq8 || o.ty == .aq4) && tyHalf s && dstOk 32 o.d &&
      vqbOk 32 o.a && vqbOk 32 o.b && vqbOk 32 o.c && unused o.e

/-- VDQ (R159). -/
def dqOk (o : LaneOp) : Bool :=
  match srcTy o with
  | none => false
  | some s => commonOk o && o.mods.toNat < 32 && tyHalf o.ty && dstOk 32 o.d && vqbOk 32 o.a && vqbOk 32 o.b &&
      (if tyMx s then unused o.c else (s == .aq8 || s == .aq4) && vqbOk 32 o.c) && unused o.e

/-! The exact accumulator (R160). Hint and bypass are zero even where a queue is named (R160 over R95, log 85). -/

def exactCommon (o : LaneOp) : Bool := guardOk o.guard && o.hint == 0 && !o.bypass && noMods o && unused o.b && unused o.c && unused o.e

def xclrOk (o : LaneOp) : Bool := exactCommon o && noRnd o && o.ty == .i8 && o.d == .x && unused o.a
def xaddOk (o : LaneOp) : Bool := exactCommon o && noRnd o && tyFloat o.ty && o.d == .x && srcOk (tyBits o.ty) o.a
def xrndOk (o : LaneOp) : Bool := exactCommon o && tyFloat o.ty && o.a == .x && dstOk (tyBits o.ty) o.d

/-! Memory forms (R77, R78, R254). -/

/-- The address field: scale codes 0 to 4, and 0 without an index (R77). -/
def addrOk (o : MemOp) : Bool := o.scale.toNat < 5 && (o.index.isSome || o.scale == 0) && guardOk o.guard

/-- An access is plain when scope, order and .fe are all 0 (R254). -/
def plainMem (o : MemOp) : Bool := o.scope == .grp && o.order == .rlx && !o.fe

def noRndM (o : MemOp) : Bool := o.rnd == .rne

/-- A status vector of VLD.st: not D, nor either half of a 64-bit D (R259). -/
def stVecOk (w : Nat) (d e : Operand) : Bool :=
  match d, e with
  | .v rd, .v re => rd != re && (w != 64 || re.toNat != rd.toNat + 1)
  | _, _ => false

def vldOk (o : MemOp) : Bool :=
  let w := tyBits o.ty
  addrOk o && noRndM o && tyMem o.ty && vecOk w o.d &&
  (if o.fe then !o.bit6 else o.order == .rlx || o.order == .acq) &&
  (if o.bit6 then stVecOk w o.d o.e else unused o.e)

def vstOk (o : MemOp) : Bool :=
  addrOk o && noRndM o && tyMem o.ty && vecOk (tyBits o.ty) o.d && !o.bit6 &&
  (o.fe || o.order == .rlx || o.order == .rel) && unused o.e

def vprefOk (o : MemOp) : Bool :=
  addrOk o && noRndM o && tyMem o.ty && unused o.d && plainMem o && !o.bit6 && unused o.e

/-- Types of the lane atomics (R260). -/
def tyAtomic : ElemTy → Bool
  | .i32 | .i64 | .n32 | .n64 | .b32 | .b64 | .f32 | .f64 => true
  | _ => false

/-- The operation codes 0 to 6 (R261). -/
def rmwOfCode : Nat → Option RmwOp
  | 0 => some .add | 1 => some .min | 2 => some .max | 3 => some .and | 4 => some .or | 5 => some .xor
  | 6 => some .exch
  | _ => none

/-- Which types an operation accepts (R261). -/
def rmwTyOk (op : RmwOp) (t : ElemTy) : Bool :=
  match op with
  | .add | .min | .max => tyInt t || tyFloat t
  | .and | .or | .xor => tyInt t || tyBit t
  | .exch => true

/-- The E operand of VATOM and VRED: its operation and its .last mask. -/
def atomFields : Operand → Option (RmwOp × Nat)
  | .imm n => (rmwOfCode (n.toNat % 16)).map fun op => (op, n.toNat / 16)
  | _ => none

def vatomOk (o : MemOp) : Bool :=
  match atomFields o.e with
  | none => false
  | some (op, last) => addrOk o && tyAtomic o.ty && rmwTyOk op o.ty && vecOk (tyBits o.ty) o.d && !o.fe &&
      (noRndM o || (tyFloat o.ty && op == .add)) &&
      (if o.bit6 then op == .add && tyInt o.ty && last != 0 else last == 0)

def vcasOk (o : MemOp) : Bool :=
  let w := tyBits o.ty
  addrOk o && noRndM o && tyAtomic o.ty && !tyFloat o.ty && vecOk w o.d && !o.fe && !o.bit6 &&
  (opV o.e || opB o.e || opImm o.e) && pairOk w o.e

def vredOk (o : MemOp) : Bool :=
  match atomFields o.e with
  | none => false
  | some (op, last) => addrOk o && tyAtomic o.ty && rmwTyOk op o.ty && vecOk (tyBits o.ty) o.d && !o.fe && !o.bit6 &&
      (noRndM o || (tyFloat o.ty && op == .add)) && (o.order == .rlx || o.order == .rel) && last == 0

/-- XST and XLDA (R160, R163). -/
def ximgOk (o : MemOp) : Bool :=
  addrOk o && noRndM o && o.ty == .i8 && o.d == .x && plainMem o && !o.bit6 && o.hint == 0 && !o.bypass && unused o.e

/-! Accumulator forms (R322). -/

def rowOk : Operand → Bool
  | .imm n => n.toNat < 64
  | .b _ => true
  | _ => false

def tileOk (ty : ElemTy) : Operand → Bool
  | .a t => ty != .f64 || t.toNat % 2 == 0
  | _ => false

/-- Hint and bypass are 0 unless D is a queue (R322). -/
def accCommon (o : LaneOp) : Bool := guardOk o.guard && ((o.hint == 0 && !o.bypass) || opQ o.d)

def vbOk (o : Operand) : Bool := opV o || opB o

def acrdOk (o : LaneOp) : Bool :=
  accCommon o && (tyFloat o.ty || (o.ty == .i32 && o.mods == 0)) && dstOk (tyBits o.ty) o.d && tileOk o.ty o.a && rowOk o.b &&
  (if o.mods == 1 then vbOk o.c && vbOk o.e else o.mods == 0 && unused o.c && unused o.e)

def acwrOk (o : LaneOp) : Bool :=
  accCommon o && noMods o && (o.ty == .f32 || o.ty == .f16 || o.ty == .i32 || o.ty == .f64) && tileOk o.ty o.d &&
  srcOk (if o.ty == .f64 then 64 else 32) o.a && rowOk o.b && unused o.c && unused o.e

def acsclOk (o : LaneOp) : Bool :=
  accCommon o && o.ty == .f32 && opA o.d && opV o.a && unused o.c && unused o.e &&
  (if o.mods == 1 then opB o.b || opImm o.b else o.mods == 0 && unused o.b)

def acmaxOk (o : LaneOp) : Bool :=
  accCommon o && noRnd o && noMods o && o.ty == .f32 && dstOk 32 o.d && opA o.a && unused o.b && unused o.c && unused o.e

def acexpOk (o : LaneOp) : Bool :=
  accCommon o && noMods o && o.ty == .f32 && dstOk 32 o.d && opA o.a && (opB o.b || opImm o.b) && opV o.c && unused o.e

/-! Scalar forms. -/

/-- Status register numbers that SYSR reads (R22). -/
def sysReadable (n : Nat) : Bool := n < 0x16 || 0x20 ≤ n

/-- Status registers that SYSW writes: FLAGS, SEED, WGERR (R22). -/
def sysWritable (n : Nat) : Bool := n == 0x0E || n == 0x11 || n == 0x13

/-- A start condition names a register other than s0 (R293, R330). -/
def startOk : Option StartCond → Bool
  | none => true
  | some c => c.value != 0

/-- BXLD: f + n is at most 63 (R340). -/
def bxldOk (first chunks1 : BitVec 6) : Bool := first.toNat + chunks1.toNat ≤ 63

end Sys2Proof.Machine
end

