-- ==== Sys2Proof/Machine/Floats.lean ====
section
/-! DEFINITION. Number formats and arithmetic (03): the float formats, one rounding function for every mode, the basic
operations, conversions, E8M0, MX quantising. A finite value is (-1)^neg × mant × 2^exp with a natural mant. -/

namespace Sys2Proof.Machine

/-! Flags (R23): their bits in FLAGS. -/

def flInx : Nat := 1
def flUnf : Nat := 2
def flOvf : Nat := 4
def flDz : Nat := 8
def flIop : Nat := 16
def flMovf : Nat := 32
def flMsat : Nat := 64
def flIsat : Nat := 128
def flXovf : Nat := 256

/-! Formats (R38 to R40). -/

/-- What a format keeps besides numbers. -/
inductive Specials where
  /-- infinities and NaNs with an all-ones exponent -/
  | ieee
  /-- one NaN per sign, S.1111.111 (E4M3) -/
  | nanOnly
  | none
  deriving DecidableEq, Repr

/-- A float format: exponent and mantissa widths, bias, specials, whether R52 saturates it. -/
structure Fmt where
  e : Nat
  m : Nat
  bias : Nat
  specials : Specials
  narrow : Bool
  deriving DecidableEq, Repr

def fmtF64 : Fmt := ⟨11, 52, 1023, .ieee, false⟩
def fmtF32 : Fmt := ⟨8, 23, 127, .ieee, false⟩
def fmtF16 : Fmt := ⟨5, 10, 15, .ieee, false⟩
def fmtBf16 : Fmt := ⟨8, 7, 127, .ieee, false⟩
def fmtE4m3 : Fmt := ⟨4, 3, 7, .nanOnly, true⟩
def fmtE5m2 : Fmt := ⟨5, 2, 15, .ieee, true⟩
def fmtE3m2 : Fmt := ⟨3, 2, 3, .none, true⟩
def fmtE2m3 : Fmt := ⟨2, 3, 1, .none, true⟩
def fmtE2m1 : Fmt := ⟨2, 1, 1, .none, true⟩

/-- The format of a float type; any other type gives FP32's. -/
def fmtOf : ElemTy → Fmt
  | .f64 => fmtF64 | .f16 => fmtF16 | .bf16 => fmtBf16 | .e4m3 => fmtE4m3 | .e5m2 => fmtE5m2 | .e3m2 => fmtE3m2
  | .e2m3 => fmtE2m3 | .e2m1 => fmtE2m1 | _ => fmtF32

def Fmt.width (f : Fmt) : Nat := 1 + f.e + f.m

/-- The largest finite value: its mantissa with the hidden bit, and its quantum's exponent (R40). -/
def Fmt.maxMant (f : Fmt) : Nat := match f.specials with | .nanOnly => 2 ^ (f.m + 1) - 2 | _ => 2 ^ (f.m + 1) - 1
def Fmt.maxExp (f : Fmt) : Int :=
  ((match f.specials with | .ieee => 2 ^ f.e - 2 | _ => 2 ^ f.e - 1 : Nat) : Int) - f.bias - f.m

/-- The exponent of the smallest normal's quantum, which is every subnormal's. -/
def Fmt.minExp (f : Fmt) : Int := 1 - (f.bias : Int) - f.m

/-- A number of a format. -/
inductive FVal where
  | nan (signalling : Bool)
  | inf (neg : Bool)
  | fin (neg : Bool) (mant : Nat) (exp : Int)
  deriving DecidableEq, Repr

def FVal.isNan : FVal → Bool | .nan _ => true | _ => false
def FVal.isSnan : FVal → Bool | .nan s => s | _ => false
def FVal.isInf : FVal → Bool | .inf _ => true | _ => false
def FVal.isZero : FVal → Bool | .fin _ m _ => m == 0 | _ => false
def FVal.neg : FVal → Bool | .nan _ => false | .inf s => s | .fin s _ _ => s
def FVal.negate : FVal → FVal | .nan s => .nan s | .inf s => .inf (!s) | .fin s m e => .fin (!s) m e

/-- The value of an encoding (R39, R40). -/
def Fmt.decode (f : Fmt) (v : Nat) : FVal :=
  let neg := bit v (f.e + f.m)
  let ex := fld v f.m f.e
  let ma := fld v 0 f.m
  match f.specials with
  | .ieee =>
    if ex = 2 ^ f.e - 1 then (if ma = 0 then .inf neg else .nan (!bit ma (f.m - 1)))
    else if ex = 0 then .fin neg ma f.minExp
    else .fin neg (ma + 2 ^ f.m) ((ex : Int) - f.bias - f.m)
  | .nanOnly =>
    if ex = 2 ^ f.e - 1 && ma = 2 ^ f.m - 1 then .nan false
    else if ex = 0 then .fin neg ma f.minExp
    else .fin neg (ma + 2 ^ f.m) ((ex : Int) - f.bias - f.m)
  | .none =>
    if ex = 0 then .fin neg ma f.minExp else .fin neg (ma + 2 ^ f.m) ((ex : Int) - f.bias - f.m)

/-- The canonical NaN (R51); a format without one gives +0 (R52). -/
def Fmt.canonicalNan (f : Fmt) : Nat :=
  match f.specials with
  | .ieee => (2 ^ f.e - 1) * 2 ^ f.m + (if f.narrow then 2 ^ f.m - 1 else 2 ^ (f.m - 1))
  | .nanOnly => (2 ^ f.e - 1) * 2 ^ f.m + (2 ^ f.m - 1)
  | .none => 0

def Fmt.signBit (f : Fmt) (neg : Bool) : Nat := if neg then 2 ^ (f.e + f.m) else 0
def Fmt.infinity (f : Fmt) (neg : Bool) : Nat := f.signBit neg + (2 ^ f.e - 1) * 2 ^ f.m

/-- Encode mant × 2^exp, where exp is the quantum and mant is below 2^(m+1). -/
def Fmt.pack (f : Fmt) (neg : Bool) (mant : Nat) (exp : Int) : Nat :=
  if mant < 2 ^ f.m then f.signBit neg + mant
  else f.signBit neg + ((exp + f.bias + f.m).toNat) * 2 ^ f.m + (mant - 2 ^ f.m)

def Fmt.maxFinite (f : Fmt) (neg : Bool) : Nat := f.pack neg f.maxMant f.maxExp

/-! Rounding (R48 to R55). -/

/-- How an operation rounds: the resolved mode (DYN and R49 applied), the 32 random bits of SR, FTZ, and whether the
overflow rule is IEEE's for E5M2 (.inf, R52). -/
structure Mode where
  rnd : Rnd
  rand : Nat
  ftz : Bool
  inf : Bool
  deriving DecidableEq, Repr

def Mode.rne : Mode := ⟨.rne, 0, false, false⟩

/-- A positive real to be rounded: num × 2^exp, plus, with sticky, a positive amount below one unit of num. -/
structure Approx where
  num : Nat
  exp : Int
  sticky : Bool
  deriving DecidableEq, Repr

/-- floor(log2) of a positive value. -/
def Approx.log (r : Approx) : Int := (Nat.log2 r.num : Int) + r.exp

/-- Round to a multiple of 2^q (R48, R50): the multiple, and whether it differs from the value. -/
def roundAt (md : Mode) (neg : Bool) (r : Approx) (q : Int) : Nat × Bool :=
  if q ≤ r.exp then
    let up := r.sticky && (match md.rnd with | .rdn => neg | .rup => !neg | _ => false)
    (r.num * 2 ^ (r.exp - q).toNat + boolNat up, r.sticky)
  else
    let sh := (q - r.exp).toNat
    let m := r.num / 2 ^ sh
    let rem := r.num % 2 ^ sh
    let half := 2 ^ (sh - 1)
    let inexact := rem != 0 || r.sticky
    let up := match md.rnd with
      | .rne | .dyn => half < rem || (rem == half && (r.sticky || m % 2 == 1))
      | .rtz => false
      | .rdn => neg && inexact
      | .rup => !neg && inexact
      | .rna => half ≤ rem
      | .sr => md.rand < rem * 2 ^ 32 / 2 ^ sh
    (m + boolNat up, inexact)

/-- The bits and flags of an overflow under R52. -/
def Fmt.overflow (f : Fmt) (md : Mode) (neg : Bool) : Nat × Nat :=
  let toInf := !f.narrow || (md.inf && f.specials == .ieee)
  let r :=
    if !toInf then f.maxFinite neg
    else match md.rnd with
      | .rtz => f.maxFinite neg
      | .rdn => if neg then f.infinity neg else f.maxFinite neg
      | .rup => if neg then f.maxFinite neg else f.infinity neg
      | _ => f.infinity neg
  (r, flOvf + flInx)

/-- Deliver mant × 2^q after rounding, with mant at most 2^(m+1), q at least minExp. -/
def Fmt.deliver (f : Fmt) (md : Mode) (neg : Bool) (mant : Nat) (q : Int) (inexact tiny : Bool) : Nat × Nat :=
  let (mant, q) := if mant = 2 ^ (f.m + 1) then (2 ^ f.m, q + 1) else (mant, q)
  let big := f.maxExp < q || (q == f.maxExp && f.maxMant < mant)
  if mant != 0 && big then f.overflow md neg
  else if md.ftz && !f.narrow && mant != 0 && mant < 2 ^ f.m then (f.signBit neg, flUnf + flInx)
  else (f.pack neg mant q, (if inexact then flInx else 0) + (if tiny && inexact then flUnf else 0))

/-- One rounding of a positive value into a format (R48, R52, R54, R55): the bits and the flags. Tininess is judged after
rounding with an unbounded exponent (log 18). -/
def Fmt.round (f : Fmt) (md : Mode) (neg : Bool) (r : Approx) : Nat × Nat :=
  if r.num = 0 && !r.sticky then (f.signBit neg, 0)
  else
    let e := r.log
    let q0 := e - f.m
    let q := max q0 f.minExp
    let (mant, inexact) := roundAt md neg r q
    let tiny := q0 < f.minExp && (let (u, _) := roundAt md neg r q0
      u < 2 ^ (f.m + 1) || q0 + 1 < f.minExp)
    f.deliver md neg mant q inexact tiny

/-- Round an exact integer multiple of a power of two; zero takes the given sign. -/
def Fmt.roundInt (f : Fmt) (md : Mode) (v : Int) (exp : Int) (zeroNeg : Bool) : Nat × Nat :=
  if v = 0 then (f.signBit zeroNeg, 0) else f.round md (v < 0) ⟨v.natAbs, exp, false⟩

/-- Deliver a number that is already of the format, or exact in it. -/
def Fmt.ofVal (f : Fmt) (md : Mode) : FVal → Nat × Nat
  | .nan s => (f.canonicalNan, (if s || f.specials == .none then flIop else 0))
  | .inf neg => if f.narrow && !(md.inf && f.specials == .ieee) then (f.maxFinite neg, flOvf + flInx) else (f.infinity neg, 0)
  | .fin neg m e => f.round md neg ⟨m, e, false⟩

/-- Inputs under FTZ: a subnormal becomes the zero of its sign (R54). -/
def Fmt.input (f : Fmt) (ftz : Bool) (v : Nat) : FVal :=
  match f.decode v with
  | .fin neg m e => if ftz && !f.narrow && m < 2 ^ f.m && m != 0 then .fin neg 0 e else .fin neg m e
  | x => x

def snanFlag (xs : List FVal) : Nat := if xs.any FVal.isSnan then flIop else 0

def orFlags (a b : Nat) : Nat := a ||| b

/-! The basic operations (R51, R147). -/

/-- A finite value as an integer at a common exponent. -/
def atExp (neg : Bool) (m : Nat) (e q : Int) : Int :=
  let v : Int := (m * 2 ^ (e - q).toNat : Nat)
  if neg then -v else v

/-- Under IEEE 754 an exact zero sum is +0, or -0 under RDN; equal signs keep theirs. -/
def zeroSumNeg (md : Mode) (a b : Bool) : Bool := if a == b then a else md.rnd == .rdn

/-- a + b with one rounding. -/
def Fmt.add (f : Fmt) (md : Mode) (a b : FVal) : Nat × Nat :=
  let s := snanFlag [a, b]
  match a, b with
  | .nan _, _ | _, .nan _ => (f.canonicalNan, s)
  | .inf x, .inf y => if x == y then (f.infinity x, 0) else (f.canonicalNan, flIop)
  | .inf x, _ => (f.infinity x, 0)
  | _, .inf y => (f.infinity y, 0)
  | .fin x m e, .fin y n g =>
    let q := min e g
    f.roundInt md (atExp x m e q + atExp y n g q) q (zeroSumNeg md x y)

/-- a × b with one rounding. -/
def Fmt.mul (f : Fmt) (md : Mode) (a b : FVal) : Nat × Nat :=
  let s := snanFlag [a, b]
  let neg := a.neg != b.neg
  match a, b with
  | .nan _, _ | _, .nan _ => (f.canonicalNan, s)
  | .inf _, .fin _ m _ => if m = 0 then (f.canonicalNan, flIop) else (f.infinity neg, 0)
  | .fin _ m _, .inf _ => if m = 0 then (f.canonicalNan, flIop) else (f.infinity neg, 0)
  | .inf _, .inf _ => (f.infinity neg, 0)
  | .fin _ m e, .fin _ n g => f.round md neg ⟨m * n, e + g, false⟩

/-- a × b + c with one rounding; 0 × ∞ sets IOP whatever c is (R55, log 29). -/
def Fmt.fma (f : Fmt) (md : Mode) (a b c : FVal) : Nat × Nat :=
  let s := snanFlag [a, b, c]
  let neg := a.neg != b.neg
  let invalid := (a.isInf && b.isZero) || (a.isZero && b.isInf)
  if invalid then (f.canonicalNan, flIop)
  else if a.isNan || b.isNan || c.isNan then (f.canonicalNan, s)
  else if a.isInf || b.isInf then
    match c with
    | .inf y => if y == neg then (f.infinity neg, 0) else (f.canonicalNan, flIop)
    | _ => (f.infinity neg, 0)
  else
    match a, b, c with
    | .fin _ m e, .fin _ n g, .fin y k h =>
      let q := min (e + g) h
      f.roundInt md (atExp neg (m * n) (e + g) q + atExp y k h q) q (zeroSumNeg md neg y)
    | _, _, .inf y => (f.infinity y, 0)
    | _, _, _ => (f.canonicalNan, s)

/-- Extra bits kept by a division or a root. -/
def extraBits : Nat := 160

/-- The quotient of two positive naturals with extra bits and a sticky bit. -/
def quotient (m : Nat) (e : Int) (n : Nat) (g : Int) : Approx :=
  let sh := extraBits + Nat.log2 n
  let v := m * 2 ^ sh
  ⟨v / n, e - g - sh, v % n != 0⟩

/-- a / b with one rounding (R148). -/
def Fmt.div (f : Fmt) (md : Mode) (a b : FVal) : Nat × Nat :=
  let s := snanFlag [a, b]
  let neg := a.neg != b.neg
  match a, b with
  | .nan _, _ | _, .nan _ => (f.canonicalNan, s)
  | .inf _, .inf _ => (f.canonicalNan, flIop)
  | .inf _, _ => (f.infinity neg, 0)
  | _, .inf _ => (f.signBit neg, 0)
  | .fin _ m e, .fin _ n g =>
    if n = 0 then (if m = 0 then (f.canonicalNan, flIop) else (f.infinity neg, flDz))
    else if m = 0 then (f.signBit neg, 0)
    else f.round md neg (quotient m e n g)

/-- The integer square root, by bits from the top. -/
def isqrtBits (n : Nat) : Nat → Nat → Nat
  | 0, r => r
  | k + 1, r => let t := r + 2 ^ k; if t * t ≤ n then isqrtBits n k t else isqrtBits n k r

def isqrt (n : Nat) : Nat := isqrtBits n (Nat.log2 n / 2 + 1) 0

/-- √(m × 2^e) with extra bits and a sticky bit. -/
def root (m : Nat) (e : Int) : Approx :=
  let sh := 2 * extraBits + (if (e % 2 == 0 : Bool) then 0 else 1)
  let v := m * 2 ^ sh
  let r := isqrt v
  ⟨r, (e - sh) / 2, r * r != v⟩

/-- √a (R148). -/
def Fmt.sqrt (f : Fmt) (md : Mode) (a : FVal) : Nat × Nat :=
  match a with
  | .nan s => (f.canonicalNan, if s then flIop else 0)
  | .inf neg => if neg then (f.canonicalNan, flIop) else (f.infinity false, 0)
  | .fin neg m e =>
    if m = 0 then (f.signBit neg, 0)
    else if neg then (f.canonicalNan, flIop)
    else f.round md false (root m e)

/-- 1 / a (R148). -/
def Fmt.rcp (f : Fmt) (md : Mode) (a : FVal) : Nat × Nat := f.div md (.fin false 1 0) a

/-- 1 / √a with one rounding (R148): √(2^k / m) kept exactly enough. -/
def Fmt.rsqrt (f : Fmt) (md : Mode) (a : FVal) : Nat × Nat :=
  match a with
  | .nan s => (f.canonicalNan, if s then flIop else 0)
  | .inf neg => if neg then (f.canonicalNan, flIop) else (f.signBit false, 0)
  | .fin neg m e =>
    if m = 0 then (f.infinity neg, flDz)
    else if neg then (f.canonicalNan, flIop)
    else
      let sh := 4 * extraBits + 2 * Nat.log2 m + (if (e % 2 == 0 : Bool) then 0 else 1)
      let v := 2 ^ sh / m
      let r := isqrt v
      -- exact only when v × m = 2^sh and r² = v
      f.round md false ⟨r, (-e - sh) / 2, r * r * m != 2 ^ sh⟩

/-- Order of two numbers that are not NaN: less, equal, greater as -1, 0, 1. -/
def FVal.compare (a b : FVal) : Int :=
  match a, b with
  | .inf x, .inf y => if x == y then 0 else if x then -1 else 1
  | .inf x, _ => if x then -1 else 1
  | _, .inf y => if y then 1 else -1
  | .fin x m e, .fin y n g =>
    let q := min e g
    let u := atExp x m e q
    let v := atExp y n g q
    if u < v then -1 else if u == v then 0 else 1
  | _, _ => 0

/-- MinNum, or MaxNum with max set (R149), on encodings after the FTZ treatment. -/
def Fmt.minNum (f : Fmt) (max ftz : Bool) (a b : Nat) : Nat × Nat :=
  let x := f.input ftz a
  let y := f.input ftz b
  let keep (v : FVal) (raw : Nat) : Nat := match v with
    | .fin neg 0 _ => f.signBit neg
    | _ => raw % 2 ^ f.width
  let fl := snanFlag [x, y]
  if x.isNan && y.isNan then (f.canonicalNan, fl)
  else if x.isNan then (keep y b, fl)
  else if y.isNan then (keep x a, fl)
  else if x.isZero && y.isZero && x.neg != y.neg then (f.signBit (!max), fl)
  else
    let c := x.compare y
    if (if max then decide (0 ≤ c) else decide (c ≤ 0)) then (keep x a, fl) else (keep y b, fl)

/-! Conversions (R43, R52 to R55, R154). -/

/-- A value rounded to an integer. -/
def FVal.toInteger (md : Mode) (neg : Bool) (r : Approx) : Int × Bool :=
  let (m, inexact) := roundAt md neg r 0
  (if neg then -(m : Int) else m, inexact)

def tyMin (t : ElemTy) : Int := if tySigned t then -(2 ^ (tyBits t - 1) : Int) else 0
def tyMax (t : ElemTy) : Int := if tySigned t then 2 ^ (tyBits t - 1) - 1 else 2 ^ tyBits t - 1

def clampInt (lo hi v : Int) : Int := if v < lo then lo else if hi < v then hi else v

/-- Float to integer (R53). -/
def floatToInt (t : ElemTy) (md : Mode) (a : FVal) : Nat × Nat :=
  match a with
  | .nan _ => (0, flIop)
  | .inf neg => (wrap (tyBits t) (if neg then tyMin t else tyMax t), flIop)
  | .fin neg m e =>
    let (v, inexact) := FVal.toInteger md neg ⟨m, e, false⟩
    if v < tyMin t || tyMax t < v then (wrap (tyBits t) (clampInt (tyMin t) (tyMax t) v), flIop)
    else (wrap (tyBits t) v, if inexact then flInx else 0)

/-- The E8M0 value of a code (R43). -/
def e8m0Val (v : Nat) : FVal := if v % 256 = 255 then .nan false else .fin false 1 ((v % 256 : Nat) - 127)

/-- Conversion into E8M0 (R43). -/
def toE8m0 (md : Mode) (a : FVal) : Nat × Nat :=
  match a with
  | .nan _ => (0xFF, flIop)
  | .inf neg => if neg then (0xFF, flIop) else (0xFE, flOvf + flInx)
  | .fin neg m e =>
    if m = 0 then (0x00, flUnf + flInx)
    else if neg then (0xFF, flIop)
    else
      let l := (Nat.log2 m : Int) + e
      let base := 2 ^ Nat.log2 m
      let inexact := m != base
      let up := match md.rnd with
        | .rne | .dyn => 3 * base < 2 * m || (2 * m == 3 * base && decide ((l + 127) % 2 ≠ 0))
        | .rtz | .rdn => false
        | .rup => inexact
        | .rna => 3 * base ≤ 2 * m
        | .sr => md.rand < (m - base) * 2 ^ 32 / base
      let c := if inexact && up then l + 1 else l
      if 127 < c then (0xFE, flOvf + flInx)
      else if c < -127 then (0x00, flUnf + flInx)
      else ((c + 127).toNat, if inexact then flInx else 0)

/-- A narrow, scale or float source as a value; FTZ on the wide types only. -/
def sourceVal (t : ElemTy) (ftz : Bool) (v : Nat) : FVal :=
  if t == .e8m0 then e8m0Val v else (fmtOf t).input ftz (v % 2 ^ tyBits t)

/-- An integer source. -/
def intVal (t : ElemTy) (v : Nat) : Int := if tySigned t then signed (tyBits t) v else (v % 2 ^ tyBits t : Nat)

/-- Whether FTZ reaches a conversion: neither type is narrow, scale or AQ (R153). -/
def ftzReaches (t : ElemTy) : Bool := tyFloat t || tyInt t || tyBit t

/-- Convert one element (R154). -/
def convert (src dst : ElemTy) (md : Mode) (v : Nat) : Nat × Nat :=
  let md := { md with ftz := md.ftz && ftzReaches src && ftzReaches dst }
  if tyInt src then
    if tyInt dst then (wrap (tyBits dst) (clampInt (tyMin dst) (tyMax dst) (intVal src v)), 0)
    else (fmtOf dst).roundInt md (intVal src v) 0 false
  else
    let a := sourceVal src md.ftz v
    let s := snanFlag [a]
    if tyInt dst then floatToInt dst md a
    else
      let (r, fl) := if dst == .e8m0 then toE8m0 md a else (fmtOf dst).ofVal md a
      (r, orFlags fl s)

/-- QuantiseMX (R46): the scale and the codes; each element with its own flags. rand gives the random bits of a lane. -/
def quantiseMx (dst : ElemTy) (md : Mode) (rand : Nat → Nat) (vs : List FVal) : Nat × List (Nat × Nat) :=
  let f := fmtOf dst
  if vs.any (fun v => v.isNan || v.isInf) then (0xFF, vs.map fun _ => (0, flIop))
  else
    let logs := vs.filterMap fun v => match v with
      | .fin _ m e => if m = 0 then none else some ((Nat.log2 m : Int) + e)
      | _ => none
    match logs with
    | [] => (0x00, vs.map fun _ => (0, 0))
    | l :: ls =>
      let a := ls.foldl max l
      let emax := f.maxExp + f.m
      let x := clampInt (-127) 127 (a - emax)
      ((x + 127).toNat, vs.zipIdx.map fun p => match p.1 with
        | .fin neg m e => f.ofVal { md with rand := rand p.2, ftz := false } (.fin neg m (e - x))
        | _ => (0, flIop))

/-! Stochastic rounding's random bits (R50). -/

def mix64 (z : Nat) : Nat :=
  let z := (z + 0x9E3779B97F4A7C15) % 2 ^ 64
  let z := (z ^^^ (z / 2 ^ 30)) * 0xBF58476D1CE4E5B9 % 2 ^ 64
  let z := (z ^^^ (z / 2 ^ 27)) * 0x94D049BB133111EB % 2 ^ 64
  z ^^^ (z / 2 ^ 31)

/-- Bits [63:32] of Mix64(SEED XOR (lane << 40) XOR idx). -/
def srBits (seed lane idx : Nat) : Nat := mix64 (seed ^^^ (lane * 2 ^ 40) ^^^ idx) / 2 ^ 32

end Sys2Proof.Machine
end

