-- ==== Sys2Proof/Config.lean ====
section
/-! DEFINITION. What the RN-480 fixes (implementation constants of the architecture, R1) and the free values:
constants without a body, so that no proof can depend on what they are (log 3). -/

namespace Sys2Proof.Config

/-- The group width W and its logarithm (R1, R22). -/
def lanes : Nat := 64
def logLanes : Nat := 6

/-- Cores of a reach, reaches, cores of the package (R8, R9). -/
def coresPerReach : Nat := 48
def reaches : Nat := 4
def cores : Nat := 192

/-- Group slots, quarters, vector registers and vault bytes of a core (R10, R184). -/
def slotsPerCore : Nat := 32
def quartersPerCore : Nat := 4
def vregsPerCore : Nat := 8192
def vaultPerCore : Nat := 16 * 2 ^ 20

/-- An L1: sets, ways, protected ways of a set (R215, R217); an instruction cache's 32-byte sectors (R10). -/
def l1Sets : Nat := 1024
def l1Ways : Nat := 12
def l1Kept : Nat := 3
def scalarCodeSectors : Nat := 64 * 2 ^ 10 / 32
def laneCodeSectors : Nat := 256 * 2 ^ 10 / 32

/-- An L2: slices, sets of a 1 MiB slice, ways, protected ways of a set (R216, R217). -/
def l2Slices : Nat := 96
def l2Ways : Nat := 16
def l2Sets : Nat := 2 ^ 20 / (16 * 128)
def l2Kept : Nat := 8

/-- Translations of an L1 and of an L2 TLB (R370). -/
def l1Translations : Nat := 512
def l2Translations : Nat := 32768

/-- Entries of a lane queue (R28) and of a split table (R168); instructions of a fusion hold (R170). -/
def laneQueueRoom : Nat := 64
def splitEntries : Nat := 4
def fusionHold : Nat := 64

/-- Engine commands in flight on a core (R281); slots and tiles of a core (R10); latch sequences of a gang (R317). -/
def commandsPerCore : Nat := 1024
def operandSlots : Nat := 32
def accTiles : Nat := 32
def gangSequences : Nat := 16

/-- Items of a tributary queue (R199); accepted launches not yet DONE (R181). -/
def tributarySlots : Nat := 65536
def launchLimit : Nat := 65536

/-- Pseudo-channels of the package: 8 stacks of 64 (R8, R11); words of an instruction store (R324). -/
def pseudoChannels : Nat := 512
def storeWords : Nat := 256

/-- Segments of a result buffer (R324). -/
def resultSegments : Nat := 8

/-- The full arithmetic clock and the bank-unit clock in MHz (R11, R13), and the fabric ports F0 to F17 (R8). -/
def fullMhz : Nat := 1200
def bankMhz : Nat := 250
def fabricPorts : Nat := 18

/-- Period of the scheduler in ns (R188); boundaries before a BUDGET record (R400). -/
def periodNs : Nat := 100000
def budgetBoundaries : Nat := 10

/-- Owner result cache and stream table entries, and outstanding serials of a stream (R416, R417). -/
def orcEntries : Nat := 1048576
def streamEntries : Nat := 65536
def serialWindow : Nat := 4096

/-- Free values (log 3): nothing constrains them. Each is applied to the state's counter of drawn values. -/
opaque freeNat : Nat → Nat
opaque freeBool : Nat → Bool
opaque freeByte : Nat → Byte

/-- The 512 signature bytes of an attestation report, by the bytes they sign (R442, log 20):
the private key never leaves the device (R441). -/
opaque signature : List Byte → Nat → Byte

/-- Which set of its L2 slice a line takes: the spec gives the slice only (R216, log 11). -/
opaque l2Index : Nat → Nat

/-- Which HBM addresses the device keeps for itself: save areas, the result cache, overflow areas and lane-private backing
(R430). The spec does not place them (log 44). -/
opaque deviceReserved : Nat → Bool

end Sys2Proof.Config
end

