-- ==== Sys2Proof/Machine/Types.lean ====
section
/-! DEFINITION. The parts of the machine's state as plain data: groups and their splits, workgroups, cores, reaches,
pseudo-channels, contexts, launches, the fabric and the host interface. Each field's docstring names the rule of spec/
that gives it; a field the model needs and the spec does not name is marked "model". -/

namespace Sys2Proof.Machine

/-- A memory: address and byte pairs, addresses strictly rising, no listed byte equal to what an unlisted address reads
as (00, log 5). -/
abbrev Memory := List Host.Cell

/-- Who is executing: workgroup, group, split-table entry; or, for a bank micro-operation, the pseudo-channel (model). -/
structure Cur where
  wg : WgIx
  g : GroupIx
  split : SplitIx
  pc : PcIx
  deriving DecidableEq, Repr

/-! Where bytes lie (R206 to R217). -/

/-- The home of one byte. -/
inductive Place where
  | hbm (pa : Nat)
  /-- a REPL page's byte, by its address at the sequencer reach (R368, R404) -/
  | repl (pa : Nat)
  | cc (key : Nat)
  | host (port hpa : Nat)
  | peer (dev pa : Nat)
  | vault (wg : WgIx) (offset : Nat)
  | priv (wg : WgIx) (g : GroupIx) (key : Nat)
  /-- a null GATHER element or a non-resident KVMAP element: reads zero, writes nothing (R224, R227) -/
  | null
  deriving DecidableEq, Repr

/-- One byte of an access: a whole byte of base memory, or the two nibbles of a 4-bit view, each the low or the high
nibble of a base byte (R222). -/
inductive ByteRef where
  | whole (p : Place)
  | nibs (lo : Place) (loHigh : Bool) (hi : Place) (hiHigh : Bool)
  deriving DecidableEq, Repr

/-! What an access comes to. -/

/-- The trap classes (R354). -/
inductive TrapClass where
  | illegal | alignPc | alignData | address | page | protection | cow | poison | queue | gang | slot | budget
  | watchdog | trap | brk | view | remote
  deriving DecidableEq, Repr

/-- A condition an access meets (R355), with the address that goes into the record and whether a translation entry was
malformed (the M bit, R362). -/
structure Cond where
  cls : TrapClass
  addr : Nat
  malformed : Bool
  deriving DecidableEq, Repr

/-- A tier miss met by a fetch (R437). -/
structure Miss where
  view : Nat
  entry : Nat
  gen : Nat
  autoFetch : Bool
  entryVa : Nat
  size : Nat
  deriving DecidableEq, Repr

/-- What an access resolves to: its bytes, the base addresses behind them (for TIER counts, R436), the KVMAP status and
gen of its element (R228), the device of a FAR view, and the identifier's place of a KVMAP position (R226, R312). -/
structure Resolved where
  refs : List ByteRef
  bases : List Nat
  kv : Nat × Nat
  far : Option Nat
  seg : Option (Place × Place)
  pos : Nat
  /-- each of its bytes in a coupled MX block of a view: view, block and the block's bytes (R250) -/
  mx : List (Nat × Nat × Nat)
  /-- the views it went through, each with its map entry plus one, or 0 (R273, R274) -/
  via : List (Nat × Nat)
  deriving DecidableEq, Repr

/-! Regions (R173 to R176). -/

/-- The budgets of a region (R173). Limits in the RCB's units. -/
structure Limits where
  priority : Nat
  cores : Option Nat
  vault : Option Nat
  issue : Option Nat
  hbm : Option Nat
  bank : Option Nat
  fabric : Option Nat
  mask : BitVec 192
  deriving DecidableEq, Repr

/-- A region as the device last read its RCB (R173 to R176), and its consumption in the period (R188, R399). -/
structure Region where
  rcb : Nat
  parent : Nat
  ctx : BitVec 20
  nfd : Bool
  trapQueue : Nat
  inheritPriority : Bool
  inheritMask : Bool
  own : Limits
  issueUsed : Nat
  hbmUsed : Nat
  bankUsed : Nat
  fabricUsed : Nat
  /-- consecutive period boundaries at which an activity was held: hbm, bank, fabric (R400) -/
  heldHbm : Nat
  heldBank : Nat
  heldFabric : Nat
  /-- activities held since the last boundary: 1 hbm, 3 fabric (R400) -/
  throttledNow : List Nat
  deriving DecidableEq, Repr

/-! Groups (R19, R166, R168). -/

/-- The exact accumulator (R56): 2,176 bits and four status bits. -/
structure XAcc where
  n : BitVec 2176
  nan : Bool
  pinf : Bool
  ninf : Bool
  ovf : Bool
  deriving DecidableEq, Repr

/-- An idempotent region of a split (R122, R387): its entry, the mask recorded at the IRB, the restart count and the
number of the IRB execution (model's name for "one IRB execution", R388). -/
structure RegionState where
  entry : Word
  mask : LaneMask
  restarts : Nat
  irb : Nat
  deriving DecidableEq, Repr

/-- A lane-queue entry's work (R28, R376). -/
inductive LaneItem where
  | word (w : Nat) (index : BitVec 20)
  | setb (b : BReg) (value : Word)
  | mset (m : MReg) (value : LaneMask)
  /-- an OPEN with its stream record, and its counter and number when it is a command (R286) -/
  | openQ (q : QReg) (record : List Byte) (cmd : Option (Nat × Nat))
  | closeQ (q : QReg)
  deriving DecidableEq, Repr

/-- A lane-queue entry: its work, its tag, the PC of the enqueuing instruction, the region instance open at enqueue
(R28, R389) and an order number (model). -/
structure LaneEntry where
  item : LaneItem
  tag : LaneMask
  pc : Word
  irb : Option Nat
  stamp : Nat
  deriving DecidableEq, Repr

/-- What a WAITING split waits for (R168). -/
inductive Wait where
  /-- a stall of R33, R281 or R181: the instruction executes in full when the split is READY again (R100) -/
  | retry
  /-- lane-queue room for the held entries, enqueued all together (R28, R115) -/
  | room (entries : List LaneEntry)
  /-- WAIT on a token of an own barrier (R194) -/
  | barrier (bar : Nat) (token : BitVec 32) (cl : Bool)
  /-- SYNC after its arrival, with the register that receives the token (R194, R197) -/
  | sync (bar : Nat) (token : BitVec 32) (cl : Bool) (sb : SReg)
  | counter (k : Nat) (value : Nat) (scope : Scope)
  /-- WAITC.fe on a granule of a workgroup's vault (R270) -/
  | granule (wg : WgIx) (granule : Nat) (scope : Scope)
  | tqpull (va : Nat) (sb sc : SReg)
  /-- OCLAIM, with the number in which it began to wait (R307) -/
  | oclaim (count : Nat) (sa : SReg) (since : Nat)
  /-- a scalar access, atomic or record read that awaits a response from a peer (R375, R424) -/
  | remote (op : Nat)
  /-- BKFENCE until its command completes (R346) -/
  | bkfence (counter num : Nat)
  deriving DecidableEq, Repr

/-- The state of a live split-table entry (R168). held counts the scalar instructions the group's other splits have
still to issue before the hold ends (R170). -/
inductive SplitStatus where
  | ready
  | waiting (w : Wait)
  | held (left : Nat)
  | parked
  deriving DecidableEq, Repr

/-- A split-table entry (R168): PC, active mask, s48 to s63, region state, status; and its last issue (R186).
syncToken is the token a SYNC cancelled after its arrival already holds (R197). -/
structure Split where
  pc : Word
  mask : LaneMask
  regs : Vector Word 16
  region : Option RegionState
  status : SplitStatus
  lastIssue : Nat
  syncToken : Option (BitVec 32)
  /-- the instruction at pc has issued and stalled, and is charged no second time (R100, R188) -/
  stalled : Bool
  /-- its last instruction was a YIELD: the other READY splits of the quarter issue first (R120) -/
  yielded : Bool
  /-- the accesses of the instruction that still await a peer, as they were resolved when it issued, by address (R219, R375) -/
  looks : List (Nat × Resolved)
  /-- the launch record that a LNCH on a full launch queue has read, and the regions of its path (R181) -/
  lnch : Option (List Byte × List Region)
  deriving DecidableEq, Repr

/-- An overflow record (R171). -/
structure Overflow where
  pc : Word
  mask : LaneMask
  regs : Vector Word 16
  region : Option RegionState
  deriving DecidableEq, Repr

/-- An open operand-queue stream (R285, R287): record, position and command. -/
structure Stream where
  record : List Byte
  p : Nat
  cmd : Option (Nat × Nat)
  /-- the view descriptor that a counted stream names, read as it opens (R272) -/
  images : List (Nat × List Byte)
  /-- model: the order number of its OPEN entry, which names it -/
  id : Nat
  /-- the elements a read stream has read and not delivered: number and bytes (R288, R289) -/
  ahead : List (Nat × List Byte)
  deriving DecidableEq, Repr

/-- An element that a write stream has produced and not yet written: the stream and its command, the views it went through,
its hint, where it goes and its bytes (R288, R290, R291). -/
structure Behind where
  stream : Nat
  hint : Nat
  cmd : Option (Nat × Nat)
  via : List (Nat × Nat)
  mx : List (Nat × Nat × Nat)
  refs : List ByteRef
  bytes : List Byte
  deriving DecidableEq, Repr

/-- A poisoned register of a group (R385, R386). -/
inductive PoisonReg where
  | v (reg lane : Nat)
  | s (reg : Nat)
  | m (reg : Nat)
  | b (reg : Nat)
  | x
  deriving DecidableEq, Repr

/-- The lane stream at the queue head (R357, R366, R376): stopped by a trap, lanes performed, lanes that met a
condition, flags gathered by the lanes that performed, whether it waits, and whether its issue has been charged. -/
structure Head where
  stopped : Bool
  performed : LaneMask
  fault : LaneMask
  flags : Word
  waiting : Bool
  issued : Bool
  /-- what the lanes' accesses resolved to, once one of them awaits a peer (R219, R375) -/
  looks : Option (List (Nat × (Resolved ⊕ Cond)))
  /-- the MMAs that an accumulator instruction waits for, by first arrival, once it has reached execution (R320) -/
  awaits : Option (List Nat)
  deriving DecidableEq, Repr

/-- The head when its instruction has not issued. -/
def Head.empty : Head := { stopped := false, performed := 0, fault := 0, flags := 0, waiting := false, issued := false, looks := none, awaits := none }

/-- A group (R19, R166). -/
structure Group where
  /-- s0 to s47; s0 is never read from here (R19) -/
  s : Vector Word 48
  m : Vector LaneMask 16
  b : Vector Word 16
  /-- v0 to v255; only the first nregs are allocated (R20, R177) -/
  v : Vector (Vector Elem 64) 256
  nregs : Nat
  x : XAcc
  q : Vector (Option Stream) 8
  /-- elements of write streams still to be written, oldest first -/
  behind : List Behind
  laneQ : List LaneEntry
  head : Head
  splits : Vector (Option Split) 4
  overflow : List Overflow
  flags : Word
  seed : Word
  gang : Word
  gangCount : Nat
  /-- group slot of the core while resident (R184) -/
  slot : Nat
  lastScalar : Nat
  lastLane : Nat
  /-- Pv and the backing block of lane-private memory, keyed as R208 interleaves it -/
  pv : Nat
  priv : Memory
  poison : List PoisonReg
  retired : Bool
  /-- the group has made an acquire at .cl or wider or a FENCE .ar, so that its reads see their homes (R246, R247, log 11) -/
  acquired : Bool
  /-- the lane-entry run of the launch record still to be enqueued (R359) -/
  entryRun : Bool
  deriving DecidableEq, Repr

/-! Workgroups (R166, R182). -/

/-- A barrier word (R190). -/
structure Barrier where
  phase : BitVec 32
  expected : Nat
  arrived : Nat
  /-- an engine has arrived on the word (R196) -/
  engine : Bool
  deriving DecidableEq, Repr

def Barrier.zero : Barrier := ⟨0, 0, 0, false⟩

/-- A timeline counter (R277). done lists completed commands above the completed value. -/
structure Counter where
  issued : Nat
  completed : Nat
  done : List Nat
  deriving DecidableEq, Repr

/-- One slice of a collective copy (R294 to R296): its group, opcode, start condition, record and completion record
address, none with s0 (R293), the kinds of check that it failed, and its conv shape record once the copy has started. -/
structure Slice where
  group : Nat
  reduce : Bool
  start : Option (Nat × Nat)
  record : List Byte
  completion : Option Nat
  rejected : Bool
  outside : Bool
  conv : List Byte
  /-- the view descriptors it names, once the copy has started (R272) -/
  images : List (Nat × List Byte)
  deriving DecidableEq, Repr

/-- What still uses an old view descriptor or map entry (R273, R274): commands, operand loads, streams by group and order
number, accesses that await a peer by group and split (none: the lane stream), and remote operations. -/
structure Holders where
  cmds : List CmdRef
  loads : List Nat
  streams : List (WgIx × GroupIx × Nat)
  looks : List (WgIx × GroupIx × Option SplitIx)
  ops : List Nat
  deriving DecidableEq, Repr

/-- An engine command that has not completed (R278). -/
inductive CmdKind where
  /-- a collective: its slices, whether it runs, and how many chunks are finished (R295, R373) -/
  | copy (slices : List Slice) (running : Bool) (chunk : Nat)
  | stream (group : Nat) (closed : Bool)
  /-- VIEWI: completion record, status and fault code, the view, and who read its old image (R273) -/
  | viewi (completion : Option Nat) (status fault view : Nat) (old : Holders)
  /-- RMINV: completion record, status and fault code, the view and entry, and who read the old entry (R274) -/
  | rminv (completion : Option Nat) (status fault view entry : Nat) (old : Holders)
  /-- a bank command; its members and records are in the bank command table (R333) -/
  | bank (id : Nat)
  deriving DecidableEq, Repr

structure Cmd where
  counter : Nat
  num : Nat
  kind : CmdKind
  /-- start condition: counter and value (R280) -/
  start : Option (Nat × Nat)
  scope : Scope
  trap : Bool
  /-- core that counts it (R281) -/
  core : Nat
  /-- it has performed and ends with this status and fault code, once its records on peer pages are answered (R279) -/
  ending : Option (Nat × Nat)
  deriving DecidableEq, Repr

/-- A trap that a completed command with its TRAP flag set still has to raise (R284). -/
structure CmdTrap where
  counter : Nat
  num : Nat
  status : Nat
  faultCode : Nat
  deriving DecidableEq, Repr

/-- An accumulator tile's tag (R318). -/
inductive AccFmt where
  | fp32 | fp16 | int32 | fp64
  deriving DecidableEq, Repr

/-- A bound accumulator tile (R318, R321): 64 by 64 words of 32 bits. -/
structure Tile where
  elems : Vector (Vector Elem 64) 64
  tag : AccFmt
  phase : BitVec 32
  corrected : Bool
  /-- error class: a trap code of R354, or none -/
  error : Option Nat
  deriving DecidableEq, Repr

/-- A sequence of a gang in the confluence latch (R317, R319): the latched fields, the arrivals, and, once confluent,
the fills it is bound to. -/
structure Seq where
  gang : Word
  seq : Nat
  tile : Nat
  oA : Nat
  oB : Nat
  accumulate : Bool
  seg : Bool
  causal : Bool
  fmt : List Byte
  sideA : List Byte
  sideB : List Byte
  arrived : List Nat
  /-- per member: the stamp at which its MMA was issued, which orders its accumulator instructions (R320) -/
  arrivals : List (Nat × Nat)
  firstStamp : Nat
  confluent : Option Nat
  dataA : Nat
  dataB : Nat
  segA : Nat
  segB : Nat
  deriving DecidableEq, Repr

/-- A pre-empted workgroup's saved claim of an operand slot (R376, R378). -/
structure SlotData where
  data : Vector (Vector Byte 128) 64
  side : Vector (Vector Byte 8) 64
  segId : Vector (BitVec 16) 64
  segPos : Vector (BitVec 32) 64
  valid : LaneMask
  dataFull : Bool
  segFull : Bool
  /-- poison of the last data fill and of the last segment fill (R314, R385) -/
  poisonData : Bool
  poisonSeg : Bool
  deriving DecidableEq, Repr

/-- One row of an operand load as its translation at issue left it (R309, R311, R312, R314): whether it is resident, its
status word, whether its peer bytes go in one request (R231, R250), and its bytes: row bytes or identifier, side bytes or
position, and the places of bytes that are read and not kept. A byte is a place or a constant. via: the views and map entries it
went through; vas: the pages through which it was translated, by address and size (R371). -/
structure LoadRow where
  resident : Bool
  status : Nat
  gather : Bool
  via : List (Nat × Nat)
  vas : List (Nat × Nat)
  data : List (ByteRef ⊕ Byte)
  side : List (ByteRef ⊕ Byte)
  dropped : List ByteRef
  deriving DecidableEq, Repr

/-- An operand load issued and not yet finished (R309, R311): its number in issue order, its rows, the places of its status
array, and the granules that a .fe load waits for. -/
structure Load where
  num : Nat
  kind : OpldKind
  hint : Nat
  rows : List LoadRow
  status : List ByteRef
  /-- the pages of its status array (R371) -/
  statusVas : List (Nat × Nat)
  fe : Bool
  granules : List (Nat × Nat)
  scope : Scope
  wg : WgIx
  group : Nat
  /-- views and map entries its translation read (R273, R274) -/
  via : List (Nat × Nat)
  deriving DecidableEq, Repr

inductive SlotState where
  | free | claimed | releasing
  deriving DecidableEq, Repr

/-- An operand slot of a core (R306): its contents, owner, loads in progress, and the numbers of the last data and
segment fills issued and finished (model: they name "the most recent OPLD" of R318). -/
structure Slot where
  state : SlotState
  owner : WgIx
  d : SlotData
  loads : List Load
  lastData : Nat
  lastSeg : Nat
  /-- OREL came at this stamp (R308) -/
  released : Nat
  deriving DecidableEq, Repr

inductive WgState where
  | ready | resident | complete
  deriving DecidableEq, Repr

/-- A workgroup that has been placed at least once (R166, R182); one never placed is implied by its launch. -/
structure Wg where
  launch : Nat
  j : Nat
  state : WgState
  core : Nat
  groups : List Group
  vaultSize : Nat
  vault : Memory
  /-- full granules, rising (R213) -/
  full : List Nat
  /-- those that an engine set full (R196) -/
  engineFull : List Nat
  /-- granules owned by the host or a peer (R382) -/
  extGranules : List Nat
  poisonVault : List Nat
  /-- poison of workgroup-shared state (R387) -/
  poisonShared : Bool
  barriers : Vector Barrier 16
  counters : Vector Counter 16
  wgerr : Word
  cmds : List Cmd
  cmdTraps : List CmdTrap
  savedSlots : List (Nat × Slot)
  tiles : List (Nat × Tile)
  seqs : List Seq
  placed : Nat
  /-- marked for pre-emption (R372) -/
  preempt : Bool
  /-- pre-empted, so it comes before all other candidates (R183) -/
  wasPreempted : Bool
  deriving DecidableEq, Repr

/-! Cores and reaches. -/

/-- A page translation (R367, R368). -/
inductive Target where
  | hbm | repl | cc | host | tier | peer (dev : Nat) (door : Bool)
  deriving DecidableEq, Repr

/-- A leaf: the page's VA base and size, target, physical base and permissions (R368). -/
structure Leaf where
  base : Nat
  size : Nat
  target : Target
  pa : Nat
  w : Bool
  x : Bool
  cow : Bool
  deriving DecidableEq, Repr

/-- A cached translation, tagged by context (R370). -/
structure TlbEntry where
  ctx : BitVec 20
  leaf : Leaf
  deriving DecidableEq, Repr

/-- A clean sector of a core's cache (R215): its 32-byte-aligned physical key, its bytes, and whether its line is protected
(R217). The sectors of one 128-byte line take one way. -/
structure Sector where
  key : Nat
  bytes : List Byte
  keep : Bool
  deriving DecidableEq, Repr

/-- A line of an L2 slice (R216, R217): its 128-byte-aligned key, the sectors present and the sectors not yet written back, the
count of reads left, and whether it is the next to be replaced or protected. Its bytes are those of its home, which the
memories of the state hold. -/
structure L2Line where
  key : Nat
  present : BitVec 4
  dirty : BitVec 4
  count : Option Nat
  next : Bool
  keep : Bool
  /-- the region whose store last dirtied it: context and RCB (R399) -/
  owner : Option (BitVec 20 × Nat)
  deriving DecidableEq, Repr

/-- An eddy-queue entry (R389): the group, the word with its index, the PC of the enqueuing instruction, the tag, SEED and
FLAGS (which give the rounding mode), the region instance open at enqueue. Its operands and result are what the entry's
re-execution compares; the comparison's outcome is an input (log 22). -/
structure Eddy where
  wg : WgIx
  g : GroupIx
  word : Nat
  index : Nat
  pc : Word
  tag : LaneMask
  seed : Word
  flags : Word
  irb : Option Nat
  deriving DecidableEq, Repr

/-- A core (R10, R22, R215, R306, R389, R391): CYCLE is base + (TIME - since) * mhz / 1000 (R22, R444). -/
structure Core where
  slots : Vector Slot 32
  l1 : List Sector
  /-- the scalar and the lane instruction cache (R10) -/
  scalarCode : List Sector
  laneCode : List Sector
  /-- the L1 TLB (R370) -/
  tlb : List TlbEntry
  eddy : Vector (List Eddy) 4
  epoch : Nat
  inService : Bool
  /-- withheld from placement for a scan (R391) -/
  withheld : Bool
  /-- being scanned: the time the pattern run began, and whether this is the second run (R391, R392) -/
  scanning : Option (Nat × Bool)
  lastPass : Nat
  cycleBase : Nat
  cycleSince : Nat
  mhz : Nat
  deriving DecidableEq, Repr

/-- A tributary-queue item (R199 to R201): slot, generation, tags, resolved granules. -/
structure Item where
  slot : Nat
  gen : Nat
  ctx : BitVec 20
  priority : Nat
  order : Nat
  join : Nat
  parent : Bool
  full : List (WgIx × Nat)
  empty : Option (WgIx × Nat)
  payload : List Byte
  deriving DecidableEq, Repr

/-- A page-in in progress (R437): context, view, entry, generation, frame, source, size, and the region whose fetch started it. -/
structure PageIn where
  ctx : BitVec 20
  view : Nat
  entry : Nat
  entryVa : Nat
  gen : Nat
  frame : Nat
  source : Nat
  size : Nat
  owner : Option (BitVec 20 × Nat)
  deriving DecidableEq, Repr

/-- One replicated write in its sequencer's order (R404): page offset within HBM, bytes, issuing agent and core. -/
structure ReplWrite where
  pa : Nat
  bytes : List Byte
  agent : WgIx × GroupIx
  core : CoreIx
  deriving DecidableEq, Repr

/-- A reach (R9, R199, R370, R391, R404, R437). gens holds the last generation of each filled queue slot (R199). -/
structure Reach where
  tlb : List TlbEntry
  /-- the lines of the 96 slices (R216) -/
  l2 : List L2Line
  items : List Item
  gens : List (Nat × Nat)
  replLog : List ReplWrite
  /-- per reach: how many of replLog it has applied (R404) -/
  replApplied : Vector Nat 4
  pageIns : List PageIn
  nextCore : Nat
  lastScan : Nat
  deriving DecidableEq, Repr

/-! Pseudo-channels (R324). -/

/-- A range of a bank run on one member: start offset in the page, length, CC page key (R337). -/
structure Range where
  page : Nat
  offset : Nat
  len : Nat
  deriving DecidableEq, Repr

/-- A bank command on a peer's pages: owner, owner PA of its anchor, record and payload, sent whole (R410). -/
structure FarBank where
  owner : Nat
  addr : Nat
  record : List Byte
  payload : List Byte
  deriving DecidableEq, Repr

/-- A bank command (R331 to R338), on all its members. -/
structure BankCmd where
  id : Nat
  kind : BankKind
  wg : WgIx
  group : Nat
  ctx : BitVec 20
  counter : Nat
  num : Nat
  completion : Option Nat
  trap : Bool
  scope : Scope
  rel : Bool
  start : Option (Nat × Nat)
  /-- refused with REJECTED (R336, R338) -/
  refused : Bool
  members : List Nat
  /-- members that have not finished -/
  pending : List Nat
  words : List Nat
  startWord : Nat
  vector : Range
  entry : Nat
  /-- per member: ranges 0, 1 and result -/
  ranges : List (Range × Range × Range)
  /-- statuses of stopped members: member, status, fault code (R343) -/
  stops : List (Nat × Nat × Nat)
  bytes : Nat
  movf : Bool
  /-- a remote command's response goes to its requester instead of a counter (R410) -/
  remote : Option ReqHeader
  /-- this device is the requester (R410) -/
  far : Option FarBank
  /-- the pages translated at issue, by address and size (R371) -/
  vas : List (Nat × Nat)
  deriving DecidableEq, Repr

/-- A run in progress on a pseudo-channel (R324, R325, R341). -/
structure Run where
  cmd : Nat
  member : Nat
  word : Nat
  p0 : Nat
  p1 : Nat
  c : Nat
  x : Nat
  v : Nat
  q : Nat
  stack : List (Nat × Nat)
  /-- open row: operand range and row -/
  row : Option (Bool × Nat)
  buffer : Vector (List Byte) 64
  /-- the result buffer: segments of 256 bytes on their way to the result range, oldest first, with where they go (R324, R341) -/
  results : List (Nat × List Byte)
  acc : Vector (Vector Elem 8) 64
  /-- since when a step of it waits for a grant (R401) -/
  waits : Option Nat
  /-- columns written by BWRB, by the locator of their first byte (R344) -/
  wrote : List Nat
  deriving DecidableEq, Repr

/-- A pseudo-channel (R324, R333, R334): the store, its tag, the command queue and the run. -/
structure Pc where
  store : Vector (BitVec 32) 256
  tag : Option (BitVec 20)
  queue : List Nat
  run : Option Run
  deriving DecidableEq, Repr

/-! Contexts, regions, launches (09, 18, 21). -/

structure Ctx where
  id : BitVec 20
  rootRcb : Nat
  pageRoot : Nat
  origin : Nat
  /-- view-table address of the root RCB (R173, R219) -/
  viewTable : Nat
  switchedOut : Bool
  /-- a WATCHDOG record is pending (R383) -/
  watchdogHeld : Bool
  lastProgress : Nat
  quietPosted : Bool
  /-- frame pools: view and frames, oldest first (R433, R437) -/
  pools : List (Nat × List Nat)
  /-- TIER-MISS already posted: view, entry, generation (R437) -/
  tierMisses : List (Nat × Nat × Nat)
  /-- NOFRAME posted and no FRAMES since: view, entry (R437) -/
  noFrames : List (Nat × Nat)
  /-- TIER page access counts (R436) -/
  tierCounts : List (Nat × Nat)
  /-- the buffer that the last SWITCH-OUT exported the image to (R433) -/
  exported : Option Nat
  deriving DecidableEq, Repr

inductive LaunchState where
  | queued | active | running | done | ended
  deriving DecidableEq, Repr

/-- A launch (R177, R182). record is the 128 bytes read once; recordVa its address. -/
structure Launch where
  region : Nat
  ctx : BitVec 20
  record : List Byte
  recordVa : Nat
  completion : Nat
  state : LaunchState
  accepted : Nat
  /-- workgroups that left PENDING under DEP (R180) -/
  left : List Nat
  /-- completion bits and the record still to be written, held by a fault (R360): linear index, or none for the record -/
  heldWrites : List (Option Nat)
  /-- doublewords of the producer's bitmap whose read faulted: address (R360) -/
  heldReads : List Nat
  /-- doublewords treated as 1 after SKIP (R360) -/
  skipReads : List Nat
  /-- workgroups complete whose bit has been set or skipped -/
  finished : Nat
  deriving DecidableEq, Repr

/-! Traps (18). -/

/-- Who raised a trap (R354, R362). -/
inductive Origin where
  | scalar (wg : WgIx) (g : GroupIx) (split : SplitIx)
  | lane (wg : WgIx) (g : GroupIx)
  | command (wg : WgIx) (g : GroupIx) (split : SplitIx)
  /-- a launch's completion bit or record, or its DEP read (R360) -/
  | launchWrite (launch : Nat) (bit : Option Nat)
  | launchRead (launch : Nat) (addr : Nat)
  | watchdog (ctx : BitVec 20)
  | budget (region : Nat)
  deriving DecidableEq, Repr

/-- A pending trap record (R362 to R364): its bytes but for the sequence, the queue header's address, and the sequence
under which it was written, none while it is held (R363). -/
structure Pending where
  origin : Origin
  ctx : BitVec 20
  queue : Nat
  reach : Nat
  record : List Byte
  seq : Option (BitVec 32)
  deriving DecidableEq, Repr

/-! The fabric (20). -/

/-- What a request carries after its header (R410). -/
inductive Payload where
  | load (n : Nat)
  | store (bytes : List Byte)
  | atom (op : Rmw) (operand : Nat)
  | cas (size expected replacement : Nat)
  | red (op : Rmw) (operand : Nat)
  | vload (elems : List FarElem)
  | vstore (elems : List (FarElem × Nat))
  | vatomic (elems : List FarElem) (op : FarAtomic)
  | door (bytes : List Byte)
  | bank (kind : BankKind) (record : List Byte) (payload : List Byte)
  | push (item : List Byte)
  | rchunk (chunk : RChunk)
  | probe | ack | close
  deriving DecidableEq, Repr

/-- A flit: a request or a response, and the device it goes to. -/
inductive Flit where
  | request (dev : Nat) (h : ReqHeader) (p : Payload)
  | reply (dev : Nat) (r : Response)
  deriving DecidableEq, Repr

/-- A requester stream (R414, R415): the owner, the learned incarnation (none while the PROBE is unanswered), the next
serial, completed serials above A, the last request's time and the last acknowledgement sent. -/
structure ReqStream where
  reqid : ReqId
  owner : Nat
  inc : Option Nat
  next : BitVec 32
  ack : BitVec 32
  done : List (BitVec 32)
  lastSent : Nat
  ackSent : BitVec 32
  deriving DecidableEq, Repr

/-- Who receives an outstanding operation's outcome (R424). -/
inductive Issuer where
  | scalar (wg : WgIx) (g : GroupIx) (split : SplitIx)
  | lane (wg : WgIx) (g : GroupIx) (lane : Nat)
  | command (wg : WgIx) (counter num : Nat)
  | stream (wg : WgIx) (g : GroupIx)
  /-- a VRED that has retired (R267) -/
  | reduction (wg : WgIx) (g : GroupIx)
  | device
  deriving DecidableEq, Repr

/-- The outcome of a remote operation (R420, R424). -/
inductive Outcome where
  | performed (data : List Byte)
  | error
  | indeterminate
  | notPerformed
  | gaveUp
  | checksum
  | poison
  deriving DecidableEq, Repr

inductive OpState where
  /-- not yet sent: it waits for the stream to open, the window or an earlier write to the sector (R413, R415, R416) -/
  | queued
  | sent
  | waitbusy (until_ : Nat)
  | saved (at_ : Nat)
  | done
  deriving DecidableEq, Repr

/-- An outstanding operation at the requester (R412, R415, R420). -/
structure RemoteOp where
  id : Nat
  issuer : Issuer
  owner : Nat
  reqid : ReqId
  payload : Payload
  addr : Nat
  serial : Option (BitVec 32)
  state : OpState
  firstSent : Nat
  lastSent : Nat
  copies : Nat
  onlyBusy : Bool
  busyDelay : Nat
  checksums : Nat
  /-- the outcome, once it is known -/
  result : Option Outcome
  deriving DecidableEq, Repr

/-- An entry of the owner result cache (R417). -/
structure OrcEntry where
  reqid : ReqId
  serial : BitVec 32
  status : Nat
  result : List Byte
  deriving DecidableEq, Repr

/-- An entry of the owner's stream table (R417), with its last traffic (R419). -/
structure OwnStream where
  reqid : ReqId
  low : BitVec 32
  last : Nat
  deriving DecidableEq, Repr

/-- A grant (R407, R433): peer device and context, owner PA range, write permission. -/
structure GrantEntry where
  dev : Nat
  ctx : BitVec 20
  base : Nat
  len : Nat
  w : Bool
  deriving DecidableEq, Repr

/-- The fabric state of the device (20). -/
structure Fabric where
  streams : List ReqStream
  ops : List RemoteOp
  nextOp : Nat
  orc : List OrcEntry
  table : List OwnStream
  grants : List GrantEntry
  /-- doors: number and workgroup (R408) -/
  doors : List (Nat × WgIx)
  /-- flits that have left this device, in order (an output of the model) -/
  sent : List Flit
  /-- flits held in the ports F0 to F17: lifetime left, and the time they came (R8, R411) -/
  ports : Vector (List (Flit × Nat × Nat)) 18
  /-- whether the ports are up (R443) -/
  portsUp : Bool
  deriving DecidableEq, Repr

/-! The host interface (21). -/

/-- A command read from the ring and not yet completed (R433): its ring index and its 64 bytes. -/
structure HostCmd where
  ring : Nat
  entry : List Byte
  /-- started, and waiting for what the rest names -/
  started : Bool
  /-- what read the old descriptor or entry, or used a discarded translation (R273, R274, R371) -/
  old : Holders
  /-- lane-queue entries whose words were read through a discarded translation: workgroup, group, stamp (R371) -/
  holdLanes : List (Nat × Nat × Nat)
  /-- bank commands that used one (R371) -/
  holdBanks : List Nat
  /-- the range of an INVALIDATE and the pages of the translations it discarded, by address and size (R371) -/
  pages : List (Nat × Nat)
  deriving DecidableEq, Repr

/-- A host port (R429). -/
structure HostPort where
  mode : PortMode
  /-- last signal time and a signal held back, per vector (R435) -/
  msix : Vector (Option Nat × Bool) 4
  /-- vectors signalled, in order (an output of the model) -/
  signals : List Nat
  deriving DecidableEq, Repr

/-- A CXL host line held in an L2 (R431). -/
inductive Moesi where
  | m | o | e | s
  deriving DecidableEq, Repr

structure HostLine where
  port : Nat
  addr : Nat
  state : Moesi
  deriving DecidableEq, Repr

/-- CONFIG parameters (R434). Times in ns. -/
structure Params where
  watchdog : Nat
  scanInterval : Nat
  faultCount : Nat
  faultWindow : Nat
  lifetimeUs : Nat
  giveUp : Nat
  tierHot : Nat
  powerCap : Nat
  logRings : Option Nat
  deriving DecidableEq, Repr

/-- The register file and rings (R430, R433, R435). -/
structure HostIf where
  stepping : BitVec 8
  bootstat : BitVec 32
  secver : BitVec 32
  cmdbase : BitVec 64
  cmdsize : BitVec 32
  cmdtail : BitVec 32
  cmdhead : BitVec 32
  evbase : BitVec 64
  evsize : BitVec 32
  evwrite : BitVec 32
  evread : BitVec 32
  incarn : BitVec 16
  devnum : BitVec 16
  ports : Vector HostPort 2
  cmds : List HostCmd
  /-- events held by a full ring, oldest first (R435) -/
  heldEvents : List (List Byte)
  params : Params
  /-- CONFIG values waiting for the next period boundary: parameter and value (R434) -/
  newParams : List (Nat × Nat)
  measurements : List (List Byte)
  lines : List HostLine
  deriving DecidableEq, Repr

/-! Voltage-and-frequency islands (R16). -/

inductive Island where
  | core | uncore | vaultDie | hbmPhy | bankUnit | hostPort | fabricPort | remaining
  deriving DecidableEq, Repr

/-- The 256 islands, numbered in the order in which R16 lists them (log 6). -/
def Island.of (n : Nat) : Island :=
  if n < 192 then .core else if n < 196 then .uncore else if n < 200 then .vaultDie else if n < 208 then .hbmPhy
  else if n < 216 then .bankUnit else if n < 218 then .hostPort else if n < 236 then .fabricPort else .remaining

/-- The clock the spec gives an island, in MHz (R11, R13). -/
def Island.fullMhz : Island → Option Nat
  | .core => some Config.fullMhz
  | .bankUnit => some Config.bankMhz
  | _ => none

/-- An island at reset: the clock the spec gives it, and the highest core voltage of R444 for a core; what the spec does not give
is zero (log 6). -/
def Island.reset (i : Island) : Nat × Nat := (i.fullMhz.getD 0, if i = .core then 600 else 0)

/-! Moves: which agent acts next (log 1). -/

/-- One move of the agenda: a quarter's scalar or lane issue, one micro-operation of a pseudo-channel, a step of the
opcode table, or a choice the spec leaves to the caches and the headwater. -/
inductive Move where
  | issue (core quarter : Nat)
  | laneIssue (core quarter : Nat)
  | bankStep (pc : Nat)
  | event (i : Instr)
  /-- a core's scalar or lane instruction cache takes a sector, or drops it (R10, log 11) -/
  | codeFill (core : CoreIx) (lane : Bool) (key : Nat)
  | codeEvict (core : CoreIx) (lane : Bool) (key : Nat)
  /-- a reach's TLB caches the translation of an address, and a core of the reach with it, or the reach's drops it, or the
  core's (R370, log 12) -/
  | tlbFill (reach : Nat) (core : Option CoreIx) (ctx : BitVec 20) (va : Nat)
  | tlbEvict (reach : Nat) (core : Option CoreIx) (ctx : BitVec 20) (base : Nat)
  /-- the device takes the queued remote operations that can now be sent (R413, R415) -/
  | sendQueued
  /-- a flit leaves its port (R411) -/
  | portSend (port ix : Nat)
  /-- the headwater reads element t of an open read stream ahead of its pop (R289) -/
  | readAhead (wg g q t : Nat)
  /-- the headwater writes an element that a write stream has produced (R288) -/
  | writeBehind (wg g ix : Nat)
  deriving DecidableEq, Repr

end Sys2Proof.Machine
end

