-- ==== Sys2Proof/Machine/State.lean ====
section
/-! DEFINITION. The state of the RN-480 as plain data, the reasons a step can stop, and the machine right after a cold
reset (R443). Everything the spec gives the machine is a field here or in Machine/Types.lean. -/

namespace Sys2Proof.Machine

/-- Why the machine stops with a fault. -/
inductive Fault where
  /-- The agenda names no agent of this machine: a core from 192 up, a quarter from 4 up, a pseudo-channel from 512 up.
  Raised by step alone. Safe: no hardware makes such a move. -/
  | noSuchAgent
  deriving DecidableEq, Repr

/-- Why an instruction is refused. -/
inductive Refusal where
  /-- An instruction with no meaning yet, by its mnemonic. Raised by exec alone. Safe. -/
  | notModelled (mnemonic : String)
  /-- A host access to the recovery window in BAR2 after a failed boot: the spec does not lay the window out (R440).
  Raised by HOST_ACCESS. Safe: the model stops where hardware answers. -/
  | recoveryWindow
  /-- A RESUME from an image that this device did not export itself: the spec gives the image no layout (R376, R433). Raised by
  RESUME. Safe: the model stops where hardware goes on. -/
  | foreignImage
  deriving DecidableEq, Repr

/-- The machine. -/
structure State where
  /-- model: the moves still to be made, oldest first, each with the nanoseconds that pass before it (log 1, 2) -/
  agenda : List (Nat × Move)
  /-- model: who is executing (log 1) -/
  cur : Cur
  /-- model: free values drawn so far (log 3) -/
  free : Nat
  /-- model: an order counter, for "least recently", "most recently" and queue orders (log 3) -/
  stamp : Nat
  /-- nanoseconds since the last cold reset -/
  time : Nat
  /-- when the device was last reset, cold or warm: TIME counts from then (R22) -/
  resetAt : Nat
  /-- HBM by physical address (R207) -/
  mem : Memory
  /-- CC pages by locator (R326, R368) -/
  cc : Memory
  /-- host memory by 48-bit host physical address (R429) -/
  host : Memory
  /-- bank-unit writes not yet published by a BKFENCE: CC key and byte, newest first (R253) -/
  hidden : List Host.Cell
  /-- the values CC bytes held before ordinary writes, newest first: what a run without REL may still read (R253) -/
  ccOld : List Host.Cell
  /-- poisoned HBM sectors, by address of their first byte (R385) -/
  poison : List Nat
  cores : Vector Core 192
  reaches : Vector Reach 4
  pcs : Vector Pc 512
  /-- bank commands issued and not completed (R333) -/
  bankCmds : List BankCmd
  nextBank : Nat
  contexts : List Ctx
  regions : List Region
  launches : List Launch
  wgs : List Wg
  /-- pending trap records, and those held by a full trap queue, in the order raised (R363, R364) -/
  pending : List Pending
  /-- kills not yet logged: context, RCB, and the workgroups whose bank runs are still in flight (R393) -/
  kills : List (BitVec 20 × Nat × List WgIx)
  /-- faults counted per unit: type, unit, time (R394) -/
  faults : List (Nat × Nat × Nat)
  /-- units out of service: type, unit (R396) -/
  retired : List (Nat × Nat)
  fabric : Fabric
  hostif : HostIf
  /-- clock in MHz and voltage in mV of the 256 islands (R16, R444, log 6) -/
  islands : Vector (Nat × Nat) 256
  /-- the last period boundary that was processed (R188) -/
  lastPeriod : Nat
  /-- the last patrol (R385) -/
  lastPatrol : Nat
  /-- the activity bucket: quarters of a grant and the time they were counted (R401) -/
  bankGrants : Nat × Nat
  deriving DecidableEq, Repr

/-! The parts after reset. -/

/-- An operand slot, FREE (log 6), its stores zero. -/
def Slot.reset : Slot :=
  { state := .free, owner := 0,
    d := { data := Vector.replicate 64 (Vector.replicate 128 0), side := Vector.replicate 64 (Vector.replicate 8 0),
           segId := Vector.replicate 64 0, segPos := Vector.replicate 64 0, valid := 0, dataFull := false,
           segFull := false, poisonData := false, poisonSeg := false },
    loads := [], lastData := 0, lastSeg := 0, released := 0 }

/-- A core after reset: EPOCH 0 (R392), CYCLE 0 (R22), full arithmetic clock 1,200 MHz (R13, log 6). -/
def Core.reset : Core :=
  { slots := Vector.replicate 32 Slot.reset, l1 := [], scalarCode := [], laneCode := [], tlb := [], eddy := Vector.replicate 4 [], epoch := 0, inService := true,
    withheld := false, scanning := none, lastPass := 0, cycleBase := 0, cycleSince := 0, mhz := Config.fullMhz }

def Reach.reset : Reach :=
  { tlb := [], l2 := [], items := [], gens := [], replLog := [], replApplied := Vector.replicate 4 0, pageIns := [],
    nextCore := 0, lastScan := 0 }

/-- A pseudo-channel after reset: its store zero and untagged (R324). -/
def Pc.reset : Pc := { store := Vector.replicate 256 0, tag := none, queue := [], run := none }

def Fabric.reset : Fabric :=
  { streams := [], ops := [], nextOp := 0, orc := [], table := [], grants := [], doors := [], sent := [], ports := Vector.replicate 18 [],
    portsUp := false }

/-- The CONFIG defaults (R434); parameter 9 has none: no ring is configured. -/
def Params.reset : Params :=
  { watchdog := 100000000, scanInterval := 20000000, faultCount := 3, faultWindow := 60000000000, lifetimeUs := 64,
    giveUp := 1000000000, tierHot := 0, powerCap := 1800, logRings := none }

def HostPort.reset : HostPort := { mode := .down, msix := Vector.replicate 4 (none, false), signals := [] }

/-- The register file after a cold reset: bootstat 0, verifying (R430, R440); the rest as log 6 names. -/
def HostIf.reset : HostIf :=
  { stepping := 0, bootstat := 0, secver := 0, cmdbase := 0, cmdsize := 0, cmdtail := 0, cmdhead := 0, evbase := 0,
    evsize := 0, evwrite := 0, evread := 0, incarn := 0, devnum := 0, ports := Vector.replicate 2 HostPort.reset,
    cmds := [], heldEvents := [], params := Params.reset, newParams := [], measurements := [], lines := [] }

/-- A group's registers when it starts (R21), with the lanes it launches, its register count and private bytes. -/
def Group.start (m0 : LaneMask) (nregs pv : Nat) (entry : Word) (entryRun : Bool) (slot : Nat) : Group :=
  { s := Vector.replicate 48 0, m := (Vector.replicate 16 0).set 0 m0, b := Vector.replicate 16 0,
    v := Vector.replicate 256 (Vector.replicate 64 0), nregs := nregs,
    x := { n := 0, nan := false, pinf := false, ninf := false, ovf := false }, q := Vector.replicate 8 none, behind := [],
    laneQ := [],
    head := Head.empty,
    splits := (Vector.replicate 4 none).set 0
      (some { pc := entry, mask := m0, regs := Vector.replicate 16 0, region := none, status := .ready, lastIssue := 0,
              syncToken := none, stalled := false, yielded := false, looks := [], lnch := none }),
    overflow := [], flags := 0, seed := 0, gang := 0, gangCount := 0, slot := slot, lastScalar := 0, lastLane := 0,
    pv := pv, priv := [], poison := [], retired := false, acquired := false, entryRun := entryRun }

/-- A workgroup when it is first placed (R190, R213, R278): its barriers, counters, vault and error bits are zero. -/
def Wg.start (launch j core vaultSize placed : Nat) (groups : List Group) : Wg :=
  { launch := launch, j := j, state := .resident, core := core, groups := groups, vaultSize := vaultSize, vault := [], full := [], engineFull := [],
    extGranules := [], poisonVault := [], poisonShared := false, barriers := Vector.replicate 16 Barrier.zero,
    counters := Vector.replicate 16 ⟨0, 0, []⟩, wgerr := 0, cmds := [], cmdTraps := [], savedSlots := [], tiles := [], seqs := [],
    placed := placed, preempt := false, wasPreempted := false }

/-- The machine right after a cold reset (R443): nothing is registered, launched or placed, every memory lists nothing,
and boot verification has begun (log 4). Programs are loaded from outside: the host boots the device, registers a
context, writes code and launch records, and launches. -/
def State.reset : State :=
  { agenda := [], cur := ⟨0, 0, 0, 0⟩, free := 0, stamp := 0, time := 0, resetAt := 0, mem := [], cc := [], host := [], hidden := [], ccOld := [],
    poison := [], cores := Vector.replicate 192 Core.reset, reaches := Vector.replicate 4 Reach.reset,
    pcs := Vector.replicate 512 Pc.reset, bankCmds := [], nextBank := 0, contexts := [], regions := [], launches := [],
    wgs := [], pending := [], kills := [], faults := [], retired := [], fabric := Fabric.reset, hostif := HostIf.reset,
    islands := Vector.ofFn (fun i => (Island.of i.val).reset), lastPeriod := 0, lastPatrol := 0, bankGrants := (500000, 0) }

end Sys2Proof.Machine
end

