-- ==== Sys2Proof/Machine/Access.lean ====
section
/-! DEFINITION. Reaching the parts of the state: workgroups, groups, splits, cores, contexts, launches, regions, and
changing one of them in place. Every accessor is total: a part that is not there reads as none and is not changed. -/

namespace Sys2Proof.Machine

/-- Change the element at a position of a list. -/
def modAt {α : Type} (f : α → α) : List α → Nat → List α
  | [], _ => []
  | a :: as, 0 => f a :: as
  | a :: as, n + 1 => a :: modAt f as n

/-- Change every element that satisfies a test. -/
def modWhere {α : Type} (p : α → Bool) (f : α → α) (l : List α) : List α := l.map fun a => if p a then f a else a

/-- Change one component of a vector. -/
def modVec {α : Type} {n : Nat} (f : α → α) (v : Vector α n) (i : Nat) : Vector α n :=
  if h : i < n then v.set i (f v[i]) else v

/-- Change every component of a vector. -/
def mapVec {α : Type} {n : Nat} (f : α → α) (v : Vector α n) : Vector α n := Vector.ofFn fun i => f v[i]

/-- Read one component of a vector, with a value for positions outside it. -/
def getVec {α : Type} {n : Nat} (v : Vector α n) (i : Nat) (d : α) : α := if h : i < n then v[i] else d

def State.wg? (s : State) (w : WgIx) : Option Wg := s.wgs[w]?
def State.group? (s : State) (w : WgIx) (g : GroupIx) : Option Group := (s.wgs[w]?).bind fun x => x.groups[g]?
def State.split? (s : State) (w : WgIx) (g : GroupIx) (i : SplitIx) : Option Split :=
  (s.group? w g).bind fun x => getVec x.splits i none

def State.modWg (s : State) (w : WgIx) (f : Wg → Wg) : State := { s with wgs := modAt f s.wgs w }
def State.modGroup (s : State) (w : WgIx) (g : GroupIx) (f : Group → Group) : State :=
  s.modWg w fun x => { x with groups := modAt f x.groups g }
def State.modSplit (s : State) (w : WgIx) (g : GroupIx) (i : SplitIx) (f : Split → Split) : State :=
  s.modGroup w g fun x => { x with splits := modVec (fun o => o.map f) x.splits i }

def State.core (s : State) (c : CoreIx) : Core := getVec s.cores c Core.reset
def State.modCore (s : State) (c : CoreIx) (f : Core → Core) : State := { s with cores := modVec f s.cores c }
def State.reach (s : State) (r : Nat) : Reach := getVec s.reaches r Reach.reset
def State.modReach (s : State) (r : Nat) (f : Reach → Reach) : State := { s with reaches := modVec f s.reaches r }
def State.pc (s : State) (p : PcIx) : Pc := getVec s.pcs p Pc.reset
def State.modPc (s : State) (p : PcIx) (f : Pc → Pc) : State := { s with pcs := modVec f s.pcs p }

/-- Cores 48r to 48r + 47 form reach r (R9). -/
def reachOfCore (c : CoreIx) : Nat := c / Config.coresPerReach

def State.ctx? (s : State) (c : BitVec 20) : Option Ctx := s.contexts.find? fun x => x.id == c
def State.modCtx (s : State) (c : BitVec 20) (f : Ctx → Ctx) : State :=
  { s with contexts := modWhere (fun x => x.id == c) f s.contexts }
def State.launch? (s : State) (l : Nat) : Option Launch := s.launches[l]?
def State.modLaunch (s : State) (l : Nat) (f : Launch → Launch) : State := { s with launches := modAt f s.launches l }
/-- The region of an RCB within a context. -/
def State.region? (s : State) (ctx : BitVec 20) (rcb : Nat) : Option Region :=
  s.regions.find? fun r => r.ctx == ctx && r.rcb == rcb
def State.modRegion (s : State) (ctx : BitVec 20) (rcb : Nat) (f : Region → Region) : State :=
  { s with regions := modWhere (fun r => r.ctx == ctx && r.rcb == rcb) f s.regions }

def State.launchOf (s : State) (w : WgIx) : Option Launch := (s.wg? w).bind fun x => s.launch? x.launch
/-- The context a workgroup runs in. -/
def State.ctxOf (s : State) (w : WgIx) : BitVec 20 := ((s.launchOf w).map (·.ctx)).getD 0
/-- The core a workgroup is on. -/
def State.coreOf (s : State) (w : WgIx) : CoreIx := ((s.wg? w).map (·.core)).getD 0

/-- The launch record's fields (R177). -/
def Launch.f (l : Launch) (off n : Nat) : Nat := recNat l.record off n
def Launch.nwgx (l : Launch) : Nat := l.f 0x08 4
def Launch.nwgy (l : Launch) : Nat := l.f 0x0C 4
def Launch.nwgz (l : Launch) : Nat := l.f 0x10 4
def Launch.groups (l : Launch) : Nat := l.f 0x14 1
def Launch.lastLanes (l : Launch) : Nat := if l.f 0x15 1 = 0 then 64 else l.f 0x15 1
def Launch.regs (l : Launch) : Nat := l.f 0x16 2
def Launch.vault (l : Launch) : Nat := l.f 0x18 4
def Launch.flags (l : Launch) : Nat := l.f 0x1C 4
def Launch.coop (l : Launch) : Bool := bit l.flags 0
def Launch.clusterSize (l : Launch) : Nat := fld l.flags 1 3 + 1
def Launch.dep (l : Launch) : Bool := bit l.flags 4
def Launch.entry (l : Launch) : Nat := l.f 0x20 8
def Launch.lcb (l : Launch) : Nat := l.f 0x28 8
def Launch.laneEntry (l : Launch) : Nat := l.f 0x30 4
def Launch.priv (l : Launch) : Nat := l.f 0x34 4
def Launch.args (l : Launch) : Nat := l.f 0x38 8
def Launch.handle (l : Launch) : Nat := l.f 0x40 8
def Launch.count (l : Launch) : Nat := l.nwgx * l.nwgy * l.nwgz

/-- The regions from one up to its root. -/
def State.regionPath (s : State) (ctx : BitVec 20) (rcb : Nat) : Nat → List Region
  | 0 => []
  | n + 1 =>
    match s.region? ctx rcb with
    | none => []
    | some r => r :: (if r.parent = 0 then [] else s.regionPath ctx r.parent n)

/-- A chain has at most 15 steps to its root (R176). -/
def State.path (s : State) (ctx : BitVec 20) (rcb : Nat) : List Region := s.regionPath ctx rcb 16

/-- The regions of a workgroup's launch, up to the root. -/
def State.wgPath (s : State) (w : WgIx) : List Region := s.path (s.ctxOf w) (((s.launchOf w).map (·.region)).getD 0)

/-- A limit has room for what is used. -/
def limitRoom (limit : Option Nat) (used : Nat) : Bool :=
  match limit with
  | none => true
  | some n => used < n

/-- A workgroup's cluster rank and size (R167). -/
def State.clusterOf (s : State) (w : WgIx) : Nat × Nat :=
  match s.wg? w, s.launchOf w with
  | some x, some l => (x.j % l.clusterSize, l.clusterSize)
  | _, _ => (0, 1)

/-- The placed workgroup at a rank of a workgroup's cluster (R167, R210). -/
def State.rankWg (s : State) (w : WgIx) (rank : Nat) : Option WgIx :=
  match s.wg? w, s.launchOf w with
  | some x, some l =>
    s.wgs.findIdx? fun y => y.launch == x.launch && y.j == x.j / l.clusterSize * l.clusterSize + rank
  | _, _ => none

/-- TIME: nanoseconds since device reset (R22). -/
def State.now (s : State) : Nat := s.time - s.resetAt

/-- A fresh order number (model). -/
def State.tick (s : State) : State := { s with stamp := s.stamp + 1 }

/-! Free values (log 3): each is named by the counter of draws and what it is for. -/

def State.freeNat (s : State) (key : Nat) : Nat := Config.freeNat (s.free * 2 ^ 128 + key)
def State.freeBool (s : State) (key : Nat) : Bool := Config.freeBool (s.free * 2 ^ 128 + key)
def State.freeByte (s : State) (key : Nat) : Byte := Config.freeByte (s.free * 2 ^ 128 + key)

end Sys2Proof.Machine
end

