-- ==== Sys2Proof/Machine/Caches.lean ====
section
/-! DEFINITION. The caches of base memory: the sectors of a core's L1 and instruction caches, the lines of the L2 slices, what a
hint code does in each, and which line a full set gives up (R10, R214 to R217, log 11). -/

namespace Sys2Proof.Machine

/-! Keys: a sector of HBM by its physical address; host lines, then CC bytes, above all of them. -/

def hostKey (hpa : Nat) : Nat := 2 ^ 60 + hpa
def ccKey (locator : Nat) : Nat := 2 ^ 61 + locator

/-- The pseudo-channel of a locator. -/
def pcOf (pa : Nat) : PcIx := pa / 2 ^ 30 % 512

/-- The reads a hint code gives a line (R217). -/
def hintReads : Nat → Option Nat
  | 1 => some 1 | 2 => some 2 | 3 => some 4 | 4 => some 8 | 5 => some 16
  | _ => none

/-- Codes 1 to 6 allocate nothing in L1; code 6 is stream, code 7 keep. -/
def hintFillsL1 (hint : Nat) : Bool := hint = 0 || hint = 7
def hintStream (hint : Nat) : Bool := hint = 6
def hintKeep (hint : Nat) : Bool := hint = 7

/-! L1 and the instruction caches. -/

def sectorByte (l : List Sector) (key : Nat) : Option Byte :=
  (l.find? fun x => x.key == key / 32 * 32).bind fun x => x.bytes[key % 32]?

def sectorStore (l : List Sector) (key : Nat) (b : Byte) : List Sector :=
  modWhere (fun x => x.key == key / 32 * 32) (fun x => { x with bytes := x.bytes.set (key % 32) b }) l

def Core.l1Byte (c : Core) (key : Nat) : Option Byte := sectorByte c.l1 key

/-- The byte of an instruction cache. -/
def Core.codeByte (c : Core) (lane : Bool) (key : Nat) : Option Byte := sectorByte (if lane then c.laneCode else c.scalarCode) key

/-- A store also updates the core's L1 sector when it is present (R215), and its instruction caches (log 11). -/
def Core.l1Store (c : Core) (key : Nat) (b : Byte) : Core :=
  { c with l1 := sectorStore c.l1 key b, scalarCode := sectorStore c.scalarCode key b, laneCode := sectorStore c.laneCode key b }

/-- Put a sector into L1. Its line takes a way of its set; where the set is full, pick names the unprotected line that goes. A line
is protected only while fewer than three others of its set are. -/
def l1Put (l : List Sector) (pick : Nat) (x : Sector) : List Sector :=
  let line := x.key / 128
  let others := ((l.map fun y => y.key / 128).filter fun n => n != line && n % Config.l1Sets == line % Config.l1Sets).eraseDups
  let kept := others.filter fun n => l.any fun y => y.key / 128 == n && y.keep
  let free := others.filter fun n => !kept.contains n
  let victim := if others.length < Config.l1Ways then none else free[pick % free.length]?
  { x with keep := x.keep && kept.length < Config.l1Kept } :: l.filter fun y => y.key != x.key && some (y.key / 128) != victim

/-! L2 (R216, R217). -/

/-- The hash that spreads lines over the slices. -/
def foldPa (pa : Nat) : Nat := fld pa 7 15 ^^^ fld pa 22 15 ^^^ fld pa 37 15

/-- The slice of a line, and its set there, which the spec does not give. -/
def l2Set (key : Nat) : Nat × Nat := (foldPa key % Config.l2Slices, Config.l2Index key % Config.l2Sets)

/-- One access of a slice to a line: its sectors, whether it writes, whether the write goes through to DRAM, and its hint. -/
structure Touch where
  key : Nat
  sectors : BitVec 4
  write : Bool
  through : Bool
  hint : Nat
  deriving DecidableEq, Repr

/-- How many of the four sectors of a line a mask names. -/
def sectorCount (m : BitVec 4) : Nat := (List.range 4).foldl (fun n i => n + boolNat (m.getLsbD i)) 0

/-- A line that an access hits or has allocated; none when the access's count invalidates it. -/
def L2Line.touch (x : L2Line) (t : Touch) (owner : Option (BitVec 20 × Nat)) : Option L2Line :=
  let left := if t.write then none else (hintReads t.hint).map (· - 1)
  let dirties := t.write && !t.through
  let dirty := if dirties then x.dirty ||| t.sectors else x.dirty
  if left = some 0 ∧ dirty = 0 then none
  else some { x with present := x.present ||| t.sectors, dirty := dirty, count := left, next := x.next && hintStream t.hint
                     owner := if dirties then owner else x.owner }

/-- Bytes that move between L2 and DRAM for a region (R399). -/
abbrev Charge := Option (BitVec 20 × Nat) × Nat

/-- A slice serves an access for a region: its lines, and what it moves. Where the set is full a line inserted as next to be replaced
goes, or the unprotected one that pick names; its unwritten sectors are charged to the region that dirtied it. A line is protected only
while fewer than eight others of its set are. A sector that is not there is filled, for a store too (log 11). -/
def l2Touch (l : List L2Line) (pick : Nat) (owner : Option (BitVec 20 × Nat)) (t : Touch) : List L2Line × List Charge :=
  let old := l.find? fun y => y.key == t.key
  let others := l.filter fun y => y.key != t.key && l2Set y.key == l2Set t.key
  let kept := others.filter (·.keep)
  let free := others.filter fun y => !y.keep
  let victim := if old.isSome || others.length < Config.l2Ways then none
    else match free.find? (·.next) with
      | some y => some y.key
      | none => (free[pick % free.length]?).map (·.key)
  let x := old.getD { key := t.key, present := 0, dirty := 0, count := none, next := hintStream t.hint, keep := false, owner := none }
  let x := { x with keep := x.keep || (hintKeep t.hint && kept.length < Config.l2Kept) }
  let rest := l.filter fun y => y.key != t.key && some y.key != victim
  let back := (others.filter fun y => some y.key == victim).map fun y => (y.owner, 32 * sectorCount y.dirty)
  let fill := (owner, 32 * (sectorCount (t.sectors &&& ~~~ x.present) + (if t.write && t.through then sectorCount t.sectors else 0)))
  (match x.touch t owner with
    | some y => y :: rest
    | none => rest, fill :: back)

/-- The reach whose L2 serves a key, and whether its writes go through to DRAM: HBM, CC pages; host lines have none here. -/
def l2Home (key : Nat) : Option (Nat × Bool) :=
  if key < 2 ^ 60 then some (key / 2 ^ 37 % 4, false)
  else if 2 ^ 61 ≤ key then some (pcOf (key - 2 ^ 61) / 128 % 4, true)
  else none

/-- The sectors of keys, once each. -/
def sectorsOf (keys : List Nat) : List Nat := (keys.map fun k => k / 32 * 32).eraseDups

/-- The accesses of the slices that a set of sectors makes: one for each line. -/
def touchesOf (write : Bool) (hint : Nat) (keys : List Nat) : List (Nat × Touch) :=
  ((keys.map fun k => k / 128 * 128).eraseDups).filterMap fun line =>
    (l2Home line).map fun h =>
      (h.1, { key := line, write := write, through := h.2, hint := hint,
              sectors := (List.range 4).foldl (fun (m : BitVec 4) i =>
                if keys.contains (line + 32 * i) then m ||| BitVec.ofNat 4 (2 ^ i) else m) 0 })

/-- The region that a workgroup's accesses are charged to, by context and RCB; the device's own accesses have none. -/
def State.regionOf (s : State) (w : WgIx) : Option (BitVec 20 × Nat) := (s.launchOf w).map fun l => (l.ctx, l.region)

/-- Charge transfers to their regions and every ancestor (R174, R399). -/
def State.chargeHbm (s : State) (cs : List Charge) : List Region :=
  s.regions.map fun r =>
    { r with hbmUsed := cs.foldl (fun n c => match c.1 with
        | some (ctx, rcb) => if (s.path ctx rcb).any fun x => x.ctx == r.ctx && x.rcb == r.rcb then n + c.2 else n
        | none => n) r.hbmUsed }

/-- The slices serve accesses to some sectors, charged to a region; what they give up is a free value. -/
def State.l2ServeFor (s : State) (owner : Option (BitVec 20 × Nat)) (write : Bool) (hint : Nat) (keys : List Nat) : State :=
  let x := (touchesOf write hint keys).foldl (fun (a : Vector Reach 4 × List Charge) t =>
    let y := l2Touch (getVec a.1 t.1 Reach.reset).l2 (s.freeNat t.2.key) owner t.2
    (modVec (fun (r : Reach) => { r with l2 := y.1 }) a.1 t.1, a.2 ++ y.2)) (s.reaches, [])
  { s with reaches := x.1, regions := s.chargeHbm (x.2.filter fun c => c.1.isSome && c.2 != 0) }

/-- The slices serve accesses of a workgroup, charged to its region. -/
def State.l2Serve (s : State) (w : WgIx) (write : Bool) (hint : Nat) (keys : List Nat) : State :=
  s.l2ServeFor (s.regionOf w) write hint keys

end Sys2Proof.Machine
end

