-- ==== Sys2Proof/Machine/Places.lean ====
section
/-! DEFINITION. Where the bytes of an access lie once it is translated, and reading and writing them there: HBM,
replicas, CC pages, host memory, vaults, lane-private blocks (R206 to R217, R248, R253). -/

namespace Sys2Proof.Machine

/-- The class codes of R354. -/
def classCode : TrapClass → Nat
  | .illegal => 0x01 | .alignPc => 0x02 | .alignData => 0x03 | .address => 0x04 | .page => 0x05 | .protection => 0x06
  | .cow => 0x07 | .poison => 0x08 | .queue => 0x09 | .gang => 0x0A | .slot => 0x0B | .budget => 0x0C
  | .watchdog => 0x0D | .trap => 0x0E | .brk => 0x0F | .view => 0x10 | .remote => 0x11

def classOfCode : Nat → TrapClass
  | 0x01 => .illegal | 0x02 => .alignPc | 0x03 => .alignData | 0x04 => .address | 0x05 => .page | 0x06 => .protection
  | 0x07 => .cow | 0x08 => .poison | 0x09 => .queue | 0x0A => .gang | 0x0B => .slot | 0x0C => .budget
  | 0x0D => .watchdog | 0x0E => .trap | 0x0F => .brk | 0x10 => .view | _ => .remote

/-- Who makes an access (R235): its context, core and reach; its workgroup and group; its lane, for a lane access; for an
engine command that has started, the images of the view descriptors it names, read once (R272); and who asks a peer for what the
view unit reads on its behalf. -/
structure Agent where
  ctx : BitVec 20
  core : CoreIx
  reach : Nat
  wg : WgIx
  g : GroupIx
  lane : Option Nat
  images : List (Nat × List Byte)
  issuer : Issuer
  deriving DecidableEq, Repr

/-- The group that makes an access has made an acquire at .cl or wider: its reads see their homes (R247, log 11). -/
def State.acquired (s : State) (ag : Agent) : Bool := ((s.group? ag.wg ag.g).map (·.acquired)).getD false

/-- The byte of the core's L1 that a read takes, unless it looks past L1. -/
def State.l1Hit (s : State) (ag : Agent) (fresh : Bool) (key : Nat) : Option Byte :=
  if fresh || s.acquired ag then none else (s.core ag.core).l1Byte key

/-- The byte a replica of a REPL page holds for a reach (R368). -/
def replicaPa (pa reach : Nat) : Nat := pa % 2 ^ 37 + reach % 4 * 2 ^ 37

/-- The newest unpublished bank-unit write of a CC byte (R253). -/
def State.hiddenByte (s : State) (key : Nat) : Option Byte := (s.hidden.find? fun c => c.1 == key).map (·.2)

/-- A CC byte at its home: with an unpublished bank-unit write, the old or the run's value (R253). -/
def State.homeCc (s : State) (key : Nat) : Byte :=
  match s.hiddenByte key with
  | some b => if s.freeBool key then b else s.cc.read key
  | none => s.cc.read key

/-- The byte at a place, as an agent's access reads it. fresh: the access looks past L1, as an acquire's own read and
an atomic do (R247). -/
def State.readPlace (s : State) (ag : Agent) (fresh : Bool) : Place → Byte
  | .hbm pa => (s.l1Hit ag fresh pa).getD (s.mem.read pa)
  | .repl pa => (s.l1Hit ag fresh (replicaPa pa ag.reach)).getD (s.mem.read (replicaPa pa ag.reach))
  | .cc key => s.homeCc key
  | .host _ hpa => (s.l1Hit ag fresh (hostKey hpa)).getD (s.host.read hpa)
  | .peer _ _ => 0
  | .vault w off => ((s.wg? w).map fun x => x.vault.read off).getD 0
  | .priv w g key => ((s.group? w g).map fun x => x.priv.read key).getD 0
  | .null => 0

/-- The nibble a reference names. -/
def nibble (b : Byte) (high : Bool) : Nat := if high then b.toNat / 16 else b.toNat % 16

def withNibble (b : Byte) (high : Bool) (n : Nat) : Byte :=
  if high then BitVec.ofNat 8 (b.toNat % 16 + 16 * (n % 16)) else BitVec.ofNat 8 (b.toNat / 16 * 16 + n % 16)

def State.readRef (s : State) (ag : Agent) (fresh : Bool) : ByteRef → Byte
  | .whole p => s.readPlace ag fresh p
  | .nibs lo lh hi hh =>
    BitVec.ofNat 8 (nibble (s.readPlace ag fresh lo) lh + 16 * nibble (s.readPlace ag fresh hi) hh)

def State.readRefs (s : State) (ag : Agent) (fresh : Bool) (rs : List ByteRef) : List Byte := rs.map (s.readRef ag fresh)

/-! Replicated pages (R404, R405). -/

/-- Bytes that the stores of a core write: its own sectors follow (R215). -/
def Core.l1StoreRun (c : Core) (key : Nat) : List Byte → Core
  | [] => c
  | b :: bs => (c.l1Store key b).l1StoreRun (key + 1) bs

/-- The sectors of n bytes from an address up. -/
def sectorRun (a n : Nat) : List Nat := sectorsOf ((List.range n).map fun i => a + i)

/-- One replica applies the oldest write of a sequencer's log it has not applied. The L1 of the core that wrote follows its own
reach's replica (R215, R248). -/
def State.replicaApplyOne (s : State) (seqReach replica : Nat) : State :=
  let r := s.reach seqReach
  let n := getVec r.replApplied replica 0
  match r.replLog[n]? with
  | none => s
  | some w =>
    let a := replicaPa w.pa replica
    let s := { s with mem := s.mem.writeRun a w.bytes }.l2Serve w.agent.1 true 0 (sectorRun a w.bytes.length)
    let s := if reachOfCore w.core = replica then s.modCore w.core fun c => c.l1StoreRun a w.bytes else s
    s.modReach seqReach fun r => { r with replApplied := modVec (· + 1) r.replApplied replica }

/-- A replica applies every write the sequencer has ordered. -/
def State.replicaDrain (s : State) (seqReach replica : Nat) : State :=
  let r := s.reach seqReach
  (List.range (r.replLog.length - getVec r.replApplied replica 0)).foldl (fun s _ => s.replicaApplyOne seqReach replica) s

/-- Every replica of a sequencer applies every ordered write: what a release at .dev or .sys waits for (R405, log 15). -/
def State.replicaDrainAll (s : State) : State :=
  [0, 1, 2, 3].foldl (fun s q => [0, 1, 2, 3].foldl (fun s r => s.replicaDrain q r) s) s

/-- A local replica applies every ordered write: what a read after the agent's own write, and a release at .die or
narrower, wait for (R248, R405, log 15). -/
def State.replicaDrainLocal (s : State) (reach : Nat) : State :=
  [0, 1, 2, 3].foldl (fun s q => s.replicaDrain q reach) s

/-- A replicated write gets the next position and is applied at the sequencer's replica at once (R404). -/
def State.replWrite (s : State) (ag : Agent) (pa : Nat) (bs : List Byte) : State :=
  let q := pa / 2 ^ 37 % 4
  let s := s.modReach q fun r => { r with replLog := r.replLog ++ [⟨pa, bs, (ag.wg, ag.g), ag.core⟩] }
  s.replicaDrain q q

/-- Poison of a location ends when it is written whole (R386): a byte write leaves it, so writes of whole sectors and
granules clear it in writeRefs. -/
def sectorOf (pa : Nat) : Nat := pa / 32 * 32

/-- An ordinary write of a CC byte: its old value stays readable by a run without REL, and where a bank-unit write of the
byte is still unpublished, one of the two values is left; a later run then sees that value or the bank unit's (R253). -/
def State.writeCc (s : State) (key : Nat) (b : Byte) : State :=
  match s.hiddenByte key with
  | none => { s with cc := s.cc.write key b, ccOld := (key, s.cc.read key) :: s.ccOld }
  | some h =>
    if s.freeBool key then { s with cc := s.cc.write key b }
    else { s with cc := s.cc.write key b, hidden := s.hidden.filter (·.1 != key),
                  ccOld := (key, h) :: s.ccOld.filter (·.1 != key) }

/-- Write one byte at a place. -/
def State.writePlace (s : State) (ag : Agent) (p : Place) (b : Byte) : State :=
  match p with
  | .hbm pa => { s with mem := s.mem.write pa b }.modCore ag.core fun c => c.l1Store pa b
  | .repl pa => s.replWrite ag pa [b]
  | .cc key => s.writeCc key b
  | .host _ hpa => { s with host := s.host.write hpa b }.modCore ag.core fun c => c.l1Store (hostKey hpa) b
  | .peer _ _ => s
  | .vault w off => s.modWg w fun x => { x with vault := x.vault.write off b }
  | .priv w g key => s.modGroup w g fun x => { x with priv := x.priv.write key b }
  | .null => s

/-- The byte that a read-modify-write reads: at the sequencer's replica for a REPL page (R404), else at its home. -/
def State.homePlace (s : State) (ag : Agent) : Place → Byte
  | .repl pa => s.mem.read (replicaPa pa (pa / 2 ^ 37))
  | p => s.readPlace ag true p

/-- A write of a half byte leaves the other half as its home holds it (R222). -/
def State.writeRef (s : State) (ag : Agent) (r : ByteRef) (b : Byte) : State :=
  match r with
  | .whole p => s.writePlace ag p b
  | .nibs lo lh hi hh =>
    let s := s.writePlace ag lo (withNibble (s.homePlace ag lo) lh (b.toNat % 16))
    s.writePlace ag hi (withNibble (s.homePlace ag hi) hh (b.toNat / 16))

/-- The sector that holds a byte of DRAM or of a host line, as the list of poisoned sectors names it: CC locators and host
addresses lie above all device addresses. -/
def poisonKey : Place → Option Nat
  | .hbm pa => some (sectorOf pa)
  | .repl pa => some (sectorOf pa)
  | .cc key => some (2 ^ 56 + sectorOf key)
  | .host _ hpa => some (2 ^ 57 + sectorOf hpa)
  | _ => none

/-- Sectors of HBM that a list of whole-byte references covers completely. -/
def fullSectors (rs : List ByteRef) : List Nat :=
  let keys := rs.filterMap fun r => match r with
    | .whole p => poisonKey p
    | _ => none
  keys.eraseDups.filter fun k => keys.count k == 32

/-- Granules of vaults that a list of whole-byte references covers completely. -/
def fullGranules (rs : List ByteRef) : List (WgIx × Nat) :=
  (rs.filterMap fun r => match r with
    | .whole (.vault w off) => if off % 16 = 0 then some (w, off / 16) else none
    | _ => none).filter fun g => (List.range 16).all fun i => rs.contains (.whole (.vault g.1 (16 * g.2 + i)))

/-- Poison ends where a write covers the whole location (R386). -/
def State.clearPoison (s : State) (rs : List ByteRef) : State :=
  let s := if s.poison.isEmpty then s else { s with poison := s.poison.filter fun p => !(fullSectors rs).contains p }
  (fullGranules rs).foldl (fun s g => s.modWg g.1 fun x =>
    { x with poisonVault := x.poisonVault.filter (· != g.2) }) s

/-! Host lines in CXL mode (R431). -/

/-- The places of a byte. -/
def ByteRef.places : ByteRef → List Place
  | .whole p => [p]
  | .nibs lo _ hi _ => [lo, hi]

/-- The half bytes of a byte. -/
def ByteRef.halves : ByteRef → List (Place × Bool)
  | .whole p => [(p, false), (p, true)]
  | .nibs lo lh hi hh => [(lo, lh), (hi, hh)]

/-- A byte of which only some halves stay: the others go nowhere. -/
def ByteRef.only (keep : Place × Bool → Bool) : ByteRef → ByteRef
  | .whole p =>
    match keep (p, false), keep (p, true) with
    | true, true => .whole p
    | false, false => .whole .null
    | lo, hi => .nibs (if lo then p else .null) false (if hi then p else .null) true
  | .nibs lo lh hi hh => .nibs (if keep (lo, lh) then lo else .null) lh (if keep (hi, hh) then hi else .null) hh

/-- The places that a list of references names, but for null elements. -/
def placesOf (rs : List ByteRef) : List Place := (rs.flatMap ByteRef.places).filter (· != .null)

/-- The 128-byte host lines that a list of references touches: port and address. -/
def hostLinesOf (rs : List ByteRef) : List (Nat × Nat) :=
  (rs.flatMap fun r => r.places.flatMap fun p => match p with
    | .host port hpa => [(port, hpa / 128 * 128)]
    | _ => []).eraseDups

/-- In CXL mode the L2 of the port's reach holds the line in a state. -/
def HostIf.holdLine (h : HostIf) (st : Moesi) (x : Nat × Nat) : HostIf :=
  if (getVec h.ports x.1 HostPort.reset).mode = .cxl then
    { h with lines := ⟨x.1, x.2, st⟩ :: h.lines.filter fun l => !(l.port == x.1 && l.addr == x.2) }
  else h

/-- A store leaves the lines it wrote in M. -/
def State.holdLines (s : State) (rs : List ByteRef) : State :=
  { s with hostif := (hostLinesOf rs).foldl (fun (h : HostIf) x => h.holdLine .m x) s.hostif }

/-- A read of lines that the L2 does not hold brings them in, in E or S as the host answers (R431, log 25). -/
def State.fetchLines (s : State) (rs : List ByteRef) : State :=
  { s with hostif := (hostLinesOf rs).foldl (fun (h : HostIf) x =>
      if h.lines.any fun l => l.port == x.1 && l.addr == x.2 then h
      else h.holdLine (if s.freeBool x.2 then .e else .s) x) s.hostif }

/-- The first address of references that are consecutive bytes of one REPL page. -/
def replRun (rs : List ByteRef) : Option Nat :=
  match rs with
  | .whole (.repl pa) :: rest =>
    if rest == (List.range rest.length).map (fun i => .whole (.repl (pa + 1 + i))) then some pa else none
  | _ => none

/-- The key under which the caches hold a byte; a reach reads its own replica (R214). -/
def cacheKey (reach : Nat) : Place → Option Nat
  | .hbm pa => some pa
  | .repl pa => some (replicaPa pa reach)
  | .cc key => some (ccKey key)
  | .host _ hpa => some (hostKey hpa)
  | _ => none

/-- The sectors of L2 that a list of references writes; a replicated write is the sequencer's. -/
def writtenKeys (rs : List ByteRef) : List Nat :=
  sectorsOf ((rs.flatMap ByteRef.places).filterMap fun p => match p with
    | .repl _ => none
    | p => cacheKey 0 p)

/-- Write the bytes of an access at its references, in order, under a hint code. The bytes of one replicated access take one
position. -/
def State.writeHinted (s : State) (ag : Agent) (hint : Nat) (rs : List ByteRef) (bs : List Byte) : State :=
  ((match replRun rs with
    | some pa => s.replWrite ag pa bs
    | none => (rs.zip bs).foldl (fun (s : State) (rb : ByteRef × Byte) => s.writeRef ag rb.1 rb.2) s).clearPoison rs |>.holdLines rs).l2Serve
      ag.wg true hint (writtenKeys rs)

def State.writeRefs (s : State) (ag : Agent) (rs : List ByteRef) (bs : List Byte) : State := s.writeHinted ag 0 rs bs

/-- A place holds poisoned data (R385). -/
def State.placePoisoned (s : State) : Place → Bool
  | .vault w off => ((s.wg? w).map fun x => x.poisonVault.contains (off / 16)).getD false
  | p => ((poisonKey p).map s.poison.contains).getD false

def State.refPoisoned (s : State) : ByteRef → Bool
  | .whole p => s.placePoisoned p
  | .nibs lo _ hi _ => s.placePoisoned lo || s.placePoisoned hi

/-- The acquiring core drops every L1 sector: an acquire at .cl or wider (R215); its instruction caches drop theirs with it (log 11). -/
def State.l1Invalidate (s : State) (c : CoreIx) : State := s.modCore c fun x => { x with l1 := [], scalarCode := [], laneCode := [] }

/-- A replica that has not applied one of the agent's own writes applies it before the agent reads (R248). -/
def State.replRefresh (s : State) (ag : Agent) (rs : List ByteRef) : State :=
  if (rs.flatMap ByteRef.places).any fun p => match p with | .repl _ => true | _ => false then
    [0, 1, 2, 3].foldl (fun (s : State) q =>
      let r := s.reach q
      if (r.replLog.drop (getVec r.replApplied ag.reach 0)).any fun w => w.agent == (ag.wg, ag.g) then s.replicaDrain q ag.reach
      else s) s
  else s

/-! How reads are served (R215 to R218). -/

/-- The sectors of a core's L1 that an agent's access touches. A CC page is never in L1 (R206), and a host line of a CXL port is in
the L2 alone (R431). -/
def State.l1Keys (s : State) (ag : Agent) (rs : List ByteRef) : List Nat :=
  sectorsOf ((rs.flatMap ByteRef.places).filterMap fun p => match p with
    | .cc _ => none
    | .host port hpa => if (getVec s.hostif.ports port HostPort.reset).mode = .cxl then none else some (hostKey hpa)
    | p => cacheKey ag.reach p)

/-- The sectors of the L2 slices that an agent's read touches. -/
def readKeys (ag : Agent) (rs : List ByteRef) : List Nat := sectorsOf ((rs.flatMap ByteRef.places).filterMap (cacheKey ag.reach))

/-- The bytes of a sector at its home. -/
def State.sectorBytes (s : State) (key : Nat) : List Byte :=
  if key < 2 ^ 60 then s.mem.readRun key 32 else s.host.readRun (key - 2 ^ 60) 32

/-- A core's L1 drops some sectors: a bypassing load, an acquire's own read, an atomic (R241, R247, R264). -/
def State.l1Drop (s : State) (ag : Agent) (rs : List ByteRef) : State :=
  let keys := s.l1Keys ag rs
  s.modCore ag.core fun x => { x with l1 := x.l1.filter fun e => !keys.contains e.key }

/-- A core's L1 takes some sectors from their homes. -/
def State.l1Fill (s : State) (core : CoreIx) (keep : Bool) (keys : List Nat) : State :=
  s.modCore core fun c => { c with l1 := keys.foldl (fun l k => l1Put l (s.freeNat k) ⟨k, s.sectorBytes k, keep⟩) c.l1 }

/-- What a read leaves in the caches: past L1, the home's slices serve it and L1 drops what it holds of it; else the slices serve
what misses in L1, and L1 takes it unless the hint says otherwise. -/
def State.served (s : State) (ag : Agent) (hint : Nat) (past : Bool) (rs : List ByteRef) : State :=
  let keys := s.l1Keys ag rs
  let hits := if past then [] else keys.filter fun k => (s.l1Hit ag false k).isSome
  let s := (s.l2Serve ag.wg false hint ((readKeys ag rs).filter fun k => !hits.contains k)).fetchLines rs
  if past then s.l1Drop ag rs
  else if hintFillsL1 hint then s.l1Fill ag.core (hintKeep hint) (keys.filter fun k => !hits.contains k)
  else s

end Sys2Proof.Machine
end

