-- ==== Sys2Proof/Machine/Translate.lean ====
section
/-! DEFINITION. Windows, the page tree, permissions, vault ranges: from a virtual address to the places of its bytes
(R205 to R210, R236, R355, R367 to R370). -/

namespace Sys2Proof.Machine

/-- The order of R355 among the conditions of one access. -/
def condRank : TrapClass → Nat
  | .illegal => 0 | .alignPc => 1 | .address => 2 | .view => 3 | .alignData => 4 | .page => 5 | .cow => 6 | .protection => 7
  | .poison => 8 | _ => 9

/-- The condition reported among two (R355); the earlier one wins ties. -/
def firstCond (a b : Option Cond) : Option Cond :=
  match a, b with
  | none, c => c
  | c, none => c
  | some x, some y => if condRank y.cls < condRank x.cls then some y else some x

/-- What an access asks for: its bytes, whether it writes (or is an atomic, which checks writing before it reads), whether
its address must be a multiple of its size (ordered, atomic or .fe), full/empty, instruction fetch, whether the agent
reports a KVMAP status, and whether it is not plain (R254). -/
structure Acc where
  n : Nat
  write : Bool
  strict : Bool
  fe : Bool
  fetch : Bool
  reporting : Bool
  strong : Bool
  deriving DecidableEq, Repr

def Acc.load (n : Nat) : Acc := ⟨n, false, false, false, false, false, false⟩
def Acc.store (n : Nat) : Acc := ⟨n, true, false, false, false, false, false⟩
def Acc.code (n : Nat) : Acc := ⟨n, false, false, false, true, false, false⟩

/-! Physical addresses (R207, R429). -/

/-- HBM is 0 to 0x7F_FFFF_FFFF. -/
def isHbm (pa : Nat) : Bool := pa < 2 ^ 39

def portOfPa (pa : Nat) : Nat := pa / 2 ^ 48 - 2

/-- A host aperture: PA[51:48] = 2 + p for a port p whose link is up; with the link down the range is assigned to
nothing and is reserved (log 26). -/
def State.isHost (s : State) (pa : Nat) : Bool :=
  (pa / 2 ^ 48 == 2 || pa / 2 ^ 48 == 3) &&
    (getVec s.hostif.ports (portOfPa pa) HostPort.reset).mode != .down

/-- Eight bytes of local HBM or host memory, as the device reads them at their home (R369). -/
def State.physRead (s : State) (pa n : Nat) : Option Nat :=
  if isHbm pa then some (natOfBytes (s.mem.readRun pa n))
  else if s.isHost pa then some (natOfBytes (s.host.readRun (pa % 2 ^ 48) n))
  else none

/-! The walk (R367 to R369). -/

/-- A level of the tree: its lowest VA bit, its index width, whether a leaf is allowed. -/
structure Level where
  lo : Nat
  len : Nat
  leaf : Bool
  deriving DecidableEq, Repr

def levels : List Level := [⟨48, 16, false⟩, ⟨39, 9, false⟩, ⟨30, 9, true⟩, ⟨21, 9, true⟩, ⟨16, 5, true⟩]

def targetOf (e : Nat) : Option Target :=
  match fld e 5 3 with
  | 0 => some .hbm | 1 => some .repl | 2 => some .cc | 3 => some .host | 4 => some .tier
  | 5 => some (.peer (fld e 48 16) (bit e 8))
  | _ => none

/-- The address of a leaf: PA[51:8] of the entry; a PEER leaf's PA[47:12], in the door range when DOOR is set (R408). -/
def leafPa (e : Nat) (t : Target) : Nat :=
  match t with
  | .peer _ door => fld e 12 36 * 2 ^ 12 + (if door then 0xD * 2 ^ 48 else 0)
  | _ => fld e 8 44 * 2 ^ 8

/-- The must-be-zero bits of a leaf (R368): the address below the page size, the bits above the address, the bits of a
PEER leaf below its address, and the bits a CC locator does not use; a CC leaf stands at level 3. -/
def leafWellFormed (e : Nat) (t : Target) (lo : Nat) : Bool :=
  match t with
  | .peer _ _ => fld e 9 3 == 0 && fld e 12 (lo - 12) == 0
  | .cc => lo == 21 && fld e 39 13 == 0 && fld e 8 13 == 0 && fld e 52 12 == 0
  | _ => fld e 52 12 == 0 && fld e 8 (lo - 8) == 0

/-- A leaf's physical address is one its target may have: HBM for HBM and REPL, a host aperture for HOST and TIER (R206,
R207; log 26). -/
def State.leafPaOk (s : State) (t : Target) (pa : Nat) : Bool :=
  match t with
  | .hbm | .repl => isHbm pa
  | .host | .tier => s.isHost pa
  | .cc | .peer _ _ => true

/-- Walk the levels from a node. A failure carries the M bit: the entry was malformed. -/
def State.walk (s : State) (va : Nat) : List Level → Nat → Except Bool Leaf
  | [], _ => .error true
  | l :: rest, node =>
    match s.physRead (node + 8 * fld va l.lo l.len) 8 with
    | none => .error true
    | some e =>
      if !bit e 0 then .error false
      else if bit e 1 then
        match targetOf e with
        | none => .error true
        | some t =>
          if !l.leaf || !leafWellFormed e t l.lo then .error true
          else if !s.leafPaOk t (leafPa e t) then .error false
          else .ok ⟨va / 2 ^ l.lo * 2 ^ l.lo, 2 ^ l.lo, t, leafPa e t, bit e 2, bit e 3, bit e 4⟩
      else
        let next := fld e 8 44 * 2 ^ 8
        let align := if rest.length = 1 then 256 else 4096
        if fld e 5 3 != 0 || fld e 52 12 != 0 || next % align != 0 || rest.isEmpty || !(isHbm next || s.isHost next) then
          .error true
        else s.walk va rest next

/-- The translation of an address among cached ones (R370). -/
def tlbLookup (l : List TlbEntry) (ctx : BitVec 20) (va : Nat) : Option Leaf :=
  (l.find? fun e => e.ctx == ctx && e.leaf.base ≤ va && va < e.leaf.base + e.leaf.size).map (·.leaf)

/-- The cached translation of an agent's address: its core's, else its reach's. -/
def State.tlbFind (s : State) (ag : Agent) (va : Nat) : Option Leaf :=
  match tlbLookup (s.core ag.core).tlb ag.ctx va with
  | some l => some l
  | none => tlbLookup (s.reach ag.reach).tlb ag.ctx va

/-- Translate an ordinary address: a cached translation, or a walk from the context's root (R367, R369, R371). -/
def State.translate (s : State) (ag : Agent) (va : Nat) : Except Bool Leaf :=
  match s.tlbFind ag va with
  | some l => .ok l
  | none =>
    match s.ctx? ag.ctx with
    | none => .error false
    | some c => s.walk va levels c.pageRoot

/-! One byte of the address space. -/

/-- The window of an address (R205). -/
inductive Window where
  | ordinary | lanePrivate | vault | view | reserved
  deriving DecidableEq, Repr

def windowOf (va : Nat) : Window :=
  let t := fld va 56 8
  if t ≤ 0xF7 then .ordinary
  else if t = 0xFC then .lanePrivate
  else if t = 0xFD then .vault
  else if t = 0xFE then .view
  else .reserved

/-- The place of an address within a leaf's page (R206, R326, R408). -/
def leafPlace (l : Leaf) (va : Nat) : Place :=
  let pa := l.pa + (va - l.base)
  match l.target with
  | .hbm => .hbm pa
  | .repl => .repl pa
  | .cc => .cc pa
  | .host | .tier => .host (portOfPa pa) (pa % 2 ^ 48)
  | .peer d _ => .peer d pa

/-- What a translation permits: a fetch needs X, a write W, else COW or PROTECTION (R369). -/
def permCond (l : Leaf) (acc : Acc) : Option TrapClass :=
  if acc.fetch && !l.x then some .protection
  else if acc.write && !l.w then (if l.cow then some .cow else some .protection)
  else none

/-- One ordinary byte. The condition's address is the address of the access (R143, R362). -/
def State.ordinaryByte (s : State) (ag : Agent) (acc : Acc) (at_ va : Nat) : Except Cond Place :=
  match s.translate ag va with
  | .error m => .error ⟨.page, at_, m⟩
  | .ok l =>
    match permCond l acc with
    | some c => .error ⟨c, at_, false⟩
    | none => .ok (leafPlace l va)

/-- The vault target of an access of n bytes (R210). -/
def State.vaultTarget (s : State) (ag : Agent) (va n : Nat) : Option (WgIx × Nat) :=
  if fld va 40 16 != 0 then none
  else
    let rank := fld va 32 8
    let target := if rank = 0xFF then some ag.wg
      else if rank < (s.clusterOf ag.wg).2 then s.rankWg ag.wg rank else none
    match target with
    | none => none
    | some w =>
      match s.wg? w with
      | none => none
      | some x => if x.state != .complete && fld va 0 32 + n ≤ x.vaultSize then some (w, fld va 0 32) else none

/-- A byte of the lane's own private memory: the interleave of R208. -/
def privKey (lane o : Nat) : Nat := o / 16 * (16 * Config.lanes) + 16 * lane + o % 16

def State.privPlace (s : State) (ag : Agent) (va : Nat) : Option Place :=
  match ag.lane, s.group? ag.wg ag.g with
  | some i, some g => if fld va 0 56 < g.pv then some (.priv ag.wg ag.g (privKey i (fld va 0 56))) else none
  | _, _ => none

/-- The bytes of an access at consecutive addresses, all resolved by one function. -/
def resolveBytes (f : Nat → Except Cond Place) (va : Nat) : Nat → Except Cond (List ByteRef)
  | 0 => .ok []
  | n + 1 =>
    match f (va % 2 ^ 64), resolveBytes f (va + 1) n with
    | .ok p, .ok ps => .ok (.whole p :: ps)
    | .error c, .ok _ => .error c
    | .ok _, .error c => .error c
    | .error c, .error d => .error (if condRank d.cls < condRank c.cls then d else c)

/-- A byte of an access whose first byte lies in the ordinary pages: the next window up is reserved (R205). -/
def State.flatByte (s : State) (ag : Agent) (acc : Acc) (at_ va : Nat) : Except Cond Place :=
  if windowOf va = .ordinary then s.ordinaryByte ag acc at_ va else .error ⟨.address, at_, false⟩

/-- An access to the ordinary pages, the vault window or lane-private memory: its places, or the first condition of R355.
The view aperture is Machine/Views.lean's. -/
def State.resolveFlat (s : State) (ag : Agent) (acc : Acc) (va : Nat) : Except Cond (List ByteRef) :=
  let misaligned := acc.strict && va % acc.n != 0
  let bad (c : TrapClass) : Except Cond (List ByteRef) := .error ⟨c, va, false⟩
  match windowOf va with
  | .ordinary =>
    if acc.fe then bad .address
    else
      match resolveBytes (s.flatByte ag acc va) va acc.n with
      | .error c => if misaligned && condRank .alignData < condRank c.cls then bad .alignData else .error c
      | .ok ps => if misaligned then bad .alignData else .ok ps
  | .vault =>
    if acc.fetch then bad .address
    else
      match s.vaultTarget ag va acc.n with
      | none => bad .address
      | some (w, off) =>
        if misaligned || (acc.fe && off / 16 != (off + acc.n - 1) / 16) then bad .alignData
        else .ok ((List.range acc.n).map fun i => .whole (.vault w (off + i)))
  | .lanePrivate =>
    if acc.fetch || acc.strict || acc.fe || acc.strong then bad .address
    else
      match (List.range acc.n).mapM fun i => s.privPlace ag (va + i) with
      | none => bad .address
      | some ps => .ok (ps.map .whole)
  | .view | .reserved => bad .address

end Sys2Proof.Machine
end

