-- ==== Sys2Proof/Machine/Views.lean ====
section
/-! DEFINITION. The view aperture: descriptors, their checks, and the DENSE, GATHER and KVMAP rules that turn a view
offset into base bytes (R219 to R231). resolve is the one function every access by address goes through. -/

namespace Sys2Proof.Machine

/-- The kinds of a descriptor (R220). -/
inductive ViewKind where
  | invalid | dense | gather | kvmap
  deriving DecidableEq, Repr

/-- A view descriptor (R220). -/
structure Desc where
  kind : Option ViewKind
  far : Bool
  ro : Bool
  vault : Bool
  rank : Nat
  /-- element bits: 4, 8, 16, 32, 64, or none -/
  ebits : Option Nat
  mxw : Nat
  scaleApart : Bool
  splitMx : Bool
  home : Nat
  base : Nat
  extent : List Nat
  perm : List Nat
  n : Nat
  dbit : Nat
  sbit : Nat
  tile : List Nat
  stride : List Int
  /-- the bits R220 marks reserved are zero -/
  reservedZero : Bool
  /-- the reserved fields of the kind's own fields are zero -/
  kindZero : Bool
  /-- GATHER: index address, count, limit, dimension -/
  index : Nat
  count : Nat
  limit : Nat
  g : Nat
  /-- KVMAP: row stride and log2 of positions per page (the map address shares the place of the index address) -/
  rowStride : Nat
  pl : Nat
  deriving DecidableEq, Repr

def viewKindOf : Nat → Option ViewKind
  | 0 => some .invalid | 1 => some .dense | 2 => some .gather | 3 => some .kvmap
  | _ => none

def esizeBits : Nat → Option Nat
  | 0 => some 4 | 1 => some 8 | 2 => some 16 | 3 => some 32 | 4 => some 64
  | _ => none

/-- Read a 128-byte descriptor image (R220). -/
def parseDesc (r : List Byte) : Desc :=
  let control := recNat r 0x00 4
  let home := recNat r 0x04 4
  let perm := recNat r 0x28 4
  let swz := recNat r 0x2C 4
  let kind := viewKindOf (fld control 0 4)
  { kind := kind, far := bit control 11, ro := bit control 10, vault := bit control 12, rank := fld control 7 3,
    ebits := esizeBits (fld control 4 3), mxw := fld control 13 2, scaleApart := bit control 16, splitMx := bit control 15,
    home := fld home 0 16, base := recNat r 0x08 8,
    extent := (List.range 6).map fun d => recNat r (0x10 + 4 * d) 4,
    perm := (List.range 6).map fun d => fld perm (4 * d) 4,
    n := fld swz 0 4, dbit := fld swz 4 6, sbit := fld swz 10 6,
    tile := (List.range 6).map fun k => recNat r (0x30 + k) 1,
    stride := (List.range 6).map fun k => signed 48 (recNat r (0x38 + 6 * k) 6),
    reservedZero := fld control 17 15 == 0 && fld home 18 14 == 0 && fld perm 24 8 == 0 && fld swz 16 16 == 0 &&
      recNat r 0x36 2 == 0 && recNat r 0x5C 4 == 0,
    kindZero := (match kind with
      | some .dense => (bit control 16 || recNat r 0x60 8 == 0) && allZero (recBytes r 0x68 24)
      | some .gather => recNat r 0x70 4 < 8 && allZero (recBytes r 0x74 12)
      | some .kvmap => allZero (recBytes r 0x6D 19)
      | _ => true),
    index := recNat r 0x60 8, count := recNat r 0x68 4, limit := recNat r 0x6C 4, g := fld (recNat r 0x70 4) 0 3,
    rowStride := recNat r 0x68 4, pl := recNat r 0x6C 1 }

/-- Bytes of an element of 8 bits or more. -/
def ebytes (ebits : Nat) : Nat := ebits / 8

/-- The size S of a view in bytes (R221). -/
def Desc.size (d : Desc) (ebits : Nat) : Nat := ((d.extent.take d.rank).foldl (· * ·) 1 * ebits + 7) / 8

/-- perm[0] to perm[rank - 1] are a permutation of 0 to rank - 1 (R221). -/
def Desc.permOk (d : Desc) : Bool := (List.range d.rank).all fun k => (d.perm.take d.rank).contains k

/-- The KVMAP conditions that depend on the fields alone (R225). -/
def Desc.kvOk (d : Desc) (ebits : Nat) : Bool :=
  d.rank == 4 && (d.perm.take 4) == [0, 1, 2, 3] && d.perm.drop 4 == [0, 0] && d.tile.all (· == 0) && d.stride.all (· == 0) &&
  d.n == 0 && d.dbit == 0 && d.sbit == 0 && (ebits == 8 || ebits == 16 || ebits == 32) &&
  d.rowStride % ebytes ebits == 0 && d.extent.headD 0 * ebytes ebits ≤ d.rowStride && d.index % 16 == 0 && d.pl ≤ 12

/-- The conditions of R221, R224 and R225 that depend only on the descriptor's fields; they fail with VIEW. -/
def Desc.fieldsOk (d : Desc) : Bool :=
  match d.kind, d.ebits with
  | some k, some eb =>
    k != .invalid && d.reservedZero && d.kindZero && 1 ≤ d.rank && d.rank ≤ 6 && d.permOk &&
    (d.extent.take d.rank).all (· != 0) && (d.extent.drop d.rank).all (· == 0) && (d.tile.drop d.rank).all (· == 0) &&
    (d.stride.drop d.rank).all (· == 0) && d.tile.all (· ≤ 15) && d.n ≤ 8 &&
    (d.n == 0 || (d.dbit + d.n ≤ d.sbit && d.sbit + d.n ≤ 64 && (eb < 8 || Nat.log2 (ebytes eb) ≤ d.dbit))) &&
    d.size eb ≤ 2 ^ 40 && (d.vault || windowOf d.base != .view) &&
    !(d.mxw != 0 && d.scaleApart && (k == .gather || k == .kvmap)) &&
    (k != .gather || (d.g < d.rank && d.index % 4 == 0)) && (k != .kvmap || d.kvOk eb)
  | _, _ => false

/-- The static check of VIEWB (R272): an INVALID image is tested for reserved bits only. -/
def Desc.imageOk (d : Desc) : Bool := if d.kind == some .invalid then d.reservedZero else d.fieldsOk

/-- View coordinates of an element, dimension 0 fastest. -/
def viewCoords : List Nat → Nat → List Nat
  | [], _ => []
  | x :: xs, e => e % x :: viewCoords xs (e / x)

/-- The bit offset of base coordinates before the swizzle (R223). -/
def denseBits (tile : List Nat) (stride : List Int) (c : List Nat) (ebits : Nat) : Int :=
  let step := fun (acc : Int × Int × Nat) (k : Nat × Nat × Int) =>
    let (outer, inner, vol) := acc
    let (ck, tk, sk) := k
    (outer + (ck / 2 ^ tk : Nat) * sk, inner + (ck % 2 ^ tk * vol : Nat), vol * 2 ^ tk)
  let (outer, inner, _) := (c.zip (tile.zip stride)).foldl step (0, 0, 1)
  (outer + inner) * ebits

/-- The swizzle of R223. -/
def swizzle (d : Desc) (b : Nat) : Nat :=
  if d.n = 0 then b else b ^^^ (b / 2 ^ d.sbit % 2 ^ d.n * 2 ^ d.dbit)

/-- Base coordinates: c[perm[d]] := i[d]. -/
def baseCoords (d : Desc) (i : List Nat) : List Nat :=
  (List.range d.rank).map fun k => i.getD (d.perm.idxOf k) 0

/-- The base byte address of an element and, for 4-bit elements, whether it is the high nibble (R222, R223). -/
def denseAddress (d : Desc) (ebits : Nat) (i : List Nat) : Nat × Bool :=
  let b := denseBits d.tile d.stride (baseCoords d i) ebits
  let off := swizzle d (wrap 64 (b / 8))
  ((d.base + off) % 2 ^ 64, b % 8 != 0)

/-- The outcome of resolving: the places or a condition, and a tier miss to be posted in either case (R437). -/
structure Look where
  res : Except Cond Resolved
  miss : Option Miss

def Look.bad (c : TrapClass) (addr : Nat) : Look := ⟨.error ⟨c, addr, false⟩, none⟩

/-- What an agent's read of a run of peer bytes was answered. -/
def State.answer (s : State) (iss : Issuer) (dev addr n : Nat) : Option Outcome :=
  (s.fabric.ops.find? fun o => o.issuer == iss && o.owner == dev && o.addr == addr && o.payload == .load n).bind (·.result)

/-- The places of bytes that the view unit reads on an agent's behalf: ordinary or vault addresses (R209, R224, R235). -/
def State.fetchPlaces (s : State) (ag : Agent) (va n : Nat) : Except Cond (List ByteRef) :=
  s.resolveFlat { ag with lane := none } (Acc.load n) va

/-- Runs of consecutive bytes of one peer device among references: position, device, address and length (R407). -/
def peerRuns : Nat → List ByteRef → List (Nat × Nat × Nat × Nat)
  | _, [] => []
  | i, .whole (.peer d a) :: rest =>
    match peerRuns (i + 1) rest with
    | (j, d', a', n) :: more =>
      if j = i + 1 && d' = d && a' = a + 1 then (i, d, a, n + 1) :: more else (i, d, a, 1) :: (j, d', a', n) :: more
    | [] => [(i, d, a, 1)]
  | i, _ :: rest => peerRuns (i + 1) rest

/-- Replace the bytes from a position on. -/
def splice (bs : List Byte) (pos : Nat) (d : List Byte) : List Byte := bs.take pos ++ d ++ bs.drop (pos + d.length)

/-- The bytes of a read by an issuer, those of a peer as its answers gave them; an answer that is no performed result is PROTECTION,
REMOTE or POISON, as for a load (R424). -/
def State.withAnswers (s : State) (iss : Issuer) (va : Nat) (rs : List ByteRef) (bs : List Byte) : Except Cond (List Byte) :=
  (peerRuns 0 rs).foldl (fun (acc : Except Cond (List Byte)) r =>
    match acc, s.answer iss r.2.1 r.2.2.1 r.2.2.2 with
    | .ok bs, some (.performed d) => .ok (splice bs r.1 d)
    | .ok _, some .poison => .error ⟨.poison, va, false⟩
    | .ok _, some .error => .error ⟨.protection, va, false⟩
    | .ok _, some _ => .error ⟨.remote, va, false⟩
    | .ok bs, none => .ok bs
    | .error c, _ => .error c) (.ok bs)

/-- Bytes that the view unit reads on an agent's behalf. -/
def State.fetchFlat (s : State) (ag : Agent) (fresh : Bool) (va n : Nat) : Except Cond (List Byte) :=
  match s.fetchPlaces ag va n with
  | .error c => .error c
  | .ok rs => if rs.any s.refPoisoned then .error ⟨.poison, va, false⟩ else s.withAnswers ag.issuer va rs (s.readRefs ag fresh rs)

/-- A vault byte behind a view. -/
def State.vaultByte (s : State) (ag : Agent) (viewVa va : Nat) : Except Cond Place :=
  match s.vaultTarget ag va 1 with
  | some (w, off) => .ok (.vault w off)
  | none => .error ⟨.address, viewVa, false⟩

/-- Translate a base address behind a view: ordinary, peer or vault, faults reported with the view address (R222). -/
def State.baseByte (s : State) (ag : Agent) (acc : Acc) (viewVa va : Nat) : Except Cond Place :=
  match windowOf va with
  | .ordinary => s.ordinaryByte ag acc viewVa va
  | .vault => s.vaultByte ag viewVa va
  | _ => .error ⟨.address, viewVa, false⟩

/-- Where a physical tile byte lies (R226, R207). -/
def State.physPlace (s : State) (viewVa pa : Nat) : Except Cond Place :=
  if isHbm pa then .ok (.hbm pa)
  else if s.isHost pa then .ok (.host (portOfPa pa) (pa % 2 ^ 48))
  else .error ⟨.page, viewVa, false⟩

/-- The base of one view element: a null element, an address, or a physical tile address. -/
inductive ElemBase where
  | none
  | va (a : Nat) (high : Bool)
  | phys (pa : Nat)
  deriving DecidableEq, Repr

/-- A residency-map entry (R226). -/
structure KvEntry where
  status : Nat
  gen : Nat
  tile : Nat
  segaddr : Nat
  af : Bool
  wellFormed : Bool
  deriving DecidableEq, Repr

def parseEntry (e : Nat) : KvEntry :=
  { status := fld e 0 3, gen := fld e 8 16, tile := fld e 24 40 * 2 ^ 12, segaddr := fld e 64 52, af := bit e 4,
    wellFormed := fld e 116 12 == 0 && fld e 5 3 == 0 && !bit e 3 && !bit e 64 && fld e 0 3 < 5 }

/-- Positions per page and pages per sequence and head (R225). -/
def Desc.pageLen (d : Desc) : Nat := 2 ^ d.pl
def Desc.pagesPerHead (d : Desc) : Nat := (d.extent.getD 1 0 + d.pageLen - 1) / d.pageLen
/-- The number of entries of a KVMAP view (R274). -/
def Desc.entryCount (d : Desc) : Nat := d.extent.getD 2 0 * d.extent.getD 3 0 * d.pagesPerHead

/-- Bytes of a tile, rounded up to 4 KiB (R437). -/
def Desc.tileBytes (d : Desc) : Nat := alignUp 4096 (d.pageLen * d.rowStride)

/-- Bytes of an MX block of the surface: its elements, and its scale unless that lies apart (R45, R220). -/
def Desc.mxBlock (d : Desc) : Nat := (if d.mxw = 1 then 32 else if d.mxw = 2 then 24 else 16) + boolNat (!d.scaleApart)

/-- The coupled blocks of bytes of the surface, by offset (R250). -/
def Desc.coupled (d : Desc) (view : Nat) (offs : List Nat) : List (Nat × Nat × Nat) :=
  if d.mxw = 0 || d.splitMx then [] else offs.map fun o => (view, o / d.mxBlock, d.mxBlock)

/-- An element's base by the DENSE and GATHER rules. -/
def State.denseElem (s : State) (ag : Agent) (d : Desc) (ebits viewVa e : Nat) : Except Cond ElemBase :=
  let i := viewCoords (d.extent.take d.rank) e
  match d.kind with
  | some .gather =>
    let j := i.getD d.g 0
    if d.count ≠ 0 ∧ d.count ≤ j then .ok .none
    else match s.fetchFlat ag false ((d.index + 4 * j) % 2 ^ 64) 4 with
      | .error c => .error { c with addr := viewVa }
      | .ok bs =>
        let x := natOfBytes bs
        if d.limit ≠ 0 ∧ d.limit ≤ x then .ok .none
        else .ok (let a := denseAddress d ebits (i.set d.g x); .va a.1 a.2)
  | _ => .ok (let a := denseAddress d ebits i; .va a.1 a.2)

/-- The address of an element's base with VAULT: an offset in the own allocation (R222). -/
def Desc.baseVa (d : Desc) (a : Nat) : Nat := if d.vault then (0xFD0000FF00000000 + a) % 2 ^ 64 else a

/-- The device that homes a place: this one for its own memory; host memory has none (R231). -/
def State.homeDevice (s : State) : Place → Option Nat
  | .peer dev _ => some dev
  | .hbm _ | .repl _ | .cc _ | .vault _ _ => some s.hostif.devnum.toNat
  | _ => none

/-- With FAR, the byte is homed on the descriptor's device, or VIEW (R231). -/
def State.farPlace (s : State) (d : Desc) (viewVa : Nat) (p : Except Cond Place) : Except Cond Place :=
  match p with
  | .error c => .error c
  | .ok p => if d.far && s.homeDevice p != some d.home then .error ⟨.view, viewVa, false⟩ else .ok p

/-- The place of byte j of an element. A VAULT base goes by R210 whatever window its sum lies in (R222). -/
def State.elemByte (s : State) (ag : Agent) (acc : Acc) (d : Desc) (viewVa : Nat) (b : ElemBase) (j : Nat) : Except Cond Place :=
  match b with
  | .none => .ok .null
  | .phys pa => s.farPlace d viewVa (s.physPlace viewVa (pa + j))
  | .va a _ =>
    let at_ := (d.baseVa a + j) % 2 ^ 64
    s.farPlace d viewVa (if d.vault then s.vaultByte ag viewVa at_ else s.baseByte ag acc viewVa at_)

/-- The byte o of a view of 8-bit or wider elements, or the two nibbles of byte o of a 4-bit view. Nibbles at or beyond
the last element are null. -/
def State.viewByte (s : State) (ag : Agent) (acc : Acc) (d : Desc) (ebits viewVa : Nat)
    (elem : Nat → Except Cond ElemBase) (o : Nat) : Except Cond ByteRef :=
  if ebits = 4 then
    let total := (d.extent.take d.rank).foldl (· * ·) 1
    let one (e : Nat) : Except Cond (Place × Bool) :=
      if total ≤ e then .ok (.null, false)
      else match elem e with
        | .error c => .error c
        | .ok b => match s.elemByte ag acc d viewVa b 0 with
          | .error c => .error c
          | .ok p => .ok (p, match b with | .va _ h => h | _ => false)
    match one (2 * o), one (2 * o + 1) with
    | .ok (p, h), .ok (q, k) => .ok (.nibs p h q k)
    | .error c, .ok _ => .error c
    | .ok _, .error c => .error c
    | .error c, .error c' => .error (if condRank c'.cls < condRank c.cls then c' else c)
  else
    match elem (8 * o / ebits) with
    | .error c => .error c
    | .ok b => match s.elemByte ag acc d viewVa b (o % ebytes ebits) with
      | .error c => .error c
      | .ok p => .ok (.whole p)

/-- All bytes of a view access; the first condition of R355 among them. -/
def viewBytes (f : Nat → Except Cond ByteRef) (o : Nat) : Nat → Except Cond (List ByteRef)
  | 0 => .ok []
  | n + 1 =>
    match f o, viewBytes f (o + 1) n with
    | .ok p, .ok ps => .ok (p :: ps)
    | .error c, .ok _ => .error c
    | .ok _, .error c => .error c
    | .error c, .error d => .error (if condRank d.cls < condRank c.cls then d else c)

/-- The base address of a view byte's element is a multiple of the access size (R229, R236). -/
def baseAligned (n : Nat) (elem : Nat → Except Cond ElemBase) (ebits o : Nat) (d : Desc) : Bool :=
  match elem (8 * o / ebits) with
  | .ok (.va a _) => (d.baseVa a + o % ebytes ebits) % n == 0
  | .ok (.phys pa) => (pa + o % ebytes ebits) % n == 0
  | _ => true

/-- The entry of a KVMAP element (f, p, h, s): its number, its address and the element's place in the tile (R225, R226). -/
structure KvPoint where
  number : Nat
  va : Nat
  position : Nat
  offset : Nat
  deriving DecidableEq, Repr

def Desc.kvPoint (d : Desc) (ebits e : Nat) : KvPoint :=
  let i := viewCoords (d.extent.take 4) e
  let f := i.getD 0 0; let p := i.getD 1 0; let h := i.getD 2 0; let sq := i.getD 3 0
  let number := (sq * d.extent.getD 2 0 + h) * d.pagesPerHead + p / d.pageLen
  ⟨number, (d.index + 16 * number) % 2 ^ 64, p, p % d.pageLen * d.rowStride + f * ebytes ebits⟩

/-- The map lies in pages the context's programs cannot write (R225), and its entry is read at its home as an acquire at
.dev (R226). -/
def State.kvRead (s : State) (ag : Agent) (viewVa va : Nat) : Except Cond KvEntry :=
  if windowOf va != .ordinary then .error ⟨.address, viewVa, false⟩
  else match s.translate ag va with
    | .error m => .error ⟨.page, viewVa, m⟩
    | .ok l =>
      if l.w then .error ⟨.view, viewVa, false⟩
      else match s.fetchFlat ag true va 16 with
        | .error c => .error { c with addr := viewVa }
        | .ok bs => .ok (parseEntry (natOfBytes bs))

/-- The address of a descriptor in the context's view table (R219). -/
def State.descVa (s : State) (ctx : BitVec 20) (view : Nat) : Nat := (((s.ctx? ctx).map (·.viewTable)).getD 0 + 128 * view) % 2 ^ 64

/-- The 128 bytes of a descriptor: the image that a started command holds, else what the view table holds (R219, R272). -/
def State.descImage (s : State) (ag : Agent) (viewVa view : Nat) : Except Cond (List Byte) :=
  match ag.images.find? fun x => x.1 == view with
  | some x => .ok x.2
  | none =>
    let va := s.descVa ag.ctx view
    if (s.ctx? ag.ctx).isNone then .error ⟨.page, viewVa, false⟩
    else if windowOf va != .ordinary then .error ⟨.address, viewVa, false⟩
    else match s.fetchFlat ag true va 128 with
      | .error e => .error { e with addr := viewVa }
      | .ok bs => .ok bs

def State.descOf (s : State) (ag : Agent) (viewVa view : Nat) : Except Cond Desc :=
  match s.descImage ag viewVa view with
  | .error c => .error c
  | .ok bs => .ok (parseDesc bs)

/-- The images of the views that some addresses lie in. -/
def State.imagesOf (s : State) (ag : Agent) (vas : List Nat) : List (Nat × List Byte) :=
  (vas.filter fun va => windowOf va == .view).filterMap fun va =>
    match s.descImage ag va (fld va 40 16) with
    | .ok bs => some (fld va 40 16, bs)
    | .error _ => none

/-- A KVMAP access: its entry, the statuses of R227, and its tile bytes. -/
def State.resolveKv (s : State) (ag : Agent) (acc : Acc) (d : Desc) (ebits view viewVa o : Nat) : Look :=
  let pt := d.kvPoint ebits (8 * o / ebits)
  match s.kvRead ag viewVa pt.va with
  | .error c => ⟨.error c, none⟩
  | .ok e =>
    if !e.wellFormed then Look.bad .view viewVa
    else if e.status = 0 then
      let elem := fun k => (Except.ok (ElemBase.phys (e.tile + (d.kvPoint ebits k).offset)) : Except Cond ElemBase)
      match viewBytes (s.viewByte ag acc d ebits viewVa elem) o acc.n with
      | .error c => ⟨.error c, none⟩
      | .ok rs =>
        if acc.strict && !baseAligned acc.n elem ebits o d then Look.bad .alignData viewVa
        else
          let sp := e.segaddr + 2 * (pt.position % d.pageLen)
          let seg := match s.physPlace viewVa sp, s.physPlace viewVa (sp + 1) with
            | .ok a, .ok b => some (a, b)
            | _, _ => none
          let offs := (List.range acc.n).map fun i => pt.number * 2 ^ 40 + (d.kvPoint ebits (8 * (o + i) / ebits)).offset + (o + i) % ebytes ebits
          ⟨.ok ⟨rs, [], (0, e.gen), if d.far then some d.home else none, seg, pt.position, d.coupled view offs, [(view, pt.number + 1)]⟩, none⟩
    else
      let miss := if e.status = 1 then some ⟨view, pt.number, e.gen, e.af, pt.va, d.tileBytes⟩ else none
      if acc.reporting then
        ⟨.ok ⟨List.replicate acc.n (.whole .null), [], (e.status, e.gen), none, none, pt.position, [], [(view, pt.number + 1)]⟩, miss⟩
      else ⟨.error ⟨if e.status = 4 then .poison else .view, viewVa, false⟩, miss⟩

/-- The runs of bytes that the view unit reads for an access: the descriptor, then indices or map entries (R219, R224, R226). -/
def State.viewFetches (s : State) (ag : Agent) (acc : Acc) (va : Nat) : List (Nat × Nat) :=
  if windowOf va != .view then []
  else
    let view := fld va 40 16
    let own := if ag.images.any fun x => x.1 == view then [] else [(s.descVa ag.ctx view, 128)]
    match s.descOf ag va view with
    | .error _ => own
    | .ok d =>
      match d.ebits with
      | none => own
      | some ebits =>
        if !d.fieldsOk || d.size ebits < fld va 0 40 + acc.n then own
        else
          let es := (((List.range acc.n).flatMap fun i =>
            let b := 8 * (fld va 0 40 + i)
            if ebits = 4 then [b / 4, b / 4 + 1] else [b / ebits]).eraseDups)
          own ++ (match d.kind with
            | some .gather => es.filterMap fun e =>
              let j := (viewCoords (d.extent.take d.rank) e).getD d.g 0
              if d.count ≠ 0 ∧ d.count ≤ j then none else some ((d.index + 4 * j) % 2 ^ 64, 4)
            | some .kvmap => es.map fun e => ((d.kvPoint ebits e).va, 16)
            | _ => []).eraseDups

/-- An access that also meets a condition of its own reports the earlier of the two (R355). -/
def Look.orCond (r : Look) (cls : TrapClass) (va : Nat) : Look :=
  match r.res with
  | .error c => if condRank c.cls < condRank cls then r else ⟨.error ⟨cls, va, false⟩, r.miss⟩
  | .ok _ => ⟨.error ⟨cls, va, false⟩, r.miss⟩

/-- An access through the view aperture (R219 to R229). -/
def State.resolveView (s : State) (ag : Agent) (acc : Acc) (va : Nat) : Look :=
  if acc.fetch || acc.fe then Look.bad .address va
  else
    let view := fld va 40 16
    let o := fld va 0 40
    match s.descOf ag va view with
    | .error c => ⟨.error c, none⟩
    | .ok d =>
      match d.ebits with
      | none => Look.bad .view va
      | some ebits =>
        if !d.fieldsOk || d.size ebits < o + acc.n then Look.bad .view va
        else
          let spans := acc.strict && 8 * o / ebits != (8 * (o + acc.n) - 1) / ebits
          let roBad := acc.write && d.ro
          let r :=
            if d.kind == some .kvmap then
              if 8 * o / ebits / d.extent.headD 1 != (8 * (o + acc.n) - 1) / ebits / d.extent.headD 1 then
                -- the bytes of several rows: each byte is resolved through its own element's entry
                (List.range acc.n).foldl (fun (acc' : Look) i =>
                  let l := s.resolveKv ag { acc with n := 1 } d ebits view va (o + i)
                  ⟨match acc'.res, l.res with
                    | .ok x, .ok y => .ok { y with refs := x.refs ++ y.refs, kv := if i = 0 then y.kv else x.kv, mx := x.mx ++ y.mx, via := x.via ++ y.via }
                    | .error c, .ok _ => .error c
                    | .ok _, .error c => .error c
                    | .error c, .error c' => .error (if condRank c'.cls < condRank c.cls then c' else c),
                   match acc'.miss with | none => l.miss | m => m⟩)
                  ⟨.ok ⟨[], [], (0, 0), none, none, 0, [], []⟩, none⟩
              else s.resolveKv ag acc d ebits view va o
            else
              let elem := s.denseElem ag d ebits va
              match viewBytes (s.viewByte ag acc d ebits va elem) o acc.n with
              | .error c => ⟨.error c, none⟩
              | .ok rs =>
                if acc.strict && !baseAligned acc.n elem ebits o d then Look.bad .alignData va
                else
                  let bases := (List.range acc.n).filterMap fun i =>
                    match elem (8 * (o + i) / ebits) with
                    | .ok (.va a _) => some (d.baseVa a)
                    | _ => none
                  let offs := (List.range acc.n).filterMap fun i =>
                    match elem (8 * (o + i) / ebits) with
                    | .ok (.va a _) => some ((a + 2 ^ 64 - d.base) % 2 ^ 64 + (o + i) % ebytes ebits)
                    | _ => none
                  ⟨.ok ⟨rs, bases, (0, 0), if d.far then some d.home else none, none, 0, d.coupled view offs, [(view, 0)]⟩, none⟩
          let r := if roBad then r.orCond .protection va else r
          if spans then r.orCond .alignData va else r

/-- Resolve an access at a virtual address, whatever its window (R205). -/
def State.resolve (s : State) (ag : Agent) (acc : Acc) (va : Nat) : Look :=
  match windowOf va with
  | .view => s.resolveView ag acc va
  | _ =>
    match s.resolveFlat ag acc va with
    | .error c => ⟨.error c, none⟩
    | .ok rs => ⟨.ok ⟨rs, [va], (0, 0), none, none, 0, [], []⟩, none⟩

/-- The peer bytes of an access go in one view request to each owner: with FAR, and where they lie in a coupled MX block, which the
owner then reads or writes whole (R231, R250). -/
def Resolved.gathers (r : Resolved) : Bool := r.far.isSome || !r.mx.isEmpty

/-- The page through which an address is translated, by address and size (R371). -/
def State.pageOf (s : State) (ag : Agent) (va : Nat) : Nat × Nat :=
  match s.translate ag va with
  | .ok l => (l.base, l.size)
  | .error _ => (va, 1)

end Sys2Proof.Machine
end

