-- ==== Sys2Proof/Machine/Rings.lean ====
section
/-! DEFINITION. What the device writes for the host: bytes at a device physical address, the event ring with its
MSI-X signals, and the health and violation logs (R397, R398, R432, R435). -/

namespace Sys2Proof.Machine

/-! Device physical addresses (R207, R429). -/

/-- n bytes at a device physical address of HBM or of a host aperture. -/
def State.physBytes (s : State) (pa n : Nat) : Option (List Byte) :=
  if isHbm pa && isHbm (pa + n - 1) then some (s.mem.readRun pa n)
  else if s.isHost pa then some (s.host.readRun (pa % 2 ^ 48) n)
  else none

/-- Write bytes at such an address. -/
def State.physPut (s : State) (pa : Nat) (bs : List Byte) : Option State :=
  if isHbm pa && isHbm (pa + bs.length - 1) then some { s with mem := s.mem.writeRun pa bs }
  else if s.isHost pa then some { s with host := s.host.writeRun (pa % 2 ^ 48) bs }
  else none

/-- A little-endian field of host memory at a host physical address. -/
def State.hostNat (s : State) (hpa n : Nat) : Nat := natOfBytes (s.host.readRun (hpa % 2 ^ 48) n)

def State.hostPut (s : State) (hpa : Nat) (bs : List Byte) : State :=
  { s with host := s.host.writeRun (hpa % 2 ^ 48) bs }

def State.modHost (s : State) (f : HostIf → HostIf) : State := { s with hostif := f s.hostif }

/-! Events (R435). -/

/-- The event kinds. -/
inductive EventKind where
  | commandDone | trap | tierMiss | pagedIn | pageAbandoned | quiescentExternal | tierHot | log
  deriving DecidableEq, Repr

def eventCode : EventKind → Nat
  | .commandDone => 1 | .trap => 2 | .tierMiss => 3 | .pagedIn => 4 | .pageAbandoned => 5 | .quiescentExternal => 6
  | .tierHot => 7 | .log => 8

/-- The MSI-X vector of an event: 0 COMMAND-DONE, 1 TRAP, 2 the tier events, 3 the rest. -/
def eventVector (code : Nat) : Nat :=
  if code = 1 then 0 else if code = 2 then 1 else if code = 3 || code = 4 || code = 5 || code = 7 then 2 else 3

def eventBytes (k : EventKind) (status ctx a b time : Nat) : List Byte :=
  bytesOfNat 1 (eventCode k) ++ bytesOfNat 1 0 ++ bytesOfNat 2 status ++ bytesOfNat 4 ctx ++ bytesOfNat 8 a ++
    bytesOfNat 8 b ++ bytesOfNat 8 time

/-- One trained port signals a vector, at most once per 2 µs; a signal that comes sooner is held back. -/
def HostPort.signal (p : HostPort) (vector time : Nat) : HostPort :=
  if p.mode = .down then p
  else
    match getVec p.msix vector (none, false) with
    | (some last, _) =>
      if time < last + 2000 then { p with msix := modVec (fun x => (x.1, true)) p.msix vector }
      else { p with msix := modVec (fun _ => (some time, false)) p.msix vector, signals := p.signals ++ [vector] }
    | (none, _) => { p with msix := modVec (fun _ => (some time, false)) p.msix vector, signals := p.signals ++ [vector] }

/-- The event ring has room: evwrite - evread is not evsize. -/
def HostIf.eventRoom (h : HostIf) : Bool := h.evwrite - h.evread != h.evsize

/-- Write one event and advance evwrite, then signal its vector on each trained port. -/
def State.writeEvent (s : State) (bs : List Byte) : State :=
  let h := s.hostif
  let s := s.hostPut (h.evbase.toNat + 32 * (h.evwrite.toNat % h.evsize.toNat)) bs
  s.modHost fun h =>
    { h with evwrite := h.evwrite + 1, ports := mapVec (fun (p : HostPort) => p.signal (eventVector (recNat bs 0 1)) s.time) h.ports }

/-- Post an event; behind a full ring or earlier held events it is held in order. -/
def State.postEvent (s : State) (k : EventKind) (status ctx a b : Nat) : State :=
  let bs := eventBytes k status ctx a b s.now
  if s.hostif.heldEvents.isEmpty && s.hostif.eventRoom then s.writeEvent bs
  else s.modHost fun h => { h with heldEvents := h.heldEvents ++ [bs] }

/-- Write held events, oldest first, while the ring has room. -/
def State.flushEvents (s : State) : Nat → State
  | 0 => s
  | n + 1 =>
    match s.hostif.heldEvents with
    | [] => s
    | bs :: rest =>
      if s.hostif.eventRoom then
        ((s.modHost fun h => { h with heldEvents := rest }).writeEvent bs).flushEvents n
      else s

/-! Logs (R397). -/

/-- The kinds of a log record. -/
inductive LogKind where
  | corrected | restart | kill | mismatch | suspect | retired | unplaceable | violation
  deriving DecidableEq, Repr

def logCode : LogKind → Nat
  | .corrected => 1 | .restart => 2 | .kill => 3 | .mismatch => 4 | .suspect => 5 | .retired => 6 | .unplaceable => 7
  | .violation => 0x10

/-- The addresses of the health and violation rings: the pair that CONFIG parameter 9 names (log 16). -/
def State.logRing (s : State) (violation : Bool) : Option Nat :=
  (s.hostif.params.logRings.bind fun pa => s.physBytes pa 16).map fun bs => recNat bs (if violation then 8 else 0) 8

/-- The write index of a log ring. -/
def State.logWrite (s : State) (violation : Bool) : Nat :=
  match s.logRing violation with
  | none => 0
  | some r => s.hostNat (r + 0x08) 4

/-- A log ring's header is well formed: a size of 16 to 65,536 that is a power of two, and zeros where R361 reserves (R6, R397). -/
def State.logOk (s : State) (r : Nat) : Bool :=
  let size := s.hostNat r 4
  16 ≤ size && size ≤ 65536 && 2 ^ Nat.log2 size == size && s.hostNat (r + 0x04) 4 == 0 && s.hostNat (r + 0x0C) 4 == 0 &&
    s.hostNat (r + 0x18) 40 == 0

/-- Add a record to a log, where its ring's header is well formed (log 16): a full ring counts it as lost. A written record is announced by a LOG event (log 16). -/
def State.postLog (s : State) (k : LogKind) (type unit ctx whereAt detail : Nat) : State :=
  let v := k = .violation
  match s.logRing v with
  | none => s
  | some r =>
    let size := s.hostNat r 4
    let write := s.hostNat (r + 0x08) 4
    let read := s.hostNat (r + 0x10) 4
    if !s.logOk r then s
    else if (write + 2 ^ 32 - read) % 2 ^ 32 = size then
      s.hostPut (r + 0x14) (bytesOfNat 4 (s.hostNat (r + 0x14) 4 + 1))
    else
      let bs := bytesOfNat 1 (logCode k) ++ bytesOfNat 1 type ++ bytesOfNat 2 unit ++ bytesOfNat 4 ctx ++
        bytesOfNat 8 whereAt ++ bytesOfNat 8 detail ++ bytesOfNat 8 s.now
      let s := s.hostPut (r + 0x40 + 32 * (write % size)) bs
      let s := s.hostPut (r + 0x08) (bytesOfNat 4 (write + 1))
      s.postEvent .log 0 0 (s.logWrite false) (s.logWrite true)

/-- VIOLATION: an access that failed this device's checks (R398). -/
def State.postViolation (s : State) (addr : Nat) (dev : Nat) (ctx engine cause : Nat) : State :=
  s.postLog .violation 0 0 ctx addr (dev % 2 ^ 16 + ctx % 2 ^ 20 * 2 ^ 16 + engine % 16 * 2 ^ 36 + cause % 16 * 2 ^ 40)

end Sys2Proof.Machine
end

