-- ==== Sys2Proof/Machine/Remote.lean ====
section
/-! DEFINITION. The requester's side of the fabric: operations, streams and serials, and which queued operation may be
sent now (R410 to R416). What a response does is in Machine/Fabric.lean. -/

namespace Sys2Proof.Machine

/-- The kinds that carry a serial (R410). -/
def Payload.serial : Payload → Bool
  | .atom _ _ | .cas _ _ _ | .red _ _ | .vatomic _ _ | .door _ | .bank _ _ _ | .push _ | .rchunk _ => true
  | _ => false

/-- Writes in the sense of R413: stores and every kind that carries a serial. -/
def Payload.writes : Payload → Bool
  | .store _ | .vstore _ => true
  | p => p.serial

/-- The owner bytes a request touches: address and length. -/
def Payload.spans (addr : Nat) : Payload → List (Nat × Nat)
  | .load n => [(addr, n)]
  | .store bs | .door bs | .push bs => [(addr, bs.length)]
  | .atom op _ | .red op _ => [(addr, match op.ty with | .i64 | .n64 | .b64 | .f64 => 8 | _ => 4)]
  | .cas size _ _ => [(addr, size)]
  | .vload es => es.map fun e => (e.addr, (e.bits + 7) / 8)
  | .vstore es => es.map fun e => (e.1.addr, (e.1.bits + 7) / 8)
  | .vatomic es _ => es.map fun e => (e.addr, (e.bits + 7) / 8)
  | .rchunk c => c.elems.map fun e => (e.1, if c.ximg then 288 else 8)
  | .bank _ _ _ => [(addr, 1)]
  | .probe | .ack | .close => []

/-- Two requests touch a common 32-byte sector. -/
def sharesSector (a b : List (Nat × Nat)) : Bool :=
  a.any fun x => b.any fun y => x.1 / 32 ≤ (y.1 + y.2 - 1) / 32 && y.1 / 32 ≤ (x.1 + x.2 - 1) / 32

/-- The agent of an issuer (R235): a group's streams and splits are one agent, each command is another. -/
def Issuer.agent : Issuer → Nat × Nat × Nat × Nat
  | .scalar wg g _ | .lane wg g _ | .reduction wg g => (0, wg, g, 0)
  | .command wg c n => (1, wg, c, n)
  | .stream wg g => (2, wg, g, 0)
  | .device => (3, 0, 0, 0)

def RemoteOp.answered (o : RemoteOp) : Bool := o.state == .done

/-- The engine codes of a requester id (R410). -/
def engineGroup : Nat := 0
def engineSluice : Nat := 1
def engineHeadwater : Nat := 2
def engineLoader : Nat := 3
def engineBank : Nat := 4
def engineTask : Nat := 5
def engineDevice : Nat := 6

/-- The engine of an issuer's accesses (R410). -/
def Issuer.engine : Issuer → Nat
  | .command _ _ _ => engineSluice
  | .stream _ _ => engineHeadwater
  | .device => engineDevice
  | _ => engineGroup

/-- The requester id of a context's engine: the origin is the device the host assigned (R414). -/
def State.reqId (s : State) (ctx : BitVec 20) (engine : Nat) : ReqId :=
  ⟨BitVec.ofNat 16 (((s.ctx? ctx).map (·.origin)).getD 0), ctx, BitVec.ofNat 4 engine⟩

def State.modFabric (s : State) (f : Fabric → Fabric) : State := { s with fabric := f s.fabric }
def State.modOp (s : State) (id : Nat) (f : RemoteOp → RemoteOp) : State :=
  s.modFabric fun x => { x with ops := modWhere (fun o => o.id == id) f x.ops }
def State.op? (s : State) (id : Nat) : Option RemoteOp := s.fabric.ops.find? fun o => o.id == id
def State.stream? (s : State) (r : ReqId) (owner : Nat) : Option ReqStream :=
  s.fabric.streams.find? fun x => x.reqid == r && x.owner == owner
def State.modStream (s : State) (r : ReqId) (owner : Nat) (f : ReqStream → ReqStream) : State :=
  s.modFabric fun x => { x with streams := modWhere (fun t => t.reqid == r && t.owner == owner) f x.streams }

/-- The flits in a port. -/
def Fabric.port (x : Fabric) (p : Nat) : List (Flit × Nat × Nat) := getVec x.ports p []

/-- A flit is in a port no longer. -/
def Fabric.dropFlit (x : Fabric) (p ix : Nat) : Fabric := { x with ports := modVec (fun l => l.eraseIdx ix) x.ports p }

/-- A port takes traffic: it is not out of service (R396). -/
def State.portOpen (s : State) (p : Nat) : Bool := p < Config.fabricPorts && !s.retired.contains (5, p)

/-- The port that a flit to a device takes: the spec names none, and traffic takes any that is in service (R396, log 41). -/
def State.portFor (s : State) (dev : Nat) : Option Nat :=
  let able := (List.range Config.fabricPorts).filter s.portOpen
  able[s.freeNat (2 ^ 95 + dev) % able.length]?

/-- A flit enters a port of this device (R411). -/
def Fabric.emit (x : Fabric) (port time life : Nat) (f : Flit) : Fabric :=
  { x with ports := modVec (fun l => l ++ [(f, life, time)]) x.ports port }

def Flit.dev : Flit → Nat
  | .request d _ _ | .reply d _ => d

/-- With no port in service the flit is lost. -/
def State.emit (s : State) (f : Flit) : State :=
  match s.portFor f.dev with
  | some p => s.modFabric fun x => x.emit p s.time s.hostif.params.lifetimeUs f
  | none => s

/-! The fabric budget (R174, R399). -/

/-- The bytes that a request carries behind its header of 32 bytes; an element of a view counts 8 for its place (log 23). -/
def Payload.bytes : Payload → Nat
  | .load _ | .probe | .ack | .close => 0
  | .store bs | .door bs | .push bs => bs.length
  | .atom _ _ | .red _ _ => 8
  | .cas n _ _ => 2 * n
  | .vload es => 8 * es.length
  | .vstore es => (es.map fun e => 8 + (e.1.bits + 7) / 8).sum
  | .vatomic es _ => (es.map fun e => 8 + (e.bits + 7) / 8).sum
  | .bank _ r p => r.length + p.length
  | .rchunk c => (if c.ximg then 296 else 16) * c.elems.length

/-- The workgroup on whose behalf an operation is made. -/
def Issuer.wg? : Issuer → Option WgIx
  | .scalar w _ _ | .lane w _ _ | .command w _ _ | .stream w _ | .reduction w _ => some w
  | .device => none

/-- Charge a flit of an operation to its region and every ancestor. -/
def State.chargeFabric (s : State) (i : Issuer) (bytes : Nat) : State :=
  match i.wg? with
  | none => s
  | some w => (s.wgPath w).foldl (fun (s : State) r => s.modRegion r.ctx r.rcb fun x => { x with fabricUsed := x.fabricUsed + bytes }) s

/-- A spent fabric limit holds the requests of an operation in their port (R399). -/
def State.fabricHeld (s : State) (i : Issuer) : Bool :=
  match i.wg? with
  | none => false
  | some w => !((s.wgPath w).all fun r => limitRoom (r.own.fabric.map (· * 4096)) r.fabricUsed)

/-- The region of an operation has requests held (R400). -/
def State.noteFabric (s : State) (i : Issuer) : State :=
  match i.wg?.bind s.regionOf with
  | none => s
  | some (ctx, rcb) => s.modRegion ctx rcb fun r => { r with throttledNow := 3 :: r.throttledNow.filter (· != 3) }

/-- An operation as it is made: not yet sent. -/
def RemoteOp.new (id : Nat) (iss : Issuer) (owner : Nat) (r : ReqId) (addr : Nat) (p : Payload) : RemoteOp :=
  { id := id, issuer := iss, owner := owner, reqid := r, payload := p, addr := addr, serial := none, state := .queued,
    firstSent := 0, lastSent := 0, copies := 0, onlyBusy := true, busyDelay := 0, checksums := 0, result := none }

def Fabric.addOp (x : Fabric) (iss : Issuer) (owner : Nat) (r : ReqId) (addr : Nat) (p : Payload) : Fabric :=
  { x with nextOp := x.nextOp + 1, ops := x.ops ++ [RemoteOp.new x.nextOp iss owner r addr p] }

/-- A new operation, not yet sent. -/
def State.remoteNew (s : State) (iss : Issuer) (ctx : BitVec 20) (engine owner addr : Nat) (p : Payload) : State :=
  s.modFabric fun x => x.addOp iss owner (s.reqId ctx engine) addr p

/-- A stream before its PROBE is answered; its first serial is 1 (R415). -/
def ReqStream.new (r : ReqId) (owner time : Nat) : ReqStream :=
  { reqid := r, owner := owner, inc := none, next := 1, ack := 1, done := [], lastSent := time, ackSent := 1 }

/-- A stream opens with a PROBE (R415). -/
def State.openStream (s : State) (r : ReqId) (owner : Nat) : State :=
  s.modFabric fun x => { x with streams := x.streams ++ [ReqStream.new r owner s.time] }.addOp .device owner r 0 .probe

/-- The header of a copy of an operation, with the stream's current acknowledgement and a fresh lifetime (R410, R412). -/
def State.opHeader (s : State) (o : RemoteOp) : ReqHeader :=
  let st := s.stream? o.reqid o.owner
  { ser := o.serial.isSome, lifetime := s.hostif.params.lifetimeUs, retdev := s.hostif.devnum.toNat,
    inc := if o.serial.isSome then (st.bind (·.inc)).getD 0 else 0, reqid := o.reqid, serial := o.serial.getD 0,
    ack := if o.serial.isSome then (st.map (·.ack)).getD 0 else 0, addr := o.addr, tag := o.id }

/-- Put a copy of an operation on the fabric. -/
def State.transmit (s : State) (o : RemoteOp) : State :=
  let s := if o.serial.isSome then
      s.modStream o.reqid o.owner fun t => { t with lastSent := s.time, ackSent := t.ack }
    else s
  (s.emit (.request o.owner (s.opHeader o) o.payload)).chargeFabric o.issuer (32 + o.payload.bytes)

def Issuer.retired : Issuer → Bool
  | .reduction _ _ => true
  | _ => false

/-- An earlier write of the same agent to a common sector of the owner is unanswered: a write waits for it (R413), and so does a
read where it is a VRED that has retired (R36, R267). -/
def State.blockedBySector (s : State) (o : RemoteOp) : Bool :=
  s.fabric.ops.any fun e =>
    e.id < o.id && !e.answered && e.owner == o.owner && e.payload.writes && e.issuer.agent == o.issuer.agent &&
      (o.payload.writes || e.issuer.retired) && sharesSector (e.payload.spans e.addr) (o.payload.spans o.addr)

/-- The workgroup of an operation is saved: what it has not sent goes out after the resume (R446). Bank commands go on. -/
def State.issuerSaved (s : State) (o : RemoteOp) : Bool :=
  match o.issuer, o.payload with
  | _, .bank _ _ _ => false
  | .scalar w _ _, _ | .lane w _ _, _ | .command w _ _, _ | .stream w _, _ | .reduction w _, _ => ((s.wg? w).map fun x => x.state == .ready).getD false
  | .device, _ => false

/-- Send a queued operation if it may be sent now: the ports are up (R443), its stream is open and its window has room
(R415, R416), and no earlier write to its sectors is unanswered (R413). -/
def State.trySend (s : State) (id : Nat) : State :=
  match s.op? id with
  | none => s
  | some o =>
    if o.state != .queued || !s.fabric.portsUp || s.issuerSaved o || s.blockedBySector o then s
    else if s.fabricHeld o.issuer then s.noteFabric o.issuer
    else if o.payload.serial then
      match s.stream? o.reqid o.owner with
      | none => s.openStream o.reqid o.owner
      | some t =>
        if t.inc.isNone || Config.serialWindow ≤ (t.next - t.ack).toNat then s
        else
          let o := { o with serial := some t.next, state := .sent, firstSent := s.time, lastSent := s.time, copies := 1 }
          let s := s.modStream o.reqid o.owner fun t => { t with next := t.next + 1 }
          (s.modOp id fun _ => o).transmit o
    else
      let o := { o with state := .sent, firstSent := s.time, lastSent := s.time, copies := 1 }
      (s.modOp id fun _ => o).transmit o

/-- Send every queued operation that may be sent now, oldest first; a stream opened meanwhile sends its PROBE. -/
def State.pump (s : State) : State :=
  let go (s : State) := (s.fabric.ops.map (·.id)).foldl (fun s id => s.trySend id) s
  go (go s)

/-- One request of an agent: owner, address, payload. -/
abbrev RemoteReq := Nat × Nat × Payload

/-- Two payloads are one request of one agent, which it makes once: the data of a write is what it was when it was made. -/
def Payload.same : Payload → Payload → Bool
  | .store a, .store b | .door a, .door b => a.length == b.length
  | .vstore a, .vstore b => a.map (·.1) == b.map (·.1)
  | .rchunk a, .rchunk b => a.number == b.number
  | a, b => a == b

def State.remoteFind (s : State) (iss : Issuer) (r : RemoteReq) : Option RemoteOp :=
  s.fabric.ops.find? fun o => o.issuer == iss && o.owner == r.1 && o.addr == r.2.1 && o.payload.same r.2.2

/-- An agent's requests: those not yet made are made and sent; the outcomes, in order, once all are answered. -/
def State.remoteBatch (s : State) (iss : Issuer) (ctx : BitVec 20) (engine : Nat) (rs : List RemoteReq) :
    State × Option (List Outcome) :=
  let s := rs.foldl (fun (s : State) r =>
    if (s.remoteFind iss r).isSome then s else s.remoteNew iss ctx engine r.1 r.2.1 r.2.2) s
  let s := s.pump
  (s, rs.mapM fun r => (s.remoteFind iss r).bind (·.result))

/-- An agent takes its outcomes: its operations leave the table. -/
def State.remoteTake (s : State) (iss : Issuer) : State :=
  s.modFabric fun x => { x with ops := x.ops.filter fun o => !(o.issuer == iss) }

/-- An agent begins anew: its answered operations leave the table, and the answers to the others are for nobody. -/
def State.remoteClear (s : State) (iss : Issuer) : State :=
  if s.fabric.ops.any fun o => o.issuer == iss then
    let left := s.fabric.ops.filter fun o => !(o.issuer == iss && o.answered)
    s.modFabric fun x => { x with ops := modWhere (fun o => o.issuer == iss) (fun o => { o with issuer := .device }) left }
  else s

/-- Whether some byte of an access lies on a peer. -/
def hasPeer (rs : List ByteRef) : Bool :=
  rs.any fun r => r.places.any fun p => match p with
    | .peer _ _ => true
    | _ => false

/-- One element of an access that lies on a peer: its device, the access's byte it begins at, which half of that byte it
fills (none: whole bytes), and the element at the owner. -/
structure PeerElem where
  dev : Nat
  pos : Nat
  half : Option Bool
  elem : FarElem
  deriving DecidableEq, Repr

def nibbleElem (pos : Nat) (high : Bool) (p : Place) (h : Bool) : List PeerElem :=
  match p with
  | .peer d a => [⟨d, pos, some high, ⟨a, h, 4⟩⟩]
  | _ => []

/-- A byte of a peer joins the run that begins behind it. -/
def PeerElem.joins (e : PeerElem) (pos dev a : Nat) : Bool :=
  e.half == none && e.pos == pos + 1 && e.dev == dev && e.elem.addr == a + 1

/-- The peer elements of an access from a position on, in order: runs of bytes, and half bytes. -/
def peerElems : Nat → List ByteRef → List PeerElem
  | _, [] => []
  | i, .whole (.peer d a) :: rest =>
    match peerElems (i + 1) rest with
    | e :: more =>
      if e.joins i d a then { e with pos := i, elem := ⟨a, false, e.elem.bits + 8⟩ } :: more
      else ⟨d, i, none, ⟨a, false, 8⟩⟩ :: e :: more
    | [] => [⟨d, i, none, ⟨a, false, 8⟩⟩]
  | i, .nibs lo lh hi hh :: rest => nibbleElem i false lo lh ++ nibbleElem i true hi hh ++ peerElems (i + 1) rest
  | i, _ :: rest => peerElems (i + 1) rest

/-- The requests of an access: with FAR, or for half bytes, one view request to each owner; otherwise one request for each
run of bytes (R231, R409). Each with the elements it carries. -/
def peerParts (far : Bool) (es : List PeerElem) : List (Nat × List PeerElem) :=
  if far || es.any fun e => e.half.isSome then
    ((es.map (·.dev)).eraseDups).map fun d => (d, es.filter fun e => e.dev == d)
  else es.map fun e => (e.dev, [e])

/-- The bytes of one element within the bytes of its access. -/
def elemValue (bs : List Byte) (e : PeerElem) : Nat :=
  match e.half with
  | none => natOfBytes ((bs.drop e.pos).take (e.elem.bits / 8))
  | some high => nibble (bs.getD e.pos 0) high

/-- A write to a peer: through a door it is a DOOR request, else a STORE (R408, R410). -/
def storePayload (pa : Nat) (bs : List Byte) : Payload := if pa / 2 ^ 48 = 0xD then .door bs else .store bs

def partAddr (es : List PeerElem) : Nat := (es.head?.map fun e => e.elem.addr).getD 0

/-- The requests that read the peer bytes of an access. -/
def peerLoads (far : Bool) (es : List PeerElem) : List RemoteReq :=
  (peerParts far es).map fun p =>
    (p.1, partAddr p.2, match p.2 with
      | [⟨_, _, none, e⟩] => if far then .vload [e] else .load (e.bits / 8)
      | es => .vload (es.map (·.elem)))

/-- The requests that write them. -/
def peerStores (far : Bool) (es : List PeerElem) (bs : List Byte) : List RemoteReq :=
  (peerParts far es).map fun p =>
    (p.1, partAddr p.2, match p.2 with
      | [⟨d, pos, none, e⟩] =>
        if far then .vstore [(e, elemValue bs ⟨d, pos, none, e⟩)] else storePayload e.addr ((bs.drop pos).take (e.bits / 8))
      | es => .vstore (es.map fun e => (e.elem, elemValue bs e)))

/-- Put the packed elements of a view response into the bytes of the access. -/
def putElems : List PeerElem → List Byte → List Byte → List Byte
  | [], _, bs => bs
  | e :: es, data, bs =>
    let n := (e.elem.bits + 7) / 8
    putElems es (data.drop n) (match e.half with
      | none => splice bs e.pos (data.take n)
      | some high => splice bs e.pos [withNibble (bs.getD e.pos 0) high ((data.headD 0).toNat)])

/-- The bytes of an access once its requests are answered, in the order of peerLoads. -/
def peerFill (far : Bool) (es : List PeerElem) (answers : List (List Byte)) (bs : List Byte) : List Byte :=
  ((peerParts far es).zip answers).foldl (fun bs x => putElems x.1.2 x.2 bs) bs

end Sys2Proof.Machine
end

