-- ==== Sys2Proof/Machine/Splits.lean ====
section
/-! DEFINITION. The split table of a group: block entries, fusion, the fusion hold, overflow records, parking (R168 to
R172, R356, R357). -/

namespace Sys2Proof.Machine

/-- The four entries of a split table. -/
def splitIxs : List SplitIx := [0, 1, 2, 3]

def Group.split (g : Group) (i : SplitIx) : Option Split := getVec g.splits i none
def Group.setSplit (g : Group) (i : SplitIx) (x : Option Split) : Group := { g with splits := modVec (fun _ => x) g.splits i }
def Group.modSplit (g : Group) (i : SplitIx) (f : Split → Split) : Group :=
  { g with splits := modVec (fun o => o.map f) g.splits i }

def Split.held (x : Split) : Bool := match x.status with | .held _ => true | _ => false

/-- READY or HELD: what may be a lower split (R170). -/
def Split.counts (x : Split) : Bool := match x.status with | .ready | .held _ => true | _ => false

/-- A lower split than i at p exists (R170). -/
def Group.hasLower (g : Group) (i : SplitIx) (p : Word) : Bool :=
  splitIxs.any fun k => k != i && (match g.split k with
    | some x => x.counts && decide (x.pc < p)
    | none => false)

/-- The other splits HELD at p (R169). -/
def Group.heldAt (g : Group) (i : SplitIx) (p : Word) : List SplitIx :=
  splitIxs.filter fun k => k != i && (match g.split k with
    | some x => x.held && x.pc == p
    | none => false)

/-- The lowest free entry (R168). -/
def Group.freeEntry (g : Group) : Option SplitIx := splitIxs.find? fun k => (g.split k).isNone

/-- A split becomes READY at its PC. -/
def Split.toReady (x : Split) : Split := { x with status := .ready }

/-- The block entry of split i at its PC (R169, R170): it fuses with the splits HELD there, or is HELD when a lower split
exists, or is READY; away from a block start it is READY at once. A fused split issued when the last of its parts did, and holds the
surviving entry's token (log 57). -/
def Group.enter (g : Group) (i : SplitIx) : Group :=
  match g.split i with
  | none => g
  | some x =>
    if x.pc.toNat % 64 != 0 then g.modSplit i Split.toReady
    else
      match g.heldAt i x.pc with
      | [] => if g.hasLower i x.pc then g.modSplit i fun x => { x with status := .held Config.fusionHold }
              else g.modSplit i Split.toReady
      | hs =>
        let all := splitIxs.filter fun k => k == i || hs.contains k
        let mask := all.foldl (fun m k => m ||| ((g.split k).map (·.mask)).getD 0) 0
        let last := all.foldl (fun (n : Nat) k => max n (((g.split k).map (·.lastIssue)).getD 0)) 0
        let yielded := all.any (fun k => ((g.split k).map (·.yielded)).getD false)
        match all with
        | [] => g
        | e :: rest =>
          (rest.foldl (fun (g : Group) k => g.setSplit k none) g).modSplit e fun x =>
            { x with mask := mask, status := .ready, stalled := false, lastIssue := last, yielded := yielded }

/-- A split made from an overflow record (R171). -/
def Overflow.toSplit (o : Overflow) : Split :=
  { pc := o.pc, mask := o.mask, regs := o.regs, region := o.region, status := .ready, lastIssue := 0, syncToken := none,
    stalled := false, yielded := false, looks := [], lnch := none }

/-- Overflow records take free entries, oldest first, each by a block entry (R171). -/
def Group.refill (g : Group) : Nat → Group
  | 0 => g
  | n + 1 =>
    match g.overflow, g.freeEntry with
    | o :: rest, some k => ((({ g with overflow := rest }).setSplit k (some o.toSplit)).enter k).refill n
    | _, _ => g

/-- A block entry and the refills it makes room for. -/
def Group.arrive (g : Group) (i : SplitIx) : Group := (g.enter i).refill 64

/-- A HELD split that leaves the hold: no lower split remains, or the others have issued their 64 instructions (R170). -/
def Group.holdOver (g : Group) (i : SplitIx) : Bool :=
  match g.split i with
  | some x => match x.status with
    | .held n => n == 0 || !g.hasLower i x.pc
    | _ => false
  | none => false

def Group.releaseHold (g : Group) (i : SplitIx) : Group := if g.holdOver i then g.modSplit i Split.toReady else g

/-- Release every hold that is over, lowest entry first. -/
def Group.releaseHolds (g : Group) : Group := splitIxs.foldl Group.releaseHold g

/-- Another split of the group issues: every HELD split but the issuing one counts it (R170). -/
def Group.countIssue (g : Group) (i : SplitIx) : Group :=
  splitIxs.foldl (fun (g : Group) k =>
    if k = i then g else g.modSplit k fun x => match x.status with
      | .held n => { x with status := .held (n - 1) }
      | _ => x) g

/-- Parking a split: a WAIT keeps its token, and a SYNC that of the arrival it has made (R197, R356). -/
def Split.park (x : Split) : Split :=
  match x.status with
  | .waiting (.sync _ t _ _) | .waiting (.barrier _ t _) => { x with status := .parked, syncToken := some t }
  | _ => { x with status := .parked }

/-- A split that would issue: READY, HELD, or stalled under R28 or R33. -/
def Split.issues (x : Split) : Bool :=
  match x.status with
  | .ready | .held _ | .waiting .retry | .waiting (.room _) => true
  | _ => false

/-- The tag of the entry at the queue head. -/
def Group.headTag (g : Group) : LaneMask := (g.laneQ.head?.map (·.tag)).getD 0

/-- While the lane stream is stopped by a trap, each split that shares a lane with the instruction's tag is parked
before it issues (R357). -/
def Group.parkForLane (g : Group) : Group :=
  if g.head.stopped then
    splitIxs.foldl (fun (g : Group) k => g.modSplit k fun x =>
      if x.issues && (x.mask &&& g.headTag != 0) then x.park else x) g
  else g

/-- What follows every step of a group: parking under a stopped lane stream and ends of holds. -/
def Group.settle (g : Group) : Group := g.parkForLane.releaseHolds

/-- Splits stalled under R28's register waits, R33, R181 or R281, and a waiting lane stream, look again: the instruction
executes in full, and waits again if what it needs is still missing (R100). -/
def Group.wakeRetry (g : Group) : Group :=
  splitIxs.foldl (fun (g : Group) k => g.modSplit k fun x =>
    if x.status == .waiting .retry then x.toReady else x) { g with head := { g.head with waiting := false } }

/-- No live entry, no overflow record, and the lane queue empty and retired (R31, R172). -/
def Group.drained (g : Group) : Bool :=
  splitIxs.all (fun k => (g.split k).isNone) && g.overflow.isEmpty && g.laneQ.isEmpty

/-- A group stopped by a kill (R393). -/
def Group.dead (g : Group) : Group :=
  { g with splits := Vector.replicate 4 none, overflow := [], laneQ := [], q := Vector.replicate 8 none, behind := [], retired := true,
           head := Head.empty }

end Sys2Proof.Machine
end

