-- ==== Sys2Proof/Machine/Device.lean ====
section
/-! DEFINITION. What the device does on its own behalf: its reads and writes by virtual address, completion records,
timeline counters, WGERR, completion bitmaps (R179, R181, R235, R277 to R284). -/

namespace Sys2Proof.Machine

/-- A core number that no core has: the device's accesses pass no L1. -/
def noCore : CoreIx := Config.cores

/-- A workgroup number that no workgroup has. -/
def noWg : WgIx := 2 ^ 40

/-- The device, on behalf of a context, from a reach (R235). -/
def devAgent (ctx : BitVec 20) (reach : Nat) : Agent := ⟨ctx, noCore, reach, noWg, 0, none, [], .device⟩

/-- The device, on behalf of a workgroup: its own vault is rank 0xFF. It reads at home, and its writes are seen in the L1 of the
workgroup's core, as a store's are (R215, R252). -/
def State.wgAgent (s : State) (w : WgIx) (g : GroupIx) : Agent :=
  ⟨s.ctxOf w, s.coreOf w, reachOfCore (s.coreOf w), w, g, none, [], .device⟩

/-- A place as the device reads it: a byte of a peer page is a free value (log 27). -/
def State.devRef (s : State) (ag : Agent) (r : ByteRef) (key : Nat) : Byte :=
  match r with
  | .whole (.peer _ _) => s.freeByte key
  | r => s.readRef ag true r

/-- Bytes that the device reads for itself. -/
def State.devRead (s : State) (ag : Agent) (va n : Nat) : Except Cond (List Byte) :=
  match s.resolveFlat ag (Acc.load n) va with
  | .error c => .error c
  | .ok rs =>
    if rs.any s.refPoisoned then .error ⟨.poison, va, false⟩
    else .ok (rs.zipIdx.map fun x => s.devRef ag x.1 (va + x.2))

/-- Bytes that the device writes for itself; those of a peer page become requests of the device engine. -/
def State.devWriteRefs (s : State) (ag : Agent) (rs : List ByteRef) (bs : List Byte) : State :=
  let s := s.writeRefs ag rs bs
  if hasPeer rs then
    ((peerStores false (peerElems 0 rs) bs).foldl (fun (s : State) r => s.remoteNew ag.issuer ag.ctx engineDevice r.1 r.2.1 r.2.2) s).pump
  else s

def State.devWrite (s : State) (ag : Agent) (va : Nat) (bs : List Byte) : Except Cond State :=
  match s.resolveFlat ag (Acc.store bs.length) va with
  | .error c => .error c
  | .ok rs => .ok (s.devWriteRefs ag rs bs)

/-! Status codes (R283) and WGERR (R284). -/

def stOk : Nat := 0
def stBounds : Nat := 1
def stFault : Nat := 2
def stPoison : Nat := 3
def stChecksum : Nat := 4
def stCancelled : Nat := 5
def stIndeterminate : Nat := 6
def stRejected : Nat := 7
def stTier : Nat := 8
def stBusy : Nat := 9

/-- The WGERR bit a status sets. -/
def wgerrBit : Nat → Option Nat
  | 1 => some 0 | 2 => some 1 | 3 => some 2 | 4 => some 3 | 5 => some 5 | 6 => some 6 | 7 => some 4
  | _ => none

def wgerrBarx : Nat := 7

def State.setWgerr (s : State) (w : WgIx) (bit : Nat) : State :=
  s.modWg w fun x => { x with wgerr := x.wgerr ||| BitVec.ofNat 64 (2 ^ bit) }

def State.setWgerrOf (s : State) (w : WgIx) (status : Nat) : State :=
  match wgerrBit status with
  | none => s
  | some b => s.setWgerr w b

/-- The trap class that a failed command with TRAP set raises through its WAITC (R284). -/
def statusClass (status fault : Nat) : Option TrapClass :=
  match status with
  | 1 => some .address | 2 => some (classOfCode fault) | 3 | 4 => some .poison | 6 => some .remote | 7 => some .illegal
  | _ => none

/-! Completion records (R282). -/

def completionBytes (status fault count : Nat) : List Byte :=
  bytesOfNat 2 status ++ bytesOfNat 2 fault ++ bytesOfNat 4 0 ++ bytesOfNat 8 count

/-- Write a completion record of a command; a fault loses it and sets WGERR.FAULT. A waiter sees it at every replica (R279). -/
def State.writeCompletion (s : State) (r : CmdRef) (g : GroupIx) (addr status fault count : Nat) : State :=
  match s.devWrite { s.wgAgent r.wg g with issuer := .command r.wg r.counter r.num } addr (completionBytes status fault count) with
  | .ok s => s.replicaDrainAll
  | .error _ => s.setWgerr r.wg 1

/-! Counters (R278). -/

def Counter.advance (k : Counter) : Nat → Counter
  | 0 => k
  | n + 1 =>
    if k.done.contains (k.completed + 1) then
      ({ k with completed := k.completed + 1, done := k.done.filter (· != k.completed + 1) } : Counter).advance n
    else k

/-- Command n completes: the completed value moves past every command that has completed. -/
def Counter.complete (k : Counter) (n : Nat) : Counter := ({ k with done := n :: k.done } : Counter).advance (k.done.length + 1)

def Wg.counter (x : Wg) (k : Nat) : Counter := getVec x.counters k ⟨0, 0, []⟩

def State.modCounter (s : State) (w : WgIx) (k : Nat) (f : Counter → Counter) : State :=
  s.modWg w fun x => { x with counters := modVec f x.counters k }

/-- Engine commands in flight on a core (R281): those on counters and the operand loads (R309). -/
def State.inFlight (s : State) (core : CoreIx) : Nat :=
  s.wgs.foldl (fun n x => n + (x.cmds.filter fun c => c.core == core).length) 0 +
    (s.core core).slots.toList.foldl (fun n x => n + x.loads.length) 0

/-- Splits of a core, or of every core, that stall look again (R100). -/
def State.wakeCore (s : State) (core : CoreIx) : State :=
  { s with wgs := s.wgs.map fun x =>
      if x.core = core ∧ x.state = .resident then { x with groups := x.groups.map Group.wakeRetry } else x }
def State.wakeAll (s : State) : State :=
  { s with wgs := s.wgs.map fun x => { x with groups := x.groups.map Group.wakeRetry } }

/-- The context made progress (R382). -/
def State.progress (s : State) (ctx : BitVec 20) : State :=
  s.modCtx ctx fun c => { c with lastProgress := s.time, quietPosted := false }

/-- Issue a command: it takes the counter's next number (R278). -/
def State.newCmd (s : State) (w : WgIx) (k : Nat) (kind : CmdKind) (start : Option (Nat × Nat)) (scope : Scope)
    (trap : Bool) : State :=
  let n := ((s.wg? w).map fun x => (x.counter k).issued + 1).getD 0
  (s.modCounter w k fun c => { c with issued := n }).modWg w fun x =>
    { x with cmds := x.cmds ++ [⟨k, n, kind, start, scope, trap, x.core, none⟩] }

def State.cmd? (s : State) (r : CmdRef) : Option Cmd :=
  (s.wg? r.wg).bind fun x => x.cmds.find? fun c => c.counter == r.counter && c.num == r.num
def State.modCmd (s : State) (r : CmdRef) (f : Cmd → Cmd) : State :=
  s.modWg r.wg fun x => { x with cmds := modWhere (fun c => c.counter == r.counter && c.num == r.num) f x.cmds }

/-- The start condition "counter j ≥ v" holds (R280). -/
def State.startHolds (s : State) (w : WgIx) : Option (Nat × Nat) → Bool
  | none => true
  | some (j, v) => match s.wg? w with
    | some x => v ≤ (x.counter j).completed
    | none => true

/-- The condition of R280 on the command's own counter that could never hold. -/
def neverStarts (k num : Nat) : Option (Nat × Nat) → Bool
  | some (j, v) => j == k && num ≤ v
  | none => false

/-- A command's last step: the WGERR bit, a trap still to be raised by a WAITC (R284), then the counter. -/
def State.closeCmd (s : State) (r : CmdRef) (c : Cmd) (status fault : Nat) : State :=
    let s := s.setWgerrOf r.wg status
    let s := s.modWg r.wg fun x =>
      { x with
        cmds := x.cmds.filter fun c => !(c.counter == r.counter && c.num == r.num)
        cmdTraps := if c.trap && (statusClass status fault).isSome then x.cmdTraps ++ [⟨r.counter, r.num, status, fault⟩]
          else x.cmdTraps }
    let s := s.modCounter r.wg r.counter fun k => k.complete r.num
    ((s.remoteTake (.command r.wg r.counter r.num)).progress (s.ctxOf r.wg)).wakeCore c.core

/-- Operations of a command that are not answered yet. -/
def State.cmdUnanswered (s : State) (r : CmdRef) : Bool :=
  s.fabric.ops.any fun o => o.issuer == .command r.wg r.counter r.num && !o.answered

/-- A completion record of a command that its peer did not take. -/
def State.recordLost (s : State) (r : CmdRef) : Bool :=
  s.fabric.ops.any fun o => o.issuer == .command r.wg r.counter r.num && o.reqid.engine == BitVec.ofNat 4 engineDevice &&
    !(match o.result with | some (.performed _) => true | _ => false)

/-- The order of R279: the completion records (of group and address), which are answered where they lie on a peer, then the rest.
Arrivals and full sets are the engine's own, made in the same step. -/
def State.finishCmd (s : State) (r : CmdRef) (status fault count : Nat) (records : List (GroupIx × Nat)) : State :=
  match s.cmd? r with
  | none => s
  | some c =>
    if c.ending.isSome then s
    else
      let s := records.foldl (fun (s : State) x => s.writeCompletion r x.1 x.2 status fault count) s
      if s.cmdUnanswered r then s.modCmd r fun c => { c with ending := some (status, fault) }
      else s.closeCmd r c status fault

/-- A command whose records were sent to a peer ends once they are all answered; a record that was not taken sets WGERR.FAULT. -/
def State.resumeEnd (s : State) (r : CmdRef) : State :=
  match s.cmd? r with
  | none => s
  | some c =>
    match c.ending with
    | none => s
    | some (status, fault) =>
      if s.cmdUnanswered r then s
      else (if s.recordLost r then s.setWgerr r.wg 1 else s).closeCmd r c status fault

/-! Launch completion (R179, R181). -/

/-- One write of the device for a launch: the atomic OR of a completion bit, or the completion record. Either can fault, and either
can meet an uncorrectable error (R360). -/
def State.launchWrite (s : State) (l : Nat) (status : Nat) (bit : Option Nat) : Except Cond State :=
  match s.launch? l with
  | none => .ok s
  | some x =>
    let ag := devAgent x.ctx 0
    match bit with
    | some j =>
      if x.handle = 0 then .ok s
      else
        let va := (x.handle + j / 64 * 8) % 2 ^ 64
        match s.resolveFlat ag { Acc.store 8 with strict := true } va with
        | .error c => .error c
        | .ok rs =>
          if rs.any s.refPoisoned then .error ⟨.poison, va, false⟩
          else if hasPeer rs then
            .ok ((peerRuns 0 rs).foldl (fun (s : State) r => s.remoteNew .device x.ctx engineDevice r.2.1 r.2.2.1
              (.atom ⟨.or, .b64, .rne, false, 0⟩ (2 ^ (j % 64)))) s).pump
          else .ok (s.writeRefs ag rs (bytesOfNat 8 (natOfBytes (s.readRefs ag true rs) ||| 2 ^ (j % 64))))
    | none =>
      if x.completion = 0 then .ok s
      else
        match s.resolveFlat ag (Acc.store 16) x.completion with
        | .error c => .error c
        | .ok rs =>
          if rs.any s.refPoisoned then .error ⟨.poison, x.completion, false⟩
          else .ok (s.devWriteRefs ag rs (completionBytes status 0 (if status = stOk then x.count else s.freeNat l)))

end Sys2Proof.Machine
end

