-- ==== Sys2Proof/WellFormed.lean ====
section
/-! DEFINITION. Well-formed instructions: those whose encoding raises no ILLEGAL whatever the state (R97). -/

namespace Sys2Proof

open Machine in
/-- No static check of R69, R74, R80 or R93 fails. Forms not listed have no illegal value of their typed fields. -/
def Instr.wf : Instr → Bool
  | .sysr _ n => sysReadable n.toNat
  | .sysw n _ => sysWritable n.toNat
  | .mset m _ => m != 0
  | .cpy _ _ _ st | .cpyr _ _ _ st | .bkrun _ _ st => startOk st
  | .bxld f n => bxldOk f n
  | .vadd o | .vsub o | .vmul o => intOk 2 true false o
  | .vmulh o | .vdiv o | .vrem o | .vmin o | .vmax o => intOk 2 false false o
  | .vmad o => intOk 3 true false o
  | .vabs o | .vneg o => intOk 1 true true o
  | .vand o | .vor o | .vxor o => bitOk 2 o
  | .vnot o => bitOk 1 o
  | .vshl o | .vshr o | .vsra o => shiftOk o
  | .vpopc o | .vclz o => countOk o
  | .vbfe o => bfeOk o
  | .vbfi o => bfiOk o
  | .vcmp o => cmpOk o
  | .vsel o => selOk o
  | .vmov o => bitOk 1 o
  | .vimm o => immOk o
  | .vlane o => laneNoOk o
  | .mand o | .mor o | .mxor o => maskOk 2 o
  | .mnot o | .mfirst o => maskOk 1 o
  | .mpopc o | .viota o => maskCountOk o
  | .vshfl o => shflOk o
  | .vperm o => permOk o
  | .vstep o => stepOk o
  | .vscan o => scanOk o
  | .vcomp o => compOk o
  | .vfadd o | .vfsub o | .vfmul o | .vfdiv o => floatOk 2 true o
  | .vfma o => floatOk 3 true o
  | .vfmin o | .vfmax o => floatOk 2 false o
  | .vfabs o | .vfneg o | .vfex2 o | .vflg2 o | .vfsin o | .vfcos o => floatOk 1 false o
  | .vfsqrt o | .vfrcp o | .vfrsq o => floatOk 1 true o
  | .vfcls o => clsOk o
  | .vcvt o => cvtOk o
  | .vpack o => packOk o
  | .vunpk o => unpkOk o
  | .vqmx o => qmxOk o
  | .vqaq o => qaqOk o
  | .vdq o => dqOk o
  | .xclr o => xclrOk o
  | .xadd o | .xsub o => xaddOk o
  | .xrnd o => xrndOk o
  | .xst o | .xlda o => ximgOk o
  | .vld o => vldOk o
  | .vst o => vstOk o
  | .vpref o => vprefOk o
  | .vatom o => vatomOk o
  | .vcas o => vcasOk o
  | .vred o => vredOk o
  | .acrd o => acrdOk o
  | .acwr o => acwrOk o
  | .acscl o => acsclOk o
  | .acmax o => acmaxOk o
  | .acexp o => acexpOk o
  | _ => true

end Sys2Proof
end

