-- ==== Sys2Proof/Decode.lean ====
section
/-! DEFINITION. Decoding of scalar words (32 bits), lane words (96 bits) and bank micro-operation words (32 bits),
total on any word and rejecting by name, and after it the encoder (R65 to R97, R330, R340). Words are numbers whose
bit 0 is the least significant bit of the first byte (R65). -/

namespace Sys2Proof

open Machine

/-- Why a word is not an instruction. -/
inductive DecodeError where
  /-- the major opcode, the lane opcode or the bank operation is unassigned (R90, R94, R96) -/
  | unassignedOpcode
  /-- a function, sub, cond, kind, size, order or scope value is unassigned (R67, R91 to R93) -/
  | unassignedSelector
  /-- a field the instruction does not use is not zero (R69, R82) -/
  | unusedFieldNonzero
  /-- an operand specifier is of no class or has a nonzero must-be-zero bit (R73, R74, R77) -/
  | badSpecifier
  /-- the type, rounding or scope code is unassigned (R71, R78) -/
  | badTypeOrRounding
  /-- a check of the instruction's own description fails (R97) -/
  | illegalForm
  deriving DecidableEq, Repr

/-- An instruction if a check holds, else the named error. -/
def check (c : Bool) (e : DecodeError) (i : Instr) : Except DecodeError Instr := if c then .ok i else .error e

/-- The instruction an optional selector names. -/
def select (o : Option Instr) : Except DecodeError Instr :=
  match o with
  | some i => .ok i
  | none => .error .unassignedSelector

/-- A decoded instruction is kept only if it is well formed (R97). -/
def keepWf (r : Except DecodeError Instr) : Except DecodeError Instr :=
  match r with
  | .ok i => if i.wf then .ok i else .error .illegalForm
  | .error e => .error e

/-! Code tables of R67, R70, R93. -/

def scopeOf : Nat → Option Scope
  | 0 => some .grp | 1 => some .wg | 2 => some .cl | 3 => some .die | 4 => some .dev | 5 => some .sys
  | _ => none

def scopeCode : Scope → Nat
  | .grp => 0 | .wg => 1 | .cl => 2 | .die => 3 | .dev => 4 | .sys => 5

def orderOf : Nat → Order
  | 0 => .rlx | 1 => .acq | 2 => .rel | _ => .ar

def orderCode : Order → Nat
  | .rlx => 0 | .acq => 1 | .rel => 2 | .ar => 3

def ldSizeOf : Nat → Option LdSize
  | 0 => some .i8 | 1 => some .i16 | 2 => some .i32 | 3 => some .b64 | 4 => some .n8 | 5 => some .n16 | 6 => some .n32
  | _ => none

def ldSizeCode : LdSize → Nat
  | .i8 => 0 | .i16 => 1 | .i32 => 2 | .b64 => 3 | .n8 => 4 | .n16 => 5 | .n32 => 6

def stSizeOf : Nat → Option StSize
  | 0 => some .i8 | 1 => some .i16 | 2 => some .i32 | 3 => some .b64
  | _ => none

def stSizeCode : StSize → Nat
  | .i8 => 0 | .i16 => 1 | .i32 => 2 | .b64 => 3

def satomOf : Nat → Option SAtomOp
  | 0 => some .add | 1 => some .min | 2 => some .max | 3 => some .minn | 4 => some .maxn | 5 => some .and
  | 6 => some .or | 7 => some .xor | 8 => some .exch
  | _ => none

def satomCode : SAtomOp → Nat
  | .add => 0 | .min => 1 | .max => 2 | .minn => 3 | .maxn => 4 | .and => 5 | .or => 6 | .xor => 7 | .exch => 8

def brCondOf : Nat → Option BrCond
  | 0 => some .eq | 1 => some .ne | 2 => some .lt | 3 => some .ge | 4 => some .ltn | 5 => some .gen
  | _ => none

def brCondCode : BrCond → Nat
  | .eq => 0 | .ne => 1 | .lt => 2 | .ge => 3 | .ltn => 4 | .gen => 5

def brmKindOf : Nat → BrmKind
  | 0 => .any | 1 => .all | 2 => .none | _ => .div

def brmKindCode : BrmKind → Nat
  | .any => 0 | .all => 1 | .none => 2 | .div => 3

def opldKindOf : Nat → Option OpldKind
  | 0 => some .plain | 1 => some .conv | 2 => some .segr | 3 => some .segc
  | _ => none

def opldKindCode : OpldKind → Nat
  | .plain => 0 | .conv => 1 | .segr => 2 | .segc => 3

def bankFmtOf : Nat → BankFmt
  | 0 => .bf16 | 1 => .e4m3 | 2 => .e5m2 | _ => .int8

def bankFmtCode : BankFmt → Nat
  | .bf16 => 0 | .e4m3 => 1 | .e5m2 => 2 | .int8 => 3

/-! The fields of the scalar formats (R66). -/

/-- [25:20]: sd of SR, SI, SL and SM; sa of SE. -/
def f25 (w : Nat) : SReg := bits w 20 6
/-- [19:14]: sa of SR, SI and SM; sb of SE. -/
def f19 (w : Nat) : SReg := bits w 14 6
/-- [13:8]: sb of SR; sc of SE. -/
def f13 (w : Nat) : SReg := bits w 8 6
/-- sub [7:4] and qual [3:0] of SE. -/
def fSub (w : Nat) : Nat := fld w 4 4
def fQual (w : Nat) : Nat := fld w 0 4

/-- SYS functions (R91, R120): each uses only the fields its row names. -/
def decodeSys (w : Nat) : Except DecodeError Instr :=
  match fld w 0 8 with
  | 0x00 => check (fld w 8 18 == 0) .unusedFieldNonzero .nop
  | 0x01 => check (fld w 8 18 == 0) .unusedFieldNonzero .exit
  | 0x02 => check (fld w 8 18 == 0) .unusedFieldNonzero .yield
  | 0x03 => check (fld w 8 18 == 0) .unusedFieldNonzero .brk
  | 0x04 => check (fld w 14 6 == 0) .unusedFieldNonzero (.sysr (f25 w) (bits w 8 6))
  | 0x05 => check (fld w 20 6 == 0) .unusedFieldNonzero (.sysw (bits w 8 6) (f19 w))
  | 0x06 => check (fld w 8 18 == 0) .unusedFieldNonzero .irb
  | 0x07 => check (fld w 8 18 == 0) .unusedFieldNonzero .ire
  | 0x08 =>
    if fld w 13 13 != 0 then .error .unusedFieldNonzero
    else select ((scopeOf (fld w 8 3)).map fun sc => .fence sc (orderOf (fld w 11 2)))
  | _ => .error .unassignedSelector

/-- ALU functions (R92). -/
def aluOf : Nat → Option (SReg → SReg → SReg → Instr)
  | 0x00 => some .add | 0x01 => some .sub | 0x02 => some .and | 0x03 => some .or | 0x04 => some .xor
  | 0x05 => some .shl | 0x06 => some .shr | 0x07 => some .sra | 0x08 => some .min | 0x09 => some .max
  | 0x0A => some .minn | 0x0B => some .maxn | 0x0C => some .slt | 0x0D => some .sltn | 0x10 => some .mul
  | 0x11 => some .mulh | 0x12 => some .mulhn | 0x13 => some .div | 0x14 => some .divn | 0x15 => some .rem
  | 0x16 => some .remn | 0x18 => some .csel
  | _ => none

/-- Shift immediates: imm14[13:6] must be zero (R102). -/
def decodeShift (c : SReg → SReg → BitVec 6 → Instr) (w : Nat) : Except DecodeError Instr :=
  check (fld w 6 8 == 0) .unusedFieldNonzero (c (f25 w) (f19 w) (bits w 0 6))

/-- LDS (R67): order 0b00 plain, 0b01 acquire. -/
def decodeLds (w : Nat) : Except DecodeError Instr :=
  if 2 ≤ fld w 9 2 then .error .unassignedSelector
  else select ((ldSizeOf (fld w 11 3)).map fun sz => .lds sz (bit w 9) (f25 w) (f19 w) (bits w 0 9))

/-- STS (R67): order 0b00 plain, 0b01 release. -/
def decodeSts (w : Nat) : Except DecodeError Instr :=
  if 2 ≤ fld w 9 2 then .error .unassignedSelector
  else select ((stSizeOf (fld w 11 3)).map fun sz => .sts sz (bit w 9) (f25 w) (f19 w) (bits w 0 9))

/-- SATOM and SCAS (R106, R107). -/
def decodeSatom (w : Nat) : Except DecodeError Instr :=
  select <| match satomOf (fSub w), scopeOf (fld w 0 3) with
    | some op, some sc => some (.satom op sc (bit w 3) (f25 w) (f19 w) (f13 w))
    | _, _ => none

def decodeScas (w : Nat) : Except DecodeError Instr :=
  if fSub w != 0 then .error .unusedFieldNonzero
  else select ((scopeOf (fld w 0 3)).map fun sc => .scas sc (bit w 3) (f25 w) (f19 w) (f13 w))

/-- BAR (R193): kind in qual[1:0], scope in qual[2], qual[3] zero. -/
def decodeBar (w : Nat) : Except DecodeError Instr :=
  if bit w 3 then .error .unusedFieldNonzero
  else match fld w 0 2 with
    | 0 => check (fld w 8 6 == 0) .unusedFieldNonzero (.barArrive (bit w 2) (bits w 4 4) (f25 w) (f19 w))
    | 1 => check (fld w 8 6 == 0 && fld w 20 6 == 0) .unusedFieldNonzero (.barWait (bit w 2) (bits w 4 4) (f19 w))
    | 2 => check (fld w 8 6 == 0) .unusedFieldNonzero (.barSync (bit w 2) (bits w 4 4) (f25 w) (f19 w))
    | _ => check (bit w 2) .unassignedSelector (.barRemote (bits w 4 4) (f25 w) (f19 w) (f13 w))

/-- WAITC and WAITC.fe (R269, R270). -/
def decodeWaitc (w : Nat) : Except DecodeError Instr :=
  if fld w 8 12 != 0 then .error .unusedFieldNonzero
  else match scopeOf (fld w 0 3) with
    | none => .error .unassignedSelector
    | some sc =>
      if bit w 3 then check (fSub w == 0) .unusedFieldNonzero (.waitcFe sc (f25 w))
      else .ok (.waitc sc (bits w 4 4) (f25 w))

/-- The start condition of CPY, CPYR and BKRUN: none when sc is s0, and then qual must be 0 (R293, R330). -/
def decodeStart (c : Option StartCond → Instr) (w : Nat) : Except DecodeError Instr :=
  if fld w 8 6 == 0 then check (fQual w == 0) .unusedFieldNonzero (c none)
  else .ok (c (some ⟨bits w 0 4, f13 w⟩))

/-- OPLD (R309). -/
def decodeOpld (w : Nat) : Except DecodeError Instr :=
  if fld w 8 6 != 0 || fld w 1 3 != 0 then .error .unusedFieldNonzero
  else select ((opldKindOf (fSub w)).map fun k => .opld k (bit w 0) (f25 w) (f19 w))

/-- BK (R330). -/
def decodeBk (w : Nat) : Except DecodeError Instr :=
  match fSub w with
  | 0 => check (fld w 8 6 == 0 && fQual w == 0) .unusedFieldNonzero (.bkload (f25 w) (f19 w))
  | 1 => decodeStart (.bkrun (f25 w) (f19 w)) w
  | 2 => check (fld w 8 6 == 0 && fQual w == 0) .unusedFieldNonzero (.bkfence (f25 w) (f19 w))
  | _ => .error .unassignedSelector

/-- VIEW (R271). -/
def decodeView (w : Nat) : Except DecodeError Instr :=
  match fSub w with
  | 0 => check (fQual w == 0) .unusedFieldNonzero (.viewb (f25 w) (f19 w) (f13 w))
  | 1 => check (fld w 8 6 == 0) .unusedFieldNonzero (.viewi (bits w 0 4) (f25 w) (f19 w))
  | 2 => .ok (.rminv (bits w 0 4) (f25 w) (f19 w) (f13 w))
  | _ => .error .unassignedSelector

/-- The fields of a scalar word by its major opcode (R90), before the checks of Instr.wf. -/
def decodeScalarRaw (w : Nat) : Except DecodeError Instr :=
  match fld w 26 6 with
  | 0x00 => decodeSys w
  | 0x01 => check (fld w 20 6 == 0) .unusedFieldNonzero (.trap (bits w 0 20))
  | 0x02 => .ok (.addpc (f25 w) (bits w 0 20))
  | 0x04 => select ((aluOf (fld w 0 8)).map fun c => c (f25 w) (f19 w) (f13 w))
  | 0x05 => .ok (.addi (f25 w) (f19 w) (bits w 0 14))
  | 0x06 => .ok (.andi (f25 w) (f19 w) (bits w 0 14))
  | 0x07 => .ok (.ori (f25 w) (f19 w) (bits w 0 14))
  | 0x08 => .ok (.xori (f25 w) (f19 w) (bits w 0 14))
  | 0x09 => decodeShift .shli w
  | 0x0A => decodeShift .shri w
  | 0x0B => decodeShift .srai w
  | 0x0C => .ok (.slti (f25 w) (f19 w) (bits w 0 14))
  | 0x0D => .ok (.sltni (f25 w) (f19 w) (bits w 0 14))
  | 0x0E => .ok (.lih (f25 w) (bits w 0 20))
  | 0x0F => .ok (.lit (f25 w) (bits w 0 20))
  | 0x10 => decodeLds w
  | 0x11 => decodeSts w
  | 0x12 => decodeSatom w
  | 0x13 => decodeScas w
  | 0x18 => select ((brCondOf (fld w 23 3)).map fun c => .br c (bits w 17 6) (bits w 11 6) (bits w 0 11))
  | 0x19 => .ok (.j (bits w 0 26))
  | 0x1A => .ok (.jl (bits w 0 26))
  | 0x1B =>
    if fld w 0 8 != 0 then .error .unassignedSelector
    else check (fld w 8 6 == 0) .unusedFieldNonzero (.jr (f25 w) (f19 w))
  | 0x1C => .ok (.brm (brmKindOf (fld w 24 2)) (bits w 20 4) (bits w 0 20))
  | 0x20 => .ok (.lx (bits w 20 6) (bits w 0 20))
  | 0x21 => check (fld w 0 14 == 0) .unusedFieldNonzero (.lxr (f25 w) (f19 w))
  | 0x22 => check (fld w 8 12 == 0 && fQual w == 0) .unusedFieldNonzero (.setb (bits w 4 4) (f25 w))
  | 0x23 => check (fld w 8 12 == 0 && fQual w == 0) .unusedFieldNonzero (.mrd (f25 w) (bits w 4 4))
  | 0x24 => check (fld w 1 7 == 0) .unusedFieldNonzero (.vrd (bit w 0) (f25 w) (f19 w) (f13 w))
  | 0x25 => check (fld w 8 12 == 0 && fQual w == 0) .unusedFieldNonzero (.mset (bits w 4 4) (f25 w))
  | 0x29 => decodeBar w
  | 0x2A => decodeWaitc w
  | 0x30 =>
    if bit w 7 then .error .unassignedSelector
    else check (fld w 8 12 == 0 && fQual w == 0) .unusedFieldNonzero (.strm (bits w 4 3) (f25 w))
  | 0x31 =>
    if bit w 7 then .error .unassignedSelector
    else check (fld w 8 18 == 0 && fQual w == 0) .unusedFieldNonzero (.qclr (bits w 4 3))
  | 0x32 => decodeStart (.cpy (bits w 4 4) (f25 w) (f19 w)) w
  | 0x33 => decodeStart (.cpyr (bits w 4 4) (f25 w) (f19 w)) w
  | 0x34 =>
    if 4 ≤ fSub w then .error .unassignedSelector
    else check (fld w 8 12 == 0 && fQual w == 0) .unusedFieldNonzero (.oclaim (bits w 4 2) (f25 w))
  | 0x35 => check (fld w 0 20 == 0) .unusedFieldNonzero (.orel (f25 w))
  | 0x36 => decodeOpld w
  | 0x37 => check (fld w 0 2 == 0) .unusedFieldNonzero
      (.mma (bits w 21 5) (bits w 16 5) (bits w 11 5) (bits w 5 6) (bit w 4) (bit w 3) (bit w 2))
  | 0x38 => check (fld w 0 20 == 0) .unusedFieldNonzero (.gang (f25 w))
  | 0x39 => check (fld w 0 8 == 0) .unusedFieldNonzero (.tqpush (f25 w) (f19 w) (f13 w))
  | 0x3A => check (fld w 0 8 == 0) .unusedFieldNonzero (.tqpull (f25 w) (f19 w) (f13 w))
  | 0x3B => check (fld w 0 8 == 0 && fld w 14 6 == 0) .unusedFieldNonzero (.tqjoin (f25 w) (f13 w))
  | 0x3C => decodeBk w
  | 0x3D => decodeView w
  | 0x3E => check (fld w 0 8 == 0) .unusedFieldNonzero (.lnch (f25 w) (f19 w) (f13 w))
  | _ => .error .unassignedOpcode

/-- The instruction a 32-bit scalar word encodes. -/
def decodeScalar (w : Nat) : Except DecodeError Instr := keepWf (decodeScalarRaw w)

/-! Lane words (R71 to R81). -/

def tyCode : ElemTy → Nat
  | .i8 => 0 | .i16 => 1 | .i32 => 2 | .i64 => 3 | .n8 => 4 | .n16 => 5 | .n32 => 6 | .n64 => 7
  | .b32 => 8 | .b64 => 9 | .f16 => 10 | .bf16 => 11 | .f32 => 12 | .f64 => 13 | .e4m3 => 14 | .e5m2 => 15
  | .e3m2 => 16 | .e2m3 => 17 | .e2m1 => 18 | .e8m0 => 19 | .aq8 => 20 | .aq4 => 21

def rndOf : Nat → Option Rnd
  | 0 => some .rne | 1 => some .rtz | 2 => some .rdn | 3 => some .rup | 4 => some .rna | 5 => some .sr | 6 => some .dyn
  | _ => none

def rndCode : Rnd → Nat
  | .rne => 0 | .rtz => 1 | .rdn => 2 | .rup => 3 | .rna => 4 | .sr => 5 | .dyn => 6

def combineOf : Nat → Combine
  | 0 => .aOnly | 1 => .and | 2 => .or | _ => .xor

def combineCode : Combine → Nat
  | .aOnly => 0 | .and => 1 | .or => 2 | .xor => 3

/-- An 11-bit operand specifier (R73): its class and fields, none where a must-be-zero bit is set. -/
def decodeOperand (n : Nat) : Option Operand :=
  match fld n 9 2 with
  | 0 => if bit n 8 then none else some (.v (bits n 0 8))
  | 1 => if fld n 4 5 == 0 then some (.q (bits n 0 3) (bit n 3)) else none
  | 2 => if fld n 4 5 == 0 then some (.b (bits n 0 4)) else none
  | _ =>
    if bit n 8 then
      match fld n 6 2 with
      | 0 => if fld n 4 2 == 0 then some (.m (bits n 0 4)) else none
      | 1 => if bit n 5 then none else some (.a (bits n 0 5))
      | 2 => if fld n 0 6 == 0 then some .x else none
      | _ => none
    else some (.imm (bits n 0 8))

def encodeOperand : Operand → Nat
  | .v r => r.toNat
  | .q n peek => 0x200 + 8 * boolNat peek + n.toNat
  | .b r => 0x400 + r.toNat
  | .imm n => 0x600 + n.toNat
  | .m r => 0x700 + r.toNat
  | .a t => 0x740 + t.toNat
  | .x => 0x780

/-- The guard of [77:66] (R72). -/
def decodeGuard (w : Nat) : Guard :=
  ⟨⟨bit w 77, bits w 73 4⟩, ⟨bit w 72, bits w 68 4⟩, combineOf (fld w 66 2)⟩

/-- The fields of a lane word whose five positions are specifiers. -/
def decodeLaneOp (w : Nat) : Option LaneOp :=
  match tyOfCode (fld w 81 5), rndOf (fld w 78 3), decodeOperand (fld w 55 11), decodeOperand (fld w 44 11),
      decodeOperand (fld w 33 11), decodeOperand (fld w 22 11), decodeOperand (fld w 11 11) with
  | some ty, some rnd, some d, some a, some b, some c, some e =>
    some ⟨ty, rnd, decodeGuard w, d, a, b, c, e, bits w 8 3, bit w 7, bits w 0 7⟩
  | _, _, _, _, _, _, _ => none

/-- A base or an index is a register or the immediate 0, which means none (R77). -/
def decodeBase (n : Nat) : Option (Option BReg) :=
  match decodeOperand n with
  | some (.b r) => some (some r)
  | some (.imm i) => if i == 0 then some none else none
  | _ => none

def decodeIndex (n : Nat) : Option (Option VReg) :=
  match decodeOperand n with
  | some (.v r) => some (some r)
  | some (.imm i) => if i == 0 then some none else none
  | _ => none

/-- The fields of a lane memory word (R77, R78). -/
def decodeMemOp (w : Nat) : Option MemOp :=
  match tyOfCode (fld w 81 5), rndOf (fld w 78 3), decodeOperand (fld w 55 11), decodeBase (fld w 44 11),
      decodeIndex (fld w 33 11), decodeOperand (fld w 11 11), scopeOf (fld w 0 3) with
  | some ty, some rnd, some d, some base, some index, some e, some scope =>
    some ⟨ty, rnd, decodeGuard w, d, base, index, bits w 30 3, bits w 22 8, e, bits w 8 3, bit w 7, scope,
      orderOf (fld w 3 2), bit w 5, bit w 6⟩
  | _, _, _, _, _, _, _ => none

/-- The fields of VIMM (R81): bit 54 and bits [21:11] are zero. -/
def decodeImmOp (w : Nat) : Option ImmOp :=
  if bit w 54 || fld w 11 11 != 0 then none
  else match tyOfCode (fld w 81 5), rndOf (fld w 78 3), decodeOperand (fld w 55 11) with
    | some ty, some rnd, some d =>
      some ⟨ty, rnd, decodeGuard w, d, bits w 22 32, bits w 8 3, bit w 7, bits w 0 7⟩
    | _, _, _ => none

/-- The layout of a lane form. -/
inductive LaneForm where
  | op (c : LaneOp → Instr)
  | mem (c : MemOp → Instr)
  | imm (c : ImmOp → Instr)

/-- The lane form an opcode names (R94); every other value is ILLEGAL. -/
def laneForm : Nat → Option LaneForm
  | 0x000 => some (.op .vadd)
  | 0x001 => some (.op .vsub)
  | 0x002 => some (.op .vmul)
  | 0x003 => some (.op .vmulh)
  | 0x004 => some (.op .vmad)
  | 0x005 => some (.op .vdiv)
  | 0x006 => some (.op .vrem)
  | 0x007 => some (.op .vmin)
  | 0x008 => some (.op .vmax)
  | 0x009 => some (.op .vabs)
  | 0x00A => some (.op .vneg)
  | 0x010 => some (.op .vand)
  | 0x011 => some (.op .vor)
  | 0x012 => some (.op .vxor)
  | 0x013 => some (.op .vnot)
  | 0x014 => some (.op .vshl)
  | 0x015 => some (.op .vshr)
  | 0x016 => some (.op .vsra)
  | 0x017 => some (.op .vpopc)
  | 0x018 => some (.op .vclz)
  | 0x019 => some (.op .vbfe)
  | 0x01A => some (.op .vbfi)
  | 0x020 => some (.op .vcmp)
  | 0x021 => some (.op .vsel)
  | 0x022 => some (.op .vmov)
  | 0x023 => some (.imm .vimm)
  | 0x024 => some (.op .vlane)
  | 0x040 => some (.op .mand)
  | 0x041 => some (.op .mor)
  | 0x042 => some (.op .mxor)
  | 0x043 => some (.op .mnot)
  | 0x044 => some (.op .mfirst)
  | 0x045 => some (.op .mpopc)
  | 0x048 => some (.op .vshfl)
  | 0x049 => some (.op .vperm)
  | 0x04A => some (.op .vstep)
  | 0x04B => some (.op .vscan)
  | 0x04C => some (.op .vcomp)
  | 0x04D => some (.op .viota)
  | 0x080 => some (.op .vfadd)
  | 0x081 => some (.op .vfsub)
  | 0x082 => some (.op .vfmul)
  | 0x083 => some (.op .vfma)
  | 0x084 => some (.op .vfmin)
  | 0x085 => some (.op .vfmax)
  | 0x086 => some (.op .vfabs)
  | 0x087 => some (.op .vfneg)
  | 0x088 => some (.op .vfdiv)
  | 0x089 => some (.op .vfsqrt)
  | 0x08A => some (.op .vfrcp)
  | 0x08B => some (.op .vfrsq)
  | 0x08C => some (.op .vfex2)
  | 0x08D => some (.op .vflg2)
  | 0x08E => some (.op .vfsin)
  | 0x08F => some (.op .vfcos)
  | 0x090 => some (.op .vfcls)
  | 0x0C0 => some (.op .vcvt)
  | 0x0C1 => some (.op .vpack)
  | 0x0C2 => some (.op .vunpk)
  | 0x0C3 => some (.op .vqmx)
  | 0x0C4 => some (.op .vqaq)
  | 0x0C5 => some (.op .vdq)
  | 0x0D0 => some (.op .xclr)
  | 0x0D1 => some (.op .xadd)
  | 0x0D2 => some (.op .xsub)
  | 0x0D3 => some (.op .xrnd)
  | 0x0D4 => some (.mem .xst)
  | 0x0D5 => some (.mem .xlda)
  | 0x100 => some (.mem .vld)
  | 0x101 => some (.mem .vst)
  | 0x102 => some (.mem .vpref)
  | 0x108 => some (.mem .vatom)
  | 0x109 => some (.mem .vcas)
  | 0x10A => some (.mem .vred)
  | 0x140 => some (.op .acrd)
  | 0x141 => some (.op .acwr)
  | 0x142 => some (.op .acscl)
  | 0x143 => some (.op .acmax)
  | 0x145 => some (.op .acexp)
  | _ => none

/-- The fields of a lane word by its opcode, before the checks of Instr.wf. -/
def decodeLaneRaw (w : Nat) : Except DecodeError Instr :=
  match laneForm (fld w 86 10) with
  | none => .error .unassignedOpcode
  | some (.op c) => match decodeLaneOp w with
    | some o => .ok (c o)
    | none => .error .badSpecifier
  | some (.mem c) => match decodeMemOp w with
    | some o => .ok (c o)
    | none => .error .badSpecifier
  | some (.imm c) => match decodeImmOp w with
    | some o => .ok (c o)
    | none => .error .badSpecifier

/-- The instruction a 96-bit lane word encodes. -/
def decodeLane (w : Nat) : Except DecodeError Instr := keepWf (decodeLaneRaw w)

/-! Bank micro-operations (R82, R340). -/

/-- A word with operation 0x0C to 0x1F, or with a bit its operation leaves unused, is not executable (R82). -/
def decodeBankRaw (w : Nat) : Except DecodeError Instr :=
  match fld w 27 5 with
  | 0x00 => check (fld w 0 27 == 0) .unusedFieldNonzero .bnop
  | 0x01 => check (fld w 0 25 == 0) .unusedFieldNonzero (.bact (bit w 26) (bit w 25))
  | 0x02 => check (fld w 0 27 == 0) .unusedFieldNonzero .bpre
  | 0x03 => check (fld w 0 20 == 0) .unusedFieldNonzero (.bmac (bits w 24 3) (bankFmtOf (fld w 22 2)) (bit w 21) (bit w 20))
  | 0x04 => check (fld w 8 19 == 0) .unusedFieldNonzero (.bzero (bits w 0 8))
  | 0x05 => check (fld w 16 8 == 0) .unusedFieldNonzero (.bscl (bits w 24 3) (bits w 0 16))
  | 0x06 => check (fld w 0 24 == 0) .unusedFieldNonzero (.bwra (bits w 24 3))
  | 0x07 => check (fld w 5 22 == 0) .unusedFieldNonzero (.bwrb (bits w 0 5))
  | 0x08 => check (fld w 16 11 == 0) .unusedFieldNonzero (.bloop (bits w 0 16))
  | 0x09 => check (fld w 0 27 == 0) .unusedFieldNonzero .bend
  | 0x0A => check (fld w 0 27 == 0) .unusedFieldNonzero .bstop
  | 0x0B => check (fld w 0 15 == 0) .unusedFieldNonzero (.bxld (bits w 21 6) (bits w 15 6))
  | _ => .error .unassignedOpcode

def decodeBank (w : Nat) : Except DecodeError Instr := keepWf (decodeBankRaw w)

/-! The encoder. -/

/-- A word of format SR, SI, SL, SM or SE: major opcode, the register of [25:20], and the bits below. -/
def enc25 (major : Nat) (r : SReg) (low : Nat) : Nat := major * 2 ^ 26 + r.toNat * 2 ^ 20 + low

/-- A word with registers in [25:20], [19:14] and [13:8]. -/
def encRRR (major : Nat) (r1 r2 r3 : SReg) (low : Nat) : Nat :=
  enc25 major r1 (r2.toNat * 2 ^ 14 + r3.toNat * 2 ^ 8 + low)

def encSI (major : Nat) (sd sa : SReg) (imm : Nat) : Nat := enc25 major sd (sa.toNat * 2 ^ 14 + imm)

/-- sc and qual of a command with an optional start condition. -/
def encStart : Option StartCond → SReg × Nat
  | none => (0, 0)
  | some c => (c.value, c.counter.toNat)

/-- The encoding of a scalar instruction (R66 to R70, R90 to R93). -/
def encodeScalar : Instr → Option Nat
  | .nop => some 0
  | .exit => some 1
  | .yield => some 2
  | .brk => some 3
  | .sysr sd n => some (encRRR 0x00 sd 0 n 4)
  | .sysw n sa => some (encRRR 0x00 0 sa n 5)
  | .irb => some 6
  | .ire => some 7
  | .fence sc o => some (scopeCode sc * 2 ^ 8 + orderCode o * 2 ^ 11 + 8)
  | .trap code => some (enc25 0x01 0 code.toNat)
  | .addpc sd imm => some (enc25 0x02 sd imm.toNat)
  | .add sd sa sb => some (encRRR 0x04 sd sa sb 0x00)
  | .sub sd sa sb => some (encRRR 0x04 sd sa sb 0x01)
  | .and sd sa sb => some (encRRR 0x04 sd sa sb 0x02)
  | .or sd sa sb => some (encRRR 0x04 sd sa sb 0x03)
  | .xor sd sa sb => some (encRRR 0x04 sd sa sb 0x04)
  | .shl sd sa sb => some (encRRR 0x04 sd sa sb 0x05)
  | .shr sd sa sb => some (encRRR 0x04 sd sa sb 0x06)
  | .sra sd sa sb => some (encRRR 0x04 sd sa sb 0x07)
  | .min sd sa sb => some (encRRR 0x04 sd sa sb 0x08)
  | .max sd sa sb => some (encRRR 0x04 sd sa sb 0x09)
  | .minn sd sa sb => some (encRRR 0x04 sd sa sb 0x0A)
  | .maxn sd sa sb => some (encRRR 0x04 sd sa sb 0x0B)
  | .slt sd sa sb => some (encRRR 0x04 sd sa sb 0x0C)
  | .sltn sd sa sb => some (encRRR 0x04 sd sa sb 0x0D)
  | .mul sd sa sb => some (encRRR 0x04 sd sa sb 0x10)
  | .mulh sd sa sb => some (encRRR 0x04 sd sa sb 0x11)
  | .mulhn sd sa sb => some (encRRR 0x04 sd sa sb 0x12)
  | .div sd sa sb => some (encRRR 0x04 sd sa sb 0x13)
  | .divn sd sa sb => some (encRRR 0x04 sd sa sb 0x14)
  | .rem sd sa sb => some (encRRR 0x04 sd sa sb 0x15)
  | .remn sd sa sb => some (encRRR 0x04 sd sa sb 0x16)
  | .csel sd sa sb => some (encRRR 0x04 sd sa sb 0x18)
  | .addi sd sa i => some (encSI 0x05 sd sa i.toNat)
  | .andi sd sa i => some (encSI 0x06 sd sa i.toNat)
  | .ori sd sa i => some (encSI 0x07 sd sa i.toNat)
  | .xori sd sa i => some (encSI 0x08 sd sa i.toNat)
  | .shli sd sa n => some (encSI 0x09 sd sa n.toNat)
  | .shri sd sa n => some (encSI 0x0A sd sa n.toNat)
  | .srai sd sa n => some (encSI 0x0B sd sa n.toNat)
  | .slti sd sa i => some (encSI 0x0C sd sa i.toNat)
  | .sltni sd sa i => some (encSI 0x0D sd sa i.toNat)
  | .lih sd i => some (enc25 0x0E sd i.toNat)
  | .lit sd i => some (enc25 0x0F sd i.toNat)
  | .lds sz acq sd sa i => some (encSI 0x10 sd sa (ldSizeCode sz * 2 ^ 11 + boolNat acq * 2 ^ 9 + i.toNat))
  | .sts sz rel sd sa i => some (encSI 0x11 sd sa (stSizeCode sz * 2 ^ 11 + boolNat rel * 2 ^ 9 + i.toNat))
  | .satom op sc ar sa sb s3 => some (encRRR 0x12 sa sb s3 (satomCode op * 2 ^ 4 + boolNat ar * 2 ^ 3 + scopeCode sc))
  | .scas sc ar sa sb s3 => some (encRRR 0x13 sa sb s3 (boolNat ar * 2 ^ 3 + scopeCode sc))
  | .br c sa sb o => some (0x18 * 2 ^ 26 + brCondCode c * 2 ^ 23 + sa.toNat * 2 ^ 17 + sb.toNat * 2 ^ 11 + o.toNat)
  | .j o => some (0x19 * 2 ^ 26 + o.toNat)
  | .jl o => some (0x1A * 2 ^ 26 + o.toNat)
  | .jr sd sa => some (encRRR 0x1B sd sa 0 0)
  | .brm k m o => some (0x1C * 2 ^ 26 + brmKindCode k * 2 ^ 24 + m.toNat * 2 ^ 20 + o.toNat)
  | .lx n i => some (enc25 0x20 n i.toNat)
  | .lxr sa sb => some (encRRR 0x21 sa sb 0 0)
  | .setb b sa => some (enc25 0x22 sa (b.toNat * 2 ^ 4))
  | .mrd sa m => some (enc25 0x23 sa (m.toNat * 2 ^ 4))
  | .vrd wide sa sb sc => some (encRRR 0x24 sa sb sc (boolNat wide))
  | .mset m sa => some (enc25 0x25 sa (m.toNat * 2 ^ 4))
  | .barArrive cl n sa sb => some (encRRR 0x29 sa sb 0 (n.toNat * 2 ^ 4 + boolNat cl * 2 ^ 2))
  | .barWait cl n sb => some (encRRR 0x29 0 sb 0 (n.toNat * 2 ^ 4 + boolNat cl * 2 ^ 2 + 1))
  | .barSync cl n sa sb => some (encRRR 0x29 sa sb 0 (n.toNat * 2 ^ 4 + boolNat cl * 2 ^ 2 + 2))
  | .barRemote n sa sb sc => some (encRRR 0x29 sa sb sc (n.toNat * 2 ^ 4 + 7))
  | .waitc sc k sa => some (enc25 0x2A sa (k.toNat * 2 ^ 4 + scopeCode sc))
  | .waitcFe sc sa => some (enc25 0x2A sa (8 + scopeCode sc))
  | .strm q sa => some (enc25 0x30 sa (q.toNat * 2 ^ 4))
  | .qclr q => some (0x31 * 2 ^ 26 + q.toNat * 2 ^ 4)
  | .cpy k sa sb st => some (encRRR 0x32 sa sb (encStart st).1 (k.toNat * 2 ^ 4 + (encStart st).2))
  | .cpyr k sa sb st => some (encRRR 0x33 sa sb (encStart st).1 (k.toNat * 2 ^ 4 + (encStart st).2))
  | .oclaim n sa => some (enc25 0x34 sa (n.toNat * 2 ^ 4))
  | .orel sa => some (enc25 0x35 sa 0)
  | .opld k fe sa sb => some (encRRR 0x36 sa sb 0 (opldKindCode k * 2 ^ 4 + boolNat fe))
  | .mma t oA oB sa acc seg causal => some (0x37 * 2 ^ 26 + t.toNat * 2 ^ 21 + oA.toNat * 2 ^ 16 + oB.toNat * 2 ^ 11
      + sa.toNat * 2 ^ 5 + boolNat acc * 2 ^ 4 + boolNat seg * 2 ^ 3 + boolNat causal * 2 ^ 2)
  | .gang sa => some (enc25 0x38 sa 0)
  | .tqpush sa sb sc => some (encRRR 0x39 sa sb sc 0)
  | .tqpull sa sb sc => some (encRRR 0x3A sa sb sc 0)
  | .tqjoin sa sc => some (encRRR 0x3B sa 0 sc 0)
  | .bkload sa sb => some (encRRR 0x3C sa sb 0 0)
  | .bkrun sa sb st => some (encRRR 0x3C sa sb (encStart st).1 (0x10 + (encStart st).2))
  | .bkfence sa sb => some (encRRR 0x3C sa sb 0 0x20)
  | .viewb sa sb sc => some (encRRR 0x3D sa sb sc 0)
  | .viewi k sa sb => some (encRRR 0x3D sa sb 0 (0x10 + k.toNat))
  | .rminv k sa sb sc => some (encRRR 0x3D sa sb sc (0x20 + k.toNat))
  | .lnch sa sb sc => some (encRRR 0x3E sa sb sc 0)
  | _ => none

/-- Opcode, type, rounding and guard of a lane word. -/
def encHead (opcode : Nat) (ty : ElemTy) (rnd : Rnd) (g : Guard) : Nat :=
  opcode * 2 ^ 86 + tyCode ty * 2 ^ 81 + rndCode rnd * 2 ^ 78 + boolNat g.a.negate * 2 ^ 77 + g.a.mask.toNat * 2 ^ 73
    + boolNat g.b.negate * 2 ^ 72 + g.b.mask.toNat * 2 ^ 68 + combineCode g.combine * 2 ^ 66

def encLaneOp (opcode : Nat) (o : LaneOp) : Nat :=
  encHead opcode o.ty o.rnd o.guard + encodeOperand o.d * 2 ^ 55 + encodeOperand o.a * 2 ^ 44 + encodeOperand o.b * 2 ^ 33
    + encodeOperand o.c * 2 ^ 22 + encodeOperand o.e * 2 ^ 11 + o.hint.toNat * 2 ^ 8 + boolNat o.bypass * 2 ^ 7 + o.mods.toNat

def encBase : Option BReg → Operand
  | some r => .b r
  | none => .imm 0

def encIndex : Option VReg → Operand
  | some r => .v r
  | none => .imm 0

def encMemOp (opcode : Nat) (o : MemOp) : Nat :=
  encHead opcode o.ty o.rnd o.guard + encodeOperand o.d * 2 ^ 55 + encodeOperand (encBase o.base) * 2 ^ 44
    + encodeOperand (encIndex o.index) * 2 ^ 33 + o.scale.toNat * 2 ^ 30 + o.disp.toNat * 2 ^ 22
    + encodeOperand o.e * 2 ^ 11 + o.hint.toNat * 2 ^ 8 + boolNat o.bypass * 2 ^ 7 + boolNat o.bit6 * 2 ^ 6
    + boolNat o.fe * 2 ^ 5 + orderCode o.order * 2 ^ 3 + scopeCode o.scope

def encImmOp (opcode : Nat) (o : ImmOp) : Nat :=
  encHead opcode o.ty o.rnd o.guard + encodeOperand o.d * 2 ^ 55 + o.imm.toNat * 2 ^ 22 + o.hint.toNat * 2 ^ 8
    + boolNat o.bypass * 2 ^ 7 + o.mods.toNat

/-- The encoding of a lane instruction: its opcode and its fields (R71, R94). -/
def encodeLane : Instr → Option Nat
  | .vadd o => some (encLaneOp 0x000 o)
  | .vsub o => some (encLaneOp 0x001 o)
  | .vmul o => some (encLaneOp 0x002 o)
  | .vmulh o => some (encLaneOp 0x003 o)
  | .vmad o => some (encLaneOp 0x004 o)
  | .vdiv o => some (encLaneOp 0x005 o)
  | .vrem o => some (encLaneOp 0x006 o)
  | .vmin o => some (encLaneOp 0x007 o)
  | .vmax o => some (encLaneOp 0x008 o)
  | .vabs o => some (encLaneOp 0x009 o)
  | .vneg o => some (encLaneOp 0x00A o)
  | .vand o => some (encLaneOp 0x010 o)
  | .vor o => some (encLaneOp 0x011 o)
  | .vxor o => some (encLaneOp 0x012 o)
  | .vnot o => some (encLaneOp 0x013 o)
  | .vshl o => some (encLaneOp 0x014 o)
  | .vshr o => some (encLaneOp 0x015 o)
  | .vsra o => some (encLaneOp 0x016 o)
  | .vpopc o => some (encLaneOp 0x017 o)
  | .vclz o => some (encLaneOp 0x018 o)
  | .vbfe o => some (encLaneOp 0x019 o)
  | .vbfi o => some (encLaneOp 0x01A o)
  | .vcmp o => some (encLaneOp 0x020 o)
  | .vsel o => some (encLaneOp 0x021 o)
  | .vmov o => some (encLaneOp 0x022 o)
  | .vimm o => some (encImmOp 0x023 o)
  | .vlane o => some (encLaneOp 0x024 o)
  | .mand o => some (encLaneOp 0x040 o)
  | .mor o => some (encLaneOp 0x041 o)
  | .mxor o => some (encLaneOp 0x042 o)
  | .mnot o => some (encLaneOp 0x043 o)
  | .mfirst o => some (encLaneOp 0x044 o)
  | .mpopc o => some (encLaneOp 0x045 o)
  | .vshfl o => some (encLaneOp 0x048 o)
  | .vperm o => some (encLaneOp 0x049 o)
  | .vstep o => some (encLaneOp 0x04A o)
  | .vscan o => some (encLaneOp 0x04B o)
  | .vcomp o => some (encLaneOp 0x04C o)
  | .viota o => some (encLaneOp 0x04D o)
  | .vfadd o => some (encLaneOp 0x080 o)
  | .vfsub o => some (encLaneOp 0x081 o)
  | .vfmul o => some (encLaneOp 0x082 o)
  | .vfma o => some (encLaneOp 0x083 o)
  | .vfmin o => some (encLaneOp 0x084 o)
  | .vfmax o => some (encLaneOp 0x085 o)
  | .vfabs o => some (encLaneOp 0x086 o)
  | .vfneg o => some (encLaneOp 0x087 o)
  | .vfdiv o => some (encLaneOp 0x088 o)
  | .vfsqrt o => some (encLaneOp 0x089 o)
  | .vfrcp o => some (encLaneOp 0x08A o)
  | .vfrsq o => some (encLaneOp 0x08B o)
  | .vfex2 o => some (encLaneOp 0x08C o)
  | .vflg2 o => some (encLaneOp 0x08D o)
  | .vfsin o => some (encLaneOp 0x08E o)
  | .vfcos o => some (encLaneOp 0x08F o)
  | .vfcls o => some (encLaneOp 0x090 o)
  | .vcvt o => some (encLaneOp 0x0C0 o)
  | .vpack o => some (encLaneOp 0x0C1 o)
  | .vunpk o => some (encLaneOp 0x0C2 o)
  | .vqmx o => some (encLaneOp 0x0C3 o)
  | .vqaq o => some (encLaneOp 0x0C4 o)
  | .vdq o => some (encLaneOp 0x0C5 o)
  | .xclr o => some (encLaneOp 0x0D0 o)
  | .xadd o => some (encLaneOp 0x0D1 o)
  | .xsub o => some (encLaneOp 0x0D2 o)
  | .xrnd o => some (encLaneOp 0x0D3 o)
  | .xst o => some (encMemOp 0x0D4 o)
  | .xlda o => some (encMemOp 0x0D5 o)
  | .vld o => some (encMemOp 0x100 o)
  | .vst o => some (encMemOp 0x101 o)
  | .vpref o => some (encMemOp 0x102 o)
  | .vatom o => some (encMemOp 0x108 o)
  | .vcas o => some (encMemOp 0x109 o)
  | .vred o => some (encMemOp 0x10A o)
  | .acrd o => some (encLaneOp 0x140 o)
  | .acwr o => some (encLaneOp 0x141 o)
  | .acscl o => some (encLaneOp 0x142 o)
  | .acmax o => some (encLaneOp 0x143 o)
  | .acexp o => some (encLaneOp 0x145 o)
  | _ => none

/-- The encoding of a bank micro-operation (R340). -/
def encodeBank : Instr → Option Nat
  | .bnop => some 0
  | .bact r inc => some (0x01 * 2 ^ 27 + boolNat r * 2 ^ 26 + boolNat inc * 2 ^ 25)
  | .bpre => some (0x02 * 2 ^ 27)
  | .bmac j f c x => some (0x03 * 2 ^ 27 + j.toNat * 2 ^ 24 + bankFmtCode f * 2 ^ 22 + boolNat c * 2 ^ 21 + boolNat x * 2 ^ 20)
  | .bzero m => some (0x04 * 2 ^ 27 + m.toNat)
  | .bscl j f => some (0x05 * 2 ^ 27 + j.toNat * 2 ^ 24 + f.toNat)
  | .bwra j => some (0x06 * 2 ^ 27 + j.toNat * 2 ^ 24)
  | .bwrb c => some (0x07 * 2 ^ 27 + c.toNat)
  | .bloop n => some (0x08 * 2 ^ 27 + n.toNat)
  | .bend => some (0x09 * 2 ^ 27)
  | .bstop => some (0x0A * 2 ^ 27)
  | .bxld f n => some (0x0B * 2 ^ 27 + f.toNat * 2 ^ 21 + n.toNat * 2 ^ 15)
  | _ => none

/-- The width in bits and the word of an instruction that has an encoding: a scalar word, a lane word, or a bank word. -/
def encode (i : Instr) : Option (Nat × Nat) :=
  match encodeScalar i with
  | some w => some (32, w)
  | none => match encodeLane i with
    | some w => some (96, w)
    | none => match encodeBank i with
      | some w => some (32, w)
      | none => none

/-- The instruction of 4 bytes of scalar code, of 12 bytes of lane code, or of a 4-byte store word, as bytes in
ascending address order (R65). -/
def decodeScalarBytes (bs : List Byte) : Except DecodeError Instr := decodeScalar (natOfBytes (bs.take 4))
def decodeLaneBytes (bs : List Byte) : Except DecodeError Instr := decodeLane (natOfBytes (bs.take 12))
def decodeBankBytes (bs : List Byte) : Except DecodeError Instr := decodeBank (natOfBytes (bs.take 4))

/-- What a result names, without the reason of a refusal. -/
def toOption (r : Except DecodeError Instr) : Option Instr :=
  match r with
  | .ok i => some i
  | .error _ => none

/-- The instruction the decoder reads from a word of the opcode table's bit numbering. 32-bit words are scalar words;
the bank micro-operations share the 32-bit space with them (a store word is never fetched as scalar code), so a word
is read as a bank micro-operation only where it is no scalar instruction (log 7). 96-bit words are lane words. The
word goes through its little-endian bytes, as the hardware stores it (R65). -/
def decodeTableWord (nbits w : Nat) : Option Instr :=
  if nbits = 32 then
    match decodeScalarBytes (bytesOfNat 4 w) with
    | .ok i => some i
    | .error _ => toOption (decodeBankBytes (bytesOfNat 4 w))
  else if nbits = 96 then toOption (decodeLaneBytes (bytesOfNat 12 w))
  else none

end Sys2Proof
end

