-- ==== Sys2Proof/Machine/LaneInfo.lean ====
section
/-! DEFINITION. What a lane instruction reads and writes, taken from its syntax: the scoreboard's view (R32, R33). -/

namespace Sys2Proof.Machine

/-- The operands of a lane instruction that makes no memory access by address. -/
def laneOpOf : Instr → Option LaneOp
  | .vadd o | .vsub o | .vmul o | .vmulh o | .vmad o | .vdiv o | .vrem o | .vmin o
  | .vmax o | .vabs o | .vneg o | .vand o | .vor o | .vxor o | .vnot o | .vshl o
  | .vshr o | .vsra o | .vpopc o | .vclz o | .vbfe o | .vbfi o | .vcmp o | .vsel o
  | .vmov o | .vlane o | .mand o | .mor o | .mxor o | .mnot o | .mfirst o | .mpopc o
  | .vshfl o | .vperm o | .vstep o | .vscan o | .vcomp o | .viota o | .vfadd o | .vfsub o
  | .vfmul o | .vfma o | .vfmin o | .vfmax o | .vfabs o | .vfneg o | .vfdiv o | .vfsqrt o
  | .vfrcp o | .vfrsq o | .vfex2 o | .vflg2 o | .vfsin o | .vfcos o | .vfcls o | .vcvt o
  | .vpack o | .vunpk o | .vqmx o | .vqaq o | .vdq o | .xclr o | .xadd o | .xsub o
  | .xrnd o | .acrd o | .acwr o | .acscl o | .acmax o | .acexp o => some o
  | _ => none

/-- The operands of a lane memory instruction. -/
def memOpOf : Instr → Option MemOp
  | .xst o | .xlda o | .vld o | .vst o | .vpref o | .vatom o | .vcas o | .vred o => some o
  | _ => none

/-- The number of elements n of a packing or unpacking instruction, from the packed width (R155, R156). -/
def packCount (bits : Nat) : Nat := if bits = 6 then 16 else 32 / bits

/-- Vector registers from r up. -/
def regRun (r : VReg) (n : Nat) : List Nat := (List.range n).map fun k => r.toNat + k

/-- How many registers a vector operand of w bits takes (R20). -/
def regsOf (w : Nat) : Nat := if w = 64 then 2 else 1

/-- Vector registers that a destination operand of w bits writes. -/
def operandRegs (w : Nat) : Operand → List Nat
  | .v r => regRun r (regsOf w)
  | _ => []

def operandMasks : Operand → List Nat
  | .m r => [r.toNat]
  | _ => []

/-- Vector registers a lane instruction writes. -/
def destRegs (i : Instr) : List Nat :=
  match i with
  | .vpopc o | .vclz o | .vfcls o => operandRegs 32 o.d
  | .vpack o =>
    match o.d with
    | .v r => regRun r (if tyBits o.ty = 6 then 3 else 1)
    | _ => []
  | .vunpk o =>
    match o.d, srcTy o with
    | .v r, some s => regRun r (packCount (tyBits s))
    | _, _ => []
  | .vqmx o => operandRegs 32 o.d ++ operandRegs 32 o.e
  | .vimm o => operandRegs (tyBits o.ty) o.d
  | .vld o => operandRegs (tyBits o.ty) o.d ++ (if o.bit6 then operandRegs 32 o.e else [])
  | .vatom o | .vcas o => operandRegs (tyBits o.ty) o.d
  | .xst _ | .xlda _ | .vst _ | .vpref _ | .vred _ => []
  | i =>
    match laneOpOf i with
    | some o => operandRegs (tyBits o.ty) o.d
    | none => []

/-- Masks a lane instruction writes: a mask destination, a status mask, the .last mask of VATOM. -/
def destMasks (i : Instr) : List Nat :=
  match i with
  | .vatom o => if o.bit6 then (match o.e with | .imm n => [n.toNat / 16] | _ => []) else []
  | i =>
    match laneOpOf i with
    | some o => operandMasks o.d ++ operandMasks o.e
    | none => []

/-- A lane memory instruction, or one that produces elements of a write stream: what FENCE at group scope waits for (R33,
R291). -/
def laneMemory (i : Instr) : Bool :=
  (memOpOf i).isSome ||
    (match i with
    | .vimm o => opQ o.d
    | i => match laneOpOf i with
      | some o => opQ o.d
      | none => false)

/-- The rounding field of a lane instruction. -/
def laneRnd (i : Instr) : Rnd :=
  match i with
  | .vimm o => o.rnd
  | i =>
    match laneOpOf i, memOpOf i with
    | some o, _ => o.rnd
    | none, some o => o.rnd
    | none, none => .rne

/-- The instruction of a lane word; a word that encodes none has no destinations (R83). -/
def laneInstr? (w : Nat) : Option Instr := (decodeLane w).toOption

end Sys2Proof.Machine
end

