-- ==== Sys2Proof/Machine/Ops.lean ====
section
/-! DEFINITION. The named operations of the machine: the registers and the current split, finishing a scalar
instruction, stalling, taking a trap and the host's disposition of it (the return), poison, restarts and kills, the
retirement of groups and workgroups, tier misses, and the scalar stream's reads and writes of memory. -/

namespace Sys2Proof.Machine

/-! The current split and its registers (R19, R20, R168). -/

def State.curGroup (s : State) : Option Group := s.group? s.cur.wg s.cur.g
def State.curSplit (s : State) : Option Split := s.split? s.cur.wg s.cur.g s.cur.split
def State.modCurGroup (s : State) (f : Group → Group) : State := s.modGroup s.cur.wg s.cur.g f
def State.modCurSplit (s : State) (f : Split → Split) : State := s.modCurGroup fun g => g.modSplit s.cur.split f
def State.curPc (s : State) : Word := (s.curSplit.map (·.pc)).getD 0
def State.curMask (s : State) : LaneMask := (s.curSplit.map (·.mask)).getD 0
def State.curCore (s : State) : CoreIx := s.coreOf s.cur.wg
def State.curCtx (s : State) : BitVec 20 := s.ctxOf s.cur.wg

/-- The current split as an agent of memory (R235). -/
def State.agent (s : State) : Agent :=
  ⟨s.curCtx, s.curCore, reachOfCore s.curCore, s.cur.wg, s.cur.g, none, [], .scalar s.cur.wg s.cur.g s.cur.split⟩

/-- Read a scalar register: s0 is zero, s48 to s63 belong to the split (R19). -/
def State.rs (s : State) (r : SReg) : Word :=
  if r = 0 then 0
  else if r.toNat < 48 then (s.curGroup.map fun g => getVec g.s r.toNat 0).getD 0
  else (s.curSplit.map fun x => getVec x.regs (r.toNat - 48) 0).getD 0

/-- Write a scalar register: a write of s0 is discarded (R19); it ends the register's poison (R386). -/
def State.ws (s : State) (r : SReg) (v : Word) : State :=
  if r = 0 then s
  else if r.toNat < 48 then
    s.modCurGroup fun g => { g with s := modVec (fun _ => v) g.s r.toNat, poison := g.poison.filter (· != .s r.toNat) }
  else
    s.modCurGroup fun g =>
      { g.modSplit s.cur.split fun x => { x with regs := modVec (fun _ => v) x.regs (r.toNat - 48) } with
        poison := g.poison.filter (· != .s r.toNat) }

/-- The start of the block that holds an address (R110). -/
def blockOf (pc : Word) : Word := pc - BitVec.ofNat 64 (pc.toNat % 64)

/-! Finishing and stalling (R99, R100, R168, R169). -/

/-- The current split goes to an address: a block start is a block entry. -/
def State.goto (s : State) (pc : Word) : State :=
  s.modCurGroup fun g =>
    (g.modSplit s.cur.split fun x => { x with pc := pc, status := .ready, stalled := false, syncToken := none, lnch := none }).arrive s.cur.split

/-- A scalar instruction that completes without a trap or a jump advances the PC by 4 (R99). -/
def State.next4 (s : State) : State := s.goto (s.curPc + 4)

/-- The current split waits; the instruction has not taken effect (R100). -/
def State.wait (s : State) (w : Wait) : State :=
  s.modCurSplit fun x => { x with status := .waiting w, stalled := true }

/-- A stall of R33, R181 or R281: the instruction executes in full when the split is READY again. -/
def State.stall (s : State) : State := (s.wait .retry).remoteClear (.scalar s.cur.wg s.cur.g s.cur.split)

/-! Regions and fault domains (R173 to R175). -/

/-- The RCB whose fault domain a region belongs to: its own with NFD, a root's its own, else its parent's (R175). -/
def State.domainOf (s : State) (ctx : BitVec 20) (rcb : Nat) : Nat :=
  (((s.path ctx rcb).find? fun r => r.nfd || r.parent == 0).map (·.rcb)).getD rcb

/-- A region lies in a domain or below it (R175). -/
def State.inDomain (s : State) (ctx : BitVec 20) (rcb root : Nat) : Bool := (s.path ctx rcb).any fun r => r.rcb == root

/-- The trap queue of a region: its own, or the nearest ancestor's (R173). -/
def State.trapQueueOf (s : State) (ctx : BitVec 20) (rcb : Nat) : Nat :=
  (((s.path ctx rcb).find? fun r => r.trapQueue != 0).map (·.trapQueue)).getD 0

/-- A root RCB's registered address. -/
def State.rootOf (s : State) (ctx : BitVec 20) : Nat := ((s.ctx? ctx).map (·.rootRcb)).getD 0

/-! Trap records (R361 to R364). -/

/-- What an instruction raises: its class, the address of R355, the flags M, F and W, and the class's detail. -/
structure Trap where
  cls : TrapClass
  addr : Nat
  malformed : Bool
  fetch : Bool
  write : Bool
  detail : Nat
  deriving DecidableEq, Repr

def Trap.plain (c : TrapClass) : Trap := ⟨c, 0, false, false, false, 0⟩
def Trap.at (c : TrapClass) (addr : Nat) : Trap := ⟨c, addr, false, false, false, 0⟩
def Cond.toTrap (c : Cond) (fetch write : Bool) : Trap := ⟨c.cls, c.addr, c.malformed, fetch, write, 0⟩

/-- The origin byte: kind [1:0], split [3:2], W [4], F [5], M [6]. -/
def originByte (kind split : Nat) (t : Trap) : Nat :=
  kind + 4 * (split % 4) + 16 * boolNat t.write + 32 * boolNat t.fetch + 64 * boolNat t.malformed

/-- The 64 bytes of a record, its sequence zero. -/
def trapBytes (cls origin whereAt ctx j lane pc addr fault performed detail : Nat) : List Byte :=
  bytesOfNat 1 cls ++ bytesOfNat 1 origin ++ bytesOfNat 2 whereAt ++ bytesOfNat 4 ctx ++ bytesOfNat 4 j ++
    bytesOfNat 4 lane ++ bytesOfNat 8 pc ++ bytesOfNat 8 addr ++ bytesOfNat 8 fault ++ bytesOfNat 8 performed ++
    bytesOfNat 8 detail ++ bytesOfNat 4 0 ++ bytesOfNat 4 0

/-! Kills (R393). -/

/-- Launches of a domain that are not final. -/
def State.domainLaunches (s : State) (ctx : BitVec 20) (root : Nat) : List Nat :=
  (List.range s.launches.length).filter fun l =>
    match s.launch? l with
    | some x => x.ctx == ctx && x.state != .done && x.state != .ended && s.inDomain ctx x.region root
    | none => false

/-- Workgroups of some launches that are not complete. -/
def State.wgsOf (s : State) (ls : List Nat) : List WgIx :=
  (List.range s.wgs.length).filter fun w =>
    match s.wg? w with
    | some x => ls.contains x.launch && x.state != .complete
    | none => false

/-- A workgroup stopped without a save: what it held is free (R393). -/
def Wg.kill (x : Wg) : Wg :=
  { x with state := .complete, groups := x.groups.map Group.dead, vaultSize := 0, vault := [], full := [], engineFull := [], extGranules := [],
           poisonVault := [], poisonShared := false, cmds := [], cmdTraps := [], savedSlots := [], tiles := [], seqs := [],
           preempt := false, wasPreempted := false }

/-- A workgroup that has completed: its confluent MMAs still have to read their slots (R308). -/
def Wg.finish (x : Wg) : Wg :=
  { x.kill with seqs := x.seqs.filter fun q =>
      q.confluent.isSome && q.dataA != 0 && q.dataB != 0 && (!(q.seg || q.causal) || (q.segA != 0 && q.segB != 0)) }

/-- A slot of one of these owners is FREE. -/
def Slot.freeOf (ws : List WgIx) (x : Slot) : Slot :=
  if ws.contains x.owner && x.state != .free then { x with state := .free, loads := [] } else x

/-- A slot of a completed workgroup is released; a load that waits for a granule of a vault that is gone is abandoned (R308, log 36). -/
def Slot.releaseOf (ws : List WgIx) (x : Slot) : Slot :=
  if ws.contains x.owner && x.state != .free then
    { x with state := .releasing, loads := x.loads.filter fun l => l.granules.all fun g => !ws.contains g.1 }
  else x

/-- An MMA that names a slot has not completed. -/
def Wg.namesSlot (x : Wg) (slot : Nat) : Bool := x.seqs.any fun q => q.oA == slot || q.oB == slot

/-- A released slot that nothing uses any more is FREE (R308). -/
def State.freeReleased (s : State) (core : CoreIx) (slot : Nat) : State :=
  let x := getVec (s.core core).slots slot Slot.reset
  if x.state = .releasing ∧ x.loads = [] ∧ !((s.wg? x.owner).map fun w => w.namesSlot slot).getD false then
    s.modCore core fun c => { c with slots := modVec (fun x => { x with state := .free }) c.slots slot }
  else s

/-- The slots, eddy entries and tributary items of some workgroups leave the device (R201, R308, R393). -/
def State.freeShared (s : State) (ws : List WgIx) (slot : List WgIx → Slot → Slot) : State :=
  { s with
    cores := mapVec (fun (c : Core) =>
      { c with slots := mapVec (slot ws) c.slots, eddy := mapVec (fun l => l.filter fun e => !ws.contains e.wg) c.eddy }) s.cores
    reaches := mapVec (fun (r : Reach) =>
      { r with items := r.items.filter fun i =>
          !((i.full.any fun g => ws.contains g.1) || (i.empty.any fun g => ws.contains g.1)) }) s.reaches }

/-- The workgroup of a trap's origin. -/
def Origin.wg? : Origin → Option WgIx
  | .scalar w _ _ | .lane w _ | .command w _ _ => some w
  | _ => none

/-- A record that a kill of workgroups, launches or regions discards (R393). -/
def Origin.killed (ws : List WgIx) (ls : List Nat) (rcbs : List Nat) : Origin → Bool
  | .scalar w _ _ | .lane w _ | .command w _ _ => ws.contains w
  | .launchWrite l _ | .launchRead l _ => ls.contains l
  | .watchdog _ => false
  | .budget r => rcbs.contains r

/-- A bank command has begun on some member (R349, R393). -/
def State.bankBegun (s : State) (c : BankCmd) : Bool :=
  c.pending.length < c.members.length ||
    c.members.any fun m => ((s.pc m).run.map fun r => r.cmd == c.id).getD false

/-- Log the kills of which no access is in flight any more. -/
def State.logKills (s : State) : State :=
  let busy (k : BitVec 20 × Nat × List WgIx) : Bool := s.bankCmds.any fun c => k.2.2.contains c.wg
  let s' := (s.kills.filter fun k => !busy k).foldl (fun (s : State) k => s.postLog .kill 0 0 k.1.toNat k.2.1 0) s
  { s' with kills := s.kills.filter busy }

/-- A context's streams close: a CLOSE carrying the next serial goes out on each (R393, R415). -/
def State.closeStreams (s : State) (ctx : BitVec 20) : State :=
  let mine := s.fabric.streams.filter fun t => t.reqid.ctx == ctx
  let s := mine.foldl (fun (s : State) t =>
    s.emit (.request t.owner
      { ser := false, lifetime := s.hostif.params.lifetimeUs, retdev := s.hostif.devnum.toNat, inc := 0, reqid := t.reqid,
        serial := 0, ack := t.next, addr := 0, tag := 0 } .close)) s
  s.modFabric fun x =>
    { x with streams := x.streams.filter fun t => t.reqid.ctx != ctx, ops := x.ops.filter fun o => o.reqid.ctx != ctx }

/-- Operations that nobody waits for any more: their answers are taken by the device and thrown away. -/
def State.orphanOps (s : State) (p : Issuer → Bool) : State :=
  s.modFabric fun x => { x with ops := modWhere (fun o => p o.issuer) (fun o => { o with issuer := .device }) x.ops }

def Issuer.ofWgs (ws : List WgIx) : Issuer → Bool
  | .scalar w _ _ | .lane w _ _ | .command w _ _ | .stream w _ | .reduction w _ => ws.contains w
  | .device => false

def Issuer.ofGroup (w : WgIx) (g : GroupIx) : Issuer → Bool
  | .scalar w' g' _ | .lane w' g' _ => w' == w && g' == g
  | _ => false

/-- The record of a launch's write that faults: it has the failing address and the launch record's address (R360). -/
def Launch.writeTrap (x : Launch) (c : Cond) : Trap := ⟨c.cls, c.addr, c.malformed, false, true, x.recordVa⟩

/-- The completion record of a launch that a kill ends cannot be written: the write is held, and its trap record waits for the
queue (R360, R363). -/
def State.holdRecord (s : State) (l : Nat) (c : Cond) : State :=
  match s.launch? l with
  | none => s
  | some x =>
    let t := x.writeTrap c
    let s := s.modLaunch l fun x => { x with heldWrites := [none] }
    { s with pending := s.pending ++ [{ origin := .launchWrite l none, ctx := x.ctx, queue := s.trapQueueOf x.ctx x.region, reach := 0,
                                        record := trapBytes (classCode t.cls) (originByte 3 0 t) 0 x.ctx.toNat 0 0 0 t.addr 0 0 t.detail,
                                        seq := none }] }

/-- Kill a fault domain (R393): its launches end, their completion records receive FAULT, their workgroups stop without a
save, their pending trap records go, and what they held is free. Bank runs that have begun complete. A completion record
whose write faults is held, and its record waits for the queue (R360). -/
def State.killDomain (s : State) (ctx : BitVec 20) (root : Nat) : State :=
  let ls := s.domainLaunches ctx root
  let ws := s.wgsOf ls
  let rcbs := (s.regions.filter fun r => r.ctx == ctx && s.inDomain ctx r.rcb root).map (·.rcb)
  let drop := (s.bankCmds.filter fun c => ws.contains c.wg && !s.bankBegun c).map (·.id)
  let all := root == s.rootOf ctx
  let s := { s with
    pending := s.pending.filter fun p => !(p.ctx == ctx && p.origin.killed ws ls rcbs)
    bankCmds := s.bankCmds.filter fun c => !drop.contains c.id
    pcs := mapVec (fun (p : Pc) => { p with queue := p.queue.filter fun c => !drop.contains c }) s.pcs
    wgs := s.wgs.zipIdx.map fun (x : Wg × Nat) => if ws.contains x.2 then x.1.kill else x.1 }
  let s := (s.freeShared ws Slot.freeOf).orphanOps (Issuer.ofWgs ws)
  let s := ls.foldl (fun (s : State) l =>
    let s := s.modLaunch l fun x => { x with state := .ended, heldWrites := [], heldReads := [] }
    match s.launchWrite l stFault none with
    | .ok s => s
    | .error c => s.holdRecord l c) s
  let s := if all then
      { s with reaches := mapVec (fun (r : Reach) => { r with items := r.items.filter fun i => i.ctx != ctx }) s.reaches }.closeStreams ctx
    else s
  ({ s with kills := s.kills ++ [(ctx, root, ws)] }.logKills).wakeAll

/-! Trap queues (R361, R363). -/

/-- A record with its sequence at 0x38. -/
def withSequence (r : List Byte) (seq : Nat) : List Byte := r.take 0x38 ++ bytesOfNat 4 seq ++ r.drop 0x3C

/-- What comes of writing a record: the queue is full, malformed or cannot be written, or the record is written. -/
inductive TrapWrite where
  | full
  | bad
  | done (s : State) (seq : BitVec 32)

/-- Write a pending record to its queue (R361, R363): the 64 bytes, then the write index, then the TRAP event. -/
def State.tryRecord (s : State) (p : Pending) : TrapWrite :=
  let ag := devAgent p.ctx p.reach
  match s.devRead ag p.queue 64 with
  | .error _ => .bad
  | .ok h =>
    let size := recNat h 0 4
    let write := recNat h 8 4
    let read := recNat h 0x10 4
    if p.queue % 64 != 0 || recNat h 4 4 != 0 || recNat h 0xC 4 != 0 || !allZero (recBytes h 0x14 44) ||
        size < 16 || 65536 < size || 2 ^ Nat.log2 size != size || size < (write + 2 ^ 32 - read) % 2 ^ 32 then .bad
    else if (write + 2 ^ 32 - read) % 2 ^ 32 = size then .full
    else
      match s.devWrite ag ((p.queue + 0x40 + 64 * (write % size)) % 2 ^ 64) (withSequence p.record write) with
      | .error _ => .bad
      | .ok s =>
        match (s.replicaDrainAll).devWrite ag (p.queue + 8) (bytesOfNat 4 (write + 1)) with
        | .error _ => .bad
        | .ok s => .done (s.postEvent .trap 0 p.ctx.toNat p.queue write) (BitVec.ofNat 32 write)

/-- The region of an origin. -/
def State.originRegion (s : State) (ctx : BitVec 20) : Origin → Nat
  | .scalar w _ _ | .lane w _ | .command w _ _ => ((s.launchOf w).map (·.region)).getD 0
  | .launchWrite l _ | .launchRead l _ => ((s.launch? l).map (·.region)).getD 0
  | .watchdog _ => s.rootOf ctx
  | .budget r => r

/-- Post a record (R363): at once, or held behind earlier held records of its reach or a full queue; a queue that cannot
be used kills the region's fault domain. -/
def State.postRecord (s : State) (p : Pending) : State :=
  if s.pending.any fun q => q.seq.isNone && q.reach == p.reach then { s with pending := s.pending ++ [p] }
  else match s.tryRecord p with
    | .full => { s with pending := s.pending ++ [p] }
    | .done s seq => { s with pending := s.pending ++ [{ p with seq := some seq }] }
    | .bad => s.killDomain p.ctx (s.domainOf p.ctx (s.originRegion p.ctx p.origin))

/-- Where a group is: its number and its core (R362). -/
def State.whereOf (s : State) (w : WgIx) (g : GroupIx) : Nat := g % 32 + s.coreOf w % 256 * 32

/-- Build and post a record of a workgroup's origin. -/
def State.postWg (s : State) (o : Origin) (w : WgIx) (g : GroupIx) (kind split lane pc fault performed : Nat) (t : Trap) : State :=
  let j := ((s.wg? w).map (·.j)).getD 0
  let rcb := ((s.launchOf w).map (·.region)).getD 0
  s.postRecord { origin := o, ctx := s.ctxOf w, queue := s.trapQueueOf (s.ctxOf w) rcb, reach := reachOfCore (s.coreOf w),
                 record := trapBytes (classCode t.cls) (originByte kind split t) (s.whereOf w g) (s.ctxOf w).toNat j lane pc
                   t.addr fault performed t.detail, seq := none }

/-- A record of device origin (R358, R360). -/
def State.postDevice (s : State) (o : Origin) (ctx : BitVec 20) (rcb : Nat) (t : Trap) : State :=
  s.postRecord { origin := o, ctx := ctx, queue := s.trapQueueOf ctx rcb, reach := 0,
                 record := trapBytes (classCode t.cls) (originByte 3 0 t) 0 ctx.toNat 0 0 0 t.addr 0 0 t.detail, seq := none }

/-- Taking a trap of scalar origin (R99, R356): the current split is parked at its PC and the record posted. -/
def State.trap (s : State) (t : Trap) : State :=
  let s' := s.modCurSplit Split.park
  s'.postWg (.scalar s.cur.wg s.cur.g s.cur.split) s.cur.wg s.cur.g 0 s.cur.split 0 s.curPc.toNat 0 0 t

/-- Taking a trap of lane origin (R357): the lane stream stops with the instruction at the queue head, and the splits that
share a lane with its tag are parked. -/
def State.trapLane (s : State) (w : WgIx) (g : GroupIx) (index : Nat) (fault performed : LaneMask) (t : Trap) : State :=
  match s.group? w g with
  | none => s
  | some x =>
    let split := (splitIxs.find? fun k => match x.split k with
      | some y => y.mask &&& x.headTag != 0
      | none => false).getD 0
    let pc := (x.laneQ.head?.map (·.pc)).getD 0
    let s := s.modGroup w g fun x =>
      ({ x with head := { x.head with stopped := true, fault := fault, performed := performed, waiting := false, issued := false } } : Group).parkForLane
    s.postWg (.lane w g) w g 1 split index pc.toNat fault.toNat performed.toNat t

/-- Taking the trap of a failed command at a WAITC (R284): the split is parked at the WAITC. -/
def State.trapCommand (s : State) (c : CmdTrap) : State :=
  match statusClass c.status c.faultCode with
  | none => s
  | some cls =>
    let s' := s.modCurSplit Split.park
    s'.postWg (.command s.cur.wg s.cur.g s.cur.split) s.cur.wg s.cur.g 2 0 0 s.curPc.toNat 0 0
      ⟨cls, c.num, false, false, false, c.counter % 16 + c.status % 2 ^ 16 * 16 + c.faultCode % 256 * 2 ^ 20⟩

/-- A group that holds a record which a full queue has not taken is parked (R363). -/
def State.recordHeld (s : State) (w : WgIx) (g : GroupIx) : Bool :=
  s.pending.any fun p => p.seq.isNone && (match p.origin with
    | .scalar w' g' _ | .lane w' g' | .command w' g' _ => w' == w && g' == g
    | _ => false)

/-- The first held record of its reach is written once its queue has room (R363). -/
def State.writeHeld (s : State) (ix : Nat) : State :=
  match s.pending[ix]? with
  | none => s
  | some p =>
    if p.seq.isSome || (s.pending.take ix).any fun q => q.seq.isNone && q.reach == p.reach then s
    else match s.tryRecord p with
      | .full => s
      | .done s seq => { s with pending := modAt (fun p => { p with seq := some seq }) s.pending ix }
      | .bad =>
        let s := { s with pending := s.pending.eraseIdx ix }
        s.killDomain p.ctx (s.domainOf p.ctx (s.originRegion p.ctx p.origin))

/-! Launch completion (R179, R181, R182, R360). -/

/-- A launch's write that a fault holds: its record has the failing address and the launch record's address. -/
def State.holdLaunchWrite (s : State) (l : Nat) (bit : Option Nat) (c : Cond) : State :=
  match s.launch? l with
  | none => s
  | some x =>
    let s := s.modLaunch l fun x => { x with heldWrites := x.heldWrites ++ [bit] }
    s.postDevice (.launchWrite l bit) x.ctx x.region (x.writeTrap c)

/-- The launch is DONE, and room in the launch queue is free. -/
def State.launchDone (s : State) (l : Nat) : State :=
  (s.modLaunch l fun x => if x.state = .ended then x else { x with state := .done }).wakeAll

/-- Every workgroup's bit is set or abandoned: write the completion record. -/
def State.finishLaunch (s : State) (l : Nat) : State :=
  match s.launch? l with
  | none => s
  | some x =>
    if x.finished < x.count then s
    else match s.launchWrite l stOk none with
      | .ok s => s.launchDone l
      | .error c => s.holdLaunchWrite l none c

/-- One completion bit is set, or abandoned. -/
def State.bitDone (s : State) (l : Nat) : State :=
  (s.modLaunch l fun x => { x with finished := x.finished + 1 }).finishLaunch l

/-- Set bit j of a launch's bitmap, as a release at .sys of the workgroup's writes. -/
def State.setBit (s : State) (l j : Nat) : State :=
  match s.replicaDrainAll.launchWrite l stOk (some j) with
  | .ok s => s.bitDone l
  | .error c => s.holdLaunchWrite l (some j) c

/-- A VRED of a workgroup that has retired is not answered yet (R267). -/
def State.reducing (s : State) (w : WgIx) : Bool :=
  s.fabric.ops.any fun o => !o.answered && (match o.issuer with | .reduction w' _ => w' == w | _ => false)

/-- A workgroup completes once its last group has retired and its commands and its accesses have completed (R179); its slots, tiles
and vault are free and its barrier words and items are gone (R190, R201, R308). -/
def State.completeWg (s : State) (w : WgIx) : State :=
  match s.wg? w with
  | none => s
  | some x =>
    if x.state = .resident ∧ x.groups.all (·.retired) ∧ x.cmds = [] ∧ !s.reducing w then
      let s := (s.modWg w Wg.finish).freeShared [w] Slot.releaseOf
      let s := (List.range 32).foldl (fun (s : State) n => s.freeReleased x.core n) s
      ((s.progress (s.ctxOf w)).setBit x.launch x.j).wakeCore x.core
    else s

/-- A collective that lacks slices when the last group retires is CANCELLED (R295). -/
def Cmd.lacksSlices (c : Cmd) : Bool :=
  match c.kind with
  | .copy slices _ _ => slices.length < fld (recNat ((slices.head?.map (·.record)).getD []) 0x10 4) 7 5 + 1
  | _ => false

def Cmd.records (c : Cmd) : List (GroupIx × Nat) :=
  match c.kind with
  | .copy slices _ _ => slices.filterMap fun x => x.completion.map fun a => (x.group, a)
  | .viewi a _ _ _ _ | .rminv a _ _ _ _ _ => a.toList.map fun a => (0, a)
  | _ => []

/-- Finish a command and complete its workgroup if nothing else is outstanding. -/
def State.endCmd (s : State) (r : CmdRef) (status fault count : Nat) (records : List (GroupIx × Nat)) : State :=
  (s.finishCmd r status fault count records).completeWg r.wg

/-! Elements that write streams have produced (R288, R290, R291). -/

/-- A group as the agent of its streams. -/
def State.groupAgent (s : State) (w : WgIx) (g : GroupIx) : Agent :=
  ⟨s.ctxOf w, s.coreOf w, reachOfCore (s.coreOf w), w, g, none, [], .stream w g⟩

/-- Two elements of one stream share a byte, so that they take effect in order. -/
def Behind.sharesByte (a b : Behind) : Bool :=
  a.stream == b.stream && (a.refs.flatMap ByteRef.places).any fun p => (b.refs.flatMap ByteRef.places).contains p

/-- Write one produced element; a FENCE of the group looks again. -/
def State.putBehind (s : State) (w : WgIx) (g : GroupIx) (ix : Nat) : State :=
  match (s.group? w g).bind fun x => x.behind[ix]? with
  | none => s
  | some b =>
    (s.writeHinted (s.groupAgent w g) b.hint b.refs b.bytes).modGroup w g fun x => ({ x with behind := x.behind.eraseIdx ix } : Group).wakeRetry

/-- Two elements of one stream lie in one coupled block, or are one. -/
def Behind.sharesBlock (a b : Behind) : Bool := a == b || (a.stream == b.stream && a.mx.any fun k => b.mx.contains k)

/-- Every byte of a coupled block has been produced. -/
def blockProduced (bs : List Behind) (stream : Nat) (k : Nat × Nat × Nat) : Bool :=
  let rs := (bs.filter fun e => e.stream == stream).flatMap fun e => e.refs.zip e.mx
  k.2.2 ≤ ((rs.filter fun r => r.2 == k).eraseDups).length

/-- The headwater writes an element that a stream has produced, behind those it overlaps, and one of a coupled block with the rest
of its blocks, which are there whole (R250, R288). -/
def State.writeBehind (s : State) (w : WgIx) (g : GroupIx) (ix : Nat) : State :=
  match (s.group? w g).bind fun x => x.behind[ix]?.map fun b => (x, b) with
  | none => s
  | some (x, b) =>
    let go := (List.range x.behind.length).filter fun j => j == ix || ((x.behind[j]?).map b.sharesBlock).getD false
    let stay := x.behind.zipIdx.filter fun y => !go.contains y.2
    if (stay.any fun y => y.2 < ix && b.sharesByte y.1) || !b.mx.all (blockProduced x.behind b.stream) then s
    else go.zipIdx.foldl (fun (s : State) y => s.putBehind w g (y.1 - y.2)) s

/-- Write every element that a group's streams have produced. -/
def State.flushBehind (s : State) (w : WgIx) (g : GroupIx) : State :=
  (List.range (((s.group? w g).map fun x => x.behind.length).getD 0)).foldl (fun (s : State) _ => s.putBehind w g 0) s

/-- Write every element that the streams of a workgroup's groups have produced. -/
def State.flushWg (s : State) (w : WgIx) : State :=
  (List.range (((s.wg? w).map fun x => x.groups.length).getD 0)).foldl (fun (s : State) g => s.flushBehind w g) s

/-- A stream closes: a counted stream's command waits only for its accesses (R288). -/
def State.closeQueue (s : State) (w : WgIx) (g : GroupIx) (q : Nat) : State :=
  match (s.group? w g).bind fun x => getVec x.q q none with
  | none => s
  | some st =>
    let s := s.modGroup w g fun x => { x with q := modVec (fun _ => none) x.q q }
    match st.cmd with
    | none => s
    | some (k, n) => s.modCmd ⟨w, k, n⟩ fun c => { c with kind := .stream g true }

/-- A group retires when every split has exited and its lane queue is empty (R31, R172): its queues close (R285), and what its
write streams have produced is written (log 33); the workgroup's last retirement cancels collectives that lack slices (R295). -/
def State.retireGroup (s : State) (w : WgIx) (g : GroupIx) : State :=
  match s.group? w g with
  | none => s
  | some x =>
    if x.retired || !x.drained then s
    else
      let s := (List.range 8).foldl (fun (s : State) q => s.closeQueue w g q) (s.flushBehind w g)
      let s := s.modGroup w g fun x => { x with retired := true }
      match s.wg? w with
      | none => s
      | some y =>
        if y.groups.all (·.retired) then
          let s := (y.cmds.filter Cmd.lacksSlices).foldl (fun (s : State) c =>
            s.finishCmd ⟨w, c.counter, c.num⟩ stCancelled 0 0 c.records) s
          s.completeWg w
        else s

/-! Poison, restarts (R386 to R388). -/

/-- The open region that an IRB execution number names, in any split or record of the group. -/
def Group.regionOf (g : Group) (irb : Nat) : Option RegionState :=
  ((splitIxs.filterMap fun k => (g.split k).bind (·.region)) ++ g.overflow.filterMap (·.region)).find? fun r => r.irb == irb

/-- Every live split and overflow record holds an open region (R388). -/
def Group.restartable (g : Group) : Bool :=
  splitIxs.all (fun k => match g.split k with | some x => x.region.isSome | none => true) &&
    g.overflow.all fun o => o.region.isSome

/-- Put a number at its place in a rising list. -/
def insertSorted (n : Nat) : List Nat → List Nat
  | [] => [n]
  | a :: as => if n < a then n :: a :: as else a :: insertSorted n as

/-- The open regions with the registers of the first holder of each, in the order of their IRBs. -/
def Group.openRegions (g : Group) : List (RegionState × Vector Word 16) :=
  let all := (splitIxs.filterMap fun k => (g.split k).bind fun x => x.region.map fun r => (r, x.regs)) ++
    g.overflow.filterMap fun o => o.region.map fun r => (r, o.regs)
  let ids := ((all.map fun x => x.1.irb).eraseDups).foldl (fun l n => insertSorted n l) []
  ids.filterMap fun i => all.find? fun x => x.1.irb == i

/-- A restart (R388): queued lane work is discarded, and one split per open region begins at the region's entry with the
mask of its IRB; the consumed region's count is one more. -/
def Group.restart (g : Group) (irb : Nat) : Group :=
  let regions := g.openRegions.map fun x => (if x.1.irb = irb then { x.1 with restarts := x.1.restarts + 1 } else x.1, x.2)
  let g := { g with
    laneQ := [], splits := Vector.replicate 4 none
    head := Head.empty
    overflow := regions.map fun (x : RegionState × Vector Word 16) => { pc := x.1.entry, mask := x.1.mask, regs := x.2, region := some x.1 } }
  g.refill 64

/-- A poison that an instruction meets: where, whether it writes, and the unit of R396 in detail; 0 names none. -/
def poisonTrap (addr : Nat) (write : Bool) (unit : Nat × Nat) : Trap :=
  ⟨.poison, addr, false, false, write, unit.1 % 256 + unit.2 % 2 ^ 16 * 256⟩

/-- The unit in a POISON record's detail (R387). A poison that no unit of R396 holds, a residency-map entry's or a peer's, has
none that the spec states: a free value (log 28). -/
def State.poisonDetail (s : State) (t : Trap) : Nat :=
  if t.detail % 256 = 0 then s.freeNat t.addr % 2 ^ 24 else t.detail % 2 ^ 24

/-- Poison consumed by a group (R387): a restart while the region is open and below three restarts, and every split holds
a region; else a POISON record and the kill of the launch's fault domain. -/
def State.consumePoison (s : State) (w : WgIx) (g : GroupIx) (irb : Option Nat) (kind split lane pc : Nat) (fault performed : LaneMask)
    (t : Trap) : State :=
  match s.group? w g with
  | none => s
  | some x =>
    let region := irb.bind x.regionOf
    match region with
    | some r =>
      if x.restartable && r.restarts < 3 then
        let s := { s with pending := s.pending.filter fun p => match p.origin with
          | .scalar w' g' _ | .lane w' g' | .command w' g' _ => !(w' == w && g' == g)
          | _ => true }
        let s := (s.orphanOps (Issuer.ofGroup w g)).modGroup w g fun x => x.restart r.irb
        s.postLog .restart 0 0 (s.ctxOf w).toNat 0 r.entry.toNat
      else
        let s := s.postWg (.lane w g) w g kind split lane pc fault.toNat performed.toNat
          { t with detail := s.poisonDetail t + r.restarts % 4 * 2 ^ 24 + 2 ^ 31 }
        s.killDomain (s.ctxOf w) (s.domainOf (s.ctxOf w) (((s.launchOf w).map (·.region)).getD 0))
    | none =>
      let s := s.postWg (.lane w g) w g kind split lane pc fault.toNat performed.toNat { t with detail := s.poisonDetail t + 2 ^ 31 }
      s.killDomain (s.ctxOf w) (s.domainOf (s.ctxOf w) (((s.launchOf w).map (·.region)).getD 0))

/-- The unit that poisoned bytes count against: the core for a vault or a register, an HBM row for a sector. Which row
holds an address the spec does not say: a free value (log 28). -/
def State.poisonUnit (s : State) (core : CoreIx) (rs : List ByteRef) : Nat × Nat :=
  match rs.find? s.refPoisoned with
  | some (.whole (.hbm pa)) | some (.whole (.repl pa)) => (3, s.freeNat pa % 2 ^ 15)
  | _ => (1, core)

/-- The current split consumes poison in a scalar instruction. -/
def State.poisonScalar (s : State) (t : Trap) : State :=
  s.consumePoison s.cur.wg s.cur.g ((s.curSplit.bind (·.region)).map (·.irb)) 0 s.cur.split 0 s.curPc.toNat 0 0 t

/-! The return from a trap: the host's disposition (R365, R366). -/

inductive Disposition where
  | continue_ | skip | kill
  deriving DecidableEq, Repr

/-- A split that a disposition or the end of a lane stop releases: it is READY by a block entry (R169), unless a record of
its own is pending. -/
def State.unparkGroup (s : State) (w : WgIx) (g : GroupIx) : State :=
  splitIxs.foldl (fun (s : State) k =>
    if s.pending.any fun p => p.origin == .scalar w g k || p.origin == .command w g k then s
    else s.modGroup w g fun x =>
      match x.split k with
      | some y => if y.status = .parked ∧ ¬ (x.head.stopped ∧ y.mask &&& x.headTag ≠ 0) then (x.arrive k).parkForLane else x
      | none => x) s

/-- A lane instruction leaves the queue under SKIP: SEED still advances once if it rounds under SR, unless it raised ILLEGAL
(R50, R366). -/
def Group.skipHead (g : Group) (illegal : Bool) : Group :=
  let rnd := match g.laneQ.head?.map (·.item) with
    | some (.word w _) => ((laneInstr? w).map laneRnd).getD .rne
    | _ => .rne
  let sr := !illegal && (rnd == .sr || (rnd == .dyn && fld g.flags.toNat 9 3 == 5))
  ({ g with laneQ := g.laneQ.tail, seed := if sr then g.seed + 1 else g.seed,
            head := Head.empty } : Group).wakeRetry

/-- Apply a disposition to one pending record, already removed from the list. -/
def State.applyDisposition (s : State) (p : Pending) (d : Disposition) : State :=
  let cls := recNat p.record 0 1
  match d with
  | .kill =>
    match p.origin with
    | .scalar _ _ _ | .lane _ _ | .command _ _ _ => s.killDomain p.ctx (s.domainOf p.ctx (s.originRegion p.ctx p.origin))
    | _ => s.killDomain p.ctx (s.domainOf p.ctx (s.rootOf p.ctx))
  | _ =>
    match p.origin with
    | .scalar w g k =>
      let entry := ((s.group? w g).map (·.entryRun)).getD false
      let step4 := !entry && (d = .skip || cls = classCode .trap || cls = classCode .brk)
      let s := s.modGroup w g fun x =>
        let x := if entry && d = .skip then { x with entryRun := false } else x
        x.modSplit k fun y => { y with pc := if step4 then y.pc + 4 else y.pc, stalled := false,
                                       syncToken := if step4 then none else y.syncToken }
      s.unparkGroup w g
    | .command w g k =>
      (s.modGroup w g fun x => x.modSplit k fun y => { y with pc := y.pc + 4, stalled := false }).unparkGroup w g
    | .lane w g =>
      let s := s.modGroup w g fun x =>
        if d = .skip then x.skipHead (recNat p.record 0 1 == classCode .illegal) else { x with head := { x.head with stopped := false, fault := 0 } }
      let s := if d = .skip then (List.range 64).foldl (fun (s : State) i => s.remoteTake (.lane w g i)) s else s
      (s.unparkGroup w g).retireGroup w g
    | .launchWrite l bit =>
      let s := s.modLaunch l fun x => { x with heldWrites := x.heldWrites.erase bit }
      match bit, d with
      | some j, .skip => let _ := j; s.bitDone l
      | some j, _ => s.setBit l j
      | none, .skip => s.launchDone l
      | none, _ =>
        let status := if ((s.launch? l).map (·.state)) = some .ended then stFault else stOk
        match s.launchWrite l status none with
        | .ok s => s.launchDone l
        | .error c => s.holdLaunchWrite l none c
    | .launchRead l addr =>
      s.modLaunch l fun x => { x with heldReads := x.heldReads.erase addr,
                                      skipReads := if d = .skip then addr :: x.skipReads else x.skipReads }
    | .watchdog c => s.modCtx c fun x => { x with watchdogHeld := false }
    | .budget _ => s

/-- DISPOSE names a pending record by context and sequence (R365); none when there is no such record. -/
def State.dispose (s : State) (ctx : BitVec 20) (seq : BitVec 32) (d : Disposition) : Option State :=
  match s.pending.findIdx? fun p => p.ctx == ctx && p.seq == some seq with
  | none => none
  | some ix =>
    match s.pending[ix]? with
    | none => none
    | some p => some (({ s with pending := s.pending.eraseIdx ix }.progress ctx).applyDisposition p d)

/-! Tier misses and tier counts (R436, R437). -/

/-- A field of a number replaced. -/
def setFld (w lo len v : Nat) : Nat := w - fld w lo len * 2 ^ lo + v % 2 ^ len * 2 ^ lo

/-- Change a residency-map entry as one change (R276); the device needs no write permission. -/
def State.putEntry (s : State) (ag : Agent) (va : Nat) (f : Nat → Nat) : State :=
  match s.resolveFlat ag (Acc.load 16) va with
  | .error _ => s
  | .ok rs => s.devWriteRefs ag rs (bytesOfNat 16 (f (natOfBytes (s.readRefs ag true rs))))

def Ctx.pool (c : Ctx) (view : Nat) : List Nat := ((c.pools.find? fun p => p.1 == view).map (·.2)).getD []

/-- A fetch met an entry with status TIER: one TIER-MISS per (view, entry, gen), and with AF the page-in. -/
def State.tierMiss (s : State) (ag : Agent) (m : Miss) : State :=
  match s.ctx? ag.ctx with
  | none => s
  | some c =>
    let fresh := !c.tierMisses.contains (m.view, m.entry, m.gen)
    let a := m.gen + m.entry % 2 ^ 32 * 2 ^ 16 + m.view * 2 ^ 48
    let post (s : State) (noFrame : Bool) : State :=
      if fresh then
        (s.postEvent .tierMiss stTier ag.ctx.toNat a (1 + 16 * boolNat m.autoFetch + 32 * boolNat noFrame)).modCtx ag.ctx
          fun c => { c with tierMisses := (m.view, m.entry, m.gen) :: c.tierMisses }
      else s
    if !m.autoFetch || c.noFrames.contains (m.view, m.entry) then post s false
    else
      match c.pool m.view with
      | [] => (post s true).modCtx ag.ctx fun c => { c with noFrames := (m.view, m.entry) :: c.noFrames }
      | f :: rest =>
        let s := post s false
        let s := s.modCtx ag.ctx fun c => { c with pools := modWhere (fun p => p.1 == m.view) (fun p => (p.1, rest)) c.pools }
        let source := match s.devRead (devAgent ag.ctx ag.reach) m.entryVa 16 with
          | .ok bs => (parseEntry (natOfBytes bs)).tile
          | .error _ => 0
        let s := s.putEntry (devAgent ag.ctx ag.reach) m.entryVa fun e => setFld (setFld e 0 3 2) 8 16 (m.gen + 1)
        s.modReach ag.reach fun r => { r with pageIns := r.pageIns ++ [⟨ag.ctx, m.view, m.entry, m.entryVa, (m.gen + 1) % 2 ^ 16, f,
          source, m.size, s.regionOf ag.wg⟩] }

/-- Count one access to each TIER page among its base addresses; TIER-HOT is posted once, at the tier-hot count. -/
def State.countTier (s : State) (ag : Agent) (bases : List Nat) : State :=
  if s.hostif.params.tierHot = 0 then s
  else
    let pages := (bases.filterMap fun va => if windowOf va != .ordinary then none else
      match s.translate ag va with
      | .ok l => if l.target = .tier then some l.base else none
      | .error _ => none).eraseDups
    pages.foldl (fun (s : State) page =>
      let n := (((s.ctx? ag.ctx).bind fun c => (c.tierCounts.find? fun t => t.1 == page)).map (·.2)).getD 0 + 1
      let s := s.modCtx ag.ctx fun c => { c with tierCounts := (page, n) :: c.tierCounts.filter fun t => t.1 != page }
      if n = s.hostif.params.tierHot then s.postEvent .tierHot 0 ag.ctx.toNat page n else s) s

/-- An access that is not performed leaves a tier miss alone. -/
def State.noteMiss (s : State) (ag : Agent) (l : Look) : State :=
  match l.miss with
  | some m => s.tierMiss ag m
  | none => s

/-- What an access leaves behind besides its bytes. -/
def State.noteAccess (s : State) (ag : Agent) (l : Look) : State :=
  let s := match l.miss with | some m => s.tierMiss ag m | none => s
  match l.res with
  | .ok r => s.countTier ag r.bases
  | .error _ => s

/-! Memory ordering operations (R215, R246 to R248, R405). -/

def scopeRank : Scope → Nat
  | .grp => 0 | .wg => 1 | .cl => 2 | .die => 3 | .dev => 4 | .sys => 5

/-- The scope of an acquire, at least .cl toward an engine's arrival or full set (R196, R243). -/
def widen (engine : Bool) (sc : Scope) : Scope := if engine && scopeRank sc < 2 then .cl else sc

/-- A group's wide acquire: its core's L1 is invalidated (R215), and its later reads see their homes (R247). -/
def State.acquireAs (s : State) (core : CoreIx) (w : WgIx) (g : GroupIx) : State :=
  (s.l1Invalidate core).modGroup w g fun x => { x with acquired := true }

/-- An acquire of the current group; one below .cl leaves the L1. -/
def State.acquire (s : State) (core : CoreIx) (sc : Scope) : State :=
  if 2 ≤ scopeRank sc then s.acquireAs core s.cur.wg s.cur.g else s

/-- A release at .dev or .sys waits for every replica, a narrower one for the local replica (R405, log 15). -/
def State.release (s : State) (core : CoreIx) (sc : Scope) : State :=
  if 4 ≤ scopeRank sc then s.replicaDrainAll else s.replicaDrainLocal (reachOfCore core)

/-! Outcomes of remote operations at an instruction (R398, R424). -/

/-- The trap of the first outcome that is not a performed result. -/
def outcomeTrap (addr : Nat) (write : Bool) : Outcome → Option Trap
  | .performed _ => none
  | .error => some ⟨.protection, addr, false, false, write, 0⟩
  | .indeterminate => some ⟨.remote, addr, false, false, write, stIndeterminate⟩
  | .notPerformed => some ⟨.remote, addr, false, false, write, stBusy⟩
  | .gaveUp => some ⟨.remote, addr, false, false, write, stFault⟩
  | .checksum => some ⟨.remote, addr, false, false, write, stChecksum⟩
  | .poison => some ⟨.poison, addr, false, false, write, 0⟩

def Outcome.data : Outcome → List Byte
  | .performed bs => bs
  | _ => []

/-! What the view unit reads for an access (R219, R224, R226). -/

/-- An agent's preparation of plain reads: its own replicated writes are waited for, peers are asked. Whether all is there. -/
def State.askPeers (s : State) (ag : Agent) (rs : List (List ByteRef)) : State × Bool :=
  let s := rs.foldl (fun (s : State) r => s.replRefresh ag r) s
  match rs.flatMap fun r => peerLoads false (peerElems 0 r) with
  | [] => (s, true)
  | asks =>
    let (s, os) := s.remoteBatch ag.issuer ag.ctx ag.issuer.engine asks
    (s, os.isSome)

/-- Prepare the reads that the view unit still lacks. -/
def State.viewAsk (s : State) (ag : Agent) (acc : Acc) (va : Nat) : State × Bool :=
  s.askPeers ag ((s.viewFetches ag acc va).map fun x => match s.fetchPlaces ag x.1 x.2 with
    | .ok rs => rs
    | .error _ => [])

/-- The view unit has what an access needs: its descriptor first, then indices or map entries. An entry is read as an acquire at
.dev (R226), an index through L1 (R224). -/
def State.viewReady (s : State) (ag : Agent) (acc : Acc) (va : Nat) : State × Bool :=
  if windowOf va != .view then (s, true)
  else
    match s.viewAsk ag acc va with
    | (s, false) => (s, false)
    | (s, true) =>
      match s.viewAsk ag acc va with
      | (s, false) => (s, false)
      | (s, true) =>
        match s.descOf ag va (fld va 40 16) with
        | .error _ => (s, true)
        | .ok d =>
          if d.kind = some .kvmap then (s.acquireAs ag.core ag.wg ag.g, true)
          else if d.kind = some .gather then
            ((s.viewFetches ag acc va).foldl (fun (s : State) x => match s.fetchPlaces ag x.1 x.2 with
              | .ok rs => s.served ag 0 (x.2 == 128) rs
              | .error _ => s) s, true)
          else (s, true)

/-! Scalar reads and writes (R104, R105). -/

/-- How a step of a scalar instruction ends early: in a trap, a wait or a restart. -/
abbrev Early (α : Type) := Except State (State × α)

/-- Raise what an access met: poison is consumed, anything else traps. -/
def State.raiseCond (s : State) (c : Cond) (fetch write : Bool) : State :=
  if c.cls = .poison then s.poisonScalar (c.toTrap fetch write) else s.trap (c.toTrap fetch write)

/-- The current split as a requester. -/
def State.issuer (s : State) : Issuer := .scalar s.cur.wg s.cur.g s.cur.split

/-- An access of the current split awaits its peer as it was resolved (R219, R375). -/
def State.awaitPeer (s : State) (va : Nat) (r : Resolved) : State :=
  (s.modCurSplit fun x => { x with looks := (va, r) :: x.looks.filter (·.1 != va) }).wait (.remote 0)

/-- The outcomes of the current split's requests for an access; it waits while some are missing, and traps on one that failed. -/
def State.scalarRemote (s : State) (va : Nat) (r : Resolved) (write : Bool) (rs : List RemoteReq) : Early (List Outcome) :=
  match s.remoteBatch s.issuer s.curCtx engineGroup rs with
  | (s, none) => .error (s.awaitPeer va r)
  | (s, some os) =>
    match os.findSome? (outcomeTrap va write) with
    | some t => .error (if t.cls = .poison then s.poisonScalar t else (if t.detail = stIndeterminate then s.setWgerr s.cur.wg 6 else s).trap t)
    | none => .ok (s, os)

/-- An access of the current split that already awaits its peer. -/
def State.lookHeld (s : State) (va : Nat) : Option Resolved :=
  s.curSplit.bind fun x => (x.looks.find? fun y => y.1 == va).map (·.2)

/-- Look an access of the current split up: what it resolves to, once the view unit has what it needs; it waits until then. -/
def State.scalarLook (s : State) (acc : Acc) (va : Nat) : Early Look :=
  match s.lookHeld va with
  | some r => .ok (s, ⟨.ok r, none⟩)
  | none =>
    match s.viewReady s.agent acc va with
    | (s, false) => .error (s.wait (.remote 0))
    | (s, true) =>
      let look := s.resolve s.agent acc va
      .ok (s.noteAccess s.agent look, look)

/-- Resolve a scalar access; its faults trap. -/
def State.scalarResolve (s : State) (acc : Acc) (va : Nat) : Early Resolved :=
  match s.scalarLook acc va with
  | .error s => .error s
  | .ok (s, look) =>
    match look.res with
    | .error c => .error (s.raiseCond c acc.fetch acc.write)
    | .ok r => .ok (s, r)

/-- The bytes at a resolved access, for the current split. -/
def State.scalarBytes (s : State) (va : Nat) (fresh : Bool) (r : Resolved) : Early (List Byte) :=
  if r.refs.any s.refPoisoned then .error (s.poisonScalar (poisonTrap va false (s.poisonUnit s.curCore r.refs)))
  else
    let s := s.replRefresh s.agent r.refs
    let bs := s.readRefs s.agent fresh r.refs
    if hasPeer r.refs then
      let es := peerElems 0 r.refs
      match s.scalarRemote va r false (peerLoads r.far.isSome es) with
      | .error s => .error s
      | .ok (s, os) => .ok (s.served s.agent 0 fresh r.refs, peerFill r.far.isSome es (os.map Outcome.data) bs)
    else .ok (s.served s.agent 0 fresh r.refs, bs)

/-- A scalar read of n bytes: a plain load, or an acquire that reads past L1. -/
def State.scalarRead (s : State) (va n : Nat) (strict fresh : Bool) : Early (List Byte) :=
  match s.scalarResolve { Acc.load n with strict := strict } va with
  | .error s => .error s
  | .ok (s, r) => s.scalarBytes va fresh r

/-- A scalar write of bytes. It takes effect whole, before anything the lane stream performs later (log 55). -/
def State.scalarWrite (s : State) (va : Nat) (strict : Bool) (bs : List Byte) : Early Unit :=
  match s.scalarResolve { Acc.store bs.length with strict := strict } va with
  | .error s => .error s
  | .ok (s, r) =>
    if hasPeer r.refs then
      match s.scalarRemote va r true (peerStores r.far.isSome (peerElems 0 r.refs) bs) with
      | .error s => .error s
      | .ok (s, _) => .ok (s.writeRefs s.agent r.refs bs, ())
    else .ok (s.writeRefs s.agent r.refs bs, ())

/-! Waits on the lane stream (R33). -/

/-- Some queued entry satisfies a test; the entries in the queue are those enqueued before and not yet retired. -/
def State.queued (s : State) (p : LaneEntry → Bool) : Bool := (s.curGroup.map fun g => g.laneQ.any p).getD false

def LaneEntry.writesMask (e : LaneEntry) (m : Nat) : Bool :=
  match e.item with
  | .mset r _ => r.toNat == m
  | .word w _ => ((laneInstr? w).map fun i => (destMasks i).contains m).getD false
  | _ => false

def LaneEntry.writesReg (e : LaneEntry) (v : Nat) : Bool :=
  match e.item with
  | .word w _ => ((laneInstr? w).map fun i => (destRegs i).contains v).getD false
  | _ => false

def LaneEntry.memory (e : LaneEntry) : Bool :=
  match e.item with
  | .word w _ => ((laneInstr? w).map laneMemory).getD false
  | _ => false

def LaneEntry.isWord (e : LaneEntry) : Bool := match e.item with | .word _ _ => true | _ => false

/-- FENCE at group scope must wait: an earlier lane memory instruction has not performed, an element that a write stream has produced
is not written, or a VRED that has retired is unanswered (R33, R267, R291). -/
def State.fenceWaits (s : State) : Bool :=
  s.queued LaneEntry.memory || (s.curGroup.map fun g => !g.behind.isEmpty).getD false ||
    s.fabric.ops.any fun o => o.issuer == .reduction s.cur.wg s.cur.g

/-- An instruction that first waits as FENCE at group scope. -/
def State.afterFence (s : State) (k : State → State) : State := if s.fenceWaits then s.stall else k s

/-! Enqueuing lane work (R28, R116). -/

/-- A fresh entry tagged with the current split's mask. -/
def State.entry (s : State) (item : LaneItem) : LaneEntry :=
  { item := item, tag := s.curMask, pc := s.curPc, irb := (s.curSplit.bind (·.region)).map (·.irb), stamp := s.stamp }

/-- The queue of a group has room for n entries. -/
def Group.room (g : Group) (n : Nat) : Bool := g.laneQ.length + n ≤ Config.laneQueueRoom

/-- Enqueue entries together and finish, or hold them and wait for room (R28, R115). They stand in program order where they are
enqueued (R34). -/
def State.enqueue (s : State) (es : List LaneEntry) : State :=
  if ((s.curGroup.map fun g => g.room es.length).getD true) then
    ((s.tick).modCurGroup fun g => { g with laneQ := g.laneQ ++ es.map fun e => { e with stamp := s.stamp } }).next4
  else s.wait (.room es)

end Sys2Proof.Machine
end

