-- ==== Sys2Proof/Machine/Flags.lean ====
section
/-! DEFINITION. FLAGS and SEED: the fields of FLAGS, what a SYSW of it accepts, the resolved rounding mode of a lane
instruction, and the update at retirement (R23, R49, R50, R55). -/

namespace Sys2Proof.Machine

/-- FLAGS.RM. -/
def flagsRm (f : Word) : Nat := fld f.toNat 9 3
/-- FLAGS.FTZ. -/
def flagsFtz (f : Word) : Bool := bit f.toNat 12
/-- A value that SYSW may write to FLAGS: reserved bits zero and RM 0 to 5 (R23). -/
def flagsLegal (f : Word) : Bool := f.toNat < 2 ^ 13 && flagsRm f < 6
/-- A value that SYSW may write to WGERR (R284). -/
def wgerrLegal (f : Word) : Bool := f.toNat < 256

/-- The rounding mode a code of FLAGS.RM names. -/
def rmMode : Nat → Rnd
  | 1 => .rtz | 2 => .rdn | 3 => .rup | 4 => .rna | 5 => .sr | _ => .rne

/-- DYN takes the mode of FLAGS.RM (R49). -/
def resolveRnd (r : Rnd) (flags : Word) : Rnd := if r = .dyn then rmMode (flagsRm flags) else r

/-- An instruction rounds under SR (R50). -/
def roundsSr (r : Rnd) (flags : Word) : Bool := resolveRnd r flags == .sr

/-- The mode of one element: lane and idx enter SR's hash (R50). -/
def Group.mode (g : Group) (r : Rnd) (lane idx : Nat) : Mode :=
  ⟨resolveRnd r g.flags, srBits g.seed.toNat lane idx, flagsFtz g.flags, false⟩

/-- Sticky bits are ORed in; none is cleared (R23, R24). -/
def Group.setFlags (g : Group) (fl : Nat) : Group := { g with flags := g.flags ||| BitVec.ofNat 64 fl }

/-- SEED advances once when an instruction that rounds under SR retires (R50). -/
def Group.advanceSeed (g : Group) (r : Rnd) : Group :=
  if roundsSr r g.flags then { g with seed := g.seed + 1 } else g

end Sys2Proof.Machine
end

