-- ==== Sys2Proof/Machine/Operands.lean ====
section
/-! DEFINITION. The operand forms of the lane stream (R29, R72 to R77, R126, R127, R289, R290): the active lanes, the
values each source position supplies, the register checks of R20, pops and pushes of operand queues, writing a
destination, and retiring an instruction. -/

namespace Sys2Proof.Machine

/-- A guard mask over the lanes (R72). -/
def Group.guardMask (g : Group) (m : GuardMask) : LaneMask :=
  let v := getVec g.m m.mask.toNat 0
  if m.negate then ~~~ v else v

def Group.guard (g : Group) (x : Guard) : LaneMask :=
  let a := g.guardMask x.a
  let b := g.guardMask x.b
  match x.combine with
  | .aOnly => a | .and => a &&& b | .or => a ||| b | .xor => a ^^^ b

/-- Active lanes: the tag of the entry at the head, ANDed with the guard (R29). -/
def Group.active (g : Group) (x : Guard) : LaneMask := g.headTag &&& g.guard x

/-! Registers. -/

def Group.elem (g : Group) (r lane : Nat) : Elem := getVec (getVec g.v r (Vector.replicate 64 0)) lane 0

/-- The w-bit element that a vector operand names in a lane (R126). -/
def Group.elemNat (g : Group) (w r lane : Nat) : Nat :=
  if w = 64 then (g.elem r lane).toNat + (g.elem (r + 1) lane).toNat * 2 ^ 32 else (g.elem r lane).toNat % 2 ^ w

def Group.setElem (g : Group) (r lane : Nat) (v : Elem) : Group :=
  { g with v := modVec (fun row => modVec (fun _ => v) row lane) g.v r }

/-- Write one register in the lanes of a mask. -/
def Group.setReg (g : Group) (r : Nat) (lanes : LaneMask) (f : Nat → Elem) : Group :=
  { g with v := modVec (fun row => Vector.ofFn fun i => if lanes.getLsbD i then f i else row[i]) g.v r }

/-- Extension of a w-bit result to the 32 bits of a register: by sign for i8 and i16, else by zeros (R126). -/
def extend (ty : ElemTy) (v : Nat) : Elem :=
  match ty with
  | .i8 => BitVec.ofInt 32 (signed 8 v)
  | .i16 => BitVec.ofInt 32 (signed 16 v)
  | t => BitVec.ofNat 32 (v % 2 ^ min 32 (tyBits t))

/-- Write a w-bit result into the vector operand r (R126, R127). -/
def Group.setVector (g : Group) (ty : ElemTy) (w : Nat) (r : Nat) (lanes : LaneMask) (f : Nat → Nat) : Group :=
  if w = 64 then
    (g.setReg r lanes fun i => BitVec.ofNat 32 (f i)).setReg (r + 1) lanes fun i => BitVec.ofNat 32 (f i / 2 ^ 32)
  else if w = tyBits ty then g.setReg r lanes fun i => extend ty (f i)
  else g.setReg r lanes fun i => BitVec.ofNat 32 (f i)

/-- Write the bits of active lanes of a mask; m0 is never written (R20, R127). -/
def Group.setMask (g : Group) (m : Nat) (lanes : LaneMask) (f : Nat → Bool) : Group :=
  if m = 0 then g
  else { g with m := modVec (fun v => (v &&& ~~~ lanes) ||| (maskOf ((lanesOf lanes).filter f))) g.m m }

/-- The value of an immediate in a type (R75). -/
def immValue (ty : ElemTy) (w : Nat) (n : BitVec 8) : Nat :=
  if tyFloat ty && w = tyBits ty then ((fmtOf ty).roundInt Mode.rne n.toInt 0 false).1
  else wrap w n.toInt

/-! Instructions at the queue head. -/

/-- The trapping or executing instruction's lane index (R29). -/
def Group.headIndex (g : Group) : Nat :=
  match g.laneQ.head? with
  | some e => match e.item with
    | .word _ ix => ix.toNat
    | _ => 0
  | none => 0

def Group.emptyHead (g : Group) : Group :=
  { g with head := Head.empty }

/-- Trap the instruction at the head of the current group. -/
def State.laneTrap (s : State) (fault performed : LaneMask) (t : Trap) : State :=
  s.trapLane s.cur.wg s.cur.g ((s.curGroup.map Group.headIndex).getD 0) fault performed t

/-- ILLEGAL, QUEUE, GANG or SLOT of the whole instruction: no lane is named (log 30). -/
def State.laneRaise (s : State) (c : TrapClass) : State := s.laneTrap 0 0 (Trap.plain c)

/-- The group consumes poison in the instruction at its head. -/
def State.lanePoison (s : State) (fault performed : LaneMask) (t : Trap) : State :=
  let g := s.curGroup
  s.consumePoison s.cur.wg s.cur.g ((g.bind fun x => x.laneQ.head?).bind (·.irb)) 1 0
    ((g.map Group.headIndex).getD 0) (((g.bind fun x => x.laneQ.head?).map (·.pc.toNat)).getD 0) fault performed t

/-- The instruction stays at the head until an outcome it needs is there. -/
def State.laneWait (s : State) : State := s.modCurGroup fun g => { g with head := { g.head with waiting := true } }

/-- The entry of an instruction at the queue head. -/
def eddyOf (c : Cur) (g : Group) (e : LaneEntry) (w : Nat) : Eddy :=
  { wg := c.wg, g := c.g, word := w, index := g.headIndex, pc := e.pc, tag := e.tag, seed := g.seed, flags := g.flags, irb := e.irb }

/-- An eligible retiring instruction is copied to the quarter's eddy queue, which keeps the last 16 (R389). -/
def State.eddyCopy (s : State) (i : Instr) : State :=
  match s.curGroup with
  | none => s
  | some g =>
    match g.laneQ.head? with
    | some e =>
      match e.item with
      | .word w _ =>
        if w / 2 ^ 86 < 0xC6 ∧ ((laneOpOf i).map usesQueue).getD false = false then
          let push := fun (l : List Eddy) => (l ++ [eddyOf s.cur g e w]).drop (l.length - 15)
          s.modCore s.curCore fun c => { c with eddy := modVec push c.eddy (g.slot / 8) }
        else s
      | _ => s
    | none => s

/-- Retire the instruction at the head (R28, R55): flags, SEED, the queue; splits that stalled on it look again, and the
group may retire. -/
def State.laneRetire (s : State) (i : Instr) (fl : Nat) : State :=
  let rnd := laneRnd i
  ((s.eddyCopy i).modCurGroup fun g =>
    (({ (g.setFlags fl).advanceSeed rnd with laneQ := g.laneQ.tail } : Group).emptyHead).wakeRetry).retireGroup s.cur.wg s.cur.g

/-! Operand queues (R289, R290). -/

/-- The fields of a stream record (R287). -/
def strmBase (r : List Byte) : Nat := recNat r 0 8
def strmControl (r : List Byte) : Nat := recNat r 8 4
def strmType (r : List Byte) : Option ElemTy := tyOfCode (fld (strmControl r) 0 5)
def strmWrite (r : List Byte) : Bool := bit (strmControl r) 5
def strmBypass (r : List Byte) : Bool := bit (strmControl r) 7
def strmHint (r : List Byte) : Nat := fld (strmControl r) 8 3
def strmCounted (r : List Byte) : Bool := bit (strmControl r) 11
def strmK (r : List Byte) : Nat := fld (strmControl r) 12 4
def strmScopeCode (r : List Byte) : Nat := fld (strmControl r) 16 3
def strmExtents (r : List Byte) : List Nat := (List.range 4).map fun d => recNat r (0x10 + 4 * d) 4
def strmTotal (r : List Byte) : Nat := (strmExtents r).foldl (· * ·) 1
def strmWidth (r : List Byte) : Nat := ((strmType r).map tyBits).getD 32

/-- The address of element t. -/
def strmAddr (r : List Byte) (t : Nat) : Nat :=
  let step := fun (acc : Int × Nat) (d : Nat) =>
    let x := recNat r (0x10 + 4 * d) 4
    (acc.1 + (acc.2 % x : Nat) * signed 64 (recNat r (0x20 + 8 * d) 8), acc.2 / x)
  wrap 64 (((List.range 4).foldl step ((strmBase r : Int), t)).1)

/-- A queue that a source pops, or that D pushes, under the checks of R289 and R290: its stream, or QUEUE. -/
def popOk (st : Option Stream) (w : Nat) (write : Bool) : Bool :=
  match st with
  | none => false
  | some x => strmWrite x.record == write && x.p < strmTotal x.record && strmWidth x.record == w

/-- The position moves on by W (R289), past elements read ahead. -/
def Stream.advance (x : Stream) : Stream :=
  let p := min (x.p + Config.lanes) (strmTotal x.record)
  { x with p := p, ahead := x.ahead.filter fun a => p ≤ a.1 }

/-- The streams of a group, as an instruction's pops leave them. -/
abbrev Queues := Vector (Option Stream) 8

/-- How a lane instruction ends before it retires. -/
inductive LaneEnd where
  | raise (c : TrapClass)
  | fault (lanes performed : LaneMask) (t : Trap)
  | wait
  deriving DecidableEq, Repr

/-- The lane stream's answered operations leave the table. -/
def State.laneTake (s : State) : State :=
  s.modFabric fun x => { x with ops := x.ops.filter fun o => match o.issuer with
    | .lane w g _ => !(w == s.cur.wg && g == s.cur.g)
    | _ => true }

/-- End the instruction at the head without retiring it. INDETERMINATE sets WGERR.INDET (R424). -/
def State.laneEnd (s : State) : LaneEnd → State
  | .raise c => s.laneRaise c
  | .fault l p t =>
    if t.cls = .poison then s.lanePoison l p t
    else
      let s := s.laneTake
      (if t.cls = .remote && t.detail = stIndeterminate then s.setWgerr s.cur.wg 6 else s).laneTrap l p t
  | .wait => s.laneWait

/-- What each lane of an access met: its bytes, a condition, or an outcome still missing. -/
inductive LaneGot where
  | bytes (bs : List Byte)
  | cond (t : Trap)
  | wait
  deriving DecidableEq, Repr

/-- The end of an instruction some of whose lanes failed: the lowest-numbered lane names class and address, the mask holds
every such lane (R143, R355); a missing outcome is awaited first (R264). -/
def laneFailure (performed : LaneMask) (gs : List (Nat × LaneGot)) : Option LaneEnd :=
  if gs.any fun x => x.2 == .wait then some .wait
  else
    let bad := gs.filter fun x => match x.2 with | .cond _ => true | _ => false
    match bad with
    | [] => none
    | (_, .cond t) :: _ => some (.fault (maskOf (bad.map (·.1))) performed t)
    | _ => none

/-- How a read uses the caches: its hint code, and whether it looks past L1 (R79, R217). -/
structure Caching where
  hint : Nat
  past : Bool
  deriving DecidableEq, Repr

/-- What an agent's read comes to, once resolved. -/
def State.readGot (s : State) (ag : Agent) (c : Caching) (va : Nat) (res : Except Cond Resolved) : State × LaneGot :=
  match res with
  | .error e => (s, .cond (e.toTrap false false))
  | .ok r =>
    if r.refs.any s.refPoisoned then (s, .cond (poisonTrap va false (s.poisonUnit ag.core r.refs)))
    else
      let s := s.replRefresh ag r.refs
      let bs := s.readRefs ag c.past r.refs
      if hasPeer r.refs then
        let es := peerElems 0 r.refs
        match s.remoteBatch ag.issuer ag.ctx ag.issuer.engine (peerLoads r.gathers es) with
        | (s, none) => (s, .wait)
        | (s, some os) =>
          match os.findSome? (outcomeTrap va false) with
          | some t => (s, .cond t)
          | none => (s.served ag c.hint c.past r.refs, .bytes (peerFill r.gathers es (os.map Outcome.data) bs))
      else (s.served ag c.hint c.past r.refs, .bytes bs)

/-- What an access leaves behind, unless it still waits for an answer. -/
def State.noteGot (ag : Agent) (look : Look) (x : State × LaneGot) : State × LaneGot :=
  if x.2 == .wait then x else (x.1.noteAccess ag look, x.2)

/-- An agent's read of n bytes through resolve, a peer's bytes by request. -/
def State.agentRead (s : State) (ag : Agent) (acc : Acc) (c : Caching) (va : Nat) : State × LaneGot :=
  match s.viewReady ag acc va with
  | (s, false) => (s, .wait)
  | (s, true) =>
    let look := s.resolve ag acc va
    State.noteGot ag look (s.readGot ag c va look.res)

/-- What an agent's write comes to, once resolved; nothing is written when a condition is met or an outcome is missing. -/
def State.writeGot (s : State) (ag : Agent) (hint va : Nat) (res : Except Cond Resolved) (bs : List Byte) : State × LaneGot :=
  match res with
  | .error c => (s, .cond (c.toTrap false true))
  | .ok r =>
    if hasPeer r.refs then
      match s.remoteBatch ag.issuer ag.ctx ag.issuer.engine (peerStores r.gathers (peerElems 0 r.refs) bs) with
      | (s, none) => (s, .wait)
      | (s, some os) =>
        match os.findSome? (outcomeTrap va true) with
        | some t => (s, .cond t)
        | none => (s.writeHinted ag hint r.refs bs, .bytes [])
    else (s.writeHinted ag hint r.refs bs, .bytes [])

/-- The command of a stream, as an agent: the group's, with no lane (R235), and the descriptor it read. -/
def State.streamAgent (s : State) (x : Stream) : Agent := { s.agent with images := x.images, issuer := .stream s.cur.wg s.cur.g }
def State.streamIssuer (s : State) : Issuer := .stream s.cur.wg s.cur.g

/-- The headwater reads element t of an open read stream ahead of its pop (R289). An element that fails, that lies on a peer or in a
coupled MX block is read at the pop (R250, log 33). -/
def State.readAhead (s : State) (w : WgIx) (g : GroupIx) (q t : Nat) : State :=
  match (s.group? w g).bind fun x => getVec x.q q none with
  | none => s
  | some x =>
    if (s.wg? w).map (·.state) ≠ some .resident || strmWrite x.record || t < x.p || strmTotal x.record ≤ t ||
        x.ahead.any (fun a => a.1 == t) then s
    else
      let ag := { s.groupAgent w g with images := x.images }
      let acc := Acc.load (strmWidth x.record / 8)
      let r := s.viewReady ag acc (strmAddr x.record t)
      let s := r.1
      let look := s.resolve ag acc (strmAddr x.record t)
      match (if r.2 then look.res else .error ⟨.page, 0, false⟩) with
      | .error _ => s
      | .ok r =>
        if r.refs.any s.refPoisoned || hasPeer r.refs || !r.mx.isEmpty then s
        else
          let s := (s.noteAccess ag look).replRefresh ag r.refs
          let bs := s.readRefs ag (strmBypass x.record) r.refs
          (s.served ag (strmHint x.record) (strmBypass x.record) r.refs).modGroup w g fun y => { y with q := modVec (fun o => o.map fun z => { z with ahead := (t, bs) :: z.ahead }) y.q q }

/-- How the reads of a pop use the caches: as the instruction's fields say where it sets them, else as the stream's do (R79, R287,
log 33). -/
def popCaching (o : LaneOp) (x : Stream) : Caching :=
  ⟨if o.hint = 0 then strmHint x.record else o.hint.toNat, o.bypass || strmBypass x.record⟩

/-- The elements a pop or peek delivers to some lanes: as read ahead, else as read now; a lane at or past T receives 0, and so does
an inactive lane whose read fails (R289). -/
def State.streamFetch (s : State) (x : Stream) (c : Caching) (active lanes : LaneMask) : State × List (Nat × LaneGot) :=
  (lanesOf lanes).foldl (fun (acc : State × List (Nat × LaneGot)) i =>
    if strmTotal x.record ≤ x.p + i then (acc.1, acc.2 ++ [(i, .bytes [])])
    else match x.ahead.find? fun a => a.1 == x.p + i with
    | some a => (acc.1, acc.2 ++ [(i, .bytes a.2)])
    | none =>
      let (s, got) := acc.1.agentRead (acc.1.streamAgent x) (Acc.load (strmWidth x.record / 8)) c (strmAddr x.record (x.p + i))
      let failed := match got with | .cond _ => !active.getLsbD i | _ => false
      (s, acc.2 ++ [(i, if failed then .bytes [] else got)])) (s, [])

/-! Gathering the sources (R126, R127, R76). -/

/-- A source as its lanes see it. -/
abbrev LaneVals := Nat → Nat

/-- The values of one source position of width w, and the queues after its pop; an unused position reads 0. -/
def State.source (s : State) (g : Group) (i : LaneOp) (w : Option Nat) (active lanes : LaneMask) (qs : Queues) (o : Operand) :
    Except (State × LaneEnd) (State × Queues × LaneVals) :=
  match w with
  | none => .ok (s, qs, fun _ => 0)
  | some w =>
  match o with
  | .v r => .ok (s, qs, fun i => g.elemNat w r.toNat i)
  | .b r => .ok (s, qs, fun _ => (getVec g.b r.toNat 0).toNat % 2 ^ w)
  | .imm n => .ok (s, qs, fun _ => immValue i.ty w n)
  | .q n peek =>
    let st := getVec qs n.toNat none
    if !popOk st w false then .error (s, .raise .queue)
    else match st with
      | none => .error (s, .raise .queue)
      | some x =>
        let (s, gs) := s.streamFetch x (popCaching i x) active lanes
        match laneFailure 0 gs with
        | some e => .error (s, e)
        | none =>
          let vals : LaneVals := fun i => match gs.find? fun y => y.1 == i with
            | some (_, .bytes bs) => natOfBytes bs
            | _ => 0
          .ok (s, if peek then qs else modVec (fun o => o.map Stream.advance) qs n.toNat, vals)
  | _ => .ok (s, qs, fun _ => 0)

/-- The checks of QUEUE on all positions at once, before anything is read (R289, R290): widths of A, B, C, E and D. -/
def queuesOk (g : Group) (ops : List (Operand × Option Nat)) (d : Operand) (wD : Nat) : Bool :=
  let step := fun (acc : Bool × Queues) (x : Operand × Option Nat) =>
    match x.1, x.2 with
    | .q n peek, some w =>
      (acc.1 && popOk (getVec acc.2 n.toNat none) w false,
        if peek then acc.2 else modVec (fun o => o.map Stream.advance) acc.2 n.toNat)
    | _, _ => acc
  let (ok, qs) := ops.foldl step (true, g.q)
  ok && (match d with
    | .q n _ => popOk (getVec qs n.toNat none) wD true
    | _ => true)

/-- Every vector register of a list is allocated (R20). -/
def Group.allocated (g : Group) (rs : List Nat) : Bool := rs.all (· < g.nregs)

/-! One lane instruction without a memory address. -/

/-- What an instruction sees: its active lanes, its sources, the group before it. -/
structure Ins where
  g : Group
  active : LaneMask
  a : LaneVals
  b : LaneVals
  c : LaneVals
  e : LaneVals

/-- What it delivers: a value per active lane for D, mask bits for D, other registers, masks, x, accumulator tiles and its
flags. -/
structure Outs where
  d : LaneVals := fun _ => 0
  dm : Nat → Bool := fun _ => false
  regs : List (Nat × (Nat → Elem)) := []
  masks : List (Nat × (Nat → Bool)) := []
  x : Option XAcc := none
  tiles : List (Nat × Tile) := []
  fl : Nat := 0

/-- The shape of a form: the width of D, the widths of the value positions it uses, and the registers it reads or writes
besides those. With cross, lane i may read other lanes of A. -/
structure Shape where
  d : Nat
  a : Option Nat := none
  b : Option Nat := none
  c : Option Nat := none
  e : Option Nat := none
  reads : List Nat := []
  writes : List Nat := []
  cross : Bool := false

def shape0 (w : Nat) : Shape := { d := w }
def shape1 (w : Nat) : Shape := { d := w, a := some w }
def shape2 (w : Nat) : Shape := { d := w, a := some w, b := some w }
def shape3 (w : Nat) : Shape := { d := w, a := some w, b := some w, c := some w }

/-- Vector registers of a position. -/
def posRegs (w : Option Nat) (o : Operand) : List Nat :=
  match w with
  | none => []
  | some w => operandRegs w o

/-- Vector registers a form reads, and all it names. -/
def Shape.sources (sh : Shape) (o : LaneOp) : List Nat :=
  posRegs sh.a o.a ++ posRegs sh.b o.b ++ posRegs sh.c o.c ++ posRegs sh.e o.e ++ sh.reads
def Shape.regs (sh : Shape) (o : LaneOp) : List Nat := operandRegs sh.d o.d ++ sh.writes ++ sh.sources o

/-- A lane's own vector registers among some are poisoned. -/
def Group.lanePoisoned (g : Group) (regs : List Nat) (l : Nat) : Bool :=
  g.poison.any fun p => match p with
    | .v r k => regs.contains r && k == l
    | _ => false

/-- A register that every lane of an instruction reads is poisoned: a mask, a broadcast register, x. -/
def Group.wholePoisoned (g : Group) (masks bs : List Nat) (x : Bool) : Bool :=
  g.poison.any fun p => match p with
    | .m r => masks.contains r
    | .b r => bs.contains r
    | .x => x
    | _ => false

/-- A mask of the guard is poisoned. -/
def Group.guardPoisoned (g : Group) (x : Guard) : Bool :=
  g.wholePoisoned ([x.a.mask.toNat] ++ (if x.combine = .aOnly then [] else [x.b.mask.toNat])) [] false

/-- The active lanes that read poison; with cross a lane may read any other's register. -/
def Group.poisonLanes (g : Group) (active : LaneMask) (cross : Bool) (regs masks bs : List Nat) (x : Bool) : LaneMask :=
  let any := g.wholePoisoned masks bs x || (cross && (List.range 64).any fun l => g.lanePoisoned regs l)
  if any then active else maskOf ((lanesOf active).filter fun l => g.lanePoisoned regs l)

def operandBs : Operand → List Nat | .b r => [r.toNat] | _ => []
def opX : Operand → Bool | .x => true | _ => false

/-- XADD and XSUB read x as well as write it. -/
def opcodeReadsX : Instr → Bool | .xadd _ | .xsub _ => true | _ => false

/-- A register write ends its poison (R386). -/
def Group.unpoison (g : Group) (i : Instr) (active : LaneMask) : Group :=
  if g.poison.isEmpty then g
  else { g with poison := g.poison.filter fun p => match p with
      | .v r l => !((destRegs i).contains r && active.getLsbD l)
      | .m r => !((destMasks i).contains r && active == BitVec.allOnes 64)
      | .x => !(match i with | .xclr _ => active != 0 | _ => false)
      | _ => true }

/-- Push the results of active lanes on the write stream of D (R290): every address is translated first. The elements are produced,
in ascending order, so that the highest lane's bytes stay where lanes overlap (R37); they are written later (R288). Those of a
peer are sent at once, and awaited (log 33). -/
def State.streamPush (s : State) (x : Stream) (active : LaneMask) (d : LaneVals) : State × Option LaneEnd :=
  let n := strmWidth x.record / 8
  let ag := s.streamAgent x
  let lanes := (lanesOf active).filter fun i => x.p + i < strmTotal x.record
  let ready := lanes.foldl (fun (acc : State × Bool) i =>
    let r := acc.1.viewReady ag (Acc.store n) (strmAddr x.record (x.p + i))
    (r.1, acc.2 && r.2)) (s, true)
  let s := ready.1
  if !ready.2 then (s, some .wait) else
  let looks := lanes.map fun i => (i, s.resolve ag (Acc.store n) (strmAddr x.record (x.p + i)))
  let bad := looks.filterMap fun l => match l.2.res with
    | .error c => some (l.1, c)
    | .ok _ => none
  match bad with
  | (_, c) :: _ => (s, some (.fault (maskOf (bad.map (·.1))) 0 (c.toTrap false true)))
  | [] =>
    let far (l : Nat × Look) : Bool := match l.2.res with
      | .ok r => hasPeer r.refs
      | .error _ => false
    let (s, gs) := looks.foldl (fun (acc : State × List (Nat × LaneGot)) l =>
      let s := acc.1.noteAccess ag l.2
      if far l then
        let (s, got) := s.writeGot ag (strmHint x.record) (strmAddr x.record (x.p + l.1)) l.2.res (bytesOfNat n (d l.1))
        (s, acc.2 ++ [(l.1, got)])
      else (s, acc.2)) (s, [])
    match laneFailure 0 gs with
    | some e => (s, some e)
    | none =>
      let made := (looks.filter fun l => !far l).filterMap fun l => match l.2.res with
        | .ok r => some { stream := x.id, hint := strmHint x.record, cmd := x.cmd, via := r.via, mx := r.mx, refs := r.refs, bytes := bytesOfNat n (d l.1) }
        | .error _ => none
      (s.modCurGroup fun g => { g with behind := g.behind ++ made }, none)

/-! Tiles of a workgroup by name (R318). -/

def Wg.tile (x : Wg) (t : Nat) : Option Tile := (x.tiles.find? fun y => y.1 == t).map (·.2)
def Wg.setTile (x : Wg) (t : Nat) (y : Tile) : Wg := { x with tiles := (x.tiles.filter fun z => z.1 != t) ++ [(t, y)] }

/-- Write tiles of the current workgroup. -/
def State.putTiles (s : State) (ts : List (Nat × Tile)) : State :=
  if ts.isEmpty then s else s.modWg s.cur.wg fun x => ts.foldl (fun (x : Wg) t => x.setTile t.1 t.2) x

/-- Deliver an instruction's results and retire it. -/
def State.deliver (s : State) (i : Instr) (ty : ElemTy) (wD : Nat) (d : Operand) (active : LaneMask) (qs : Queues) (o : Outs) : State :=
  let write (g : Group) : Group :=
    let g := match d with
      | .v r => g.setVector ty wD r.toNat active o.d
      | .m r => g.setMask r.toNat active o.dm
      | _ => g
    let g := o.regs.foldl (fun g x => g.setReg x.1 active x.2) g
    let g := o.masks.foldl (fun g x => g.setMask x.1 active x.2) g
    let g := match o.x with
      | some x => { g with x := x }
      | none => g
    ({ g with q := qs } : Group).unpoison i active
  match d with
  | .q n _ =>
    match getVec qs n.toNat none with
    | none => s.laneRaise .queue
    | some st =>
      match s.streamPush st active o.d with
      | (s, some e) => s.laneEnd e
      | (s, none) =>
        let qs := modVec (fun o => o.map Stream.advance) qs n.toNat
        (((s.putTiles o.tiles).remoteTake s.streamIssuer).modCurGroup fun g => { write g with q := qs }).laneRetire i (if active = 0 then 0 else o.fl)
  | _ => (((s.putTiles o.tiles).remoteTake s.streamIssuer).modCurGroup write).laneRetire i (if active = 0 then 0 else o.fl)

/-- Execute a lane instruction that makes no memory access by address: encoding and register checks (ILLEGAL), queue checks
(QUEUE), its sources, its results (R29, R83). An instruction with no active lanes writes nothing and sets no flag, and its
queues move all the same. -/
def State.runOp (s : State) (i : Instr) (o : LaneOp) (sh : Shape) (f : Ins → Outs) : State :=
  match s.curGroup with
  | none => s
  | some g =>
    let active := g.active o.guard
    let poisoned := g.poisonLanes active sh.cross (sh.sources o) (operandMasks o.a ++ operandMasks o.b ++ operandMasks o.c)
      (operandBs o.a ++ operandBs o.b ++ operandBs o.c ++ operandBs o.e) (opX o.a || (opX o.d && opcodeReadsX i))
    if !i.wf || !g.allocated (sh.regs o) then s.laneRaise .illegal
    else if g.guardPoisoned o.guard then s.lanePoison g.headTag 0 (poisonTrap 0 false (1, s.curCore))
    else if poisoned ≠ 0 then s.lanePoison poisoned 0 (poisonTrap 0 false (1, s.curCore))
    else if !queuesOk g [(o.a, sh.a), (o.b, sh.b), (o.c, sh.c), (o.e, sh.e)] o.d sh.d then s.laneRaise .queue
    else
      let lanes := if sh.cross then BitVec.allOnes 64 else active
      match s.source g o sh.a active lanes g.q o.a with
      | .error (s, e) => s.laneEnd e
      | .ok (s, qs, a) =>
        match s.source g o sh.b active lanes qs o.b with
        | .error (s, e) => s.laneEnd e
        | .ok (s, qs, b) =>
          match s.source g o sh.c active lanes qs o.c with
          | .error (s, e) => s.laneEnd e
          | .ok (s, qs, c) =>
            match s.source g o sh.e active lanes qs o.e with
            | .error (s, e) => s.laneEnd e
            | .ok (s, qs, e) => s.deliver i o.ty sh.d o.d active qs (f ⟨g, active, a, b, c, e⟩)

/-- The vector register an operand names. -/
def vectorNo : Operand → Nat
  | .v r => r.toNat
  | _ => 0

/-- A form computed lane by lane: the value and the flags of one lane from its sources. -/
def perLane (f : Group → Nat → Nat → Nat → Nat → Nat → Nat × Nat) (x : Ins) : Outs :=
  { d := fun i => (f x.g i (x.a i) (x.b i) (x.c i) (x.e i)).1
    fl := (lanesOf x.active).foldl (fun fl i => fl ||| (f x.g i (x.a i) (x.b i) (x.c i) (x.e i)).2) 0 }

end Sys2Proof.Machine
end

