-- ==== Sys2Proof/Machine/Transcend.lean ====
section
/-! DEFINITION. The transcendental forms VFEX2, VFLG2, VFSIN and VFCOS, correctly rounded (R147, R148): a fixed-point
value of 400 fraction bits, truncated, with a sticky bit; its error is below 2^-300 of its size, far below what any
rounding of a float input can need (log 17). -/

namespace Sys2Proof.Machine

/-- Fraction bits of the fixed-point values. -/
def fracBits : Nat := 400

/-- floor(π × 2^400). -/
def piFixed : Nat :=
  0x3243f6a8885a308d313198a2e03707344a4093822299f31d0082efa98ec4e6c89452821e638d01377be5466cf34e90c6cc0ac

/-- floor(ln 2 × 2^400). -/
def ln2Fixed : Nat :=
  0xb17217f7d1cf79abc9e3b39803f2f6af40f343267298b62d8a0d175b8baafa2be7b876206debac98559552fb4afa1b10ed2e

def oneFixed : Nat := 2 ^ fracBits
def mulFixed (a b : Nat) : Nat := a * b / 2 ^ fracBits

/-- Σ x^k / k! from a term on. -/
def expSeries (x : Nat) : Nat → Nat → Nat → Nat
  | 0, _, _ => 0
  | n + 1, k, term => term + expSeries x n (k + 1) (mulFixed term x / (k + 1))

/-- e^x for x below 1. -/
def expFixed (x : Nat) : Nat := expSeries x 110 0 oneFixed

/-- Σ (-1)^k x^(2k+start) / (2k+start)!, alternating: the positive and negative parts. -/
def altSeries (xx : Nat) : Nat → Nat → Nat → Bool → Nat × Nat
  | 0, _, _, _ => (0, 0)
  | n + 1, k, term, neg =>
    let (p, q) := altSeries xx n (k + 2) (mulFixed term xx / ((k + 1) * (k + 2))) (!neg)
    if neg then (p, q + term) else (p + term, q)

/-- sin and cos of x below 1. -/
def sinFixed (x : Nat) : Nat := let (p, q) := altSeries (mulFixed x x) 60 1 x false; p - q
def cosFixed (x : Nat) : Nat := let (p, q) := altSeries (mulFixed x x) 60 0 oneFixed false; p - q

/-- Σ z^(2k+1) / (2k+1): the inverse hyperbolic tangent of z at most 1/3. -/
def atanhSeries (zz : Nat) : Nat → Nat → Nat → Nat
  | 0, _, _ => 0
  | n + 1, k, pow => pow / k + atanhSeries zz n (k + 2) (mulFixed pow zz)

/-- ln(num / den) for a ratio from 1 to 2. -/
def lnFixed (num den : Nat) : Nat :=
  let z := (num - den) * 2 ^ fracBits / (num + den)
  2 * atanhSeries (mulFixed z z) 140 1 z

/-- A value just below or just above 1. -/
def nearOne (above : Bool) : Approx := if above then ⟨oneFixed, -(fracBits : Int), true⟩ else ⟨oneFixed - 1, -(fracBits : Int), true⟩

/-- 2^a (R148). -/
def Fmt.exp2 (f : Fmt) (md : Mode) (a : FVal) : Nat × Nat :=
  match a with
  | .nan s => (f.canonicalNan, if s then flIop else 0)
  | .inf neg => if neg then (f.signBit false, 0) else (f.infinity false, 0)
  | .fin neg m e =>
    if m = 0 then f.round md false ⟨1, 0, false⟩
    else if 13 ≤ (Nat.log2 m : Int) + e then
      -- |a| is at least 8,192: beyond every format's range
      f.round md false ⟨1, if neg then -8192 else 8192, false⟩
    else if (Nat.log2 m : Int) + e < -200 then f.round md false (nearOne (!neg))
    else
      -- a = n + frac with frac in [0, 1), in units of 2^-q
      let q := (-e).toNat
      let v : Int := (m * 2 ^ e.toNat : Nat)
      let v := if neg then -v else v
      let n := v / (2 ^ q : Int)
      let frac := (v % (2 ^ q : Int)).toNat
      if frac = 0 then f.round md false ⟨1, n, false⟩
      else
        let x := frac * ln2Fixed / 2 ^ q
        f.round md false ⟨expFixed x, n - fracBits, true⟩

/-- log2 a (R148). -/
def Fmt.log2 (f : Fmt) (md : Mode) (a : FVal) : Nat × Nat :=
  match a with
  | .nan s => (f.canonicalNan, if s then flIop else 0)
  | .inf neg => if neg then (f.canonicalNan, flIop) else (f.infinity false, 0)
  | .fin neg m e =>
    if m = 0 then (f.infinity true, flDz)
    else if neg then (f.canonicalNan, flIop)
    else
      let k := Nat.log2 m
      let n : Int := (k : Int) + e
      if m = 2 ^ k then f.roundInt md n 0 false
      else
        -- log2 a = n + ln(m / 2^k) / ln 2
        let frac := lnFixed m (2 ^ k) * 2 ^ fracBits / ln2Fixed
        let v : Int := n * (oneFixed : Nat) + frac
        if 0 ≤ v then f.round md false ⟨v.toNat, -(fracBits : Int), true⟩
        else f.round md true ⟨v.natAbs - 1, -(fracBits : Int), true⟩

/-- sin(π r / 2^q) for r / 2^q from 0 to 1/2, neither end included for cos: a value with sticky. -/
def sinQuarter (r q : Nat) : Approx :=
  if Nat.log2 r + 200 < q then ⟨piFixed * r, -(fracBits : Int) - q, true⟩
  else if 4 * r ≤ 2 ^ q then ⟨sinFixed (piFixed * r / 2 ^ q), -(fracBits : Int), true⟩
  else
    let c := 2 ^ q - 2 * r
    -- cos(π c / 2^(q+1)), c / 2^(q+1) at most 1/4
    if Nat.log2 c + 200 < q + 1 then nearOne false
    else ⟨cosFixed (piFixed * c / 2 ^ (q + 1)), -(fracBits : Int), true⟩

/-- sin(π v / 2^q) for an integer v, given modulo 2: its sign and value, or none when it is 0. -/
def sinTurns (v q : Nat) : Bool × Option Approx :=
  let v := v % 2 ^ (q + 1)
  let neg := 2 ^ q ≤ v
  let v := v % 2 ^ q
  let v := if 2 ^ q < 2 * v then 2 ^ q - v else v
  if v = 0 then (neg, none)
  else if 2 * v = 2 ^ q then (neg, some ⟨1, 0, false⟩)
  else (neg, some (sinQuarter v q))

/-- sin(π a), or with cosine cos(π a) = sin(π (a + 1/2)) (R147, R148). -/
def Fmt.sinPi (f : Fmt) (md : Mode) (cosine : Bool) (a : FVal) : Nat × Nat :=
  match a with
  | .nan s => (f.canonicalNan, if s then flIop else 0)
  | .inf _ => (f.canonicalNan, flIop)
  | .fin neg m e =>
    -- |a| = v / 2^q with q at least 1
    let q := (max 1 (-e)).toNat
    let v := m * 2 ^ (e + q).toNat
    if cosine then
      match sinTurns (v + 2 ^ (q - 1)) q with
      | (_, none) => (f.signBit false, 0)
      | (s, some r) => f.round md s r
    else
      match sinTurns v q with
      | (_, none) => (f.signBit neg, 0)
      | (s, some r) => f.round md (s != neg) r

end Sys2Proof.Machine
end

