-- ==== Sys2Proof/Machine/LaneFloat.lean ====
section
/-! DEFINITION. The lane instructions on floats, the conversions, packing, quantising and dequantising, and the exact
accumulator but for its memory forms (R146 to R162). -/

namespace Sys2Proof.Machine

/-! Floating-point arithmetic (R146 to R151). -/

/-- A float form whose result is computed from its inputs after the FTZ treatment, in the instruction's mode. -/
def State.floatOp (s : State) (i : Instr) (o : LaneOp) (sh : Shape) (f : Fmt → Mode → FVal → FVal → FVal → Nat × Nat) :
    Host.Outcome State Fault Refusal :=
  .next (s.runOp i o sh (perLane fun g l a b c _ =>
    let fm := fmtOf o.ty
    let ftz := flagsFtz g.flags
    f fm (g.mode o.rnd l 0) (fm.input ftz a) (fm.input ftz b) (fm.input ftz c)))

/-- A form with a fixed RNE (R147). -/
def neMode (md : Mode) : Mode := { md with rnd := .rne }

/-- A form that works on the encoding: MinNum, MaxNum, the sign forms (R149, R150). -/
def State.encOp (s : State) (i : Instr) (o : LaneOp) (sh : Shape) (f : Fmt → Bool → Nat → Nat → Nat × Nat) :
    Host.Outcome State Fault Refusal :=
  .next (s.runOp i o sh (perLane fun g _ a b _ _ => f (fmtOf o.ty) (flagsFtz g.flags) a b))

/-- The sign bit set to a function of the old one; NaN is canonical, and a flushed subnormal is a zero (R150). -/
def Fmt.setSign (f : Fmt) (sign : Bool → Bool) (ftz : Bool) (v : Nat) : Nat × Nat :=
  match f.input ftz v with
  | .nan _ => (f.canonicalNan, 0)
  | .fin neg 0 _ => (f.signBit (sign neg), 0)
  | x => (f.signBit (sign x.neg) + v % 2 ^ (f.e + f.m), 0)

/-- The class word (R151). -/
def Fmt.classWord (f : Fmt) (v : Nat) : Nat :=
  match f.decode v with
  | .nan true => 2 ^ 0
  | .nan false => 2 ^ 1
  | .inf true => 2 ^ 2
  | .inf false => 2 ^ 9
  | .fin neg m _ =>
    if m = 0 then (if neg then 2 ^ 5 else 2 ^ 6)
    else if m < 2 ^ f.m then (if neg then 2 ^ 4 else 2 ^ 7)
    else if neg then 2 ^ 3 else 2 ^ 8

def execVfadd (o : LaneOp) (s : State) : Host.Outcome State Fault Refusal :=
  s.floatOp (.vfadd o) o (shape2 (tyBits o.ty)) fun f md a b _ => f.add md a b
def execVfsub (o : LaneOp) (s : State) : Host.Outcome State Fault Refusal :=
  s.floatOp (.vfsub o) o (shape2 (tyBits o.ty)) fun f md a b _ => f.add md a b.negate
def execVfmul (o : LaneOp) (s : State) : Host.Outcome State Fault Refusal :=
  s.floatOp (.vfmul o) o (shape2 (tyBits o.ty)) fun f md a b _ => f.mul md a b
def execVfma (o : LaneOp) (s : State) : Host.Outcome State Fault Refusal :=
  s.floatOp (.vfma o) o (shape3 (tyBits o.ty)) fun f md a b c => f.fma md a b c
def execVfmin (o : LaneOp) (s : State) : Host.Outcome State Fault Refusal :=
  s.encOp (.vfmin o) o (shape2 (tyBits o.ty)) fun f ftz a b => f.minNum false ftz a b
def execVfmax (o : LaneOp) (s : State) : Host.Outcome State Fault Refusal :=
  s.encOp (.vfmax o) o (shape2 (tyBits o.ty)) fun f ftz a b => f.minNum true ftz a b
def execVfabs (o : LaneOp) (s : State) : Host.Outcome State Fault Refusal :=
  s.encOp (.vfabs o) o (shape1 (tyBits o.ty)) fun f ftz a _ => f.setSign (fun _ => false) ftz a
def execVfneg (o : LaneOp) (s : State) : Host.Outcome State Fault Refusal :=
  s.encOp (.vfneg o) o (shape1 (tyBits o.ty)) fun f ftz a _ => f.setSign (!·) ftz a
def execVfdiv (o : LaneOp) (s : State) : Host.Outcome State Fault Refusal :=
  s.floatOp (.vfdiv o) o (shape2 (tyBits o.ty)) fun f md a b _ => f.div md a b
def execVfsqrt (o : LaneOp) (s : State) : Host.Outcome State Fault Refusal :=
  s.floatOp (.vfsqrt o) o (shape1 (tyBits o.ty)) fun f md a _ _ => f.sqrt md a
def execVfrcp (o : LaneOp) (s : State) : Host.Outcome State Fault Refusal :=
  s.floatOp (.vfrcp o) o (shape1 (tyBits o.ty)) fun f md a _ _ => f.rcp md a
def execVfrsq (o : LaneOp) (s : State) : Host.Outcome State Fault Refusal :=
  s.floatOp (.vfrsq o) o (shape1 (tyBits o.ty)) fun f md a _ _ => f.rsqrt md a
def execVfex2 (o : LaneOp) (s : State) : Host.Outcome State Fault Refusal :=
  s.floatOp (.vfex2 o) o (shape1 (tyBits o.ty)) fun f md a _ _ => f.exp2 (neMode md) a
def execVflg2 (o : LaneOp) (s : State) : Host.Outcome State Fault Refusal :=
  s.floatOp (.vflg2 o) o (shape1 (tyBits o.ty)) fun f md a _ _ => f.log2 (neMode md) a
def execVfsin (o : LaneOp) (s : State) : Host.Outcome State Fault Refusal :=
  s.floatOp (.vfsin o) o (shape1 (tyBits o.ty)) fun f md a _ _ => f.sinPi (neMode md) false a
def execVfcos (o : LaneOp) (s : State) : Host.Outcome State Fault Refusal :=
  s.floatOp (.vfcos o) o (shape1 (tyBits o.ty)) fun f md a _ _ => f.sinPi (neMode md) true a
def execVfcls (o : LaneOp) (s : State) : Host.Outcome State Fault Refusal :=
  s.encOp (.vfcls o) o { d := 32, a := some (tyBits o.ty) } fun f _ a _ => (f.classWord a, 0)

/-! Conversions (R152 to R156). -/

/-- The source type, where the modifiers name one. -/
def srcOf (o : LaneOp) : ElemTy := (srcTy o).getD .f32

/-- The mode of one element of a conversion; .inf selects IEEE's overflow for E5M2. -/
def Group.cvtMode (g : Group) (o : LaneOp) (lane idx : Nat) : Mode := { g.mode o.rnd lane idx with inf := infBit o }

def execVcvt (o : LaneOp) (s : State) : Host.Outcome State Fault Refusal :=
  .next (s.runOp (.vcvt o) o { d := tyBits o.ty, a := some (tyBits (srcOf o)) } (perLane fun g l a _ _ _ =>
    convert (srcOf o) o.ty (g.cvtMode o l 0) a))

/-- The flags of a list of results over the active lanes. -/
def flagsOver (lanes : List Nat) (f : Nat → List (Nat × Nat)) : Nat :=
  lanes.foldl (fun fl i => (f i).foldl (fun fl r => fl ||| r.2) fl) 0

/-- Codes of w bits in a little-endian bit stream (R41). -/
def packBits (w : Nat) : List Nat → Nat
  | [] => 0
  | c :: cs => c % 2 ^ w + packBits w cs * 2 ^ w

/-- The n converted elements of a lane of VPACK: register A + j holds element j. -/
def packLane (g : Group) (o : LaneOp) (l : Nat) : List (Nat × Nat) :=
  (List.range (packCount (tyBits o.ty))).map fun j =>
    convert (srcOf o) o.ty (g.cvtMode o l j) ((g.elem (vectorNo o.a + j) l).toNat % 2 ^ tyBits (srcOf o))

/-- Words 0 to n - 1 of a packed stream, as register writes from r up. -/
def streamRegs (r n : Nat) (f : Nat → Nat) : List (Nat × (Nat → Elem)) :=
  (List.range n).map fun k => (r + k, fun l => BitVec.ofNat 32 (f l / 2 ^ (32 * k)))

/-- Registers of a run from a vector operand up. -/
def operandRun (n : Nat) (o : Operand) : List Nat := (List.range n).map fun k => vectorNo o + k

/-- Registers that hold n elements of w bits. -/
def packedRegs (w : Nat) : Nat := if w = 6 then 3 else 1

def execVpack (o : LaneOp) (s : State) : Host.Outcome State Fault Refusal :=
  let w := tyBits o.ty
  .next (s.runOp (.vpack o) o
    { d := 32, reads := operandRun (packCount w) o.a, writes := operandRun (packedRegs w) o.d } fun x =>
      { regs := streamRegs (vectorNo o.d) (packedRegs w) fun l => packBits w ((packLane x.g o l).map (·.1))
        fl := flagsOver (lanesOf x.active) (packLane x.g o) })

/-- The n results of a lane of VUNPK. -/
def unpackLane (g : Group) (o : LaneOp) (l : Nat) : List (Nat × Nat) :=
  let w := tyBits (srcOf o)
  let stream := (List.range (packedRegs w)).foldl (fun v k => v + (g.elem (vectorNo o.a + k) l).toNat * 2 ^ (32 * k)) 0
  (List.range (packCount w)).map fun j => convert (srcOf o) o.ty { Mode.rne with ftz := flagsFtz g.flags } (fld stream (w * j) w)

def execVunpk (o : LaneOp) (s : State) : Host.Outcome State Fault Refusal :=
  let w := tyBits (srcOf o)
  .next (s.runOp (.vunpk o) o
    { d := 32, reads := operandRun (packedRegs w) o.a, writes := operandRun (packCount w) o.d } fun x =>
      { regs := (List.range (packCount w)).map fun j =>
          (vectorNo o.d + j, fun l => extend o.ty (((unpackLane x.g o l).map (·.1)).getD j 0))
        fl := flagsOver (lanesOf x.active) (unpackLane x.g o) })

/-! Quantising and dequantising (R157 to R159). -/

/-- The block of a lane: its scale, and each lane's code and flags; inactive lanes count as +0. -/
def qmxBlock (x : Ins) (o : LaneOp) (t : Nat) : Nat × List (Nat × Nat) :=
  let f := fmtOf (srcOf o)
  let vs := (List.range 32).map fun j =>
    if x.active.getLsbD (32 * t + j) then f.decode (x.a (32 * t + j)) else .fin false 0 0
  quantiseMx o.ty (x.g.mode o.rnd 0 0) (fun j => srBits x.g.seed.toNat (32 * t + j) 0) vs

def execVqmx (o : LaneOp) (s : State) : Host.Outcome State Fault Refusal :=
  .next (s.runOp (.vqmx o) o
    { d := 32, a := some (tyBits (srcOf o)), writes := operandRun 1 o.e } fun x =>
      let b0 := qmxBlock x o 0
      let b1 := qmxBlock x o 1
      let block := fun l => if l < 32 then b0 else b1
      let code := fun l => (block l).2.getD (l % 32) (0, 0)
      { d := fun l => (code l).1
        regs := [(vectorNo o.e, fun l => BitVec.ofNat 32 (block l).1)]
        fl := flagsOver (lanesOf x.active) fun l => [code l] })

/-- One element of VQAQ (R158): a is the value, s the scale, z the zero point. -/
def quantiseAq (qmax : Int) (md : Mode) (a s : FVal) (z : Nat) : Nat × Nat :=
  let clampQ (q : Int) (inexact : Bool) : Nat × Nat :=
    if q < 0 ∨ qmax < q then ((clampInt 0 qmax q).toNat, flOvf + flInx) else (q.toNat, if inexact then flInx else 0)
  match a, s with
  | .inf neg, .fin false (_ + 1) _ => (if neg then 0 else qmax.toNat, flOvf + flInx)
  | .fin neg m e, .fin false (n + 1) g =>
    if m = 0 then clampQ z false
    else
      let (v, inexact) := FVal.toInteger md neg (quotient m e (n + 1) g)
      clampQ (v + z) inexact
  | _, _ => (min z qmax.toNat, flIop)

def execVqaq (o : LaneOp) (s : State) : Host.Outcome State Fault Refusal :=
  .next (s.runOp (.vqaq o) o
    { d := tyBits o.ty, a := some (tyBits (srcOf o)), b := some 16, c := some 8 } (perLane fun g l a b c _ =>
      quantiseAq (if o.ty == .aq8 then 255 else 15) (g.mode o.rnd l 0) ((fmtOf (srcOf o)).decode a) (fmtF16.decode b) c))

/-- The exact value of an MX element under its scale code (R44). -/
def mxValue (src : ElemTy) (scale code : Nat) : FVal × Nat :=
  let p := (fmtOf src).decode code
  (if scale % 256 = 255 then .nan false else match p with
    | .fin neg m e => .fin neg m (e + (scale % 256 : Nat) - 127)
    | .nan _ => .nan false
    | x => x, snanFlag [p])

/-- The exact value of an AQ code (R47): s × (q - z). -/
def aqValue (s : FVal) (q z : Nat) : FVal × Nat :=
  let k : Int := (q : Int) - z
  match s with
  | .nan sig => (.nan false, if sig then flIop else 0)
  | .inf neg => if k = 0 then (.nan false, flIop) else (.inf (neg != decide (k < 0)), 0)
  | .fin neg m e => (.fin (neg != decide (k < 0)) (m * k.natAbs) e, 0)

/-- One element of VDQ (R159): no FTZ. -/
def dequantise (src dst : ElemTy) (md : Mode) (a b c : Nat) : Nat × Nat :=
  let (v, fl) := if tyMx src then mxValue src b a else aqValue (fmtF16.decode b) a c
  let r := (fmtOf dst).ofVal { md with ftz := false } v
  (r.1, r.2 ||| fl)

def execVdq (o : LaneOp) (s : State) : Host.Outcome State Fault Refusal :=
  let mx := tyMx (srcOf o)
  .next (s.runOp (.vdq o) o
    { d := tyBits o.ty, a := some (tyBits (srcOf o)), b := some (if mx then 8 else 16), c := if mx then none else some 8 }
    (perLane fun g l a b c _ => dequantise (srcOf o) o.ty (g.mode o.rnd l 0) a b c))

/-! The exact accumulator (R56 to R60, R160 to R162). -/

/-- Add an integer to N: outside the range it wraps and sets OVF (R58). -/
def XAcc.addInt (x : XAcc) (v : Int) : XAcc × Nat :=
  let t := x.n.toInt + v
  if t < -(2 ^ 2175 : Int) ∨ (2 ^ 2175 : Int) ≤ t then ({ x with n := BitVec.ofInt 2176 t, ovf := true }, flXovf)
  else ({ x with n := BitVec.ofInt 2176 t }, 0)

/-- Add one value (R57). Every finite value of the four formats is a multiple of 2^-1074. -/
def XAcc.add (x : XAcc) (v : FVal) : XAcc × Nat :=
  match v with
  | .nan sig => ({ x with nan := true }, if sig then flIop else 0)
  | .inf false => ({ x with pinf := true }, 0)
  | .inf true => ({ x with ninf := true }, 0)
  | .fin neg m e => x.addInt (atExp neg m e (-1074))

/-- Add values in ascending lane order. -/
def XAcc.addAll (x : XAcc) : List FVal → XAcc × Nat
  | [] => (x, 0)
  | v :: vs =>
    let (y, fl) := x.add v
    let (z, fl') := y.addAll vs
    (z, fl ||| fl')

/-- RoundX (R60). -/
def XAcc.round (x : XAcc) (f : Fmt) (md : Mode) : Nat × Nat :=
  if x.nan then (f.canonicalNan, 0)
  else if x.ovf || (x.pinf && x.ninf) then (f.canonicalNan, flIop)
  else if x.pinf then (f.infinity false, 0)
  else if x.ninf then (f.infinity true, 0)
  else f.roundInt md x.n.toInt (-1074) false

def XAcc.zero : XAcc := { n := 0, nan := false, pinf := false, ninf := false, ovf := false }

def execXclr (o : LaneOp) (s : State) : Host.Outcome State Fault Refusal :=
  .next (s.runOp (.xclr o) o (shape0 32) fun x => { x := if x.active = 0 then none else some XAcc.zero })

/-- XADD, and XSUB with the negated values. -/
def State.exactOp (s : State) (i : Instr) (o : LaneOp) (f : FVal → FVal) : Host.Outcome State Fault Refusal :=
  .next (s.runOp i o { d := 32, a := some (tyBits o.ty) } fun x =>
    let r := x.g.x.addAll ((lanesOf x.active).map fun l => f ((fmtOf o.ty).decode (x.a l)))
    { x := some r.1, fl := r.2 })

def execXadd (o : LaneOp) (s : State) : Host.Outcome State Fault Refusal := s.exactOp (.xadd o) o id
def execXsub (o : LaneOp) (s : State) : Host.Outcome State Fault Refusal := s.exactOp (.xsub o) o FVal.negate

/-- One rounding, in the lowest active lane's mode, for every active lane (R162); FTZ does not reach x (R54, R153). -/
def execXrnd (o : LaneOp) (s : State) : Host.Outcome State Fault Refusal :=
  .next (s.runOp (.xrnd o) o (shape0 (tyBits o.ty)) fun x =>
    let r := x.g.x.round (fmtOf o.ty) { x.g.mode o.rnd ((lanesOf x.active).headD 0) 0 with ftz := false }
    { d := fun _ => r.1, fl := r.2 })

end Sys2Proof.Machine
end

