-- ==== Sys2Proof/Machine/Blocks.lean ====
section
/-! DEFINITION. The block rule that every summing unit uses (R61 to R64). -/

namespace Sys2Proof.Machine

/-- An exact product (R62). -/
def exactProduct (a b : FVal) : FVal :=
  let neg := a.neg != b.neg
  match a, b with
  | .nan _, _ | _, .nan _ => .nan false
  | .inf _, .inf _ => .inf neg
  | .inf _, .fin _ m _ => if m = 0 then .nan false else .inf neg
  | .fin _ m _, .inf _ => if m = 0 then .nan false else .inf neg
  | .fin _ m e, .fin _ n f => .fin neg (m * n) (e + f)

def FVal.isNegInf : FVal → Bool | .inf s => s | _ => false
def FVal.isPosInf : FVal → Bool | .inf s => !s | _ => false

/-- The finite values of a list as integers at a common exponent, summed. -/
def sumAt (q : Int) (ps : List FVal) : Int :=
  ps.foldl (fun acc p => match p with
    | .fin neg m e => acc + atExp neg m e q
    | _ => acc) 0

/-- The smallest exponent of a list of finite values. -/
def minExpOf (ps : List FVal) : Int :=
  match ps.filterMap fun p => match p with | .fin _ _ e => some e | _ => none with
  | [] => 0
  | e :: es => es.foldl min e

/-- The exact sum of a block's products: NaN, an infinity, or a number; zero is -0 only when every product is (R61, R62). -/
def exactSum (ps : List FVal) : FVal :=
  if ps.any FVal.isNan || (ps.any FVal.isPosInf && ps.any FVal.isNegInf) then .nan false
  else if ps.any FVal.isPosInf then .inf false
  else if ps.any FVal.isNegInf then .inf true
  else
    let q := minExpOf ps
    let v := sumAt q ps
    if v = 0 then .fin (ps.all fun p => p.isZero && p.neg) 0 q else .fin (v < 0) v.natAbs q

/-- One addition into an FP32 or FP16 accumulator and its overflow (R63): the bits and the flags. -/
def accAdd (f : Fmt) (acc : Nat) (x : FVal) : Nat × Nat :=
  let r := f.add Mode.rne (f.decode acc) x
  if r.2 / flOvf % 2 = 0 then (r.1, 0)
  else if f = fmtF16 then (f.maxFinite (bit r.1 15), flMsat)
  else (r.1, flMovf)

/-- Successive blocks of l products (R61). -/
def blockAccumulate (f : Fmt) (l : Nat) : Nat → Nat → List FVal → Nat × Nat
  | 0, acc, _ => (acc, 0)
  | _ + 1, acc, [] => (acc, 0)
  | n + 1, acc, ps =>
    let r := accAdd f acc (exactSum (ps.take l))
    let t := blockAccumulate f l n r.1 (ps.drop l)
    (t.1, r.2 ||| t.2)

/-- The FP64 chain (R61, R63). -/
def fmaChain : Nat → List (FVal × FVal) → Nat × Nat
  | acc, [] => (acc, 0)
  | acc, (a, b) :: ps =>
    let r := fmtF64.fma Mode.rne a b (fmtF64.decode acc)
    let t := fmaChain r.1 ps
    (t.1, (r.2 / flOvf % 2 * flOvf) ||| t.2)

/-- One exact integer sum added to an INT32 accumulator, saturated once (R64). -/
def intAccumulate (acc : Nat) (ps : List Int) : Nat × Nat :=
  let t := signed 32 acc + ps.foldl (· + ·) 0
  let c := clampInt (-(2 ^ 31)) (2 ^ 31 - 1) t
  (wrap 32 c, if c = t then 0 else flIsat)

end Sys2Proof.Machine
end

