-- ==== Sys2Proof/Machine/Issue.lean ====
section
/-! DEFINITION. How an instruction comes to execute: which group of a quarter issues, the charge of the issue turn, the
fetch of scalar and lane words and of store words, and the moves of the agenda that are no instruction (R25 to R29, R34,
R186 to R188, R340, R359). -/

namespace Sys2Proof.Machine

/-! Effective priority (R174, R186). -/

/-- The priority of a region, from the regions of its path; a root that inherits has priority 0. -/
def pathPriority : List Region → Nat
  | [] => 0
  | r :: rest => if r.inheritPriority then pathPriority rest else r.own.priority

/-- (class, priority) as one number, class first. -/
def State.wgRank (s : State) (w : WgIx) : Nat :=
  let p := s.wgPath w
  (if p.all fun r => limitRoom r.own.issue r.issueUsed then 64 else 0) + pathPriority p % 64

/-- One issue turn is charged to the region and every ancestor (R174, R188). -/
def State.chargeIssue (s : State) (w : WgIx) : State :=
  (s.wgPath w).foldl (fun (s : State) r =>
    s.modRegion r.ctx r.rcb fun x => { x with issueUsed := x.issueUsed + 1 }) s

/-! Choosing a group (R186, R187). -/

/-- Groups resident on a quarter of a core: workgroup and group numbers. A workgroup marked for pre-emption issues nothing
(R372), and a group whose trap record a full queue has not taken is parked (R363). -/
def State.quarterGroups (s : State) (core quarter : Nat) : List (WgIx × GroupIx) :=
  s.wgs.zipIdx.flatMap fun (x : Wg × Nat) =>
    if x.1.state = .resident ∧ x.1.core = core ∧ !x.1.preempt then
      (x.1.groups.zipIdx.filter fun y => y.1.slot / 8 == quarter && !y.1.retired && !s.recordHeld x.2 y.2).map fun y => (x.2, y.2)
    else []

/-- The smallest of a list under a strict order; the first among equals. -/
def least {α : Type} (lt : α → α → Bool) : List α → Option α
  | [] => none
  | a :: as => match least lt as with
    | none => some a
    | some b => if lt b a then some b else some a

/-- A READY split that may issue: workgroup, group, entry, its last issue, its group's last scalar issue, its rank. -/
structure Offer where
  wg : WgIx
  g : GroupIx
  split : SplitIx
  lastIssue : Nat
  lastGroup : Nat
  rank : Nat
  yielded : Bool
  deriving DecidableEq, Repr

/-- Every READY split of a quarter, but for those that share a lane with a stopped lane instruction (R357). -/
def State.readySplits (s : State) (core quarter : Nat) : List Offer :=
  (s.quarterGroups core quarter).flatMap fun x =>
    match s.group? x.1 x.2 with
    | none => []
    | some g =>
      splitIxs.filterMap fun k => match g.split k with
        | some y => if y.status = .ready ∧ !(g.head.stopped && y.mask &&& g.headTag != 0) then some ⟨x.1, x.2, k, y.lastIssue, g.lastScalar, s.wgRank x.1, y.yielded⟩ else none
        | none => none

/-- A split that yielded waits until every other READY split of the quarter has been offered a turn (R120). -/
def yieldDone (all : List Offer) (o : Offer) : Bool := !o.yielded || all.all fun p => o.lastIssue ≤ p.lastIssue

/-- The split that a quarter issues (R186): each group offers its least recently issued, lowest entry first; the highest
rank wins, then the group that issued least recently. -/
def State.pickScalar (s : State) (core quarter : Nat) : Option Offer :=
  let all := s.readySplits core quarter
  let able := all.filter (yieldDone all)
  let offers := able.filter fun o =>
    able.all fun p => p.wg != o.wg || p.g != o.g || o.lastIssue < p.lastIssue || (o.lastIssue == p.lastIssue && o.split ≤ p.split)
  least (fun a b => b.rank < a.rank || (a.rank == b.rank && a.lastGroup < b.lastGroup)) offers

/-- The group whose lane stream a quarter issues (R187); a stopped or waiting head issues nothing. -/
def State.pickLane (s : State) (core quarter : Nat) : Option (WgIx × GroupIx) :=
  let all := (s.quarterGroups core quarter).filterMap fun x =>
    match s.group? x.1 x.2 with
    | none => none
    | some g => if g.laneQ.isEmpty || g.head.stopped || g.head.waiting then none else some (x, s.wgRank x.1, g.lastLane)
  (least (fun a b => b.2.1 < a.2.1 || (a.2.1 == b.2.1 && a.2.2 < b.2.2)) all).map (·.1)

/-! Code fetch (R25, R27, R115, R359). -/

/-- A byte of code: as the instruction cache holds it, else as its home does. -/
def State.codeRef (s : State) (ag : Agent) (lane : Bool) (r : ByteRef) : Byte :=
  match r with
  | .whole p =>
    match if s.acquired ag then none else (cacheKey ag.reach p).bind ((s.core ag.core).codeByte lane) with
    | some b => b
    | none => s.readPlace ag true p
  | r => s.readRef ag true r

/-- The bytes of scalar or lane code at an address, or the trap of its fetch: F is set. -/
def State.codeRead (s : State) (ag : Agent) (lane : Bool) (va n : Nat) : Except Cond (List Byte) :=
  match s.resolveFlat ag (Acc.code n) va with
  | .error c => .error c
  | .ok rs =>
    if rs.any s.refPoisoned then .error ⟨.poison, va, false⟩ else s.withAnswers ag.issuer va rs (rs.map (s.codeRef ag lane))

/-- Code on a peer's page is asked for first (R407). -/
def State.codeReady (s : State) (ag : Agent) (reads : List (Nat × Nat)) : State × Bool :=
  s.askPeers ag (reads.map fun x => match s.resolveFlat ag (Acc.code x.2) x.1 with
    | .ok rs => rs
    | .error _ => [])

/-- The lane words of a run: index and word; or the fault of its first word that has one, whatever its class (log 78). -/
def State.laneWords (s : State) (ag : Agent) (lcb : Nat) : Nat → Nat → Except Cond (List (Nat × Nat))
  | _, 0 => .ok []
  | first, n + 1 =>
    match s.codeRead ag true ((lcb + 12 * first) % 2 ^ 64) 12 with
    | .error c => .error c
    | .ok bs =>
      match s.laneWords ag lcb (first + 1) n with
      | .error c => .error c
      | .ok ws => .ok ((first, natOfBytes bs) :: ws)

/-- The words of a run are there to be read, with no peer's answer missing. -/
def State.wordsReady (s : State) (ag : Agent) (lcb first n : Nat) : State × Bool :=
  s.codeReady ag ((List.range n).map fun k => ((lcb + 12 * (first + k)) % 2 ^ 64, 12))

/-- The launch record's lane entry, when present: count and first index (R177). -/
def Launch.run (l : Launch) : Option (Nat × Nat) :=
  if bit l.laneEntry 31 then some (fld l.laneEntry 20 6 + 1, fld l.laneEntry 0 20) else none

/-- The lane code base of the current group. -/
def State.curLcb (s : State) : Nat := ((s.launchOf s.cur.wg).map (·.lcb)).getD 0

/-- The run of the launch record's lane entry is enqueued before the first scalar instruction, with tag m0 (R359). -/
def State.entryRun (s : State) : Early Unit :=
  match s.curGroup with
  | none => .ok (s, ())
  | some g =>
    if !g.entryRun then .ok (s, ())
    else
      match (s.launchOf s.cur.wg).bind Launch.run with
      | none => .ok (s.modCurGroup fun g => { g with entryRun := false }, ())
      | some (n, first) =>
        match s.wordsReady s.agent s.curLcb first n with
        | (s, false) => .error (s.wait (.remote 0))
        | (s, true) =>
        match s.laneWords s.agent s.curLcb first n with
        | .error c => .error (s.raiseCond c true false)
        | .ok ws =>
          .ok ((s.tick).modCurGroup fun g =>
            { g with
              entryRun := false
              laneQ := g.laneQ ++ ws.map fun x =>
                { item := .word x.2 (BitVec.ofNat 20 x.1), tag := getVec g.m 0 0, pc := s.curPc, irb := none, stamp := s.stamp } }, ())

/-! Poisoned registers that a scalar instruction reads (R386). -/

/-- The scalar registers an instruction reads. -/
def scalarSources : Instr → List SReg
  | .sysw _ a | .addi _ a _ | .andi _ a _ | .ori _ a _ | .xori _ a _ | .shli _ a _ | .shri _ a _ | .srai _ a _ | .slti _ a _
  | .sltni _ a _ | .lds _ _ _ a _ | .jr _ a | .setb _ a | .mset _ a | .barSync _ _ a _ | .waitc _ _ a | .waitcFe _ a
  | .strm _ a | .oclaim _ a | .orel a | .gang a | .tqjoin a _ | .mma _ _ _ a _ _ _ => [a]
  | .add _ a b | .sub _ a b | .and _ a b | .or _ a b | .xor _ a b | .shl _ a b | .shr _ a b | .sra _ a b | .min _ a b
  | .max _ a b | .minn _ a b | .maxn _ a b | .slt _ a b | .sltn _ a b | .mul _ a b | .mulh _ a b | .mulhn _ a b
  | .div _ a b | .divn _ a b | .rem _ a b | .remn _ a b => [a, b]
  | .csel d a b => [d, a, b]
  | .lit d _ => [d]
  | .sts _ _ d a _ => [d, a]
  | .satom _ _ _ a b _ => [a, b]
  | .scas _ _ a b c => [a, b, c]
  | .br _ a b _ | .lxr a b | .opld _ _ a b | .bkload a b | .bkfence a b | .viewi _ a b => [a, b]
  | .vrd _ _ b c => [b, c]
  | .barArrive _ _ a _ => [a]
  | .barWait _ _ b => [b]
  | .barRemote _ a _ c => [a, c]
  | .cpy _ a b st | .cpyr _ a b st | .bkrun a b st => a :: b :: (match st with | some x => [x.value] | none => [])
  | .tqpush a _ _ | .tqpull a _ _ => [a]
  | .viewb a b _ | .lnch a b _ => [a, b]
  | .rminv _ a b c => [a, b, c]
  | _ => []

/-- The instruction reads a poisoned register of its group: a scalar source, or, once every earlier writer has retired, the
mask of MRD and BRM and the vector of VRD. -/
def State.scalarPoisoned (s : State) (i : Instr) : Bool :=
  match s.curGroup with
  | none => false
  | some g => g.poison.any fun p => match p with
    | .s r => (scalarSources i).any fun x => x.toNat == r
    | .m r => !s.queued (·.writesMask r) && (match i with | .mrd _ m | .brm _ m _ => m.toNat == r | _ => false)
    | .v r l => !s.queued (·.writesReg r) && (match i with
      | .vrd wide _ b c => (s.rs b).toNat == l && ((s.rs c).toNat == r || (wide && (s.rs c).toNat + 1 == r))
      | _ => false)
    | _ => false

/-! The scalar accesses by address, as the checks before POISON see them. -/

def stBytes : StSize → Nat
  | .i8 => 1 | .i16 => 2 | .i32 => 4 | .b64 => 8

/-- The effective address of the SM format (R67). -/
def State.smAddr (s : State) (sa : SReg) (imm : BitVec 9) : Nat := (s.rs sa + imm.signExtend 64).toNat

/-- The read-modify-write of a SATOM operation. -/
def satomRmw (op : SAtomOp) : Rmw :=
  match op with
  | .add => ⟨.add, .n64, .rne, false, 0⟩
  | .min => ⟨.min, .i64, .rne, false, 0⟩
  | .max => ⟨.max, .i64, .rne, false, 0⟩
  | .minn => ⟨.min, .n64, .rne, false, 0⟩
  | .maxn => ⟨.max, .n64, .rne, false, 0⟩
  | .and => ⟨.and, .b64, .rne, false, 0⟩
  | .or => ⟨.or, .b64, .rne, false, 0⟩
  | .xor => ⟨.xor, .b64, .rne, false, 0⟩
  | .exch => ⟨.exch, .b64, .rne, false, 0⟩

/-! Host lines of a PCIe port (R431). -/

/-- A read-modify-write has an AtomicOp equivalent: an integer add or an exchange. -/
def rmwPcie (r : Rmw) : Bool := (r.op == .add && !tyFloat r.ty) || r.op == .exch

/-- Some byte is a host line behind a port in PCIe mode. -/
def State.pcieHost (s : State) (rs : List ByteRef) : Bool :=
  rs.any fun r => match r with
    | .whole (.host p _) => (getVec s.hostif.ports p HostPort.reset).mode == .pcie
    | _ => false

/-- An operation without an equivalent meets PROTECTION at a host line. -/
def State.pcieLook (s : State) (ok : Bool) (va : Nat) (l : Look) : Look :=
  match l.res with
  | .ok r => if !ok && s.pcieHost r.refs then { l with res := .error ⟨.protection, va, false⟩ } else l
  | .error _ => l

/-- The same of the instructions that read a record by address or name a completion record (R282, R355). -/
def State.recordsTrap (s : State) (good : SReg → Bool) : Instr → Bool :=
  let reads (r : SReg) (n align : Nat) : Bool :=
    good r && ((s.rs r).toNat % align != 0 || (match (s.resolve s.agent (Acc.load n) (s.rs r).toNat).res with
      | .error c => c.cls != .poison
      | .ok _ => false))
  let writes (r : SReg) : Bool := good r && (s.rs r).toNat % 16 != 0
  fun i => match i with
    | .opld _ _ _ b => reads b 64 16
    | .viewb _ b _ => reads b 128 16
    | .cpy _ a b _ | .cpyr _ a b _ | .lnch a b _ => reads a 128 16 || writes b
    | .bkload a b | .bkrun a b _ | .bkfence a b => reads a 64 16 || writes b
    | .viewi _ _ b | .rminv _ _ b _ => writes b
    | _ => false

/-- What the instruction's other registers alone make it raise comes before the POISON of a register whose value does not enter into
it (R355): an access by a good address, a count, a lane or a register number outside its range. -/
def State.trapsFirst (s : State) (i : Instr) : Bool :=
  let good (r : SReg) : Bool := !((s.curGroup.map fun g => g.poison.contains (.s r.toNat)).getD false)
  let access (acc : Acc) (va : Nat) (pcie : Bool) : Bool :=
    match s.lookHeld va with
    | some _ => false
    | none => match (s.pcieLook pcie va (s.resolve s.agent acc va)).res with
      | .error c => c.cls != .poison
      | .ok _ => false
  match i with
  | .sts size rel _ a imm => good a && access { Acc.store (stBytes size) with strict := rel } (s.smAddr a imm) true
  | .satom op _ _ a _ _ => good a && access { Acc.store 8 with strict := true } (s.rs a).toNat (rmwPcie (satomRmw op))
  | .scas _ _ a _ _ => good a && access { Acc.store 8 with strict := true } (s.rs a).toNat true
  | .lxr a b => (good b && ((s.rs b).toNat < 1 || 64 < (s.rs b).toNat)) || (good a && 2 ^ 20 ≤ (s.rs a).toNat)
  | .vrd wide _ b c =>
    (good b && 64 ≤ (s.rs b).toNat) ||
      (good c && (((s.curGroup.map (·.nregs)).getD 0) ≤ (s.rs c).toNat || (wide && (s.rs c).toNat % 2 = 1)))
  | .barRemote _ a _ c =>
    (good a && !(1 ≤ (s.rs a).toNat && (s.rs a).toNat ≤ 1023)) || (good c && (s.clusterOf s.cur.wg).2 ≤ (s.rs c).toNat)
  | i => s.recordsTrap good i

/-! Issue. -/

/-- After an instruction of a group: the group settles (R170, R357). -/
def State.settleCur (s : State) : State := s.modCurGroup Group.settle

/-- What an issue turn comes to: an instruction to execute, or a state that already holds all there was to do. -/
inductive Issued where
  | run (s : State) (i : Instr)
  | done (s : State)

/-- The turn of a split is taken: its marks, its charge, the holds that count it, the context's progress (R170, R186, R188,
R382). An instruction that
stalled and executes again is charged no second time. -/
def State.takeTurn (s : State) (o : Offer) : State :=
  let s := { s.tick with cur := ⟨o.wg, o.g, o.split, 0⟩ }
  let again := (s.curSplit.map (·.stalled)).getD false
  let s := s.modCurGroup fun g =>
    ({ (if again then g else g.countIssue o.split) with lastScalar := s.stamp } : Group).modSplit o.split fun x =>
      { x with lastIssue := s.stamp, yielded := false, looks := if again then x.looks else [] }
  (if again then s else (s.chargeIssue o.wg).remoteClear (.scalar o.wg o.g o.split)).progress s.curCtx

/-- Fetch the instruction at the current split's PC (R25). -/
def State.fetchScalar (s : State) : Issued :=
  match s.entryRun with
  | .error s => .done s
  | .ok (s, _) =>
    match s.codeReady s.agent [(s.curPc.toNat, 4)] with
    | (s, false) => .done (s.wait (.remote 0))
    | (s, true) =>
      match s.codeRead s.agent false s.curPc.toNat 4 with
      | .error c => .done (s.raiseCond c true false)
      | .ok bs =>
        match decodeScalarBytes bs with
        | .error _ => .run s (.illegalEncoding false)
        | .ok i =>
          if s.scalarPoisoned i && !s.trapsFirst i then .done (s.poisonScalar (poisonTrap 0 false (1, s.curCore))) else .run s i

/-- A quarter's scalar turn. -/
def State.issueScalar (s : State) (core quarter : Nat) : Issued :=
  match s.pickScalar core quarter with
  | none => .done s
  | some o =>
    match (s.takeTurn o).fetchScalar with
    | .done s => .done s.settleCur
    | r => r

/-- The instruction of a queue entry (R28, R30, R83). -/
def LaneEntry.instr (e : LaneEntry) : Instr :=
  match e.item with
  | .word w _ =>
    match decodeLaneBytes (bytesOfNat 12 w) with
    | .ok i => i
    | .error _ => .illegalEncoding true
  | .setb _ _ => .setbEntry
  | .mset _ _ => .msetEntry
  | .openQ _ _ _ => .openEntry
  | .closeQ _ => .closeEntry

/-- The lane turn of a group is taken: its marks, and its charge, once for each lane instruction. -/
def State.takeLaneTurn (s : State) (w : WgIx) (g : GroupIx) (x : Group) (e : LaneEntry) : State :=
  let s := { s.tick with cur := ⟨w, g, 0, 0⟩ }
  let s := s.modCurGroup fun g => { g with lastLane := s.stamp, head := { g.head with issued := true } }
  if e.isWord && !x.head.issued then s.chargeIssue w else s

/-- A quarter's lane turn: the head of the chosen group's queue. -/
def State.issueLane (s : State) (core quarter : Nat) : Issued :=
  match s.pickLane core quarter with
  | none => .done s
  | some (w, g) =>
    match (s.group? w g).bind fun x => x.laneQ.head?.map fun e => (x, e) with
    | none => .done s
    | some (x, e) => .run (s.takeLaneTurn w g x e) e.instr

/-- A pseudo-channel's next micro-operation: the word of its run (R340). -/
def State.issueBank (s : State) (p : PcIx) : Issued :=
  match (s.pc p).run with
  | none => .done s
  | some r =>
    let s := { s with cur := ⟨0, 0, 0, p⟩ }
    match decodeBankBytes (bytesOfNat 4 (getVec (s.pc p).store r.word 0).toNat) with
    | .ok i => .run s i
    | .error _ => .run s .bstop

/-! The other moves. -/

/-- A flit as it goes on after a residence in a port, rounded up to whole microseconds (R411). -/
def Flit.age (us : Nat) : Flit → Flit
  | .request dev h p => .request dev { h with lifetime := h.lifetime - us } p
  | f => f

/-- Microseconds for which a flit has been in its port. -/
def State.residence (s : State) (since : Nat) : Nat := (s.time - since + 999) / 1000

/-- A flit leaves its port while its lifetime lasts. -/
def State.portSend (s : State) (port ix : Nat) : State :=
  match (s.fabric.port port)[ix]? with
  | none => s
  | some (f, life, since) =>
    if !s.fabric.portsUp || !s.portOpen port || life ≤ s.residence since then s
    else s.modFabric fun x => { x.dropFlit port ix with sent := x.sent ++ [f.age (s.residence since)] }

/-- A reach's TLB takes the translation of an address from its walkers, and a core of the reach takes it from there. A TLB that is
full drops its oldest (R370, log 12). -/
def State.tlbFill (s : State) (reach : Nat) (core : Option CoreIx) (ctx : BitVec 20) (va : Nat) : State :=
  if windowOf va != .ordinary then s
  else
    match tlbLookup (s.reach reach).tlb ctx va with
    | some l =>
      match core with
      | none => s
      | some c =>
        if reachOfCore c != reach || (tlbLookup (s.core c).tlb ctx va).isSome then s
        else s.modCore c fun x => { x with tlb := (⟨ctx, l⟩ :: x.tlb).take Config.l1Translations }
    | none =>
      match s.ctx? ctx with
      | none => s
      | some c =>
        match s.walk va levels c.pageRoot with
        | .error _ => s
        | .ok l => s.modReach reach fun r => { r with tlb := (⟨ctx, l⟩ :: r.tlb).take Config.l2Translations }

/-- A move of the caches, the fabric's ports or the headwater (log 11, 12, 33). -/
def State.applyMove (s : State) (m : Move) : State :=
  match m with
  | .codeFill core lane key =>
    if key % 32 != 0 || s.poison.contains key then s
    else
      let put (l : List Sector) (n : Nat) : List Sector := (⟨key, s.sectorBytes key, false⟩ :: l.filter fun x => x.key != key).take n
      s.modCore core fun c =>
        if lane then { c with laneCode := put c.laneCode Config.laneCodeSectors }
        else { c with scalarCode := put c.scalarCode Config.scalarCodeSectors }
  | .codeEvict core lane key =>
    let drop (l : List Sector) : List Sector := l.filter fun x => x.key != key
    s.modCore core fun c => if lane then { c with laneCode := drop c.laneCode } else { c with scalarCode := drop c.scalarCode }
  | .tlbFill reach core ctx va => s.tlbFill reach core ctx va
  | .tlbEvict reach core ctx base =>
    let drop (l : List TlbEntry) : List TlbEntry := l.filter fun e => !(e.ctx == ctx && e.leaf.base == base)
    match core with
    | none => s.modReach reach fun r => { r with tlb := drop r.tlb }
    | some c => s.modCore c fun x => { x with tlb := drop x.tlb }
  | .sendQueued => s.pump
  | .portSend port ix => s.portSend port ix
  | .readAhead w g q t => s.readAhead w g q t
  | .writeBehind w g ix => s.writeBehind w g ix
  | _ => s

/-- The regions that a step would have moved bytes for though a limit on their path is spent (R399). -/
def State.heldRegions (s t : State) : List Region :=
  s.regions.filter fun r =>
    ((t.region? r.ctx r.rcb).map fun y => decide (r.hbmUsed < y.hbmUsed)).getD false &&
      !((s.path r.ctx r.rcb).all fun x => limitRoom (x.own.hbm.map (· * 4096)) x.hbmUsed)

/-- An activity of a region is held, which the next boundary sees (R400). -/
def State.noteHeld (s : State) (which : Nat) (rs : List Region) : State :=
  { s with regions := s.regions.map fun r =>
      if rs.any fun x => x.ctx == r.ctx && x.rcb == r.rcb then { r with throttledNow := which :: r.throttledNow.filter (· != which) } else r }

/-- A step whose L2 misses or write-backs a spent hbm limit holds does not happen yet (R399, log 23). -/
def State.throttle (s t : State) : State :=
  match s.heldRegions t with
  | [] => t
  | rs => s.noteHeld 1 (rs.filter fun r => !rs.any fun x => x.ctx == r.ctx && x.parent == r.rcb)

/-- Take the next move of the agenda: its nanoseconds pass, and free values are drawn afresh. With an empty agenda one
nanosecond passes (log 1, 2, 3). -/
def State.nextMove (s : State) : State × Move :=
  match s.agenda with
  | [] => ({ s with time := s.time + 1, free := s.free + 1 }, .sendQueued)
  | (dt, m) :: rest => ({ s with agenda := rest, time := s.time + dt, free := s.free + 1 }, m)

/-- The rows that are no instruction word: what an event of the agenda may be. -/
def isEvent (i : Instr) : Bool :=
  (encode i).isNone && (match i with
    | .setbEntry | .msetEntry | .openEntry | .closeEntry | .illegalEncoding _ => false
    | _ => true)

/-! Placing one instruction where the next step takes it from (log 4). -/

/-- A context, its root region without limits, and a launch of one workgroup of one group, as a host would have loaded
them: code at 0, the trap queue of 16 entries at 0x10000, one page of 1 GiB. -/
def loadedCtx : Ctx :=
  { id := 1, rootRcb := 0x20000, pageRoot := 0x30000, origin := 0, viewTable := 0x40000, switchedOut := false, watchdogHeld := false,
    lastProgress := 0, quietPosted := false, pools := [], tierMisses := [], noFrames := [], tierCounts := [], exported := none }

def loadedRegion : Region :=
  { rcb := 0x20000, parent := 0, ctx := 1, nfd := true, trapQueue := 0x10000, inheritPriority := false, inheritMask := false,
    own := { priority := 0, cores := none, vault := none, issue := none, hbm := none, bank := none, fabric := none,
             mask := BitVec.allOnes 192 },
    issueUsed := 0, hbmUsed := 0, bankUsed := 0, fabricUsed := 0, heldHbm := 0, heldBank := 0, heldFabric := 0, throttledNow := [] }

def loadedLaunch : Launch :=
  { region := 0x20000, ctx := 1,
    record := bytesOfNat 8 0x20000 ++ bytesOfNat 4 1 ++ bytesOfNat 4 1 ++ bytesOfNat 4 1 ++ bytesOfNat 1 1 ++ bytesOfNat 1 0 ++
      bytesOfNat 2 256 ++ bytesOfNat 4 0x10000 ++ bytesOfNat 4 0 ++ bytesOfNat 8 0 ++ bytesOfNat 8 0x1000 ++ List.replicate 80 0,
    recordVa := 0, completion := 0, state := .running, accepted := 0, left := [], heldWrites := [], heldReads := [], skipReads := [],
    finished := 0 }

def loadedPage : TlbEntry := ⟨1, ⟨0, 2 ^ 30, .hbm, 0, true, true, false⟩⟩

def loadedGroup (laneQ : List LaneEntry) : Group :=
  { Group.start (BitVec.allOnes 64) 256 0 0 false 0 with laneQ := laneQ }

/-- The machine with a loaded program of one group. Nothing else competes for core 0. -/
def State.loaded (s : State) (laneQ : List LaneEntry) (m : Move) : State :=
  { s with
    agenda := (0, m) :: s.agenda
    contexts := [loadedCtx], regions := [loadedRegion], launches := [loadedLaunch]
    wgs := [Wg.start 0 0 0 0x10000 0 [loadedGroup laneQ]]
    pending := []
    reaches := modVec (fun r => { r with tlb := [loadedPage] }) s.reaches 0
    mem := s.mem.write 0x10000 16 }

/-- A run at word 0 of a pseudo-channel (log 4). -/
def loadedRun : Run :=
  { cmd := 0, member := 0, word := 0, p0 := 0, p1 := 0, c := 0, x := 0, v := 0, q := 0, stack := [], row := none,
    buffer := Vector.replicate 64 [], acc := Vector.replicate 64 (Vector.replicate 8 0), results := [], waits := none, wrote := [] }

/-- A word placed where the next step fetches it: scalar code at the PC of core 0's first group, a lane word at the head of
its lane queue, or, for a word that is a bank micro-operation only, word 0 of a pseudo-channel's store. -/
def State.placeWord (s : State) (nbits w : Nat) : State :=
  if nbits = 96 then
    s.loaded [{ item := .word w 0, tag := BitVec.allOnes 64, pc := 0, irb := none, stamp := 0 }] (.laneIssue 0 0)
  else
    match decodeScalarBytes (bytesOfNat 4 w), decodeBankBytes (bytesOfNat 4 w) with
    | .error _, .ok _ =>
      (s.loaded [] (.bankStep 0)).modPc 0 fun p =>
        { p with store := modVec (fun _ => BitVec.ofNat 32 w) p.store 0, run := some loadedRun }
    | _, _ =>
      let s := s.loaded [] (.issue 0 0)
      { s with mem := s.mem.writeRun 0 (bytesOfNat 4 w) }

end Sys2Proof.Machine
end

