-- ==== Sys2Proof/Machine/Atomic.lean ====
section
/-! DEFINITION. Read-modify-writes (R106, R107, R242, R261, R264) and the scalar stream's memory instructions: LDS, STS,
SATOM, SCAS (R104 to R108, R256). -/

namespace Sys2Proof.Machine

/-- The mode that a read-modify-write's float operation rounds in. -/
def rmwMode (r : Rmw) : Mode := ⟨r.mode, r.rand, r.ftz, false⟩

/-- The new value and the flags of a read-modify-write (R106, R261). -/
def rmwApply (r : Rmw) (old e : Nat) : Nat × Nat :=
  let w := tyBits r.ty
  let f := fmtOf r.ty
  let less := if tySigned r.ty then decide (signed w old ≤ signed w e) else decide (old % 2 ^ w ≤ e % 2 ^ w)
  match r.op with
  | .add => if tyFloat r.ty then f.add (rmwMode r) (f.input r.ftz old) (f.input r.ftz e) else ((old + e) % 2 ^ w, 0)
  | .min => if tyFloat r.ty then f.minNum false r.ftz old e else (if less then old else e, 0)
  | .max => if tyFloat r.ty then f.minNum true r.ftz old e else (if less then e else old, 0)
  | .and => (old &&& e, 0)
  | .or => (old ||| e, 0)
  | .xor => (old ^^^ e, 0)
  | .exch => (e, 0)

/-- The byte an atomic reads at its home. -/
def State.homeRef (s : State) (ag : Agent) : ByteRef → Byte
  | .whole p => s.homePlace ag p
  | r => s.readRef ag true r

/-- The old value at an access's bytes. -/
def State.homeNat (s : State) (ag : Agent) (rs : List ByteRef) : Nat := natOfBytes (rs.map (s.homeRef ag))

/-- One read-modify-write at its home (R242): the old value; what f gives is written, nothing where it gives none. The
issuing core's L1 sectors of the address are dropped (R264). -/
def State.rmwRefs (s : State) (ag : Agent) (rs : List ByteRef) (f : Nat → Option Nat) : State × Nat :=
  let old := s.homeNat ag rs
  let s := match f old with
    | some v => s.writeRefs ag rs (bytesOfNat rs.length v)
    | none => s
  (s.served ag 0 true rs, old)

/-- What an atomic request carries: a far view's element, or an owner address (R410). -/
def atomPayload (far : Bool) (rs : List ByteRef) (r : Rmw) (operand : Nat) : Payload :=
  if far then .vatomic ((peerElems 0 rs).map (·.elem)) (.rmw r [operand] [r.rand]) else .atom r operand
def casPayload (far : Bool) (rs : List ByteRef) (expected new : Nat) : Payload :=
  if far then .vatomic ((peerElems 0 rs).map (·.elem)) (.cas [expected] [new]) else .cas rs.length expected new

/-- The owner and the address of an access on one peer. -/
def peerOf (rs : List ByteRef) : Option (Nat × Nat) := (peerElems 0 rs).head?.map fun e => (e.dev, e.elem.addr)

/-! Scalar loads and stores. -/

def ldBytes : LdSize → Nat
  | .i8 | .n8 => 1 | .i16 | .n16 => 2 | .i32 | .n32 => 4 | .b64 => 8

/-- Extension of a loaded value (R67). -/
def ldExtend (size : LdSize) (v : Nat) : Word :=
  match size with
  | .i8 => sext64 8 v | .i16 => sext64 16 v | .i32 => sext64 32 v
  | _ => BitVec.ofNat 64 v

/-- A load; with .acq an acquire at .sys (R256). -/
def execLds (size : LdSize) (acq : Bool) (sd sa : SReg) (imm : BitVec 9) (s : State) : Host.Outcome State Fault Refusal :=
  match s.scalarRead (s.smAddr sa imm) (ldBytes size) acq acq with
  | .error t => .next t
  | .ok (t, bs) =>
    .next (((if acq then t.acquire t.curCore .sys else t).ws sd (ldExtend size (natOfBytes bs))).next4)

/-- A store; with .rel it waits as FENCE at group scope and is a release at .sys (R239, R256). -/
def execSts (size : StSize) (rel : Bool) (sd sa : SReg) (imm : BitVec 9) (s : State) : Host.Outcome State Fault Refusal :=
  if rel && s.fenceWaits then .next s.stall
  else
    let t := if rel then s.release s.curCore .sys else s
    match t.scalarWrite (s.smAddr sa imm) rel (bytesOfNat (stBytes size) (s.rs sd).toNat) with
    | .error t => .next t
    | .ok (t, _) => .next t.next4

/-! Scalar atomics. -/

/-- The 8-byte atomic of a split: its old value. Permission is checked before the read. pcie: it has an AtomicOp. -/
def State.scalarAtomic (s : State) (pcie : Bool) (va : Nat) (f : Nat → Option Nat) (p : Bool → List ByteRef → Payload) : Early Nat :=
  match s.scalarResolve { Acc.store 8 with strict := true } va with
  | .error s => .error s
  | .ok (s, r) =>
    if !pcie && s.pcieHost r.refs then .error (s.raiseCond ⟨.protection, va, false⟩ false true)
    else if r.refs.any s.refPoisoned then .error (s.poisonScalar (poisonTrap va true (s.poisonUnit s.curCore r.refs)))
    else
      match peerOf r.refs with
      | some (dev, addr) =>
        match s.scalarRemote va r true [(dev, addr, p r.far.isSome r.refs)] with
        | .error s => .error s
        | .ok (s, os) => .ok (s, natOfBytes ((os.head?.map Outcome.data).getD []))
      | none => .ok (s.rmwRefs s.agent r.refs f)

/-- Finish an atomic: an acquire under .ar, and sc receives the old value. -/
def atomicEnd (scope : Scope) (ar : Bool) (sc : SReg) (r : Early Nat) : Host.Outcome State Fault Refusal :=
  match r with
  | .error t => .next t
  | .ok (t, old) => .next (((if ar then t.acquire t.curCore scope else t).ws sc (BitVec.ofNat 64 old)).next4)

def execSatom (op : SAtomOp) (scope : Scope) (ar : Bool) (sa sb sc : SReg) (s : State) : Host.Outcome State Fault Refusal :=
  if ar && s.fenceWaits then .next s.stall
  else
    let t := if ar then s.release s.curCore scope else s
    let b := (s.rs sb).toNat
    atomicEnd scope ar sc
      (t.scalarAtomic (rmwPcie (satomRmw op)) (s.rs sa).toNat (fun old => some (rmwApply (satomRmw op) old b).1) fun far rs =>
        atomPayload far rs (satomRmw op) b)

def execScas (scope : Scope) (ar : Bool) (sa sb sc : SReg) (s : State) : Host.Outcome State Fault Refusal :=
  if ar && s.fenceWaits then .next s.stall
  else
    let t := if ar then s.release s.curCore scope else s
    let b := (s.rs sb).toNat
    let c := (s.rs sc).toNat
    atomicEnd scope ar sc
      (t.scalarAtomic true (s.rs sa).toNat (fun old => if old = b then some c else none) fun far rs => casPayload far rs b c)

end Sys2Proof.Machine
end

