-- ==== Sys2Proof/Machine/LaneMemory.lean ====
section
/-! DEFINITION. The lane instructions that address memory: loads, stores, prefetch, full/empty accesses, atomics, and the
images of the exact accumulator (R77, R141 to R145, R163, R164, R254 to R267). -/

namespace Sys2Proof.Machine

/-! Addresses and the common checks. -/

/-- The address of a lane (R77). -/
def laneAddr (o : MemOp) (g : Group) (i : Nat) : Nat :=
  let base := match o.base with | some b => (getVec g.b b.toNat 0).toNat | none => 0
  let index : Int := match o.index with | some v => (g.elem v.toNat i).toInt * 2 ^ o.scale.toNat | none => 0
  wrap 64 ((base : Int) + index + o.disp.toInt)

/-- A lane of the current group as an agent. The pieces of an image are numbered 64 k + lane. -/
def State.laneAgent (s : State) (i : Nat) : Agent :=
  { s.agent with lane := some (i % 64), issuer := .lane s.cur.wg s.cur.g (i % 64) }

/-- What a lane memory instruction asks for. -/
def memAcc (o : MemOp) (write : Bool) : Acc :=
  { n := tyBits o.ty / 8, write := write, strict := o.order != .rlx || o.fe, fe := o.fe, fetch := false, reporting := o.bit6,
    strong := !plainMem o }

def indexRegs (o : MemOp) : List Nat := match o.index with | some v => [v.toNat] | none => []
def baseRegs (o : MemOp) : List Nat := match o.base with | some b => [b.toNat] | none => []

/-- The checks of a lane memory instruction (R20, R83, R386), then its meaning on the active lanes: regs are the vector registers it
names besides its index. A poisoned guard, base or x is the whole instruction's; a lane's own registers are checked at the lane. -/
def State.runMem (s : State) (i : Instr) (o : MemOp) (regs bs : List Nat) (x : Bool) (f : Group → LaneMask → State) : State :=
  match s.curGroup with
  | none => s
  | some g =>
    let active := g.active o.guard
    if !i.wf || !g.allocated (regs ++ indexRegs o) then s.laneRaise .illegal
    else if g.guardPoisoned o.guard then s.lanePoison g.headTag 0 (poisonTrap 0 false (1, s.curCore))
    else if active != 0 && g.wholePoisoned [] (bs ++ baseRegs o) x then s.lanePoison active 0 (poisonTrap 0 false (1, s.curCore))
    else f g active

/-- The instruction has performed: its operations leave the table, poison of what it wrote ends, and it retires. -/
def State.memDone (s : State) (i : Instr) (active : LaneMask) (fl : Nat) : State :=
  (s.laneTake.modCurGroup fun g => g.unpoison i active).laneRetire i fl

/-! Resolving every lane, and the requests to peers. -/

/-- Each lane's access, resolved. -/
def State.laneResolve (s : State) (lanes : List Nat) (acc : Acc) (addr : Nat → Nat) : List (Nat × Look) :=
  lanes.map fun i => (i, s.resolve (s.laneAgent i) acc (addr i))

/-- The lanes' accesses as they were resolved when the instruction issued, where one of them awaits a peer (R219, R375). -/
def State.heldLooks (s : State) : Option (List (Nat × Look)) :=
  (s.curGroup.bind (·.head.looks)).map fun l => l.map fun x => (x.1, ⟨match x.2 with
    | .inl r => .ok r
    | .inr c => .error c, none⟩)

/-- Look up each lane's access, once the view unit has what they need; none until then. -/
def State.laneLooks (s : State) (lanes : List Nat) (acc : Acc) (addr : Nat → Nat) : State × Option (List (Nat × Look)) :=
  match s.heldLooks with
  | some l => (s, some (l.filter fun x => lanes.contains x.1))
  | none =>
    let r := lanes.foldl (fun (a : State × Bool) i =>
      let q := a.1.viewReady (s.laneAgent i) acc (addr i)
      (q.1, a.2 && q.2)) (s, true)
    (r.1, if r.2 then some (r.1.laneResolve lanes acc addr) else none)

/-- What comes of a resolved access before its bytes move: a lane whose index is poisoned has no address, and its data's poison
comes after every other condition (R355). -/
def State.lookGot (s : State) (write : Bool) (addr : Nat → Nat) (index data : List Nat) (x : Nat × Look) : Nat × LaneGot :=
  let poisoned (rs : List Nat) : Bool := (s.curGroup.map fun g => g.lanePoisoned rs (x.1 % 64)).getD false
  let own := LaneGot.cond (poisonTrap 0 write (1, s.curCore))
  (x.1, if poisoned index then own else match x.2.res with
    | .error c => .cond (c.toTrap false write)
    | .ok r =>
      if poisoned data then own
      else if !write && r.refs.any s.refPoisoned then .cond (poisonTrap (addr x.1) false (s.poisonUnit s.curCore r.refs))
      else .bytes [])

/-- What the accesses leave behind (R436, R437). -/
def State.noteLooks (s : State) (ls : List (Nat × Look)) : State :=
  ls.foldl (fun (s : State) x => s.noteAccess (s.laneAgent x.1) x.2) s

/-- What they leave behind when the instruction does not perform them. -/
def State.noteMisses (s : State) (ls : List (Nat × Look)) : State :=
  ls.foldl (fun (s : State) x => s.noteMiss (s.laneAgent x.1) x.2) s

/-- The instruction awaits a peer, and keeps what its lanes' accesses resolved to. -/
def State.laneHold (s : State) (ls : List (Nat × Look)) : State :=
  let keep : List (Nat × (Resolved ⊕ Cond)) := ls.map fun x => (x.1, match x.2.res with
    | .ok r => .inl r
    | .error c => .inr c)
  ((s.noteMisses ls).modCurGroup fun g => { g with head := { g.head with looks := some (g.head.looks.getD keep) } }).laneWait

def okLooks (ls : List (Nat × Look)) : List (Nat × Resolved) :=
  ls.filterMap fun x => match x.2.res with
    | .ok r => some (x.1, r)
    | .error _ => none

/-- Two lanes go out in one request: they use one far view (R409). -/
def sameRequest (a b : Resolved) : Bool :=
  a.far.isSome && a.far == b.far && (a.via.map (·.1)).head? == (b.via.map (·.1)).head?

/-- The lanes whose accesses go out together, in lane order (R37): neighbours of one far view, every other peer lane by itself. -/
def peerUnits : List (Nat × Resolved) → List (List (Nat × Resolved))
  | [] => []
  | x :: xs =>
    if !hasPeer x.2.refs then peerUnits xs
    else match peerUnits xs with
      | (y :: ys) :: us => if sameRequest x.2 y.2 then (x :: y :: ys) :: us else [x] :: (y :: ys) :: us
      | us => [x] :: us

def unitFar (u : List (Nat × Resolved)) : Bool := u.any fun x => x.2.far.isSome
def unitRefs (u : List (Nat × Resolved)) : List ByteRef := u.flatMap fun x => x.2.refs
def unitLane (u : List (Nat × Resolved)) : Nat := (u.head?.map (·.1)).getD 0

/-- The peer elements of a unit, lane by lane: no element takes bytes of two lanes. -/
def unitElems : Nat → List (Nat × Resolved) → List PeerElem
  | _, [] => []
  | p, x :: xs => peerElems p x.2.refs ++ unitElems (p + x.2.refs.length) xs

/-- The bytes of a unit, shared out to its lanes. -/
def shareBytes : List (Nat × Resolved) → List Byte → List (Nat × LaneGot)
  | [], _ => []
  | x :: xs, bs => (x.1, .bytes (bs.take x.2.refs.length)) :: shareBytes xs (bs.drop x.2.refs.length)

/-- Make a unit's requests: what each of its lanes has got. rs are the requests; fill gives its bytes from the answers. -/
def State.unitAsk (s : State) (write : Bool) (addr : Nat → Nat) (u : List (Nat × Resolved)) (rs : List RemoteReq)
    (fill : List (List Byte) → List Byte) : State × List (Nat × LaneGot) :=
  match s.remoteBatch (.lane s.cur.wg s.cur.g (unitLane u)) s.curCtx engineGroup rs with
  | (s, none) => (s, u.map fun x => (x.1, .wait))
  | (s, some os) =>
    match os.findSome? fun o => outcomeTrap 0 write o with
    | some t => (s, u.map fun x => (x.1, .cond { t with addr := addr x.1 }))
    | none => (s, shareBytes u (fill (os.map Outcome.data)))

/-- Ask for every unit of an access. -/
def State.askAll (s : State) (write : Bool) (addr : Nat → Nat) (us : List (List (Nat × Resolved)))
    (mk : List (Nat × Resolved) → List RemoteReq) (fill : State → List (Nat × Resolved) → List (List Byte) → List Byte) :
    State × List (Nat × LaneGot) :=
  us.foldl (fun (acc : State × List (Nat × LaneGot)) u =>
    let (s, r) := acc.1.unitAsk write addr u (mk u) (fill acc.1 u)
    (s, acc.2 ++ r)) (s, [])

/-- The lanes that a peer has answered (R424). -/
def answeredLanes (rs : List (Nat × Resolved)) (gs : List (Nat × LaneGot)) : LaneMask :=
  maskOf ((gs.filter fun x => (match x.2 with | .bytes _ => true | _ => false) &&
    rs.any fun y => y.1 == x.1 && hasPeer y.2.refs).map fun x => x.1 % 64)

/-! Loads (R141 to R143, R254, R259). -/

/-- The status word of a lane (R228). -/
def statusWord (r : Resolved) : Nat := r.kv.1 + r.kv.2 * 2 ^ 8

/-- The bytes of every lane, or what stands in their way. past: the reads look past L1. -/
def State.loadBytes (s : State) (past : Bool) (addr : Nat → Nat) (rs : List (Nat × Resolved)) : State × List (Nat × LaneGot) :=
  let s := rs.foldl (fun (s : State) x => s.replRefresh (s.laneAgent x.1) x.2.refs) s
  let read (s : State) (x : Nat × Resolved) : List Byte := s.readRefs (s.laneAgent x.1) past x.2.refs
  let (s, far) := s.askAll false addr (peerUnits rs) (fun u => peerLoads (unitFar u) (unitElems 0 u))
    fun s u as => peerFill (unitFar u) (unitElems 0 u) as (u.flatMap (read s))
  (s, (rs.filter fun x => !hasPeer x.2.refs).map (fun x => (x.1, LaneGot.bytes (read s x))) ++ far)

/-- What the lanes' reads leave in the caches. -/
def State.servedAll (s : State) (hint : Nat) (past : Bool) (rs : List (Nat × Resolved)) : State :=
  rs.foldl (fun (s : State) x => s.served (s.laneAgent x.1) hint past x.2.refs) s

def gotNat (gs : List (Nat × LaneGot)) (i : Nat) : Nat :=
  match gs.find? fun x => x.1 == i with
  | some (_, .bytes bs) => natOfBytes bs
  | _ => 0

/-- Write a loaded element into D in some lanes. -/
def loadWrite (o : MemOp) (lanes : LaneMask) (v : Nat → Nat) (g : Group) : Group :=
  g.setVector o.ty (tyBits o.ty) (vectorNo o.d) lanes v

def laneKv (rs : List (Nat × Resolved)) (i : Nat) : Elem :=
  BitVec.ofNat 32 (((rs.find? fun x => x.1 == i).map fun x => statusWord x.2).getD 0)

/-- A load looks past L1: an ordered one, and one with bypass (R217, R247). -/
def loadPast (o : MemOp) : Bool := o.order != .rlx || o.bypass

/-- A load that is not .fe. -/
def State.laneLoad (s : State) (i : Instr) (o : MemOp) (g : Group) (active : LaneMask) : State :=
  let addr := laneAddr o g
  match s.laneLooks (lanesOf active) (memAcc o false) addr with
  | (s, none) => s.laneWait
  | (s, some looks) =>
    match laneFailure 0 (looks.map (s.lookGot false addr (indexRegs o) [])) with
    | some e => (s.noteMisses looks).laneEnd e
    | none =>
      let rs := okLooks looks
      let (s, gs) := s.loadBytes (loadPast o) addr rs
      match laneFailure (answeredLanes rs gs) gs with
      | some .wait => s.laneHold looks
      | some e => (s.noteMisses looks).laneEnd e
      | none =>
        let s := (s.noteLooks looks).servedAll o.hint.toNat (loadPast o) rs
        let s := s.modCurGroup fun g =>
          let g := loadWrite o active (gotNat gs) g
          if o.bit6 then g.setReg (vectorNo o.e) active (laneKv rs) else g
        (if o.order == .acq && active != 0 then s.acquire s.curCore o.scope else s).memDone i active 0

/-! Stores (R143, R145). -/

/-- A store that is not .fe: nothing is written while a lane's access fails (log 56); lanes are written in ascending order, so that
the highest lane's bytes stay (R37). All its bytes are written in this one step (log 55). -/
def State.laneStore (s : State) (i : Instr) (o : MemOp) (g : Group) (active : LaneMask) : State :=
  let addr := laneAddr o g
  let n := tyBits o.ty / 8
  let data := fun l => bytesOfNat n (g.elemNat (tyBits o.ty) (vectorNo o.d) l)
  let s := if o.order == .rel && active != 0 then s.release s.curCore o.scope else s
  match s.laneLooks (lanesOf active) (memAcc o true) addr with
  | (s, none) => s.laneWait
  | (s, some looks) =>
    match laneFailure 0 (looks.map (s.lookGot true addr (indexRegs o) (operandRegs (tyBits o.ty) o.d))) with
    | some e => (s.noteMisses looks).laneEnd e
    | none =>
      let rs := okLooks looks
      let (s, gs) := s.askAll true addr (peerUnits rs)
        (fun u => peerStores (unitFar u) (unitElems 0 u) (u.flatMap fun x => data x.1)) fun _ _ _ => []
      match laneFailure (answeredLanes rs gs) gs with
      | some .wait => s.laneHold looks
      | some e => (s.noteMisses looks).laneEnd e
      | none =>
        (rs.foldl (fun (s : State) x => s.writeHinted (s.laneAgent x.1) o.hint.toNat x.2.refs (data x.1)) (s.noteLooks looks)).memDone
          i active 0

/-! Full/empty accesses (R213, R257, R258). -/

/-- The granule a full/empty access lies in. -/
def granuleOf (r : Resolved) : Option (WgIx × Nat) :=
  match r.refs.head? with
  | some (.whole (.vault w off)) => some (w, off / 16)
  | _ => none

def State.granuleFull (s : State) (g : WgIx × Nat) : Bool := ((s.wg? g.1).map fun x => x.full.contains g.2).getD false

/-- Set or clear a granule's bit; engine: an engine sets it (R196). -/
def State.setGranule (s : State) (g : WgIx × Nat) (b engine : Bool) : State :=
  let put (on : Bool) (l : List Nat) : List Nat :=
    if on then (if l.contains g.2 then l else insertSorted g.2 l) else l.filter (· != g.2)
  s.modWg g.1 fun x => { x with full := put b x.full, engineFull := put (b && engine) x.engineFull }

def State.setFull (s : State) (g : WgIx × Nat) (b : Bool) : State := s.setGranule g b false

/-- An engine set the granule full. -/
def State.engineSet (s : State) (g : WgIx × Nat) : Bool := ((s.wg? g.1).map fun x => x.engineFull.contains g.2).getD false

/-- The loads clear their granule under .rel and .ar. -/
def feClears (o : MemOp) : Bool := o.order == .rel || o.order == .ar

/-- One lane of a .fe instruction performs: the data, the bit, the order, and the performed mask. -/
def State.fePerform (s : State) (load : Bool) (o : MemOp) (g : Group) (l : Nat) (r : Resolved) (gr : WgIx × Nat) : State :=
  let releases := o.order == .rel || o.order == .ar
  let s := if releases then s.release s.curCore o.scope else s
  let n := tyBits o.ty / 8
  let engine := load && s.engineSet gr
  let s :=
    if load then
      let v := natOfBytes (s.readRefs (s.laneAgent l) true r.refs)
      let s := s.modCurGroup (loadWrite o (laneBit l) fun _ => v)
      if feClears o then s.setFull gr false else s
    else
      (s.writeRefs (s.laneAgent l) r.refs (bytesOfNat n (g.elemNat (tyBits o.ty) (vectorNo o.d) l))).setFull gr true
  let own := o.order == .acq || o.order == .ar
  let s := if own || engine then s.acquire s.curCore (widen engine (if own then o.scope else .grp)) else s
  (s.modCurGroup fun g => { g with head := { g.head with performed := g.head.performed ||| laneBit l } }).progress s.curCtx

/-- Whether a lane may perform now: its granule allows it, and no lower lane still waits on the same granule. -/
def State.feReady (s : State) (load : Bool) (rs : List (Nat × Resolved)) (x : Nat × Resolved) : Bool :=
  match granuleOf x.2 with
  | none => false
  | some gr => s.granuleFull gr == load && rs.all fun y => x.1 ≤ y.1 || granuleOf y.2 != some gr

/-- The lanes of a .fe instruction that have not performed. -/
def State.feWaiting (s : State) (g : Group) (o : MemOp) (active : LaneMask) (load : Bool) : List (Nat × Look) :=
  s.laneResolve (lanesOf (active &&& ~~~ g.head.performed)) (memAcc o (!load)) (laneAddr o g)

/-- When every active lane has performed, the instruction retires; else it waits. -/
def State.feEnd (s : State) (i : Instr) (active : LaneMask) : State :=
  match s.curGroup with
  | none => s
  | some g => if active &&& ~~~ g.head.performed = 0 then s.memDone i active 0 else s.laneWait

/-- Perform those lanes that may, in ascending order. A lane that performs may let a higher one on its granule follow. -/
def State.fePass (s : State) (load : Bool) (o : MemOp) (g : Group) : List (Nat × Resolved) → State
  | [] => s
  | x :: xs =>
    match granuleOf x.2 with
    | none => s.fePass load o g xs
    | some gr =>
      if s.granuleFull gr == load then (s.fePerform load o g x.1 x.2 gr).fePass load o g xs else s.fePass load o g xs

/-- A .fe load or store: a trap of any lane traps it before any lane waits. -/
def State.laneFe (s : State) (i : Instr) (o : MemOp) (load : Bool) (g : Group) (active : LaneMask) : State :=
  let looks := s.feWaiting g o active load
  match laneFailure g.head.performed (looks.map (s.lookGot (!load) (laneAddr o g) (indexRegs o)
      (if load then [] else operandRegs (tyBits o.ty) o.d))) with
  | some e => s.laneEnd e
  | none => (s.fePass load o g (okLooks looks)).feEnd i active

/-- The regs of the destination or data vector. -/
def dataRegs (o : MemOp) : List Nat := operandRegs (tyBits o.ty) o.d

def execVld (o : MemOp) (s : State) : Host.Outcome State Fault Refusal :=
  .next (s.runMem (.vld o) o (dataRegs o ++ (if o.bit6 then operandRegs 32 o.e else [])) [] false fun g active =>
    if o.fe then s.laneFe (.vld o) o true g active else s.laneLoad (.vld o) o g active)

def execVst (o : MemOp) (s : State) : Host.Outcome State Fault Refusal :=
  .next (s.runMem (.vst o) o (dataRegs o) [] false fun g active =>
    if o.fe then s.laneFe (.vst o) o false g active else s.laneStore (.vst o) o g active)

/-- A prefetch changes no register and no value; each lane's access that meets no condition is served as a load's under the hint,
and every other is dropped (R144). -/
def execVpref (o : MemOp) (s : State) : Host.Outcome State Fault Refusal :=
  .next (s.runMem (.vpref o) o [] [] false fun g active =>
    let rs := (okLooks (s.laneResolve (lanesOf active) (memAcc o false) (laneAddr o g))).filter fun x =>
      !x.2.refs.any s.refPoisoned && !g.lanePoisoned (indexRegs o) x.1
    (s.servedAll o.hint.toNat o.bypass rs).memDone (.vpref o) active 0)

/-- FE_LANE_PERFORM: one waiting lane of a .fe instruction performs (R257). -/
def execFeLanePerform (wg : WgIx) (g : GroupIx) (lane : Nat) (s : State) : Host.Outcome State Fault Refusal :=
  let s := { s with cur := ⟨wg, g, 0, 0⟩ }
  match s.curGroup with
  | none => .next s
  | some x =>
    match x.laneQ.head? with
    | some ⟨.word w _, _, _, _, _⟩ =>
      let go (i : Instr) (o : MemOp) (load : Bool) : State :=
        let active := x.active o.guard
        let rs := okLooks (s.feWaiting x o active load)
        match rs.find? fun y => y.1 == lane with
        | none => s
        | some y =>
          match granuleOf y.2 with
          | none => s
          | some gr => if s.feReady load rs y then (s.fePerform load o x lane y.2 gr).feEnd i active else s
      if !x.head.waiting || ((s.wg? wg).map fun y => y.state == .resident && !y.preempt).getD false == false then .next s
      else match laneInstr? w with
        | some (.vld o) => .next (if o.fe then go (.vld o) o true else s)
        | some (.vst o) => .next (if o.fe then go (.vst o) o false else s)
        | _ => .next s
    | _ => .next s

/-! Atomics (R260 to R267). -/

/-- A lane atomic: whether it returns the old value, the new value and the flags of a lane from its old value, and the mask
of .last; whether it has an AtomicOp (R431). -/
structure AtomForm where
  pcie : Bool
  ret : Bool
  new : Nat → Nat → Option Nat
  flags : Nat → Nat → Nat
  last : Option Nat

/-- A lane has performed: D, the .last bit, the performed mask and the flags gathered. -/
def State.atomDone (s : State) (o : MemOp) (k : AtomForm) (l old : Nat) : State :=
  s.modCurGroup fun g =>
    let g := if k.ret then g.setVector o.ty (tyBits o.ty) (vectorNo o.d) (laneBit l) fun _ => old else g
    let g := match k.last with
      | some m => g.setMask m (laneBit l) fun _ => k.new l old == some 0
      | none => g
    { g with head := { g.head with performed := g.head.performed ||| laneBit l,
                                   flags := g.head.flags ||| BitVec.ofNat 64 (k.flags l old) } }

/-- Every lane that meets no condition performs, in ascending order; what the others met. data: the vector registers it reads. -/
def State.atomLanes (s : State) (o : MemOp) (k : AtomForm) (addr : Nat → Nat) (data : List Nat) (answers : List (Nat × LaneGot)) :
    List (Nat × Look) → State × List (Nat × LaneGot)
  | [] => (s, [])
  | x :: xs =>
    let (s, got) : State × LaneGot := match s.lookGot true addr (indexRegs o) data x, x.2.res with
      | (_, .bytes _), .ok r =>
        if hasPeer r.refs then
          match answers.find? fun a => a.1 == x.1 with
          | some (_, .bytes bs) => (s.atomDone o k x.1 (natOfBytes bs), .bytes [])
          | some (_, g) => (s, g)
          | none => (s, .wait)
        else if r.refs.any s.refPoisoned then (s, .cond (poisonTrap (addr x.1) true (s.poisonUnit s.curCore r.refs)))
        else
          let (s, old) := s.rmwRefs (s.laneAgent x.1) r.refs (k.new x.1)
          (s.atomDone o k x.1 old, .bytes [])
      | (_, got), _ => (s, got)
    let (s, gs) := s.atomLanes o k addr data answers xs
    (s, (x.1, got) :: gs)

/-- The lanes whose operations may go to their peers. -/
def State.cleanLooks (s : State) (o : MemOp) (data : List Nat) (addr : Nat → Nat) (ls : List (Nat × Look)) : List (Nat × Look) :=
  ls.filter fun x => match (s.lookGot true addr (indexRegs o) data x).2 with
    | .bytes _ => true
    | _ => false

/-- A VRED's operations at peers go out, and nobody waits for them (R267). -/
def State.postReductions (s : State) (us : List (List (Nat × Resolved))) (payload : List (Nat × Resolved) → Payload) :
    State × List (Nat × LaneGot) :=
  let s := us.foldl (fun (s : State) u => match peerOf (unitRefs u) with
    | some (d, a) => s.remoteNew (.reduction s.cur.wg s.cur.g) s.curCtx engineGroup d a (payload u)
    | none => s) s
  (s.pump, us.flatten.map fun x => (x.1, .bytes []))

/-- A lane atomic on the lanes that have not performed (R264, R366). data: the vector registers it reads. -/
def State.laneAtomic (s : State) (i : Instr) (o : MemOp) (k : AtomForm) (data : List Nat) (payload : List (Nat × Resolved) → Payload)
    (g : Group) (active : LaneMask) : State :=
  let addr := laneAddr o g
  let s := if (o.order == .rel || o.order == .ar) && active != 0 then s.release s.curCore o.scope else s
  match s.laneLooks (lanesOf (active &&& ~~~ g.head.performed)) { memAcc o true with strict := true, strong := true } addr with
  | (s, none) => s.laneWait
  | (s, some looks) =>
    let looks := looks.map fun (x : Nat × Look) => (x.1, s.pcieLook k.pcie (addr x.1) x.2)
    let units := peerUnits (okLooks (s.cleanLooks o data addr looks))
    let (s, answers) :=
      if k.ret then s.askAll true addr units
        (fun u => match peerOf (unitRefs u) with
          | some (d, a) => [(d, a, payload u)]
          | none => []) fun _ _ as => as.flatten
      else s.postReductions units payload
    let (s, gs) := s.atomLanes o k addr data answers looks
    let performed := (s.curGroup.map (·.head.performed)).getD 0
    match laneFailure performed gs with
    | some .wait => s.laneHold looks
    | some e => (s.noteMisses looks).laneEnd e
    | none =>
      let s := s.noteLooks looks
      let s := if (o.order == .acq || o.order == .ar) && active != 0 then s.acquire s.curCore o.scope else s
      let fl := (s.curGroup.map (·.head.flags.toNat)).getD 0
      s.memDone i active (if k.ret then fl else 0)

/-- The operand of a lane: its element of D. -/
def atomOperand (o : MemOp) (g : Group) (l : Nat) : Nat := g.elemNat (tyBits o.ty) (vectorNo o.d) l

/-- The read-modify-write of a lane, with its own random bits. -/
def laneRmw (o : MemOp) (op : RmwOp) (g : Group) (l : Nat) : Rmw :=
  let md := g.mode o.rnd l 0
  ⟨op, o.ty, md.rnd, md.ftz, md.rand⟩

def opOfE (o : MemOp) : RmwOp := ((atomFields o.e).map (·.1)).getD .exch
def lastOfE (o : MemOp) : Nat := ((atomFields o.e).map (·.2)).getD 0

/-- The request of a unit of VATOM or VRED. -/
def rmwPayload (o : MemOp) (g : Group) (red : Bool) (u : List (Nat × Resolved)) : Payload :=
  let op := opOfE o
  if unitFar u then
    .vatomic ((unitElems 0 u).map (·.elem)) (.rmw (laneRmw o op g (unitLane u)) (u.map fun x => atomOperand o g x.1)
      (u.map fun x => (laneRmw o op g x.1).rand))
  else if red then .red (laneRmw o op g (unitLane u)) (atomOperand o g (unitLane u))
  else .atom (laneRmw o op g (unitLane u)) (atomOperand o g (unitLane u))

def execVatom (o : MemOp) (s : State) : Host.Outcome State Fault Refusal :=
  .next (s.runMem (.vatom o) o (dataRegs o) [] false fun g active =>
    s.laneAtomic (.vatom o) o
      { pcie := rmwPcie (laneRmw o (opOfE o) g 0), ret := true
        new := fun l old => some (rmwApply (laneRmw o (opOfE o) g l) old (atomOperand o g l)).1
        flags := fun l old => (rmwApply (laneRmw o (opOfE o) g l) old (atomOperand o g l)).2
        last := if o.bit6 then some (lastOfE o) else none } (dataRegs o) (rmwPayload o g false) g active)

/-- VRED returns nothing and sets no flag. -/
def execVred (o : MemOp) (s : State) : Host.Outcome State Fault Refusal :=
  .next (s.runMem (.vred o) o (dataRegs o) [] false fun g active =>
    s.laneAtomic (.vred o) o
      { pcie := rmwPcie (laneRmw o (opOfE o) g 0), ret := false
        new := fun l old => some (rmwApply (laneRmw o (opOfE o) g l) old (atomOperand o g l)).1
        flags := fun _ _ => 0, last := none } (dataRegs o) (rmwPayload o g true) g active)

/-- The new value of a VCAS lane: E, a vector, broadcast or immediate. -/
def casNew (o : MemOp) (g : Group) (l : Nat) : Nat :=
  match o.e with
  | .v r => g.elemNat (tyBits o.ty) r.toNat l
  | .b r => (getVec g.b r.toNat 0).toNat % 2 ^ tyBits o.ty
  | .imm n => immValue o.ty (tyBits o.ty) n
  | _ => 0

def casRequest (o : MemOp) (g : Group) (u : List (Nat × Resolved)) : Payload :=
  if unitFar u then
    .vatomic ((unitElems 0 u).map (·.elem)) (.cas (u.map fun x => atomOperand o g x.1) (u.map fun x => casNew o g x.1))
  else .cas (tyBits o.ty / 8) (atomOperand o g (unitLane u)) (casNew o g (unitLane u))

def execVcas (o : MemOp) (s : State) : Host.Outcome State Fault Refusal :=
  .next (s.runMem (.vcas o) o (dataRegs o ++ operandRegs (tyBits o.ty) o.e) (operandBs o.e) false fun g active =>
    s.laneAtomic (.vcas o) o
      { pcie := true, ret := true
        new := fun l old => if old = atomOperand o g l then some (casNew o g l) else none
        flags := fun _ _ => 0, last := none } (dataRegs o ++ operandRegs (tyBits o.ty) o.e) (casRequest o g) g active)

/-! Images of the exact accumulator (R59, R163, R164). -/

/-- The 288 bytes of an image. -/
def XAcc.image (x : XAcc) : List Byte :=
  bytesOfNat 272 x.n.toNat ++
    bytesOfNat 4 (boolNat x.nan + 2 * boolNat x.pinf + 4 * boolNat x.ninf + 8 * boolNat x.ovf) ++ bytesOfNat 12 0

/-- Add an image: N, the status bits, and NAN with IOP for a nonzero reserved bit (R57, R59). -/
def XAcc.addImage (x : XAcc) (bs : List Byte) : XAcc × Nat :=
  let status := recNat bs 0x110 4
  let bad := status / 16 != 0 || !allZero (recBytes bs 0x114 12)
  let (y, fl) := x.addInt (signed 2176 (recNat bs 0 272))
  ({ y with nan := y.nan || bit status 0 || bad, pinf := y.pinf || bit status 1, ninf := y.ninf || bit status 2,
            ovf := y.ovf || bit status 3 }, fl ||| (if bad then flIop else 0))

/-- The condition of an image's pieces: the first among theirs and a misaligned address (R355). A later piece's condition names the
piece's own address (log 79). -/
def imageCond (va : Nat) (ls : List (Nat × Look)) : Option Cond :=
  let mis : Option Cond := if va % 16 ≠ 0 then some ⟨.alignData, va, false⟩ else none
  ls.foldl (fun c x => match x.2.res with
    | .error e => firstCond c (some e)
    | .ok _ => c) mis

/-- The pieces of an image, numbered 64 k + lane. -/
def imagePieces (l : Nat) : List Nat := (List.range 18).map fun k => 64 * k + l

/-- A memory form of x, at the lowest active lane's address. -/
def State.imageOp (s : State) (i : Instr) (o : MemOp) (write : Bool)
    (f : State → List (Nat × Resolved) → (Nat → Nat) → State × List (Nat × LaneGot))
    (done : State → List (Nat × Resolved) → List (Nat × LaneGot) → State) (g : Group) (active : LaneMask) : State :=
  match lanesOf active with
  | [] => s.memDone i active 0
  | l :: _ =>
    let va := laneAddr o g l
    let addr := fun k => (va + 16 * (k / 64)) % 2 ^ 64
    if g.lanePoisoned (indexRegs o) l then s.lanePoison (laneBit l) 0 (poisonTrap 0 write (1, s.curCore))
    else
      match s.laneLooks (imagePieces l) (if write then Acc.store 16 else Acc.load 16) addr with
      | (s, none) => s.laneWait
      | (s, some looks) =>
        match imageCond va looks with
        | some c => (s.noteMisses looks).laneEnd (.fault (laneBit l) 0 (c.toTrap false write))
        | none =>
          let rs := okLooks looks
          if !write && rs.any fun x => x.2.refs.any s.refPoisoned then
            (s.noteMisses looks).lanePoison (laneBit l) 0 (poisonTrap va false (s.poisonUnit s.curCore (rs.flatMap fun x => x.2.refs)))
          else
            let (s, gs) := f s rs addr
            match laneFailure 0 gs with
            | some .wait => s.laneHold looks
            | some (.fault _ p t) => (s.noteMisses looks).laneEnd (.fault (laneBit l) p t)
            | some e => s.laneEnd e
            | none => done (s.noteLooks looks) rs gs

def execXst (o : MemOp) (s : State) : Host.Outcome State Fault Refusal :=
  .next (s.runMem (.xst o) o [] [] true fun g active =>
    let data := fun (k : Nat) => ((g.x.image).drop (16 * (k / 64))).take 16
    s.imageOp (.xst o) o true
      (fun s rs addr => s.askAll true addr (peerUnits rs)
        (fun u => peerStores (unitFar u) (unitElems 0 u) (u.flatMap fun x => data x.1)) fun _ _ _ => [])
      (fun s rs _ => (rs.foldl (fun (s : State) x => s.writeRefs (s.laneAgent x.1) x.2.refs (data x.1)) s).memDone (.xst o) active 0)
      g active)

def execXlda (o : MemOp) (s : State) : Host.Outcome State Fault Refusal :=
  .next (s.runMem (.xlda o) o [] [] true fun g active =>
    s.imageOp (.xlda o) o false (fun s rs addr => s.loadBytes false addr rs)
      (fun s rs gs =>
        let image := rs.flatMap fun x => match gs.find? fun y => y.1 == x.1 with
          | some (_, .bytes bs) => bs
          | _ => []
        let r := g.x.addImage image
        ((s.servedAll 0 false rs).modCurGroup fun g => { g with x := r.1 }).memDone (.xlda o) active r.2)
      g active)

end Sys2Proof.Machine
end

