-- ==== Sys2Proof/Machine/Records.lean ====
section
/-! DEFINITION. What the instructions that hand work to engines and to other groups share: reading an operand record
under the order of R355, the moves on behalf of a waiting split, and arrivals on barrier words (R191, R355). -/

namespace Sys2Proof.Machine

/-- A condition to be raised for one scalar access: the first under R355 of what its translation met and a misaligned
address. -/
def accessCond (va align : Nat) (l : Look) : Option Cond :=
  firstCond (match l.res with | .error c => some c | .ok _ => none)
    (if va % align = 0 then none else some ⟨.alignData, va, false⟩)

/-- A misaligned completion record raises ALIGN-DATA (R282). -/
def recordMisaligned (va : Nat) : Option Cond := if va % 16 = 0 then none else some ⟨.alignData, va, false⟩

/-- Read an operand record of n bytes, as LDS reads: its address must be a multiple of align, and that of the completion
record named beside it of 16. -/
def State.readRecord2 (s : State) (va n align completion : Nat) : Early (List Byte) :=
  match s.scalarLook (Acc.load n) va with
  | .error t => .error t
  | .ok (s, look) =>
    match firstCond (accessCond va align look) (recordMisaligned completion), look.res with
    | some c, _ => .error (s.raiseCond c false false)
    | none, .ok r => s.scalarBytes va false r
    | none, .error _ => .error s

/-- Read an operand record that names no completion record. -/
def State.readRecord (s : State) (va n align : Nat) : Early (List Byte) := s.readRecord2 va n align 0

/-- A step that acts for one split: it becomes the current one. -/
def State.at (s : State) (w : WgIx) (g : GroupIx) (k : SplitIx) : State := { s with cur := ⟨w, g, k, 0⟩ }

/-- A workgroup is resident and not marked for pre-emption, so that its waits can end (R197, R372). -/
def State.running (s : State) (w : WgIx) : Bool := ((s.wg? w).map fun x => x.state == .resident && !x.preempt).getD false

def State.wgState (s : State) (w : WgIx) : Option WgState := (s.wg? w).map (·.state)

/-- What a split waits for. -/
def State.curWait (s : State) : Option Wait :=
  if s.running s.cur.wg then
    s.curSplit.bind fun x => match x.status with
      | .waiting w => some w
      | _ => none
  else none

/-- A wait of the current split ends: the group settles, and its context has made progress (R170, R357, R382). -/
def State.wakeEnd (s : State) : Host.Outcome State Fault Refusal :=
  .next ((s.progress s.curCtx).modCurGroup Group.settle)

/-- A core has room for one more engine command (R281). -/
def State.commandRoom (s : State) : Bool := s.inFlight s.curCore < 1024

/-- A scope code of a record (R70). -/
def scopeOf : Nat → Option Scope
  | 0 => some .grp | 1 => some .wg | 2 => some .cl | 3 => some .die | 4 => some .dev | 5 => some .sys
  | _ => none

/-! Barrier words (R190 to R192). -/

def Wg.barrier (x : Wg) (n : Nat) : Barrier := getVec x.barriers n Barrier.zero

/-- Whether a count differs from the one that governs the phase: it sets BARX. -/
def Barrier.mismatch (b : Barrier) (c : Nat) : Bool := b.expected != 0 && c != b.expected

/-- One arrival on a word. -/
def Barrier.arrive (b : Barrier) (c : Nat) : Barrier :=
  let expected := if b.expected = 0 then c else b.expected
  if b.arrived + 1 = expected then { b with phase := b.phase + 1, expected := 0, arrived := 0 }
  else { b with expected := expected, arrived := b.arrived + 1 }

/-- A token is passed. -/
def Barrier.passed (b : Barrier) (token : BitVec 32) : Bool :=
  let d := (b.phase - token).toNat
  1 ≤ d && d < 2 ^ 31

def State.barrier (s : State) (w : WgIx) (n : Nat) : Barrier := ((s.wg? w).map (·.barrier n)).getD Barrier.zero

/-- An arrival on a workgroup's barrier word: the token is the phase before it. A count that differs sets BARX in the workgroup that
holds the word, whoever arrives (R191, log 83). -/
def State.arriveAt (s : State) (w : WgIx) (n c : Nat) : State × BitVec 32 :=
  let b := s.barrier w n
  let s := if b.mismatch c then s.setWgerr w wgerrBarx else s
  (s.modWg w fun x => { x with barriers := modVec (fun b => b.arrive c) x.barriers n }, b.phase)

/-- An engine's arrival: who waits on the word sees what the engine wrote (R196). -/
def State.engineArrive (s : State) (w : WgIx) (n c : Nat) : State :=
  (s.arriveAt w n c).1.modWg w fun x => { x with barriers := modVec (fun b => { b with engine := true }) x.barriers n }

end Sys2Proof.Machine
end

