-- ==== Sys2Proof/Machine/Elements.lean ====
section
/-! DEFINITION. What the engines compute on elements: the conv mapping (R313), the reductions of CPYR and RCHUNK (R299,
R426, R427), and what an engine's accesses come to as a status (R283, R303, R424). -/

namespace Sys2Proof.Machine

/-! The conv shape record (R313). -/

structure Conv where
  h : Nat
  w : Nat
  c : Nat
  n : Nat
  r : Nat
  s : Nat
  sh : Nat
  sw : Nat
  dh : Nat
  dw : Nat
  pt : Nat
  pl : Nat
  oh : Nat
  ow : Nat
  o0 : Nat
  k0 : Nat
  pad : Nat
  deriving DecidableEq, Repr

def parseConv (b : List Byte) : Conv :=
  { n := recNat b 0x00 4, h := recNat b 0x04 4, w := recNat b 0x08 4, c := recNat b 0x0C 4,
    r := recNat b 0x10 2, s := recNat b 0x12 2, sh := recNat b 0x14 2, sw := recNat b 0x16 2,
    dh := recNat b 0x18 2, dw := recNat b 0x1A 2, pt := recNat b 0x1C 2, pl := recNat b 0x1E 2,
    oh := recNat b 0x20 4, ow := recNat b 0x24 4, o0 := recNat b 0x28 4, k0 := recNat b 0x2C 4, pad := recNat b 0x30 8 }

/-- A malformed conv shape record, for elements of eb bytes. -/
def convMalformed (b : List Byte) (eb : Nat) : Bool :=
  let c := parseConv b
  [c.n, c.h, c.w, c.c, c.r, c.s, c.sh, c.sw, c.dh, c.dw, c.oh, c.ow].any (· == 0) || recNat b 0x38 8 != 0 || 2 ^ (8 * eb) ≤ c.pad

/-- The element number of the base tensor that slot row r and element k take, or none for padding. -/
def Conv.element (c : Conv) (row k : Nat) : Option Nat :=
  let o := c.o0 + row
  let kk := c.k0 + k
  let n := o / (c.oh * c.ow)
  let oh := o / c.ow % c.oh
  let ow := o % c.ow
  let tap := kk / c.c
  let ih : Int := (oh * c.sh + tap / c.s * c.dh : Nat) - (c.pt : Int)
  let iw : Int := (ow * c.sw + tap % c.s * c.dw : Nat) - (c.pl : Int)
  if o < c.n * c.oh * c.ow ∧ kk < c.r * c.s * c.c ∧ 0 ≤ ih ∧ ih < c.h ∧ 0 ≤ iw ∧ iw < c.w then
    some (((n * c.h + ih.toNat) * c.w + iw.toNat) * c.c + kk % c.c)
  else none

/-! Reductions (R294, R299). -/

structure Reduce where
  ty : ElemTy
  op : Nat
  exact : Bool
  csum : Bool
  ximg : Bool
  deriving DecidableEq, Repr

/-- The reduce word, where its type is one of those a reduction takes (R296). -/
def parseReduce (w : Nat) : Option Reduce :=
  match tyOfCode (fld w 2 5) with
  | some ty =>
    if (tyInt ty || tyFloat ty) && fld w 0 2 != 3 && fld w 10 22 == 0 then some ⟨ty, fld w 0 2, bit w 7, bit w 8, bit w 9⟩
    else none
  | none => none

/-- Bytes of a destination element: an image of R59 under XIMG. -/
def Reduce.bytes (r : Reduce) : Nat := if r.ximg then 288 else tyBits r.ty / 8

/-- The exact value of an image. -/
def imageValue (bs : List Byte) : XAcc := (XAcc.zero.addImage bs).1

/-- Contributions added exactly. -/
def Reduce.exactSum (r : Reduce) (x : XAcc) (vs : List Nat) : XAcc := (x.addAll (vs.map (fmtOf r.ty).decode)).1

/-- The read-modify-write of one contribution without EXACT: no FTZ, round to nearest even (R299). -/
def Reduce.rmw (r : Reduce) : Rmw := ⟨if r.op = 0 then .add else if r.op = 1 then .min else .max, r.ty, .rne, false, 0⟩

/-- A destination element after its contributions, in order. With EXACT the total is exact and rounded once; EXACT asks
for the sum whatever the op (log 34). -/
def Reduce.combine (r : Reduce) (old : List Byte) (vs : List Nat) : List Byte :=
  if r.ximg then (r.exactSum (imageValue old) vs).image
  else
    let f := fmtOf r.ty
    let n := tyBits r.ty / 8
    if r.exact then
      bytesOfNat n ((r.exactSum XAcc.zero (natOfBytes old :: vs)).round f Mode.rne).1
    else bytesOfNat n (vs.foldl (fun o v => (rmwApply r.rmw o v).1) (natOfBytes old))

/-- The exact value of a destination element, for the check of R427. -/
def Reduce.value (r : Reduce) (bs : List Byte) : XAcc :=
  if r.ximg then imageValue bs else r.exactSum XAcc.zero [natOfBytes bs]

/-- The sum of two exact values: N added, the status bits ORed (R427). -/
def XAcc.plus (x y : XAcc) : XAcc := (x.addImage y.image).1

/-! What an engine's access comes to (R282, R303, R424). -/

/-- The status and fault code of a command whose access failed. -/
def trapStatus (t : Trap) : Nat × Nat :=
  match t.cls with
  | .poison => (stPoison, classCode .poison)
  | .remote =>
    if t.detail = stIndeterminate then (stIndeterminate, 0)
    else if t.detail = stChecksum then (stChecksum, 0)
    else (stFault, classCode .remote)
  | c => (stFault, classCode c)

def LaneGot.status : LaneGot → Nat × Nat
  | .cond t => trapStatus t
  | _ => (stOk, 0)

/-- Some access still awaits an answer. -/
def LaneGot.waits : LaneGot → Bool
  | .wait => true
  | _ => false

def LaneGot.failed : LaneGot → Bool
  | .cond _ => true
  | _ => false

def LaneGot.data : LaneGot → List Byte
  | .bytes bs => bs
  | _ => []

/-- The granules of vault bytes. -/
def granulesOf (rs : List ByteRef) : List (WgIx × Nat) :=
  ((placesOf rs).filterMap fun p => match p with
    | .vault w off => some (w, off / 16)
    | _ => none).eraseDups

/-- Set granules full, as an engine does after its writes (R196, R302). -/
def State.setAllFull (s : State) (gs : List (WgIx × Nat)) : State := gs.foldl (fun (s : State) g => s.setGranule g true true) s

/-- A workgroup is resident. -/
def State.resident (s : State) (w : WgIx) : Bool := s.wgState w == some .resident

end Sys2Proof.Machine
end

