-- ==== Sys2Proof/Machine/Slots.lean ====
section
/-! DEFINITION. Operand slots: OCLAIM, OREL, OPLD, the operand loader, and when a slot is free again (R305 to R314). -/

namespace Sys2Proof.Machine

/-! Matrix formats (R305). -/

def matBits : Nat → Nat
  | 0 => 64 | 1 => 32 | 2 | 3 => 16 | 4 | 5 | 9 | 11 => 8 | 6 | 7 => 6 | _ => 4

/-- Elements of a slot row. -/
def matK : Nat → Nat
  | 0 => 16 | 1 => 32 | 2 | 3 => 64 | 8 | 10 | 12 => 256 | _ => 128

/-- Bytes of a slot row that the elements occupy. -/
def matRowBytes (f : Nat) : Nat := matK f * matBits f / 8

/-- MX formats, and AQ formats. -/
def matMx (f : Nat) : Bool := 4 ≤ f && f ≤ 8
def matAq (f : Nat) : Bool := f == 11 || f == 12

/-- A group length code. -/
def groupLength (code : Nat) : Nat := 32 * 2 ^ code

/-! Claiming (R307). -/

def State.slot (s : State) (core slot : Nat) : Slot := getVec (s.core core).slots slot Slot.reset
def State.modSlot (s : State) (core slot : Nat) (f : Slot → Slot) : State :=
  s.modCore core fun c => { c with slots := modVec f c.slots slot }

/-- The lowest run of n consecutive FREE slots. -/
def Core.freeRun (c : Core) (n : Nat) : Option Nat :=
  (List.range (33 - n)).find? fun k => (List.range n).all fun i => (getVec c.slots (k + i) Slot.reset).state == .free

/-- A claimed slot: empty and zero. -/
def Slot.claimed (w : WgIx) : Slot := { Slot.reset with state := .claimed, owner := w }

def State.claim (s : State) (core : CoreIx) (w : WgIx) (first n : Nat) : State :=
  (List.range n).foldl (fun (s : State) i => s.modSlot core (first + i) fun _ => Slot.claimed w) s

/-- A waiting OCLAIM: its split, count, result register and when it began to wait. -/
structure ClaimWait where
  wg : WgIx
  g : GroupIx
  split : SplitIx
  count : Nat
  sa : SReg
  since : Nat
  deriving DecidableEq, Repr

/-- The OCLAIMs that wait on a core. -/
def State.claimWaits (s : State) (core : CoreIx) : List ClaimWait :=
  s.wgs.zipIdx.flatMap fun (x : Wg × Nat) =>
    if x.1.state = .resident ∧ x.1.core = core ∧ !x.1.preempt then
      x.1.groups.zipIdx.flatMap fun y => splitIxs.filterMap fun k =>
        (y.1.split k).bind fun z => match z.status with
          | .waiting (.oclaim n sa since) => some ⟨x.2, y.2, k, n, sa, since⟩
          | _ => none
    else []

/-- Put waits in the order in which they began. -/
def claimOrder : Nat → List ClaimWait → List ClaimWait
  | 0, _ => []
  | n + 1, l => match least (fun a b => a.since < b.since) l with
    | some a => a :: claimOrder n (l.filter (· != a))
    | none => []

/-- Serve one waiter if its run is there. -/
def State.serveClaim (s : State) (core : CoreIx) (x : ClaimWait) : State :=
  match (s.core core).freeRun x.count with
  | none => s
  | some first =>
    let cur := s.cur
    let s := ((s.claim core x.wg first x.count).at x.wg x.g x.split)
    let s := ((s.ws x.sa (BitVec.ofNat 64 first)).next4.progress (s.ctxOf x.wg)).modCurGroup Group.settle
    { s with cur := cur }

/-- Consider the waiters of a core in the order in which they began to wait. -/
def State.serveClaims (s : State) (core : CoreIx) : State :=
  let ws := s.claimWaits core
  (claimOrder ws.length ws).foldl (fun (s : State) x => s.serveClaim core x) s

def execOclaim (count1 : BitVec 2) (sa : SReg) (s : State) : Host.Outcome State Fault Refusal :=
  let n := count1.toNat + 1
  let s := s.serveClaims s.curCore
  match (s.core s.curCore).freeRun n with
  | some first => .next ((s.claim s.curCore s.cur.wg first n).ws sa (BitVec.ofNat 64 first)).next4
  | none => .next (s.wait (.oclaim n sa s.stamp))

/-- OCLAIM_GRANT: the waiters whose runs have become free are served. -/
def execOclaimGrant (core : CoreIx) (s : State) : Host.Outcome State Fault Refusal := .next (s.serveClaims core)

/-- A slot that a workgroup holds as CLAIMED. -/
def State.holds (s : State) (core : CoreIx) (w : WgIx) (slot : Nat) : Bool :=
  slot < 32 && (s.slot core slot).state == .claimed && (s.slot core slot).owner == w

/-- OREL (R308). -/
def execOrel (sa : SReg) (s : State) : Host.Outcome State Fault Refusal :=
  let n := (s.rs sa).toNat
  if !s.holds s.curCore s.cur.wg n then .next (s.trap (Trap.plain .slot))
  else .next (s.modSlot s.curCore n fun x => { x with state := .releasing, released := s.stamp }).next4

/-- SLOT_FREE: a RELEASING slot whose MMAs and loads have completed is FREE (R308). -/
def execSlotFree (core : CoreIx) (slot : Nat) (s : State) : Host.Outcome State Fault Refusal := .next (s.freeReleased core slot)

/-! The tile record (R310). -/

def tlAddr (r : List Byte) : Nat := recNat r 0x00 8
def tlStride (r : List Byte) : Int := signed 64 (recNat r 0x08 8)
def tlControl (r : List Byte) : Nat := recNat r 0x10 4
def tlSide (r : List Byte) : Nat := recNat r 0x18 8
def tlSideStride (r : List Byte) : Int := signed 64 (recNat r 0x20 8)
def tlConv (r : List Byte) : Nat := recNat r 0x28 8
def tlStatus (r : List Byte) : Nat := recNat r 0x30 8
def tlFmt (r : List Byte) : Nat := fld (tlControl r) 0 6
def tlRows (r : List Byte) : Nat := fld (tlControl r) 6 6 + 1
def tlScopeCode (r : List Byte) : Nat := fld (tlControl r) 12 3
def tlGlen (r : List Byte) : Nat := fld (tlControl r) 15 2
def tlPack (r : List Byte) : Nat := fld (tlControl r) 17 2
def tlHint (r : List Byte) : Nat := fld (tlControl r) 19 3

def isSegment : OpldKind → Bool
  | .segr | .segc => true
  | _ => false

/-- A malformed tile record, but for a conv record's own malformation. -/
def tileMalformed (kind : OpldKind) (r : List Byte) : Bool :=
  let f := tlFmt r
  fld (tlControl r) 22 10 != 0 || recNat r 0x14 4 != 0 || recNat r 0x38 8 != 0 || 12 < f || tlPack r == 3 || tlGlen r == 3 ||
    (isSegment kind && (f != 0 || tlPack r != 0 || tlGlen r != 0)) || (tlPack r != 0 && !matMx f && !matAq f) ||
    (tlGlen r != 0 && !matAq f) || 6 ≤ tlScopeCode r || tlStatus r % 16 != 0 ||
    (kind == .conv && (matBits f < 8 || tlPack r != 0 || tlConv r % 64 != 0))

/-! The rows of a load (R311 to R314). -/

/-- Where the bytes of an access go: to the row, to the side store, or nowhere. -/
inductive PartEnd where
  | row | side | nowhere
  deriving DecidableEq, Repr

/-- Bytes of a row that one access reads: address, count, and where they go. -/
structure RowPart where
  va : Nat
  n : Nat
  into : PartEnd
  deriving DecidableEq, Repr

/-- The interleaved form: for each MX block its scale byte and elements; for each AQ group the scale, which is discarded, the zero
point, the reserved byte and the codes (R45, R47, R311). -/
def interleavedParts (f glen base : Nat) : List RowPart :=
  let at_ (n : Nat) : Nat := (base + n) % 2 ^ 64
  if matMx f then
    let data := 32 * matBits f / 8
    (List.range (matK f / 32)).flatMap fun t => [⟨at_ (t * (1 + data)), 1, .side⟩, ⟨at_ (t * (1 + data) + 1), data, .row⟩]
  else
    let data := groupLength glen * matBits f / 8
    (List.range (matK f / groupLength glen)).flatMap fun t =>
      let b := t * (4 + data)
      [⟨at_ b, 2, .nowhere⟩, ⟨at_ (b + 2), 1, .side⟩, ⟨at_ (b + 3), 1, .nowhere⟩, ⟨at_ (b + 4), data, .row⟩]

/-- The accesses of row r of a plain or segment load. -/
def rowParts (kind : OpldKind) (r : List Byte) (row : Nat) : List RowPart :=
  let f := tlFmt r
  let base := wrap 64 ((tlAddr r : Int) + row * tlStride r)
  let side := wrap 64 ((tlSide r : Int) + row * tlSideStride r)
  if isSegment kind then [⟨base, 2, .row⟩, ⟨side, 4, .side⟩]
  else if tlPack r = 1 then interleavedParts f (tlGlen r) base
  else if tlPack r = 2 then
    [⟨base, matRowBytes f, .row⟩, ⟨side, matK f / (if matMx f then 32 else groupLength (tlGlen r)), .side⟩]
  else [⟨base, matRowBytes f, .row⟩]

/-- A row of a conv load: each element's access, or the padding element (R313). -/
def convRow (c : Conv) (base eb row : Nat) : Nat → List (RowPart ⊕ List Byte)
  | 0 => []
  | k + 1 => convRow c base eb row k ++ [match c.element row k with
    | some e => .inl ⟨(base + e * eb) % 2 ^ 64, eb, .row⟩
    | none => .inr (bytesOfNat eb c.pad)]

/-- The accesses and constants of a row, in order. -/
def loadParts (kind : OpldKind) (r conv : List Byte) (row : Nat) : List (RowPart ⊕ List Byte) :=
  if kind = .conv then convRow (parseConv conv) (tlAddr r) (matBits (tlFmt r) / 8) row (matK (tlFmt r))
  else (rowParts kind r row).map .inl

/-- A row as it is being translated, or its first fault. -/
abbrev RowState := Except (State × Cond) (LoadRow × State)

def LoadRow.empty : LoadRow := ⟨true, 0, false, [], [], [], [], []⟩

/-- Add the places of one access. A status other than RESIDENT makes the row's bytes zero (R314). -/
def LoadRow.add (x : LoadRow) (into : PartEnd) (pages : List (Nat × Nat)) (r : Resolved) : LoadRow :=
  let bs := r.refs.map Sum.inl
  { x with resident := x.resident && r.kv.1 == 0, status := if x.resident && (x.status = 0 || r.kv.1 != 0) then r.kv.1 + r.kv.2 * 2 ^ 8 else x.status
           gather := x.gather || r.gathers, via := x.via ++ r.via, vas := x.vas ++ pages
           data := if into = .row then x.data ++ bs else x.data
           side := if into = .side then x.side ++ bs else x.side
           dropped := if into = .nowhere then x.dropped ++ r.refs else x.dropped }

/-- Resolve one access of a row. A .fe load's source lies in the vault window (R314). -/
def State.rowAccess (s : State) (fe reporting : Bool) (p : RowPart) (x : LoadRow) : RowState :=
  if fe && windowOf p.va != .vault then .error (s, ⟨.address, p.va, false⟩)
  else
    let look := s.resolve s.agent { Acc.load p.n with reporting := reporting } p.va
    match look.res with
    | .error c => .error (s.noteMiss s.agent look, c)
    | .ok r =>
      let pages := ((r.bases ++ [(p.va + p.n - 1) % 2 ^ 64]).filter fun a => windowOf a == Window.ordinary).map (s.pageOf s.agent)
      .ok (x.add p.into pages.eraseDups r, s.noteAccess s.agent look)

/-- The accesses of a row, in order. -/
def State.rowAccesses (s : State) (fe reporting : Bool) : List (RowPart ⊕ List Byte) → LoadRow → RowState
  | [], x => .ok (x, s)
  | .inr bs :: ps, x => s.rowAccesses fe reporting ps { x with data := x.data ++ bs.map Sum.inr }
  | .inl p :: ps, x => match s.rowAccess fe reporting p x with
    | .error c => .error c
    | .ok (x, s) => s.rowAccesses fe reporting ps x

/-- The descriptor of the view that an address lies in. -/
def State.viewAt (s : State) (va : Nat) : Option Desc :=
  if windowOf va != .view then none
  else match s.descOf s.agent va (fld va 40 16) with
    | .ok d => some d
    | .error _ => none

/-- A tile record with MX blocks in pack 1 or 2 marks its surface coupled, unless a view marks it split (R250). -/
def State.recordCouples (s : State) (r : List Byte) (row : Nat) : Bool :=
  matMx (tlFmt r) && tlPack r != 0 &&
    !((s.viewAt (wrap 64 ((tlAddr r : Int) + row * tlStride r))).map fun d => d.mxw != 0 && d.splitMx).getD false

/-- A row of a segment load through a KVMAP view: the identifier that the entry places for the element's position, and the
position, unless a side array gives it (R312). -/
def State.kvSegRow (s : State) (fe reporting : Bool) (r : List Byte) (row : Nat) : RowState :=
  let va := wrap 64 ((tlAddr r : Int) + row * tlStride r)
  if fe then .error (s, ⟨.address, va, false⟩)
  else
    let look := s.resolve s.agent { Acc.load 1 with reporting := reporting } va
    match look.res with
    | .error c => .error (s.noteMiss s.agent look, c)
    | .ok x =>
      let s := s.noteAccess s.agent look
      let y := LoadRow.empty.add .row [] x
      if !y.resident then .ok ({ y with data := [] }, s)
      else match x.seg with
        | none => .error (s, ⟨.page, va, false⟩)
        | some (a, b) =>
          let y := { y with data := [.inl (.whole a), .inl (.whole b)], side := (bytesOfNat 4 x.pos).map Sum.inr }
          if tlSide r = 0 then .ok (y, s)
          else s.rowAccess fe reporting ⟨wrap 64 ((tlSide r : Int) + row * tlSideStride r), 4, .side⟩ { y with side := [] }

/-- Translate one row. -/
def State.loadRow (s : State) (kind : OpldKind) (fe : Bool) (r conv : List Byte) (row : Nat) : RowState :=
  let reporting := tlStatus r != 0
  let kv := (s.viewAt (wrap 64 ((tlAddr r : Int) + row * tlStride r))).any fun d => d.kind == some .kvmap
  if isSegment kind && kv then s.kvSegRow fe reporting r row
  else s.rowAccesses fe reporting (loadParts kind r conv row) { LoadRow.empty with gather := s.recordCouples r row }

/-- Translate every row, lowest first. -/
def State.loadRows (s : State) (kind : OpldKind) (fe : Bool) (r conv : List Byte) : Nat → Except (State × Cond) (List LoadRow × State)
  | 0 => .ok ([], s)
  | n + 1 =>
    match s.loadRows kind fe r conv n with
    | .error c => .error c
    | .ok (xs, s) => match s.loadRow kind fe r conv n with
      | .error c => .error c
      | .ok (x, s) => .ok (xs ++ [x], s)

/-- The view unit has what the rows of a load need. -/
def State.rowsReady (s : State) (kind : OpldKind) (r conv : List Byte) : State × Bool :=
  ((List.range (tlRows r)).flatMap (loadParts kind r conv)).foldl (fun (acc : State × Bool) p => match p with
    | .inr _ => acc
    | .inl p =>
      let x := acc.1.viewReady acc.1.agent (Acc.load p.n) p.va
      (x.1, acc.2 && x.2)) (s, true)

/-- The places of the status array, checked for writing (R309). -/
def State.statusArray (s : State) (r : List Byte) : Except Cond (List ByteRef) :=
  let va := tlStatus r
  if va = 0 then .ok []
  else if windowOf va != .ordinary && windowOf va != .vault then .error ⟨.address, va, false⟩
  else s.resolveFlat s.agent (Acc.store (4 * tlRows r)) va

/-- The places among a row's bytes. -/
def partRefs (bs : List (ByteRef ⊕ Byte)) : List ByteRef :=
  bs.filterMap fun b => match b with
    | .inl r => some r
    | .inr _ => none

def LoadRow.refs (x : LoadRow) : List ByteRef := partRefs x.data ++ partRefs x.side ++ x.dropped

/-- Issue a load: its fill state is EMPTY until it has finished (R309). -/
def State.issueLoad (s : State) (slot : Nat) (kind : OpldKind) (fe : Bool) (r : List Byte) (rows : List LoadRow) (st : List ByteRef) : State :=
  let load : Load :=
    { num := s.stamp, kind := kind, hint := tlHint r, rows := rows, status := st, fe := fe
      statusVas := if st.isEmpty || windowOf (tlStatus r) != .ordinary then []
        else [tlStatus r, tlStatus r + 4 * tlRows r - 1].map (s.pageOf s.agent)
      granules := if fe then granulesOf (rows.flatMap LoadRow.refs) else []
      scope := (scopeOf (tlScopeCode r)).getD .grp, wg := s.cur.wg, group := s.cur.g
      via := (rows.flatMap (·.via)).eraseDups }
  let x := s.modSlot s.curCore slot fun x =>
    if isSegment kind then { x with loads := x.loads ++ [load], lastSeg := load.num, d := { x.d with segFull := false } }
    else { x with loads := x.loads ++ [load], lastData := load.num, d := { x.d with dataFull := false } }
  x.tick

/-- The conv record of a .conv load: 64 bytes, read as the record was. -/
def State.readConvRecord (s : State) (kind : OpldKind) (r : List Byte) : Early (List Byte) :=
  if kind = .conv then s.readRecord (tlConv r) 64 64 else .ok (s, [])

/-- OPLD: everything is translated before the fill state changes; a fault traps it and leaves the slot as it was (R309). -/
def execOpld (kind : OpldKind) (fe : Bool) (sa sb : SReg) (s : State) : Host.Outcome State Fault Refusal :=
  let slot := (s.rs sa).toNat
  let va := (s.rs sb).toNat
  if s.fenceWaits || !s.commandRoom then .next s.stall
  else if va % 16 = 0 ∧ !s.holds s.curCore s.cur.wg slot then .next (s.trap (Trap.plain .slot))
  else
    match s.readRecord va 64 16 with
    | .error t => .next t
    | .ok (s, r) =>
      if tileMalformed kind r then .next (s.trap (Trap.plain .slot))
      else
        match s.readConvRecord kind r with
        | .error t => .next t
        | .ok (s, conv) =>
          if kind = .conv ∧ convMalformed conv (matBits (tlFmt r) / 8) then .next (s.trap (Trap.plain .slot))
          else
            match s.rowsReady kind r conv with
            | (s, false) => .next (s.wait (.remote 0))
            | (s, true) =>
            match s.loadRows kind fe r conv (tlRows r) with
            | .error (s, c) => .next (s.raiseCond c false false)
            | .ok (rows, s) =>
              match s.statusArray r with
              | .error c => .next (s.raiseCond c false true)
              | .ok st =>
                .next ((s.release s.curCore ((scopeOf (tlScopeCode r)).getD .grp)).issueLoad slot kind fe r rows st).next4

/-! The operand loader (R309, R311, R312, R314). -/

/-- The bytes of a row part: constants, and the bytes read, in order. -/
def fillConst (bs : List (ByteRef ⊕ Byte)) (got : List Byte) : List Byte :=
  match bs, got with
  | [], _ => []
  | .inr b :: rest, got => b :: fillConst rest got
  | .inl _ :: rest, g :: got => g :: fillConst rest got
  | .inl _ :: rest, [] => 0 :: fillConst rest []

/-- What the loader got of a row: its bytes, whether it failed on a peer, or that it still waits. -/
inductive RowGot where
  | wait
  | bytes (data side : List Byte) (failed : Bool)
  deriving DecidableEq, Repr

/-- The issuer of a loader's requests: a command of no counter (R309). -/
def loadIssuer (l : Load) : Issuer := .command l.wg 16 l.num

/-- Read one row; where a peer's answer failed its bytes are free values (log 36). -/
def State.readRow (s : State) (l : Load) (x : LoadRow) (key : Nat) : State × RowGot :=
  let ag := { s.wgAgent l.wg l.group with issuer := loadIssuer l }
  let refs := x.refs
  let s := s.replRefresh ag refs
  let bs := s.readRefs ag true refs
  let split (bs : List Byte) (failed : Bool) : RowGot :=
    let n := (partRefs x.data).length
    .bytes (fillConst x.data (bs.take n)) (fillConst x.side (bs.drop n)) failed
  if hasPeer refs then
    let es := peerElems 0 refs
    let gather := x.gather && 1 < es.length
    match s.remoteBatch (loadIssuer l) ag.ctx engineLoader (peerLoads gather es) with
    | (s, none) => (s, .wait)
    | (s, some os) =>
      match os.findSome? (outcomeTrap 0 false) with
      | some _ => (s, split (bs.zipIdx.map fun b => s.freeByte (key + b.2)) true)
      | none => (s.served ag l.hint true refs, split (peerFill gather es (os.map Outcome.data) bs) false)
  else (s.served ag l.hint true refs, split bs false)

/-- Overwrite the first bytes of a vector. -/
def putBytes {n : Nat} (bs : List Byte) (v : Vector Byte n) : Vector Byte n := Vector.ofFn fun i => (bs[i.val]?).getD v[i]

/-- A filled row of data: what the row bytes and side bytes hold; a row that is not resident is zeros. -/
def SlotData.putRow (d : SlotData) (seg : Bool) (r : Nat) (x : LoadRow) (data side : List Byte) : SlotData :=
  let data := if x.resident then data else data.map fun _ => 0
  let side := if x.resident then side else side.map fun _ => 0
  if seg then
    { d with segId := modVec (fun _ => BitVec.ofNat 16 (if x.resident then natOfBytes data else 0)) d.segId r
             segPos := modVec (fun _ => BitVec.ofNat 32 (if x.resident then natOfBytes side else 0)) d.segPos r }
  else { d with data := modVec (putBytes data) d.data r, side := modVec (putBytes side) d.side r }

/-- An MMA whose first arrival came before a load has not read the slot yet. -/
def Wg.readsBefore (x : Wg) (slot num : Nat) : Bool := x.seqs.any fun q => (q.oA == slot || q.oB == slot) && q.firstStamp < num

/-- The status words of a load (R228, R314). -/
def statusWords (l : Load) : List Byte := l.rows.flatMap fun x => bytesOfNat 4 x.status

/-- A place of a vault that is gone is nowhere. -/
def State.liveRef (s : State) (r : ByteRef) : ByteRef :=
  if (placesOf [r]).any fun p => match p with | .vault w _ => s.wgState w == some .complete | _ => false then .whole .null else r

/-- Finish a load: the rows, the valid mask, the status words, the fill state, poison; its completion is a release at its
scope. -/
def State.finishLoad (s : State) (core slot : Nat) (l : Load) (gs : List RowGot) : State :=
  let seg := isSegment l.kind
  let poisoned := (l.rows.flatMap LoadRow.refs).any s.refPoisoned
  let failed := gs.any fun g => match g with | .bytes _ _ f => f | .wait => false
  let ag := s.wgAgent l.wg l.group
  let valid := maskOf (((List.range l.rows.length).zip l.rows).filterMap fun x => if x.2.resident then some x.1 else none)
  let fill := fun (d : SlotData) => ((l.rows.zip gs).zipIdx).foldl (fun (d : SlotData) x => match x.1.2 with
    | .bytes data side _ => d.putRow seg x.2 x.1.1 data side
    | .wait => d) d
  let s := if l.status.isEmpty then s else s.devWriteRefs ag (l.status.map s.liveRef) (statusWords l)
  let s := s.modSlot core slot fun x =>
    let d := { fill x.d with valid := valid }
    { x with loads := x.loads.filter fun y => y.num != l.num
             d := if seg then { d with segFull := d.segFull || l.num == x.lastSeg, poisonSeg := poisoned }
                  else { d with dataFull := d.dataFull || l.num == x.lastData, poisonData := poisoned } }
  let s := if failed then s.setWgerr l.wg 1 else s
  ((s.release core l.scope).remoteTake (loadIssuer l)).wakeCore core

/-- The oldest load of a kind on a slot reads its rows and fills the slot, once earlier MMAs have read it and, under .fe,
its granules are full. Those of a workgroup that has completed go on (R308). -/
def State.loadStep (s : State) (core : CoreIx) (slot : Nat) (segment : Bool) : State :=
  let x := s.slot core slot
  match x.loads.find? fun l => isSegment l.kind == segment with
  | none => s
  | some l =>
    if s.wgState l.wg == some .ready || ((s.wg? l.wg).map fun w => w.readsBefore slot l.num).getD false ||
        !(l.granules.all fun g => s.granuleFull g) then s
    else
      let (t, gs) := l.rows.zipIdx.foldl (fun (acc : State × List RowGot) y =>
        let (t, g) := acc.1.readRow l y.1 (1000 * y.2)
        (t, acc.2 ++ [g])) (s, [])
      if gs.any fun g => g == .wait then t else t.finishLoad core slot l gs

/-- OPERAND_LOAD_COMPLETE. Loads into one store of a slot finish in the order of their issue. -/
def execOperandLoadComplete (core : CoreIx) (slot : Nat) (segment : Bool) (s : State) : Host.Outcome State Fault Refusal :=
  .next (s.loadStep core slot segment)

end Sys2Proof.Machine
end

