-- ==== Sys2Proof/Machine/Matrix.lean ====
section
/-! DEFINITION. The matrix engine: gangs, the confluence latch and the MMA (R315 to R319). -/

namespace Sys2Proof.Machine

/-! Gangs (R316). -/

def gangCount (v : Nat) : Nat := fld v 30 3
def gangMembers (v : Nat) : List Nat := (List.range (gangCount v)).map fun i => fld v (5 * i) 5
def gangRoles (v : Nat) : List Nat := (List.range (gangCount v)).map fun i => fld v (33 + 2 * i) 2

/-- Members in the ISSUE role. -/
def gangIssuers (v : Nat) : List Nat :=
  (((gangMembers v).zip (gangRoles v)).filter fun x => x.2 == 0).map (·.1)

def gangCorrects (v : Nat) : Bool := (gangRoles v).any (· == 1)

/-- A value that GANG accepts from a group of a workgroup of n groups. A count outside 2 to 6 is refused (log 35). -/
def gangOk (v n g : Nat) : Bool :=
  2 ≤ gangCount v && gangCount v ≤ 6 && fld v 45 19 == 0 && fld v (5 * gangCount v) (30 - 5 * gangCount v) == 0 &&
    fld v (33 + 2 * gangCount v) (12 - 2 * gangCount v) == 0 && (gangMembers v).all (· < n) &&
    (gangMembers v).eraseDups.length == gangCount v && (gangMembers v).contains g && (gangRoles v).all (· ≤ 1) &&
    (gangRoles v).any (· == 0)

/-- An MMA of a group that has not reached confluence. -/
def Wg.latched (x : Wg) (g : GroupIx) : Bool := x.seqs.any fun q => q.confluent.isNone && q.arrived.contains g

def execGang (sa : SReg) (s : State) : Host.Outcome State Fault Refusal :=
  let v := s.rs sa
  let n := ((s.wg? s.cur.wg).map fun x => x.groups.length).getD 0
  if !gangOk v.toNat n s.cur.g then .next (s.trap (Trap.plain .gang))
  else if ((s.wg? s.cur.wg).map fun x => x.latched s.cur.g).getD false then .next s.stall
  else .next (s.modCurGroup fun g => { g with gang := v, gangCount := 0 }).next4

/-! Format blocks (R315). -/

def fbA (b : List Byte) : Nat := recNat b 0 1
def fbB (b : List Byte) : Nat := recNat b 1 1
def fbAcc (b : List Byte) : Nat := recNat b 2 1
def fbControl (b : List Byte) : Nat := recNat b 3 1
def fbScaled (b : List Byte) (side : Bool) : Bool := bit (fbControl b) (boolNat side)
def fbVault (b : List Byte) (side : Bool) : Bool := bit (fbControl b) (2 + boolNat side)
def fbGlen (b : List Byte) (side : Bool) : Nat := fld (fbControl b) (4 + 2 * boolNat side) 2
def fbFmt (b : List Byte) (side : Bool) : Nat := if side then fbB b else fbA b
def fbSide (b : List Byte) (side : Bool) : Nat := recNat b (if side then 0x0C else 0x08) 4

/-- The pairing set of a format (R305). -/
def matClass : Nat → Nat
  | 5 | 6 | 7 => 4
  | 11 => 9
  | 12 => 10
  | f => f

/-- Accumulators of a format. -/
def accAllowed (f acc : Nat) : Bool :=
  if f = 0 then acc == 3 else if f = 1 then acc == 0 else if f ≤ 8 then acc ≤ 1 else acc == 2

/-- One operand's control bits fit its format. -/
def fbOperandOk (b : List Byte) (side : Bool) : Bool :=
  let f := fbFmt b side
  f ≤ 12 && fbGlen b side != 3 && (!fbScaled b side || matMx f) && (fbGlen b side == 0 || matAq f) &&
    (!fbVault b side || (fbScaled b side && matMx f) || matAq f)

def fbOk (b : List Byte) : Bool :=
  recNat b 4 4 == 0 && allZero (recBytes b 16 16) && fbAcc b ≤ 3 && fbOperandOk b false && fbOperandOk b true &&
    matClass (fbA b) == matClass (fbB b) && accAllowed (fbA b) (fbAcc b)

/-- The block fits the MMA's fields. -/
def fbFits (b : List Byte) (tile : Nat) (seg causal : Bool) : Bool :=
  !(fbAcc b == 2 && (seg || causal)) && !(fbAcc b == 3 && tile % 2 == 1)

def accFmtOf : Nat → AccFmt
  | 1 => .fp16 | 2 => .int32 | 3 => .fp64 | _ => .fp32

/-! MMA (R317). -/

/-- The own vault address of an offset. -/
def ownVault (off : Nat) : Nat := 0xFD0000FF00000000 + off

/-- A side array in the vault, read as the format block was. -/
def State.readSide (s : State) (b : List Byte) (side : Bool) : Early (List Byte) :=
  if fbVault b side then s.scalarRead (ownVault (fbSide b side)) 512 false false else .ok (s, [])

/-- The sequences of a gang. -/
def Wg.gangSeqs (x : Wg) (gang : Word) : List Seq := x.seqs.filter fun q => q.gang == gang

/-- The fields of an MMA that every member must agree on. -/
structure MmaFields where
  tile : Nat
  oA : Nat
  oB : Nat
  accumulate : Bool
  seg : Bool
  causal : Bool
  fmt : List Byte
  deriving DecidableEq, Repr

def Seq.fields (q : Seq) : MmaFields := ⟨q.tile, q.oA, q.oB, q.accumulate, q.seg, q.causal, q.fmt⟩

/-- An arrival is recorded; with the last ISSUE member's the sequence is confluent. -/
def Seq.arrive (q : Seq) (g : GroupIx) (stamp : Nat) : Seq :=
  let arrived := q.arrived ++ [g]
  { q with arrived := arrived, arrivals := q.arrivals ++ [(g, stamp)]
           confluent := if (gangIssuers q.gang.toNat).all arrived.contains then some stamp else none }

/-- The first arrival latches a sequence, bound to the fills issued last into its slots (R317, R318). -/
def State.newSeq (s : State) (gang : Word) (n : Nat) (f : MmaFields) (sideA sideB : List Byte) : Seq :=
  let a := s.slot s.curCore f.oA
  let b := s.slot s.curCore f.oB
  { gang := gang, seq := n, tile := f.tile, oA := f.oA, oB := f.oB, accumulate := f.accumulate, seg := f.seg, causal := f.causal
    fmt := f.fmt, sideA := sideA, sideB := sideB, arrived := [], arrivals := [], firstStamp := s.stamp, confluent := none
    dataA := a.lastData, dataB := b.lastData, segA := a.lastSeg, segB := b.lastSeg }

/-- The MMA retires once its arrival is recorded. -/
def State.recordArrival (s : State) (q : Seq) : State :=
  let q' := q.arrive s.cur.g s.stamp
  let s := s.modWg s.cur.wg fun x =>
    { x with seqs := (x.seqs.filter fun y => y.firstStamp != q.firstStamp) ++ [q'] }
  let s := (s.modCurGroup fun g => { g with gangCount := q.seq }).tick
  (if q'.confluent.isSome then s.wakeCore s.curCore else s).next4

/-- The first arrival of a sequence: SLOT, ILLEGAL, the side arrays, the latch. -/
def State.firstArrival (s : State) (gang : Word) (n : Nat) (f : MmaFields) : State :=
  if !s.holds s.curCore s.cur.wg f.oA || !s.holds s.curCore s.cur.wg f.oB then s.trap (Trap.plain .slot)
  else if !fbOk f.fmt || !fbFits f.fmt f.tile f.seg f.causal then s.trap (Trap.plain .illegal)
  else
    match s.readSide f.fmt false with
    | .error t => t
    | .ok (s, a) => match s.readSide f.fmt true with
      | .error t => t
      | .ok (s, b) => s.recordArrival (s.newSeq gang n f a b)

/-- The format block: 32 bytes of the vault window. -/
def State.readFormat (s : State) (va : Nat) : Early (List Byte) :=
  if windowOf va != .vault then .error (s.raiseCond ⟨.address, va, false⟩ false false) else s.readRecord va 32 32

/-- MMA. It stalls while 16 sequences of its gang have arrivals and are not complete. -/
def execMma (t oA oB : BitVec 5) (sa : SReg) (accumulate seg causal : Bool) (s : State) : Host.Outcome State Fault Refusal :=
  let gang := (s.curGroup.map (·.gang)).getD 0
  if gang = 0 ∨ !(gangIssuers gang.toNat).contains s.cur.g then .next (s.trap (Trap.plain .gang))
  else
    match s.readFormat (s.rs sa).toNat with
    | .error u => .next u
    | .ok (s, fb) =>
      let n := (s.curGroup.map (·.gangCount)).getD 0 + 1
      let f : MmaFields := ⟨t.toNat, oA.toNat, oB.toNat, accumulate, seg, causal, fb⟩
      let seqs := ((s.wg? s.cur.wg).map fun x => x.gangSeqs gang).getD []
      if Config.gangSequences ≤ seqs.length then .next s.stall
      else match seqs.find? fun q => q.seq == n && q.confluent.isNone with
      | some q => .next (if q.fields = f then s.recordArrival q else s.trap (Trap.plain .gang))
      | none => .next (s.firstArrival gang n f)

/-! Operand values (R44, R47, R61, R64, R306). -/

/-- Element k of a row: its code. -/
def rowCode (row : Nat) (f k : Nat) : Nat := fld row (matBits f * k) (matBits f)

/-- The float type of a matrix format. -/
def matTy : Nat → ElemTy
  | 0 => .f64 | 1 => .f32 | 2 => .f16 | 3 => .bf16 | 4 => .e4m3 | 5 => .e5m2 | 6 => .e3m2 | 7 => .e2m3 | _ => .e2m1

/-- The value of a float element; scaled by its block's E8M0 code when the operand is MX. -/
def matFloat (f : Nat) (scaled : Bool) (side : List Byte) (row k : Nat) : FVal :=
  if scaled then (mxValue (matTy f) ((side.getD (k / 32) 0).toNat) (rowCode row f k)).1
  else (fmtOf (matTy f)).decode (rowCode row f k)

/-- The value of an integer element; an AQ code less its group's zero point. -/
def matInt (f : Nat) (glen : Nat) (side : List Byte) (row k : Nat) : Int :=
  if matAq f then (rowCode row f k : Int) - ((side.getD (k / groupLength glen) 0).toNat : Nat)
  else signed (matBits f) (rowCode row f k)

/-- An operand as the MMA reads it: rows, side bytes, valid mask, identifiers, positions. -/
structure MatOperand where
  fmt : Nat
  scaled : Bool
  glen : Nat
  row : Nat → Nat
  side : Nat → List Byte
  valid : LaneMask
  seg : Nat → BitVec 16
  pos : Nat → BitVec 32

/-- The 8 side bytes of a row: from the latched vault array, or from the slot. -/
def sideBytes (d : SlotData) (vault : Bool) (array : List Byte) (r : Nat) : List Byte :=
  if vault then recBytes array (8 * r) 8 else (getVec d.side r (Vector.replicate 8 0)).toList

def matOperand (d : SlotData) (b : List Byte) (side : Bool) (array : List Byte) : MatOperand :=
  { fmt := fbFmt b side, scaled := fbScaled b side, glen := fbGlen b side
    row := fun r => natOfBytes (getVec d.data r (Vector.replicate 128 0)).toList
    side := sideBytes d (fbVault b side) array, valid := d.valid
    seg := fun r => getVec d.segId r 0, pos := fun r => getVec d.segPos r 0 }

def MatOperand.floats (x : MatOperand) (r : Nat) : List FVal :=
  (List.range (matK x.fmt)).map (matFloat x.fmt x.scaled (x.side r) (x.row r))
def MatOperand.ints (x : MatOperand) (r : Nat) : List Int := (List.range (matK x.fmt)).map (matInt x.fmt x.glen (x.side r) (x.row r))

/-! The block rule on one element (R318). -/

def accFmt : AccFmt → Fmt
  | .fp16 => fmtF16 | .fp64 => fmtF64 | _ => fmtF32

/-- The element of rows m and n from the old value and both operands: the bits and the flags. -/
def mmaElement (acc : AccFmt) (old : Nat) (a b : MatOperand) (m n : Nat) : Nat × Nat :=
  match acc with
  | .int32 => intAccumulate old ((a.ints m).zipWith (· * ·) (b.ints n))
  | .fp64 => fmaChain old ((a.floats m).zip (b.floats n))
  | _ =>
    let l := if a.fmt = 1 then 8 else 32
    blockAccumulate (accFmt acc) l (matK a.fmt) old ((a.floats m).zipWith exactProduct (b.floats n))

/-- What becomes of an element: unchanged or a constant where it is gated or masked (R318). -/
def mmaCell (acc : AccFmt) (accumulate seg causal : Bool) (a b : MatOperand) (old m n : Nat) : Nat × Nat :=
  let gated := !a.valid.getLsbD m || !b.valid.getLsbD n
  let masked := (seg && a.seg m != b.seg n) || (causal && (a.pos m).toNat < (b.pos n).toNat)
  if gated || masked then
    if seg || causal then ((accFmt acc).infinity true, 0) else if accumulate then (old, 0) else (0, 0)
  else mmaElement acc (if accumulate then old else 0) a b m n

/-! Execution (R318 to R321). -/

/-- The tiles an MMA writes: a pair for FP64. -/
def tilesOf (acc : AccFmt) (t : Nat) : List Nat := if acc = .fp64 then [t, t + 1] else [t]

/-- The tiles that an MMA acts on. -/
def Seq.tiles (q : Seq) : List Nat := tilesOf (accFmtOf (fbAcc q.fmt)) q.tile

def Tile.new (tag : AccFmt) : Tile :=
  { elems := Vector.replicate 64 (Vector.replicate 64 0), tag := tag, phase := 0, corrected := false, error := none }

/-- Physical tiles bound on a core. -/
def State.boundTiles (s : State) (core : CoreIx) : Nat :=
  s.wgs.foldl (fun n x => if x.core = core ∧ x.state = .resident then n + x.tiles.length else n) 0

/-- A core has physical tiles for the names of a list that are not bound yet. -/
def State.tileRoom (s : State) (w : WgIx) (ts : List Nat) : Bool :=
  match s.wg? w with
  | none => false
  | some x => s.boundTiles x.core + (ts.filter fun t => (x.tile t).isNone).length ≤ Config.accTiles

/-- Bind the unbound names of a list (R318). -/
def Wg.bindTiles (x : Wg) (tag : AccFmt) (ts : List Nat) : Wg :=
  ts.foldl (fun (x : Wg) t => if (x.tile t).isSome then x else x.setTile t (Tile.new tag)) x

/-- A word of a tile. -/
def Tile.elem (y : Tile) (m n : Nat) : Elem := getVec (getVec y.elems m (Vector.replicate 64 0)) n 0

/-- The old value of an element: of a pair for FP64. -/
def tileValue (acc : AccFmt) (lo hi : Tile) (m n : Nat) : Nat :=
  (lo.elem m n).toNat + (if acc = .fp64 then (hi.elem m n).toNat * 2 ^ 32 else 0)

/-- All elements of a tile computed at once. -/
def Tile.fill (y : Tile) (f : Nat → Nat → Elem) : Tile := { y with elems := Vector.ofFn fun m => Vector.ofFn fun n => f m.val n.val }

/-- The end of an MMA on one of its tiles: phase and correction flag. -/
def Tile.complete (y : Tile) : Tile := { y with phase := y.phase + 1, corrected := false }

/-- A tile name that a queue entry's accumulator instruction acts on (R320). -/
def accTileOf (i : Instr) : Option Nat :=
  let tile := fun (o : Operand) => match o with | .a t => some t.toNat | _ => none
  match i with
  | .acrd o | .acmax o | .acexp o => tile o.a
  | .acwr o | .acscl o => tile o.d
  | _ => none

/-- The tiles of an entry: a pair for .f64. -/
def LaneEntry.tiles (e : LaneEntry) : List Nat :=
  match e.item with
  | .word w _ =>
    match laneInstr? w with
    | some i => match accTileOf i, laneOpOf i with
      | some t, some o => if o.ty = .f64 then [t, t + 1] else [t]
      | _, _ => []
    | none => []
  | _ => []

/-- An accumulator instruction on a tile that an issuing member enqueued before its MMA of a sequence (R320). -/
def Wg.accPending (x : Wg) (q : Seq) (ts : List Nat) : Bool :=
  q.arrivals.any fun a => match x.groups[a.1]? with
    | some g => g.laneQ.any fun e => e.stamp < a.2 && e.tiles.any ts.contains
    | none => false

/-- A fill that an MMA is bound to is FULL: it was issued, and its load has finished. -/
def Slot.filled (x : Slot) (num : Nat) : Bool := num != 0 && !x.loads.any fun l => l.num == num

/-- The fills that an MMA is bound to are FULL. -/
def State.seqFilled (s : State) (x : Wg) (q : Seq) : Bool :=
  let a := s.slot x.core q.oA
  let b := s.slot x.core q.oB
  a.filled q.dataA && b.filled q.dataB && (!(q.seg || q.causal) || (a.filled q.segA && b.filled q.segB))

/-- An MMA is ready but for its tile: confluent, its fills FULL, first of its gang, and first on its tiles (R318, R319). -/
def State.seqReady (s : State) (x : Wg) (q : Seq) (ts : List Nat) : Bool :=
  match q.confluent with
  | none => false
  | some at_ =>
    s.seqFilled x q &&
      (x.seqs.all fun p => p.gang != q.gang || q.firstStamp ≤ p.firstStamp) &&
      (x.seqs.all fun p => !p.tiles.any ts.contains || match p.confluent with
        | some b => at_ ≤ b
        | none => true) && !x.accPending q ts

/-- The correction gate: a tile that is bound and not corrected (R318, R321). -/
def Wg.gates (x : Wg) (q : Seq) : Bool :=
  gangCorrects q.gang.toNat && q.accumulate && q.tiles.any fun n => match x.tile n with | some y => !y.corrected | none => false

/-- Some bound fill is poisoned. -/
def State.seqPoisoned (s : State) (x : Wg) (q : Seq) : Bool :=
  let a := (s.slot x.core q.oA).d
  let b := (s.slot x.core q.oB).d
  a.poisonData || b.poisonData || ((q.seg || q.causal) && (a.poisonSeg || b.poisonSeg))

/-- The error an MMA puts its tile, or its pair, into; a differing tag counts before poison (log 35). -/
def seqError (q : Seq) (acc : AccFmt) (ts : List Tile) (poisoned : Bool) : Option Nat :=
  if q.accumulate && ts.any fun t => t.tag != acc then some (classCode .slot) else if poisoned then some (classCode .poison) else none

/-- The new contents of an MMA's tiles and its flags. -/
def mmaTiles (q : Seq) (acc : AccFmt) (a b : MatOperand) (lo hi : Tile) : Tile × Tile × Nat :=
  let cell := fun (m n : Nat) => mmaCell acc q.accumulate q.seg q.causal a b (tileValue acc lo hi m n) m n
  let fl := (List.range 64).foldl (fun fl m => (List.range 64).foldl (fun fl n => fl ||| (cell m n).2) fl) 0
  let done := fun (t : Tile) => { t with tag := acc, error := if q.accumulate then t.error else none }
  (done (lo.fill fun m n => BitVec.ofNat 32 (cell m n).1), done (hi.fill fun m n => BitVec.ofNat 32 ((cell m n).1 / 2 ^ 32)), fl)

/-- Execute a ready MMA whole. -/
def State.executeSeq (s : State) (w : WgIx) (x : Wg) (q : Seq) : State :=
  let acc := accFmtOf (fbAcc q.fmt)
  let x := x.bindTiles acc (tilesOf acc q.tile)
  let lo := (x.tile q.tile).getD (Tile.new acc)
  let hi := (x.tile (q.tile + 1)).getD (Tile.new acc)
  let a := matOperand (s.slot x.core q.oA).d q.fmt false q.sideA
  let b := matOperand (s.slot x.core q.oB).d q.fmt true q.sideB
  let (lo, hi, fl) := match seqError q acc (if acc = .fp64 then [lo, hi] else [lo]) (s.seqPoisoned x q) with
    | some e => ({ lo with error := some e }, { hi with error := some e }, 0)
    | none => mmaTiles q acc a b lo hi
  let x := (x.setTile q.tile lo.complete)
  let x := if acc = .fp64 then x.setTile (q.tile + 1) hi.complete else x
  let issuers := gangIssuers q.gang.toNat
  let x := { x with
    seqs := x.seqs.filter fun p => p.firstStamp != q.firstStamp
    groups := x.groups.zipIdx.map fun y => if issuers.contains y.2 then y.1.setFlags fl else y.1 }
  ((s.modWg w fun _ => x).progress (s.ctxOf w)).wakeCore x.core

/-- A confluent MMA executes once its fills are FULL and its tile's conditions hold. One of a workgroup that has completed reads its
slots, and its tile is gone (R308, R318). -/
def State.mmaStep (s : State) (wg : WgIx) (seqNo : Nat) : State :=
  match s.wg? wg with
  | none => s
  | some x =>
    match x.seqs[seqNo]? with
    | none => s
    | some q =>
      if x.state = .complete then
        if s.seqFilled x q then s.modWg wg fun x => { x with seqs := x.seqs.eraseIdx seqNo } else s
      else if x.state = .resident ∧ s.seqReady x q q.tiles ∧ !x.gates q ∧ s.tileRoom wg q.tiles then s.executeSeq wg x q else s

/-- MMA_EXECUTE. -/
def execMmaExecute (wg : WgIx) (seqNo : Nat) (s : State) : Host.Outcome State Fault Refusal := .next (s.mmaStep wg seqNo)

end Sys2Proof.Machine
end

