-- ==== Sys2Proof/Machine/Accum.lean ====
section
/-! DEFINITION. The accumulator instructions: their order against MMAs, and ACRD, ACWR, ACSCL, ACMAX, ACEXP
(R320 to R323). -/

namespace Sys2Proof.Machine

/-! Order against MMAs (R320, R321). -/

/-- The tiles an accumulator form acts on: a pair for .f64. -/
def accTiles (o : LaneOp) (t : Operand) : List Nat :=
  match t with
  | .a n => if o.ty = .f64 then [n.toNat, n.toNat + 1] else [n.toNat]
  | _ => []

/-- The MMAs of a workgroup on some tiles. -/
def Wg.mmasOn (x : Wg) (ts : List Nat) : List Seq :=
  x.seqs.filter fun q => q.tiles.any ts.contains

/-- A group issued its MMA of a sequence before, or after, its entry with a stamp. -/
def Seq.issuedBefore (q : Seq) (g : GroupIx) (stamp : Nat) : Bool := q.arrivals.any fun a => a.1 == g && a.2 < stamp
def Seq.issuedAfter (q : Seq) (g : GroupIx) (stamp : Nat) : Bool := q.arrivals.any fun a => a.1 == g && stamp < a.2

/-- MMAs in the order in which they reached confluence. -/
def confluentOrder : Nat → List Seq → List Seq
  | 0, _ => []
  | n + 1, l => match least (fun a b => (a.confluent.getD 0) < (b.confluent.getD 0)) l with
    | some q => q :: confluentOrder n (l.filter fun p => p.firstStamp != q.firstStamp)
    | none => []

/-- The MMAs that an accumulator instruction waits for as it reaches execution (R320): those on its tiles that its group issued
before it, and those that have reached confluence by then, but for one that waits for the instruction, and those behind that one
(the gate of R318; log 37). -/
def Wg.accAwaits (x : Wg) (g : GroupIx) (stamp : Nat) (ts : List Nat) (rescales : Bool) : List Nat :=
  let on := x.mmasOn ts
  let queue := confluentOrder on.length (on.filter fun q => q.confluent.isSome)
  ((on.filter fun q => q.confluent.isNone && q.issuedBefore g stamp) ++
    queue.takeWhile fun q => !(q.issuedAfter g stamp || (rescales && x.gates q))).map (·.firstStamp)

/-- The token of an ACSCL .wait is reached on a bound tile. -/
def tokenReached (t : Option Tile) (token : BitVec 32) : Bool :=
  match t with
  | some y => (y.phase - token).toNat < 2 ^ 31
  | none => false

/-! Checks on the tile (R323). -/

/-- The class a tile raises: its error's, or SLOT for a tag that the form does not take. -/
def tileTrap (t : Option Tile) (ok : AccFmt → Bool) (unbound : Bool) : Option TrapClass :=
  match t with
  | none => if unbound then none else some .slot
  | some y =>
    match y.error with
    | some e => some (classOfCode e)
    | none => if ok y.tag then none else some .slot

/-- The class that the first of some tiles raises. -/
def Wg.tilesTrap (x : Wg) (ts : List Nat) (ok : AccFmt → Bool) (unbound : Bool) : Option TrapClass :=
  ts.findSome? fun n => tileTrap (x.tile n) ok unbound

/-- Run an accumulator form: ILLEGAL, the order against MMAs and any token, its tile or pair, then the operands. With no active
lanes it acts on no tile (R29). -/
def State.runAcc (s : State) (i : Instr) (o : LaneOp) (sh : Shape) (tile : Operand) (wait : Option (BitVec 32))
    (rescales : Bool) (ok : AccFmt → Bool) (unbound : Bool) (room : Bool) (f : Wg → Ins → Outs) : State :=
  match s.wg? s.cur.wg, s.curGroup with
  | some x, some g =>
    let ts := accTiles o tile
    let stamp := ((g.laneQ.head?).map (·.stamp)).getD 0
    if !i.wf || !g.allocated (sh.regs o) then s.laneRaise .illegal
    else if g.active o.guard = 0 then s.runOp i o sh fun _ => {}
    else
      let awaits := g.head.awaits.getD (x.accAwaits s.cur.g stamp ts rescales)
      let t := s.modCurGroup fun g => { g with head := { g.head with awaits := some awaits } }
      if x.seqs.any fun q => awaits.contains q.firstStamp then t.laneWait
      else if (match wait with | some token => !tokenReached ((ts.head?).bind x.tile) token | none => false) then t.laneWait
      else match x.tilesTrap ts ok unbound with
        | some c => t.laneRaise c
        | none => if room && !s.tileRoom s.cur.wg ts then t.laneWait else t.runOp i o sh (f x)
  | _, _ => s

/-! Values. -/

/-- The row a form names (R322). -/
def accRow (g : Group) : Operand → Nat
  | .imm n => n.toNat % 64
  | .b r => (getVec g.b r.toNat 0).toNat % 64
  | _ => 0

/-- The mode of an accumulator instruction: FLAGS.FTZ does not apply. -/
def accMode (g : Group) (o : LaneOp) (lane idx : Nat) : Mode := { g.mode o.rnd lane idx with ftz := false }

/-- An element of a tile, or of a pair, as a value; an unbound tile reads +0. -/
def Wg.accValue (x : Wg) (t m n : Nat) : FVal :=
  match x.tile t with
  | none => .fin false 0 0
  | some y =>
    match y.tag with
    | .int32 => let v := signed 32 (y.elem m n).toNat
                .fin (v < 0) v.natAbs 0
    | .fp64 => fmtF64.decode (tileValue .fp64 y ((x.tile (t + 1)).getD (Tile.new .fp64)) m n)
    | tag => (accFmt tag).decode ((y.elem m n).toNat % 2 ^ (accFmt tag).width)

/-- An exact product and its flags: IOP for a signalling NaN or a product of an infinity and a zero. -/
def productFlags (a b : FVal) : FVal × Nat :=
  let p := exactProduct a b
  (p, if a.isSnan || b.isSnan || (p.isNan && !a.isNan && !b.isNan) then flIop else 0)

/-- An FP16 accumulator saturates: a rounded value beyond 65,504 sets MSAT in place of OVF (R63, log 37). -/
def accSaturate (tag : AccFmt) (exact : Bool) (neg : Bool) (r : Nat × Nat) : Nat × Nat :=
  if tag = .fp16 && !exact && r.2 / flOvf % 2 = 1 then (fmtF16.maxFinite neg, r.2 - flOvf + flMsat) else r

/-- Each lane's result and flags, as an instruction's outputs for D. -/
def accLanes (x : Ins) (f : Nat → Nat × Nat) : Outs :=
  { d := fun i => (f i).1, fl := (lanesOf x.active).foldl (fun fl i => fl ||| (f i).2) 0 }

/-- A tile with some rows replaced, word by word, and the flags of the new words. -/
def Tile.rows (y : Tile) (active : LaneMask) (f : Nat → Nat → Nat) : Tile :=
  y.fill fun m n => if active.getLsbD m then BitVec.ofNat 32 (f m n) else y.elem m n

/-! ACRD and ACWR. -/

/-- Tags that each type of ACRD takes. -/
def acrdTakes (ty : ElemTy) (tag : AccFmt) : Bool :=
  match tag, ty with
  | .fp32, .f32 | .fp32, .f16 | .fp32, .bf16 | .fp16, .f16 | .fp16, .f32 | .int32, .i32 | .int32, .f32 | .fp64, .f64 => true
  | _, _ => false

/-- One lane of ACRD: the bits of an INT32 element, or the value, scaled exactly, rounded once. -/
def acrdLane (w : Wg) (o : LaneOp) (t row : Nat) (x : Ins) (i : Nat) : Nat × Nat :=
  if o.ty = .i32 then ((((w.tile t).map fun y => (y.elem row i).toNat).getD 0), 0)
  else
    let v := w.accValue t row i
    let p := if o.mods == 1 then productFlags v (fmtF32.decode (x.c i)) else (v, 0)
    let q := if o.mods == 1 then productFlags p.1 (fmtF32.decode (x.e i)) else p
    let r := (fmtOf o.ty).ofVal (accMode x.g o i 0) q.1
    (r.1, r.2 ||| p.2 ||| q.2)

def execAcrd (o : LaneOp) (s : State) : Host.Outcome State Fault Refusal :=
  let scl : Option Nat := if o.mods == 1 then some 32 else none
  .next (s.runAcc (.acrd o) o { d := tyBits o.ty, c := scl, e := scl } o.a none false (acrdTakes o.ty) true false fun w x =>
    accLanes x (acrdLane w o ((accTiles o o.a).headD 0) (accRow x.g o.b) x))

/-- The tag that ACWR writes. -/
def acwrTag : ElemTy → AccFmt
  | .f16 => .fp16 | .i32 => .int32 | .f64 => .fp64 | _ => .fp32

/-- One lane of ACWR: an FP32 source rounded into FP16 under .f16. -/
def acwrLane (o : LaneOp) (x : Ins) (i : Nat) : Nat × Nat :=
  if o.ty = .f16 then fmtF16.ofVal (accMode x.g o i 0) (fmtF32.decode (x.a i)) else (x.a i, 0)

/-- A row written in the active columns: element column i is lane i. -/
def Tile.writeRow (y : Tile) (active : LaneMask) (row : Nat) (f : Nat → Nat) : Tile :=
  y.fill fun m n => if m = row && active.getLsbD n then BitVec.ofNat 32 (f n) else y.elem m n

def execAcwr (o : LaneOp) (s : State) : Host.Outcome State Fault Refusal :=
  let tag := acwrTag o.ty
  let o' : LaneOp := if o.ty = .f16 then { o with ty := .f32 } else o
  .next (s.runAcc (.acwr o) o' { d := 32, a := some (if o.ty = .f64 then 64 else 32) } o.d none false (· == tag) true true
    fun w x =>
      let row := accRow x.g o.b
      let t := (accTiles o o.d).headD 0
      let lo := ((w.tile t).getD (Tile.new tag)).writeRow x.active row fun i => (acwrLane o x i).1
      let hi := ((w.tile (t + 1)).getD (Tile.new tag)).writeRow x.active row fun i => (acwrLane o x i).1 / 2 ^ 32
      { tiles := (t, lo) :: (if o.ty = .f64 then [(t + 1, hi)] else [])
        fl := (lanesOf x.active).foldl (fun fl i => fl ||| (acwrLane o x i).2) 0 })

/-! ACSCL, ACMAX, ACEXP: FP32 and FP16 tiles. -/

def floatTag (tag : AccFmt) : Bool := tag == .fp32 || tag == .fp16

/-- One element of ACSCL. -/
def acsclElem (w : Wg) (o : LaneOp) (t : Nat) (tag : AccFmt) (x : Ins) (i c : Nat) : Nat × Nat :=
  let p := productFlags (w.accValue t i c) (fmtF32.decode (x.a i))
  let r := accSaturate tag p.1.isInf p.1.neg ((accFmt tag).ofVal (accMode x.g o i c) p.1)
  (r.1, r.2 ||| p.2)

/-- The flags of all columns of the active rows. -/
def tileFlags (active : LaneMask) (f : Nat → Nat → Nat) : Nat :=
  (lanesOf active).foldl (fun fl i => (List.range 64).foldl (fun fl c => fl ||| f i c) fl) 0

/-- The token of ACSCL .wait: 32 bits of a broadcast register or of an immediate. -/
def acsclToken (g : Group) : Operand → BitVec 32
  | .b r => (getVec g.b r.toNat 0).setWidth 32
  | .imm n => n.signExtend 32
  | _ => 0

/-- ACSCL on the current group. -/
def State.acscl (s : State) (o : LaneOp) : State :=
  let wait := o.mods == 1
  let token := (s.curGroup.map fun g => acsclToken g o.b).getD 0
  let t := (accTiles o o.d).headD 0
  s.runAcc (.acscl o) o { d := 32, a := some 32, b := none } o.d (if wait then some token else none) wait floatTag false false
    fun w x =>
      match w.tile t with
      | none => {}
      | some y =>
        let f := acsclElem w o t y.tag x
        { tiles := [(t, { y.rows x.active (fun i c => (f i c).1) with corrected := y.corrected || wait })]
          fl := tileFlags x.active fun i c => (f i c).2 }

def execAcscl (o : LaneOp) (s : State) : Host.Outcome State Fault Refusal := .next (s.acscl o)

/-- The larger of two elements under R149, with its flags. -/
def rowMax (f : Fmt) : List Nat → Nat × Nat
  | [] => (0, 0)
  | [a] => (a, 0)
  | a :: b :: l =>
    let r := rowMax f (b :: l)
    let m := f.minNum true false a r.1
    (m.1, m.2 ||| r.2)

/-- The words of a row. -/
def Tile.row (y : Tile) (i : Nat) : List Nat := (List.range 64).map fun c => (y.elem i c).toNat % 2 ^ (accFmt y.tag).width

/-- One lane of ACMAX: a value of the tile's format is exact in FP32. -/
def acmaxLane (y : Tile) (i : Nat) : Nat × Nat :=
  let f := accFmt y.tag
  let r := rowMax f (y.row i)
  (if y.tag = .fp16 then (fmtF32.ofVal Mode.rne (f.decode r.1)).1 else r.1, r.2)

def execAcmax (o : LaneOp) (s : State) : Host.Outcome State Fault Refusal :=
  let t := (accTiles o o.a).headD 0
  .next (s.runAcc (.acmax o) o { d := 32 } o.a none false floatTag false false fun w x =>
    accLanes x fun i => ((w.tile t).map fun y => acmaxLane y i).getD (0, 0))

/-- One element of ACEXP: y rounded under the mode, then 2^y to nearest even in the tile's format. -/
def acexpElem (w : Wg) (o : LaneOp) (t : Nat) (tag : AccFmt) (x : Ins) (i c : Nat) : Nat × Nat :=
  let y := fmtF32.fma (accMode x.g o i c) (fmtF32.decode (x.b i)) (w.accValue t i c) (fmtF32.decode (x.c i)).negate
  let v := fmtF32.decode y.1
  let r := accSaturate tag v.isInf false ((accFmt tag).exp2 Mode.rne v)
  (r.1, r.2 ||| y.2)

/-- The sum of a row's new values, rounded once into FP32. -/
def acexpSum (o : LaneOp) (tag : AccFmt) (x : Ins) (i : Nat) (row : Nat → Nat) : Nat × Nat :=
  fmtF32.ofVal (accMode x.g o i 64) (exactSum ((List.range 64).map fun c => (accFmt tag).decode (row c)))

def execAcexp (o : LaneOp) (s : State) : Host.Outcome State Fault Refusal :=
  let t := (accTiles o o.a).headD 0
  .next (s.runAcc (.acexp o) o { d := 32, b := some 32, c := some 32 } o.a none false floatTag false false fun w x =>
    match w.tile t with
    | none => {}
    | some y =>
      let f := acexpElem w o t y.tag x
      let z := y.rows x.active fun i c => (f i c).1
      let sum := fun (i : Nat) => acexpSum o y.tag x i fun c => (z.elem i c).toNat % 2 ^ (accFmt y.tag).width
      { d := fun i => (sum i).1, tiles := [(t, z)]
        fl := tileFlags x.active (fun i c => (f i c).2) ||| (accLanes x sum).fl })

/-- ACSCL_WAIT_END: an ACSCL .wait at the queue head of a group finds its token reached, and executes (R321). -/
def execAcsclWaitEnd (wg : WgIx) (g : GroupIx) (s : State) : Host.Outcome State Fault Refusal :=
  let t := s.at wg g 0
  match t.curGroup.bind fun (x : Group) => x.laneQ.head?.map fun (e : LaneEntry) => ((x, e.instr) : Group × Instr) with
  | some (x, .acscl o) =>
    let tile := (t.wg? wg).bind fun w => w.tile ((accTiles o o.d).headD 0)
    if t.running wg && x.head.waiting && !x.head.stopped && o.mods == 1 && tokenReached tile (acsclToken x o.b) then
      (t.acscl o).wakeEnd
    else .next s
  | _ => .next s

end Sys2Proof.Machine
end

