-- ==== Sys2Proof/Machine/Sluice.lean ====
section
/-! DEFINITION. The sluice: CPY and CPYR, the gathering of slices into a collective, its checks, its offers and their
winners, and the steps in which it runs (R293 to R304, R373, R374, R426). -/

namespace Sys2Proof.Machine

/-! The slice record (R294). -/

def slSrc (r : List Byte) : Nat := recNat r 0x00 8
def slDst (r : List Byte) : Nat := recNat r 0x08 8
def slControl (r : List Byte) : Nat := recNat r 0x10 4
def slReduce (r : List Byte) : Nat := recNat r 0x14 4
def slArrival (r : List Byte) : Nat := recNat r 0x18 4
def slMulticast (r : List Byte) : Nat := recNat r 0x1C 4
def slFill (r : List Byte) : Nat := recNat r 0x20 8
def slExtent (r : List Byte) (d : Nat) : Nat := recNat r (0x28 + 4 * d) 4
def slSrcStride (r : List Byte) (d : Nat) : Int := signed 32 (recNat r (0x3C + 4 * d) 4)
def slDstStride (r : List Byte) (d : Nat) : Int := signed 32 (recNat r (0x50 + 4 * d) 4)
def slBefore (r : List Byte) (d : Nat) : Nat := recNat r (0x64 + 2 * d) 2
def slAfter (r : List Byte) (d : Nat) : Nat := recNat r (0x6E + 2 * d) 2
def slConv (r : List Byte) : Nat := recNat r 0x78 8

def slRank (r : List Byte) : Nat := fld (slControl r) 0 3 + 1
/-- The dimensions that the record has fields for. -/
def slDims (r : List Byte) : Nat := min (slRank r) 5
def slEsize (r : List Byte) : Nat := 2 ^ fld (slControl r) 5 2
def slCount (r : List Byte) : Nat := fld (slControl r) 7 5 + 1
def slHint (r : List Byte) : Nat := fld (slControl r) 15 3
def slScopeCode (r : List Byte) : Nat := fld (slControl r) 12 3
def slScope (r : List Byte) : Scope := (scopeOf (slScopeCode r)).getD .grp
def slTrap (r : List Byte) : Bool := bit (slControl r) 18
def slMc (r : List Byte) : Bool := bit (slControl r) 19
def slArr (r : List Byte) : Bool := bit (slControl r) 20
def slHasConv (r : List Byte) : Bool := bit (slControl r) 21

/-- The dimensions: extents of 1 or more below the rank, everything zero at and above it. -/
def sliceDimsOk (r : List Byte) : Bool :=
  slRank r ≤ 5 && (List.range 5).all fun d =>
    if d < slRank r then slExtent r d != 0
    else slExtent r d == 0 && slSrcStride r d == 0 && slDstStride r d == 0 && slBefore r d == 0 && slAfter r d == 0

/-- The arrival, multicast, fill and conv fields. A conv slice has rank 2 (R313). -/
def sliceFieldsOk (r : List Byte) : Bool :=
  fld (slControl r) 22 10 == 0 && fld (slControl r) 3 2 == 0 && slScopeCode r ≤ 5 &&
    (if slArr r then fld (slArrival r) 14 18 == 0 && fld (slArrival r) 4 10 != 0 else slArrival r == 0) &&
    (if slMc r then fld (slMulticast r) 8 24 == 0 else slMulticast r == 0) && slFill r < 2 ^ (8 * slEsize r) &&
    (if slHasConv r then slConv r % 64 == 0 && slRank r == 2 else slConv r == 0)

/-- The reduce word of a CPYR slice. -/
def sliceReduceOk (r : List Byte) : Bool :=
  match parseReduce (slReduce r) with
  | none => false
  | some x =>
    tyBits x.ty == 8 * slEsize r && (!x.exact || tyFloat x.ty) && (x.exact || (!x.csum && !x.ximg)) &&
      (!x.ximg || (x.op == 0 && 4 ≤ slEsize r && slDst r % 16 == 0)) && !slMc r

/-- A window that src and dst may lie in. -/
def sliceWindowOk (va : Nat) : Bool :=
  match windowOf va with
  | .ordinary | .vault | .view => true
  | .lanePrivate | .reserved => false

/-- The checks of R296 on one slice that lead to REJECTED, but for those on the whole collective. multicast is that of the
collective. -/
def sliceOk (reduce multicast : Bool) (r : List Byte) : Bool :=
  sliceDimsOk r && sliceFieldsOk r && (if reduce then sliceReduceOk r else slReduce r == 0) &&
    (!(multicast || slMc r) || windowOf (slDst r) == .vault) && sliceWindowOk (slSrc r) && sliceWindowOk (slDst r)

/-! Offers (R297, R298). -/

/-- One offer: its slice, group and position in linear order, its destination address and bytes, and its source address,
none for padding. -/
structure CopyOffer where
  slice : Nat
  group : Nat
  pos : Nat
  dst : Nat
  size : Nat
  src : Option Nat
  deriving DecidableEq, Repr

/-- Bytes of a destination position: of an image under XIMG. -/
def sliceUnit (x : Slice) : Nat :=
  if x.reduce then ((parseReduce (slReduce x.record)).map Reduce.bytes).getD (slEsize x.record) else slEsize x.record

def addr64 (base : Nat) (off : Int) : Nat := wrap 64 ((base : Int) + off)

/-- Positions in each dimension. -/
def sliceDims (r : List Byte) : List Nat :=
  (List.range (slDims r)).map fun d => slBefore r d + slExtent r d + slAfter r d

/-- The source address at valid coordinates, or none where the conv record makes them padding. -/
def sliceSource (x : Slice) (i : List Nat) : Option Nat :=
  let r := x.record
  if slHasConv r then
    ((parseConv x.conv).element (i.getD 1 0) (i.getD 0 0)).map fun e => (slSrc r + e * slEsize r) % 2 ^ 64
  else
    some (addr64 (slSrc r) ((i.zipIdx.map fun y => (y.1 : Int) * slSrcStride r y.2).foldl (· + ·) 0 * slEsize r))

/-- The offer of one destination position. -/
def sliceOffer (x : Slice) (ix pos : Nat) : CopyOffer :=
  let r := x.record
  let j := viewCoords (sliceDims r) pos
  let inside := j.zipIdx.all fun y => slBefore r y.2 ≤ y.1 && y.1 < slBefore r y.2 + slExtent r y.2
  let i := j.zipIdx.map fun y => y.1 - slBefore r y.2
  { slice := ix, group := x.group, pos := pos
    dst := addr64 (slDst r) ((j.zipIdx.map fun y => (y.1 : Int) * slDstStride r y.2).foldl (· + ·) 0 * sliceUnit x)
    size := sliceUnit x, src := if inside then sliceSource x i else none }

/-- A slice's offers; padding of a CPYR offers nothing. -/
def sliceOffers (x : Slice) (ix : Nat) : List CopyOffer :=
  ((List.range ((sliceDims x.record).foldl (· * ·) 1)).map (sliceOffer x ix)).filter fun o => !x.reduce || o.src.isSome

/-- Cut a list into runs of n. -/
def runsOf {α : Type} (n : Nat) : Nat → List α → List (List α)
  | 0, _ => []
  | _ + 1, [] => []
  | k + 1, l => l.take n :: runsOf n k (l.drop n)

/-- Positions of a chunk: at most 4 KiB read and at most 4 KiB written; with CSUM, 4 KiB of source (R300, R373). -/
def chunkLength (x : Slice) : Nat :=
  let csum := x.reduce && bit (slReduce x.record) 8
  if csum then 4096 / slEsize x.record else min (4096 / slEsize x.record) (4096 / sliceUnit x)

/-! Multicast (R301). The first slice's fields are the collective's (log 34). -/

def copyFirst (xs : List Slice) : List Byte := (xs.head?.map (·.record)).getD []

/-- The ranks that every destination byte goes to, or none without MC. -/
def copyRanks (xs : List Slice) : List (Option Nat) :=
  if slMc (copyFirst xs) then ((List.range 8).filter fun k => bit (slMulticast (copyFirst xs)) k).map some else [none]

/-- An address with its rank field replaced. -/
def atRank (va : Nat) (rank : Option Nat) : Nat :=
  match rank with
  | none => va
  | some k => setFld va 32 8 k

/-- The chunks of a collective, slices in the order in which they arrived. Under MC the rank field of dst is ignored (R301). -/
def copyChunks (xs : List Slice) : List (List CopyOffer) :=
  let plain (o : CopyOffer) : CopyOffer := if slMc (copyFirst xs) then { o with dst := atRank o.dst (some 0) } else o
  xs.zipIdx.flatMap fun y => let os := (sliceOffers y.1 y.2).map plain; runsOf (chunkLength y.1) os.length os

/-- One offer beats another (R298). -/
def CopyOffer.beats (a b : CopyOffer) : Bool :=
  let va := boolNat a.src.isSome
  let vb := boolNat b.src.isSome
  if va != vb then vb < va
  else
    let da := if va = 1 then a.dst else 0
    let db := if va = 1 then b.dst else 0
    if da != db then db < da
    else if a.group != b.group then b.group < a.group
    else b.pos < a.pos

/-! The checks (R296). -/

/-- A vault byte that an access names, by the vault window or behind a view, lies outside its allocation (R210, R222). -/
def State.vaultOutside (s : State) (ag : Agent) (va n : Nat) : Bool :=
  match windowOf va with
  | .vault => (s.vaultTarget ag va n).isNone
  | .view =>
    match s.descOf ag va (fld va 40 16) with
    | .error _ => false
    | .ok d =>
      match d.ebits with
      | none => false
      | some ebits =>
        d.fieldsOk && d.kind != some .kvmap && (List.range n).any fun i =>
          let o := fld va 0 40 + i
          match s.denseElem ag d ebits va (8 * o / ebits) with
          | .ok (.va a _) =>
            let at_ := (d.baseVa a + o % max 1 (ebytes ebits)) % 2 ^ 64
            (d.vault || windowOf at_ == .vault) && (s.vaultTarget ag at_ 1).isNone
          | _ => false
  | _ => false

/-- Some vault byte of a slice lies outside. The views are looked through as the collective starts (log 34). -/
def State.sliceOutside (s : State) (ag : Agent) (views : Bool) (ranks : List (Option Nat)) (x : Slice) : Bool :=
  let out (va n : Nat) : Bool := (views || windowOf va != .view) && s.vaultOutside ag va n
  (sliceOffers x 0).any fun o =>
    (match o.src with | some va => out va (slEsize x.record) | none => false) || ranks.any fun k => out (atRank o.dst k) o.size

/-- A slice fails a check of the REJECTED list as it arrives, f being the collective's first slice and k and num its number. -/
def sliceRejected (f x : Slice) (k num : Nat) : Bool :=
  let r := x.record
  !sliceOk x.reduce (slMc f.record) r || slCount r != slCount f.record || x.reduce != f.reduce || x.start != f.start ||
    slScopeCode r != slScopeCode f.record || slReduce r != slReduce f.record || neverStarts k num x.start

/-- The WGERR bits of the checks that a slice failed. -/
def State.sliceErrors (s : State) (w : WgIx) (x : Slice) : State :=
  let s := if x.rejected then s.setWgerrOf w stRejected else s
  if x.outside then s.setWgerrOf w stBounds else s

/-- The status that a collective's slices earn. -/
def copyStatus (xs : List Slice) : Nat :=
  if xs.any (·.rejected) then stRejected else if xs.any (·.outside) then stBounds else stOk

/-! Gathering (R293, R295). -/

def Cmd.slices (c : Cmd) : List Slice :=
  match c.kind with
  | .copy xs _ _ => xs
  | _ => []

/-- The open collective of a counter. -/
def Wg.openCopy (x : Wg) (k : Nat) : Option Cmd := x.cmds.find? fun c => c.counter == k && c.lacksSlices

/-- The issuer of a command's requests. -/
def cmdIssuer (r : CmdRef) : Issuer := .command r.wg r.counter r.num

/-- The agent of a slice's accesses. -/
def State.copyAgent (s : State) (r : CmdRef) (group : GroupIx) : Agent :=
  { s.wgAgent r.wg group with
    images := (((s.cmd? r).bind fun c => c.slices.find? fun x => x.group == group).map (·.images)).getD []
    issuer := cmdIssuer r }

/-- A slice arrives at the collective of a number: its checks, WGERR, its TRAP bit. -/
def State.joinSlice (s : State) (r : CmdRef) (x : Slice) : State :=
  let first := (((s.cmd? r).map Cmd.slices).bind (·.head?)).getD x
  let x := { x with rejected := sliceRejected first x r.counter r.num
                    outside := s.sliceOutside (s.copyAgent r x.group) false (copyRanks [first]) x }
  let s := (s.modCmd r fun c =>
    { c with kind := .copy (c.slices ++ [x]) false 0, trap := c.trap || slTrap x.record }).sliceErrors r.wg x
  if ((s.cmd? r).map Cmd.lacksSlices).getD true then s else s.wakeCore s.curCore

/-- The number of the command issued last on a counter. -/
def State.issuedOn (s : State) (w : WgIx) (k : Nat) : Nat := ((s.wg? w).map fun x => (x.counter k).issued).getD 0

/-- The completion record that a register names: none with s0 (R293). -/
def State.recordOf (s : State) (r : SReg) : Option Nat := if r = 0 then none else some (s.rs r).toNat

/-- CPY and CPYR. -/
def State.sluice (s : State) (reduce : Bool) (k : KReg) (sa sb : SReg) (st : Option StartCond) : State :=
  let w := s.cur.wg
  let open_ := (s.wg? w).bind fun x => x.openCopy k.toNat
  let twice := (open_.map fun c => c.slices.any fun x => x.group == s.cur.g).getD false
  if s.fenceWaits || twice || (open_.isNone && !s.commandRoom) then s.stall
  else
    match s.readRecord2 (s.rs sa).toNat 128 16 (s.rs sb).toNat with
    | .error t => t
    | .ok (s, r) =>
      let start := st.map fun c => (c.counter.toNat, (s.rs c.value).toNat)
      let x : Slice := { group := s.cur.g, reduce := reduce, start := start, record := r, completion := s.recordOf sb,
                         rejected := false, outside := false, conv := [], images := [] }
      let s := s.release s.curCore (slScope r)
      match open_ with
      | some c => (s.joinSlice ⟨w, c.counter, c.num⟩ x).next4
      | none =>
        let s := s.newCmd w k.toNat (.copy [] false 0) start (slScope r) false
        (s.joinSlice ⟨w, k.toNat, s.issuedOn w k.toNat⟩ x).next4

def execCpy (k : KReg) (sa sb : SReg) (start : Option StartCond) (s : State) : Host.Outcome State Fault Refusal :=
  .next (s.sluice false k sa sb start)

def execCpyr (k : KReg) (sa sb : SReg) (start : Option StartCond) (s : State) : Host.Outcome State Fault Refusal :=
  .next (s.sluice true k sa sb start)

/-! Arrivals (R302). -/

/-- The workgroups whose barrier a collective arrives on. -/
def State.copyTargets (s : State) (w : WgIx) (xs : List Slice) : List WgIx :=
  let f := copyFirst xs
  if slMc f then (copyRanks xs).filterMap fun k => k.bind (s.rankWg w)
  else if windowOf (slDst f) = .vault then ((s.vaultTarget (s.wgAgent w 0) (slDst f) 1).map fun x => [x.1]).getD []
  else [w]

def State.copyArrive (s : State) (w : WgIx) (xs : List Slice) : State :=
  let a := slArrival (copyFirst xs)
  if slArr (copyFirst xs) then
    (s.copyTargets w xs).foldl (fun (s : State) t => s.engineArrive t (fld a 0 4) (fld a 4 10)) s
  else s

/-! Where offers go, and which wins a byte (R298, R301). -/

/-- An offer to one rank: its address there, and what that resolves to. -/
structure CopyDest where
  offer : CopyOffer
  va : Nat
  look : Look

def CopyDest.refs (d : CopyDest) : List ByteRef :=
  match d.look.res with
  | .ok r => r.refs
  | .error _ => []

/-- What names a destination element: its bytes, or its address where it has none. -/
def CopyDest.key (d : CopyDest) : List ByteRef ⊕ Nat :=
  match d.look.res with
  | .ok r => .inl r.refs
  | .error _ => .inr d.va

/-- The destinations of some offers; a read-modify-write checks as an atomic does. -/
def State.copyDests (s : State) (r : CmdRef) (xs : List Slice) (os : List CopyOffer) : List CopyDest :=
  let rmw := (xs.head?.map (·.reduce)).getD false
  os.flatMap fun o => (copyRanks xs).map fun k =>
    let va := atRank o.dst k
    ⟨o, va, s.resolve (s.copyAgent r o.group) { Acc.store o.size with strong := rmw } va⟩

/-- The bytes that a destination receives from its offer: each half byte from the offer that beats the others that name it. -/
def CopyDest.wins (all : List CopyDest) (d : CopyDest) : List ByteRef :=
  let rivals := all.filter fun e => e.offer.beats d.offer
  d.refs.map (ByteRef.only fun h => rivals.all fun e => !(e.refs.any fun r => r.halves.contains h))

/-! Running (R297 to R303). -/

/-- One write of a running copy: the offer's slice, what the element becomes, its places, whether its peer bytes go in one request,
whether a peer takes it, the access's traces, and what stands in its way. -/
structure CopyPiece where
  slice : Nat
  group : GroupIx
  make : List Byte ⊕ List Nat
  refs : List ByteRef
  far : Bool
  look : Look
  got : LaneGot

/-- The record of a slice. -/
def sliceRecord (xs : List Slice) (n : Nat) : List Byte := ((xs[n]?).map (·.record)).getD []

/-- The source bytes of an offer: its element, or the fill. -/
def State.copySource (s : State) (r : CmdRef) (xs : List Slice) (o : CopyOffer) : State × LaneGot :=
  let rec_ := sliceRecord xs o.slice
  match o.src with
  | none => (s, .bytes (bytesOfNat (slEsize rec_) (slFill rec_)))
  | some va => s.agentRead (s.copyAgent r o.group) (Acc.load (slEsize rec_)) ⟨slHint rec_, true⟩ va

/-- A CPY's destination bytes overlap its source bytes: they are then unpredictable (R5, R297). -/
def State.copyOverlaps (s : State) (r : CmdRef) (all : List CopyDest) : Bool :=
  let to_ := (all.flatMap fun d => placesOf d.refs).eraseDups
  all.any fun d => match d.offer.src with
    | none => false
    | some va =>
      match (s.resolve (s.copyAgent r d.offer.group) (Acc.load d.offer.size) va).res with
      | .ok x => (placesOf x.refs).any to_.contains
      | .error _ => false

/-- A plain write of the bytes that an offer wins, its requests to a peer made. -/
def State.copyPut (s : State) (r : CmdRef) (all : List CopyDest) (d : CopyDest) (bs : List Byte) : State × List CopyPiece :=
  let refs := d.wins all
  let piece (far : Bool) (got : LaneGot) : List CopyPiece := [⟨d.offer.slice, d.offer.group, .inl bs, refs, far, d.look, got⟩]
  match d.look.res with
  | .error c => (s, piece false (.cond (c.toTrap false true)))
  | .ok x =>
    if (placesOf refs).isEmpty then (s, [])
    else if hasPeer refs then
      match s.remoteBatch (cmdIssuer r) (s.ctxOf r.wg) engineSluice (peerStores x.gathers (peerElems 0 refs) bs) with
      | (s, none) => (s, piece true .wait)
      | (s, some os) =>
        match os.findSome? (outcomeTrap d.va true) with
        | some t => (s, piece true (.cond t))
        | none => (s, piece true (.bytes []))
    else (s, piece false (.bytes []))

/-- The writes of one offer to every rank. -/
def State.copyOffer (s : State) (r : CmdRef) (xs : List Slice) (all : List CopyDest) (free : Bool) (ds : List CopyDest) :
    State × List CopyPiece :=
  match ds with
  | [] => (s, [])
  | d :: _ =>
    match s.copySource r xs d.offer with
    | (s, .bytes bs) =>
      let bs := if free then bs.zipIdx.map fun b => s.freeByte (2 ^ 83 + d.offer.dst + b.2) else bs
      ds.foldl (fun (acc : State × List CopyPiece) d =>
        let (s, ps) := acc.1.copyPut r all d bs
        (s, acc.2 ++ ps)) (s, [])
    | (s, got) => (s, ds.map fun d => ⟨d.offer.slice, d.offer.group, .inl [], [], false, d.look, got⟩)

/-! CPYR. -/

def copyReduce (xs : List Slice) : Option Reduce := parseReduce (slReduce (copyFirst xs))

/-- Take one of a list by a free number. -/
def takeNth {α : Type} (n : Nat) (l : List α) : Option (α × List α) := (l[n % l.length]?).map fun a => (a, l.eraseIdx (n % l.length))

/-- A list in an order the spec leaves open (R299): each element taken by a free number. -/
def State.shuffle {α : Type} (s : State) : Nat → List α → List α
  | 0, l => l
  | n + 1, l => match takeNth (s.freeNat (2 ^ 80 + n)) l with
    | some (a, rest) => a :: s.shuffle n rest
    | none => []

/-- Under EXACT without XIMG an element is rounded once, with the chunk of its last offer, and takes every offer of the collective
(log 34). -/
def Reduce.once (x : Reduce) : Bool := x.exact && !x.ximg

/-- The destination elements that some offers reduce into, each with its offers. -/
def reduceTargets (x : Reduce) (before now after : List CopyDest) : List (CopyDest × List CopyOffer) :=
  let heads := now.foldl (fun (l : List CopyDest) d => if l.any fun e => e.key == d.key then l else l ++ [d]) []
  (heads.filter fun d => !x.once || after.all fun e => e.key != d.key).map fun d =>
    (d, (((if x.once then before else []) ++ now).filter fun e => e.key == d.key).map (·.offer))

/-- The contributions to one element: its place, checked for writing, and the source elements. -/
def State.copyElement (s : State) (r : CmdRef) (x : Reduce) (xs : List Slice) (t : CopyDest × List CopyOffer) : State × CopyPiece :=
  let (s, gs) := t.2.foldl (fun (acc : State × List LaneGot) o =>
    let (s, g) := acc.1.copySource r xs o
    (s, acc.2 ++ [g])) (s, [])
  let vs := s.shuffle gs.length (gs.map fun g => natOfBytes g.data)
  let bad := (gs.find? LaneGot.waits).orElse fun _ => gs.find? LaneGot.failed
  let piece (refs : List ByteRef) (far : Bool) (got : LaneGot) : State × CopyPiece :=
    (s, ⟨t.1.offer.slice, t.1.offer.group, .inr vs, refs, far, t.1.look, got⟩)
  match bad, t.1.look.res with
  | some g, _ => piece [] false g
  | none, .error c => piece [] false (.cond (c.toTrap false true))
  | none, .ok y =>
    if hasPeer y.refs then piece y.refs true (.bytes [])
    else if s.pcieHost y.refs && (x.exact || x.ximg || x.op != 0 || tyFloat x.ty) then
      piece y.refs false (.cond ⟨.protection, t.1.va, false, false, true, 0⟩)
    else if y.refs.any s.refPoisoned then piece y.refs false (.cond (poisonTrap 0 false (1, s.coreOf r.wg)))
    else piece y.refs false (.bytes [])

def CopyPiece.values (p : CopyPiece) : List Nat := match p.make with | .inr vs => vs | .inl _ => []

/-- The exact sum of a chunk's source elements (R300). -/
def chunkSum (x : Reduce) (ps : List CopyPiece) : XAcc := x.exactSum XAcc.zero (ps.flatMap CopyPiece.values)

/-- The values of a chunk as they reach the reduction: an error on the way may change one element's (R300, log 34). -/
def State.reaching (s : State) (x : Reduce) (key : Nat) (ps : List CopyPiece) : List CopyPiece :=
  if s.freeBool key then
    ps.zipIdx.map fun y =>
      if y.2 = s.freeNat key % ps.length then
        { y.1 with make := .inr (y.1.values.map fun v => (v ^^^ s.freeNat (key + 1 + y.2)) % 2 ^ tyBits x.ty) }
      else y.1
  else ps

/-- The chunk as it is applied: checked with CSUM, and read again up to three times; a third mismatch fails the chunk (R300). -/
def State.checkChunk (s : State) (x : Reduce) (key : Nat) (ps : List CopyPiece) : List CopyPiece :=
  if !x.csum then ps
  else match (List.range 3).findSome? fun k =>
      let qs := s.reaching x (2 ^ 84 + 2 ^ 20 * key + 2 ^ 16 * k) ps
      if chunkSum x qs == chunkSum x ps then some qs else none with
    | some qs => qs
    | none => ps.map fun p => if p.got.failed then p else { p with got := .cond ⟨.remote, 0, false, false, true, stChecksum⟩ }

/-- The chunk that carries a chunk's elements of one owner, with the linear checksum under CSUM (R427). -/
def rchunkOf (x : Reduce) (code number : Nat) (ps : List CopyPiece) : RChunk :=
  let elems := ps.flatMap fun p => p.values.map fun v => (((peerOf p.refs).map (·.2)).getD 0, v)
  { number := number, ty := fld code 2 5, op := x.op, exact := x.exact, ximg := x.ximg, elems := elems
    csum := if x.csum then some (x.exactSum XAcc.zero (elems.map (·.2))).image else none }

/-- The RCHUNKs of a chunk are already made. -/
def State.chunkSent (s : State) (r : CmdRef) (number : Nat) : Bool :=
  s.fabric.ops.any fun o => o.issuer == cmdIssuer r && (match o.payload with | .rchunk c => c.number == number | _ => false)

/-- One RCHUNK to each owner of a chunk's remote elements (R426). -/
def State.rchunks (s : State) (r : CmdRef) (x : Reduce) (code number : Nat) (ps : List CopyPiece) : State × List CopyPiece :=
  let far := ps.filter fun p => p.far && !p.got.failed
  let owners := (far.filterMap fun p => (peerOf p.refs).map (·.1)).eraseDups
  owners.foldl (fun (acc : State × List CopyPiece) o =>
    let mine := fun (p : CopyPiece) => p.far && (peerOf p.refs).map (·.1) == some o
    let chunk := rchunkOf x code number (ps.filter fun p => mine p && !p.got.failed)
    let (s, a) := acc.1.remoteBatch (cmdIssuer r) (acc.1.ctxOf r.wg) engineSluice [(o, (chunk.elems.head?.map (·.1)).getD 0, .rchunk chunk)]
    let got : LaneGot := match a with
      | none => .wait
      | some os => match os.findSome? (outcomeTrap 0 true) with
        | some t => .cond t
        | none => .bytes []
    (s, acc.2.map fun p => if mine p && !p.got.failed then { p with got := got } else p)) (s, ps)

/-- The pieces of one chunk of a CPYR. RCHUNKs are made once every source element is there. -/
def State.reduceChunk (s : State) (r : CmdRef) (x : Reduce) (xs : List Slice) (cs : List (List CopyDest)) (number : Nat) :
    State × List CopyPiece :=
  let targets := reduceTargets x (cs.take number).flatten (cs.getD number []) (cs.drop (number + 1)).flatten
  let (s, ps) := targets.foldl (fun (acc : State × List CopyPiece) t =>
    let (s, p) := acc.1.copyElement r x xs t
    (s, acc.2 ++ [p])) (s, [])
  if ps.any fun p => p.got.waits then (s, ps)
  else s.rchunks r x (slReduce (copyFirst xs)) number (if s.chunkSent r number then ps else s.checkChunk x number ps)

/-- The destinations of each chunk. -/
def State.chunkDests (s : State) (r : CmdRef) (xs : List Slice) : List (List CopyDest) := (copyChunks xs).map (s.copyDests r xs)

/-- The pieces of chunks a to b - 1. -/
def State.copyPieces (s : State) (r : CmdRef) (xs : List Slice) (cs : List (List CopyDest)) (a b : Nat) : State × List CopyPiece :=
  match (xs.head?.map (·.reduce)).getD false, copyReduce xs with
  | true, some x =>
    (List.range (b - a)).foldl (fun (acc : State × List CopyPiece) i =>
      let (s, ps) := acc.1.reduceChunk r x xs cs (a + i)
      (s, acc.2 ++ ps)) (s, [])
  | _, _ =>
    let all := cs.flatten
    let free := s.copyOverlaps r all
    (runsOf (copyRanks xs).length all.length ((cs.take b).drop a).flatten).foldl (fun (acc : State × List CopyPiece) ds =>
      let (s, ps) := acc.1.copyOffer r xs all free ds
      (s, acc.2 ++ ps)) (s, [])

/-- Perform one piece at its home, under its slice's hint. -/
def State.applyPiece (s : State) (r : CmdRef) (xs : List Slice) (p : CopyPiece) : State :=
  let ag := s.copyAgent r p.group
  let s := s.noteAccess ag p.look
  let hint := slHint (sliceRecord xs p.slice)
  match p.make with
  | .inl bs => s.writeHinted ag hint p.refs bs
  | .inr vs =>
    match p.far, copyReduce xs with
    | false, some x => s.writeHinted ag hint p.refs (x.combine (p.refs.map (s.homeRef ag)) vs)
    | _, _ => s

/-- What chunks below b have written: the bytes that their offers won, or the elements that none of a later chunk reduces into
where those are rounded once. -/
def copyWritten (xs : List Slice) (cs : List (List CopyDest)) (b : Nat) : List ByteRef :=
  match (xs.head?.map (·.reduce)).getD false, copyReduce xs with
  | true, some x => ((cs.take b).flatten.filter fun d => !x.once || (cs.drop b).flatten.all fun e => e.key != d.key).flatMap CopyDest.refs
  | _, _ => (cs.take b).flatten.flatMap (CopyDest.wins cs.flatten)

/-- The vault granules that some destinations touch. -/
def destGranules (all ds : List CopyDest) : List (WgIx × Nat) := granulesOf (ds.flatMap (CopyDest.wins all))

/-- Distinct destination bytes (R282). -/
def bytesWritten (rs : List ByteRef) : Nat := (placesOf rs).eraseDups.length

/-- What a stage of a copy comes to: it waits for answers, it has run, or the copy has failed. -/
inductive CopyRun where
  | wait (s : State)
  | done (s : State)
  | failed (s : State) (status fault count : Nat)

/-- The pieces that a failing copy still performs: the order of accesses is open, so which is free (R303). -/
def State.survivors (s : State) (ps : List CopyPiece) : List CopyPiece :=
  (ps.zipIdx.filter fun x => !x.1.got.failed && (x.1.far || s.freeBool (2 ^ 81 + x.2))).map (·.1)

/-- Run chunks a to b - 1. A granule is set full once no later chunk touches it, and at a failure where some byte of it was written
(R302, R303). -/
def State.copyStage (s : State) (r : CmdRef) (xs : List Slice) (a b : Nat) : CopyRun :=
  let cs := s.chunkDests r xs
  let all := cs.flatten
  let (s, ps) := s.copyPieces r xs cs a b
  if ps.any fun p => p.got.waits then .wait s
  else
    let bad := ps.filter fun p => p.got.failed
    let good := if bad.isEmpty then ps else s.survivors ps
    let t := good.foldl (fun (s : State) p => s.applyPiece r xs p) s
    match bad[s.freeNat (2 ^ 82) % bad.length]? with
    | none =>
      let later := destGranules all (cs.drop b).flatten
      .done (t.setAllFull ((granulesOf ((copyWritten xs cs b).filter fun x => !(copyWritten xs cs a).contains x)).filter fun g => !later.contains g))
    | some p =>
      let written := copyWritten xs cs a ++ good.flatMap (·.refs)
      .failed ((bad.foldl (fun (s : State) p => s.noteMiss (s.copyAgent r p.group) p.look) t).setAllFull (granulesOf written))
        p.got.status.1 p.got.status.2 (bytesWritten written)

/-- The end of a copy that began: arrivals, records, the counter (R279, R302). -/
def State.copyEnd (s : State) (r : CmdRef) (c : Cmd) (status fault count : Nat) : State :=
  ((s.release c.core c.scope).copyArrive r.wg c.slices).endCmd r status fault count c.records

/-- COPY_COMPLETE: the rest of a running copy. -/
def execCopyComplete (cmd : CmdRef) (s : State) : Host.Outcome State Fault Refusal :=
  match s.cmd? cmd with
  | some ⟨k, n, .copy xs true done, start, scope, trap, core, none⟩ =>
    if !s.resident cmd.wg then .next s
    else
      let c : Cmd := ⟨k, n, .copy xs true done, start, scope, trap, core, none⟩
      let total := (copyChunks xs).length
      match s.copyStage cmd xs done total with
      | .wait t => .next t
      | .done t => .next (t.copyEnd cmd c stOk 0 (bytesWritten (copyWritten xs (s.chunkDests cmd xs) total)))
      | .failed t status fault count => .next (t.copyEnd cmd c status fault count)
  | _ => .next s

/-! Cutting a copy (R250, R373, R374). -/

/-- The coupled MX blocks that the accesses of some destinations' offers touch. -/
def State.copyBlocks (s : State) (r : CmdRef) (ds : List CopyDest) : List (Nat × Nat × Nat) :=
  ds.flatMap fun d =>
    (match d.look.res with | .ok x => x.mx | .error _ => []) ++
      (match d.offer.src with
        | some va => (match (s.resolve (s.copyAgent r d.offer.group) (Acc.load d.offer.size) va).res with
          | .ok x => x.mx
          | .error _ => [])
        | none => [])

/-- The first chunk boundary from n on that divides no coupled block: a block is read and written whole (log 34). -/
def State.wholeCut (s : State) (r : CmdRef) (cs : List (List CopyDest)) (n : Nat) : Nat :=
  ((List.range (cs.length - n)).find? fun i =>
    let later := s.copyBlocks r (cs.drop (n + i)).flatten
    (s.copyBlocks r (cs.take (n + i)).flatten).all fun k => !later.contains k).elim cs.length (n + ·)

/-- COPY_CUT: some chunks more, and the copy stops with its progress recorded. -/
def execCopyCut (cmd : CmdRef) (chunks : Nat) (s : State) : Host.Outcome State Fault Refusal :=
  match s.cmd? cmd with
  | some ⟨k, n, .copy xs true done, start, scope, trap, core, none⟩ =>
    let cs := s.chunkDests cmd xs
    let cut := s.wholeCut cmd cs (done + chunks)
    if !s.resident cmd.wg || cs.length ≤ cut then .next s
    else
      match s.copyStage cmd xs done cut with
      | .wait t => .next t
      | .done t => .next (t.modCmd cmd fun c => { c with kind := .copy xs true cut })
      | .failed t status fault count => .next (t.copyEnd cmd ⟨k, n, .copy xs true done, start, scope, trap, core, none⟩ status fault count)
  | _ => .next s

/-! Starting (R280, R295, R296). -/

/-- The conv records of a collective's slices, as the starting copy reads them. -/
def State.readConvs (s : State) (r : CmdRef) : List Slice → State × List (Slice × LaneGot)
  | [] => (s, [])
  | x :: xs =>
    let (s, got) :=
      if slHasConv x.record then s.agentRead (s.copyAgent r x.group) (Acc.load 64) ⟨slHint x.record, true⟩ (slConv x.record)
      else (s, .bytes [])
    let (s, rest) := s.readConvs r xs
    (s, ({ x with conv := got.data }, got) :: rest)

/-- The view unit has what a slice's accesses need; whether all of it is there. -/
def State.sliceReady (s : State) (r : CmdRef) (ranks : List (Option Nat)) (x : Slice) : State × Bool :=
  (sliceOffers x 0).foldl (fun (acc : State × Bool) o =>
    let ask (acc : State × Bool) (va n : Nat) : State × Bool :=
      let y := acc.1.viewReady (acc.1.copyAgent r x.group) (Acc.load n) va
      (y.1, acc.2 && y.2)
    let acc := match o.src with | some va => ask acc va (slEsize x.record) | none => acc
    ranks.foldl (fun acc k => ask acc (atRank o.dst k) o.size) acc) (s, true)

/-- The slices of a starting copy with the descriptors they name, read once, and the last checks. -/
def State.startSlices (s : State) (r : CmdRef) (xs : List Slice) : List Slice :=
  xs.map fun x =>
    let images := s.imagesOf (s.copyAgent r x.group) [slSrc x.record, slDst x.record]
    let ag := { s.copyAgent r x.group with images := images }
    { x with images := images
             rejected := x.rejected || (slHasConv x.record && convMalformed x.conv (slEsize x.record))
             outside := x.outside || s.sliceOutside ag true (copyRanks xs) x }

/-- COLLECTIVE_START: a collective complete in slices is refused, or starts once its start condition holds. -/
def execCollectiveStart (cmd : CmdRef) (s : State) : Host.Outcome State Fault Refusal :=
  match s.cmd? cmd with
  | some ⟨k, n, .copy xs false done, start, scope, trap, core, none⟩ =>
    let c : Cmd := ⟨k, n, .copy xs false done, start, scope, trap, core, none⟩
    if c.lacksSlices || !s.resident cmd.wg then .next s
    else if copyStatus xs ≠ stOk then .next (s.endCmd cmd (copyStatus xs) 0 0 c.records)
    else if !s.startHolds cmd.wg start then .next s
    else
      let (t, ys) := s.readConvs cmd xs
      if ys.any fun y => y.2.waits then .next t
      else
        match ys.find? fun y => y.2.failed with
        | some y => .next (t.copyEnd cmd c y.2.status.1 y.2.status.2 0)
        | none =>
          let zs := ys.map (·.1)
          let ready := zs.foldl (fun (acc : State × Bool) z =>
            let y := acc.1.sliceReady cmd (copyRanks zs) z
            (y.1, acc.2 && y.2)) (t, true)
          if !ready.2 then .next ready.1
          else
            let t := ready.1
            let zs := t.startSlices cmd zs
            let t := zs.foldl (fun (s : State) z => s.sliceErrors cmd.wg z) t
            if copyStatus zs ≠ stOk then .next (t.endCmd cmd (copyStatus zs) 0 0 c.records)
            else .next (t.modCmd cmd fun c => { c with kind := .copy zs true 0 })
  | _ => .next s

end Sys2Proof.Machine
end

