-- ==== Sys2Proof/Machine/Bank.lean ====
section
/-! DEFINITION. Bank commands: their records, their issue, their turns on the pseudo-channels and their completion
(R330 to R339, R344 to R350). -/

namespace Sys2Proof.Machine

/-! Records (R331, R335, R337). -/

def bkAnchor (r : List Byte) : Nat := recNat r 0x00 8
def bkStride (r : List Byte) : Int := signed 64 (recNat r 0x08 8)
def bkControl (r : List Byte) : Nat := recNat r 0x10 4
def bkLen0 (r : List Byte) : Nat := recNat r 0x14 4
def bkMembers (r : List Byte) : Nat := fld (bkControl r) 0 6 + 1
def bkCounter (r : List Byte) : Nat := fld (bkControl r) 6 4
def bkScopeCode (r : List Byte) : Nat := fld (bkControl r) 10 3
def bkTrap (r : List Byte) : Bool := bit (bkControl r) 13
def bkRel (r : List Byte) : Bool := bit (bkControl r) 14
def bkScope (r : List Byte) : Scope := (scopeOf (bkScopeCode r)).getD .grp

def bkCode (r : List Byte) : Nat := recNat r 0x18 8
def bkCount (r : List Byte) : Nat := recNat r 0x20 4
def bkStart (r : List Byte) : Nat := recNat r 0x24 4

def bkVector (r : List Byte) : Nat := recNat r 0x18 8
def bkVlen (r : List Byte) : Nat := recNat r 0x20 4
def bkEntry (r : List Byte) : Nat := recNat r 0x24 4
def bkOp1 (r : List Byte) : Nat := recNat r 0x28 8
def bkLen1 (r : List Byte) : Nat := recNat r 0x30 4
def bkRlen (r : List Byte) : Nat := recNat r 0x34 4
def bkResult (r : List Byte) : Nat := recNat r 0x38 8

def pageBytes : Nat := 2 ^ 21

/-- The rules of the header. -/
def bkHeaderOk (k : BankKind) (r : List Byte) : Bool :=
  fld (bkControl r) 15 17 == 0 && bkScopeCode r < 6 && bkStride r % (pageBytes : Int) == 0 &&
    (bkStride r != 0 || bkMembers r == 1) && (if k = .run then bkLen0 r != 0 else bkLen0 r == 0 && !bkRel r)

/-- The rules of the fields after it. -/
def bkFieldsOk (k : BankKind) (r : List Byte) (words : List Nat) : Bool :=
  match k with
  | .load =>
    allZero (recBytes r 0x28 24) && bkCode r % 4 == 0 && 1 ≤ bkCount r && bkCount r ≤ 256 && bkStart r ≤ 255 &&
      bkStart r + bkCount r ≤ 256 && words.all fun w => match decodeBank w with | .ok _ => true | .error _ => false
  | .fence => allZero (recBytes r 0x18 40)
  | .run =>
    bkVlen r % 32 == 0 && bkVlen r ≤ 2048 && bkEntry r < 256 && (bkOp1 r == 0) == (bkLen1 r == 0) && bkRlen r % 256 == 0 &&
      bkRlen r ≤ 2 ^ 31 && (bkRlen r != 0 || bkResult r == 0)

/-! Ranges (R332, R337, R338). -/

/-- Where a range lies: on this device's banks or a peer's, by its locator; none when it does not lie in one CC page. -/
abbrev BankPlace := Option (Option Nat × Nat)

/-- Translate the start of a range of n bytes; its faults trap, and a range outside one CC page is refused later. Only the
page of its start is translated (log 38). -/
def State.bankRange (s : State) (va n : Nat) (write : Bool) : Except (Cond × Bool) BankPlace :=
  if windowOf va != .ordinary then .error (⟨.address, va, false⟩, write)
  else
    match s.translate s.agent va with
    | .error m => .error (⟨.page, va, m⟩, write)
    | .ok l =>
      match permCond l (if write then Acc.store 1 else Acc.load 1) with
      | some c => .error (⟨c, va, false⟩, write)
      | none =>
        let pa := l.pa + (va - l.base)
        let inside := (va - l.base) + n ≤ l.size && pa % pageBytes + n ≤ pageBytes
        match l.target with
        | .cc => .ok (if inside then some (none, pa) else none)
        | .peer d _ => .ok (if inside && pa < 2 ^ 39 then some (some d, pa) else none)
        | _ => .ok none

/-- A range of no bytes is neither translated nor checked. -/
def State.bankRange0 (s : State) (va n : Nat) (write : Bool) : Except (Cond × Bool) BankPlace :=
  if n = 0 then .ok (some (none, 0)) else s.bankRange va n write

/-- The three ranges of a member. -/
abbrev MemberPlaces := BankPlace × BankPlace × BankPlace

/-- The address of a field for member j. -/
def memberVa (r : List Byte) (field j : Nat) : Nat := wrap 64 ((field : Int) + (j : Int) * bkStride r)

/-- One range of a command: its start, its length, and whether it is written. -/
abbrev BankSpan := Nat × Nat × Bool

/-- The ranges of one member, in the record's order; only a run uses those of no bytes as nothing. -/
def memberSpans (k : BankKind) (r : List Byte) (j : Nat) : BankSpan × BankSpan × BankSpan :=
  ((memberVa r (bkAnchor r) j, if k = .run then max 1 (bkLen0 r) else 1, false),
   (memberVa r (bkOp1 r) j, if k = .run then bkLen1 r else 0, true),
   (memberVa r (bkResult r) j, if k = .run then bkRlen r else 0, true))

def vectorSpan (k : BankKind) (r : List Byte) : BankSpan := (bkVector r, if k = .run then bkVlen r else 0, false)

/-- Every range of nonzero length of a command (R332). -/
def bankSpans (k : BankKind) (r : List Byte) : List BankSpan :=
  (((List.range (bkMembers r)).flatMap fun j => let m := memberSpans k r j
    [m.1, m.2.1, m.2.2]) ++ [vectorSpan k r]).filter fun x => x.2.1 != 0

/-- The condition that a command's ranges report: the first of R355 over them all, then the first in the record's order. -/
def State.bankFault (s : State) (k : BankKind) (r : List Byte) : Option (Cond × Bool) :=
  let cs := (bankSpans k r).filterMap fun x => match s.bankRange x.1 x.2.1 x.2.2 with
    | .error c => some c
    | .ok _ => none
  least (fun a b => condRank a.1.cls < condRank b.1.cls) cs

def State.spanPlace (s : State) (x : BankSpan) : BankPlace := (s.bankRange0 x.1 x.2.1 x.2.2).toOption.getD none

/-- Where the ranges of every member lie, once none of them faults. -/
def State.bankMembers (s : State) (k : BankKind) (r : List Byte) : List MemberPlaces :=
  (List.range (bkMembers r)).map fun j => let m := memberSpans k r j
    (s.spanPlace m.1, s.spanPlace m.2.1, s.spanPlace m.2.2)


def placePa (p : BankPlace) : Nat := (p.map (·.2)).getD 0
def placeDev (p : BankPlace) : Option Nat := p.bind (·.1)

/-- A used range lies in a CC page of the member's pseudo-channel and device. -/
def rangeWith (a p : BankPlace) (n : Nat) : Bool := n == 0 || (p.isSome && placeDev p == placeDev a && pcOf (placePa p) == pcOf (placePa a))

/-- The checks of R338 on the ranges; the members of a command on a peer are all on that peer (log 39). -/
def bankPlacesOk (k : BankKind) (r : List Byte) (ms : List MemberPlaces) (vec : BankPlace) : Bool :=
  let dev := (ms.head?.map fun m => placeDev m.1).getD none
  (ms.all fun m => m.1.isSome && placeDev m.1 == dev && rangeWith m.1 m.2.1 (bkLen1 r) && rangeWith m.1 m.2.2 (bkRlen r)) &&
    (k != .run || ((bkVlen r == 0 || (vec.isSome && placeDev vec == dev)) &&
      (ms.map fun m => pcOf (placePa m.1)).eraseDups.length == ms.length))

def rangeOf (p : BankPlace) (n : Nat) : Range := ⟨placePa p / pageBytes * pageBytes, placePa p % pageBytes, n⟩

/-- The payload of a command sent to a peer: the vector's locator, each member's, then the words (log 39). -/
def farPayload (ms : List MemberPlaces) (vec : BankPlace) (words : List Nat) : List Byte :=
  bytesOfNat 8 (placePa vec) ++
    (ms.flatMap fun m => bytesOfNat 8 (placePa m.1) ++ bytesOfNat 8 (placePa m.2.1) ++ bytesOfNat 8 (placePa m.2.2)) ++
    words.flatMap (bytesOfNat 4)

/-! Issue (R332, R333, R336, R346). -/

/-- A command built from its record and its translated ranges. -/
def bankCmdOf (id : Nat) (k : BankKind) (r : List Byte) (ms : List MemberPlaces) (vec : BankPlace) (words : List Nat)
    (ok : Bool) : BankCmd :=
  let pcs := if ok then ms.map fun m => pcOf (placePa m.1) else []
  { id := id, kind := k, wg := noWg, group := 0, ctx := 0, counter := bkCounter r, num := 0, completion := none, trap := bkTrap r
    scope := bkScope r, rel := bkRel r, start := none, refused := !ok, members := pcs, pending := pcs.eraseDups, words := words
    startWord := bkStart r, vector := rangeOf vec (bkVlen r), entry := bkEntry r % 256
    ranges := ms.map fun m => (rangeOf m.1 (bkLen0 r), rangeOf m.2.1 (bkLen1 r), rangeOf m.2.2 (bkRlen r))
    vas := [], stops := [], bytes := if k = .load && ok then 4 * words.length * ms.length else 0, movf := false, remote := none, far := none }

/-- A command joins the queue of every member at one instant. -/
def State.joinQueues (s : State) (c : BankCmd) : State :=
  let s := { s with bankCmds := s.bankCmds ++ [c], nextBank := c.id + 1 }
  c.pending.foldl (fun (s : State) p => s.modPc p fun x => { x with queue := x.queue ++ [c.id] }) s

/-- Number a command of the current group and queue it; its issue is a release at its scope (R252). -/
def State.issueBankCmd (s : State) (k : BankKind) (r : List Byte) (completion : Option Nat) (start : Option (Nat × Nat))
    (ms : List MemberPlaces) (vec : BankPlace) (words : List Nat) : State :=
  let w := s.cur.wg
  let s := s.release s.curCore (bkScope r)
  let s := s.newCmd w (bkCounter r) (.bank s.nextBank) start (bkScope r) (bkTrap r)
  let n := s.issuedOn w (bkCounter r)
  let dev := (ms.head?.map fun m => placeDev m.1).getD none
  let ok := bkHeaderOk k r && bkFieldsOk k r words && bankPlacesOk k r ms vec && !neverStarts (bkCounter r) n start
  let c := bankCmdOf s.nextBank k r ms vec words (ok && dev.isNone)
  let c := { c with wg := w, group := s.cur.g, ctx := s.curCtx, num := n, completion := completion, start := start
                    refused := !ok
                    vas := ((bankSpans k r).map fun x => s.pageOf s.agent x.1).eraseDups
                    far := if ok then dev.map fun d => ⟨d, (ms.head?.map fun m => placePa m.1).getD 0, r, farPayload ms vec words⟩
                      else none }
  s.joinQueues c

/-- Read n words from an address up, each as a load of the group; the first that faults ends the reading (log 78). -/
def State.readWords (s : State) (va : Nat) : Nat → Early (List Nat)
  | 0 => .ok (s, [])
  | n + 1 =>
    match s.readWords va n with
    | .error t => .error t
    | .ok (s, ws) =>
      match s.scalarRead ((va + 4 * n) % 2 ^ 64) 4 false false with
      | .error t => .error t
      | .ok (s, bs) => .ok (s, ws ++ [natOfBytes bs])

/-- The words of a BKLOAD (R336); a count outside 1 to 256 reads none. -/
def State.bankWords (s : State) (k : BankKind) (r : List Byte) : Early (List Nat) :=
  if k = .load ∧ 1 ≤ bkCount r ∧ bkCount r ≤ 256 then s.readWords (bkCode r) (bkCount r) else .ok (s, [])

/-- The common part of the bank instructions: the fence, the record, the ranges, the words, the command; then k. -/
def State.bankIssue (s : State) (k : BankKind) (sa sb : SReg) (start : Option (Nat × Nat)) (fin : State → Nat → Nat → State) : State :=
  if s.fenceWaits then s.stall
  else
    match s.readRecord2 (s.rs sa).toNat 64 16 (s.rs sb).toNat with
    | .error t => t
    | .ok (s, r) =>
      match s.bankFault k r with
      | some c => s.raiseCond c.1 false c.2
      | none =>
        let ms := s.bankMembers k r
        let vec := s.spanPlace (vectorSpan k r)
        match s.bankWords k r with
        | .error t => t
        | .ok (s, words) =>
          if !s.commandRoom then s.stall
          else
            let s := s.issueBankCmd k r (s.recordOf sb) start ms vec words
            fin s (bkCounter r) (s.issuedOn s.cur.wg (bkCounter r))

def execBkload (sa sb : SReg) (s : State) : Host.Outcome State Fault Refusal :=
  .next (s.bankIssue .load sa sb none fun s _ _ => s.next4)

def execBkrun (sa sb : SReg) (start : Option StartCond) (s : State) : Host.Outcome State Fault Refusal :=
  .next (s.bankIssue .run sa sb (start.map fun c => (c.counter.toNat, (s.rs c.value).toNat)) fun s _ _ => s.next4)

def execBkfence (sa sb : SReg) (s : State) : Host.Outcome State Fault Refusal :=
  .next (s.bankIssue .fence sa sb none fun s k n => s.wait (.bkfence k n))

/-! Completion (R279, R344, R346). -/

def State.bankCmd? (s : State) (id : Nat) : Option BankCmd := s.bankCmds.find? fun c => c.id == id
def State.modBank (s : State) (id : Nat) (f : BankCmd → BankCmd) : State :=
  { s with bankCmds := modWhere (fun c => c.id == id) f s.bankCmds }

/-- The split that waits for a BKFENCE goes on, whether its workgroup is resident or saved (R346, R348). -/
def State.wakeBkfence (s : State) (w : WgIx) (k n : Nat) : State :=
  match s.wg? w with
  | none => s
  | some x =>
    x.groups.zipIdx.foldl (fun (s : State) y => splitIxs.foldl (fun (s : State) i =>
      if ((s.split? w y.2 i).map fun (z : Split) => z.status == .waiting (.bkfence k n)).getD false then
        let cur := s.cur
        { ((s.at w y.2 i).next4.modCurGroup Group.settle) with cur := cur }
      else s) s) s

/-- The status of a command: that of its lowest-numbered stopped member, else OK. -/
def BankCmd.status (c : BankCmd) : Nat × Nat :=
  if c.refused then (stRejected, 0)
  else match least (fun a b => a.1 < b.1) c.stops with
    | some x => x.2
    | none => (stOk, 0)

/-- A command on this device's own counter completes: MOVF, then the order of R279. -/
def State.finishBank (s : State) (c : BankCmd) (status fault count : Nat) (movf : Bool) : State :=
  let s := { s with bankCmds := s.bankCmds.filter fun x => x.id != c.id }
  let s := if movf then s.modGroup c.wg c.group fun g => g.setFlags flMovf else s
  let s := (s.release (s.coreOf c.wg) c.scope).endCmd ⟨c.wg, c.counter, c.num⟩ status fault count (c.completion.toList.map fun a => (c.group, a))
  (s.wakeBkfence c.wg c.counter c.num).logKills

/-- The 16 result bytes of a remote bank command: status, fault code, MOVF, byte count (log 39). -/
def bankResult (status fault count : Nat) (movf : Bool) : List Byte :=
  bytesOfNat 2 status ++ bytesOfNat 2 fault ++ bytesOfNat 4 (boolNat movf) ++ bytesOfNat 8 count

/-- An answer to a requester, put on the fabric. -/
def State.reply (s : State) (h : ReqHeader) (kind status : Nat) (busy cache : Bool) (data : List Byte) : State :=
  s.emit (.reply h.retdev
    { kind := kind + 0x80, status := BitVec.ofNat 16 status, inc := s.hostif.incarn.toNat, reqid := h.reqid, serial := h.serial,
      busy := busy, fromCache := cache, data := data, tag := h.tag })

/-- A VALID entry of the owner result cache (R417, R419). -/
def State.cacheResult (s : State) (h : ReqHeader) (status : Nat) (data : List Byte) : State :=
  s.modFabric fun x => { x with orc := x.orc ++ [⟨h.reqid, h.serial, status, data⟩] }

/-- A command completes once no member is left: for its own counter, or as the answer to its requester. -/
def State.completeBank (s : State) (c : BankCmd) : State :=
  match c.remote with
  | none => s.finishBank c c.status.1 c.status.2 c.bytes c.movf
  | some h =>
    let data := bankResult c.status.1 c.status.2 c.bytes c.movf
    let s := { s with bankCmds := s.bankCmds.filter fun x => x.id != c.id }
    ((s.cacheResult h stOk data).reply h 0x0A stOk false false data)

/-- A member is finished: its queue moves on. -/
def State.memberDone (s : State) (p : PcIx) (id : Nat) (f : BankCmd → BankCmd) : State :=
  (s.modPc p fun x => { x with queue := x.queue.filter (· != id), run := none }).modBank id fun c =>
    { f c with pending := c.pending.filter (· != p) }

/-- A command that its last member's turn completes at once. -/
def State.memberDoneAll (s : State) (p : PcIx) (id : Nat) (f : BankCmd → BankCmd) : State :=
  let s := s.memberDone p id f
  match s.bankCmd? id with
  | some c => if c.pending = [] then s.completeBank c else s
  | none => s

/-- What an answer makes of a remote bank command: status, fault code, byte count, MOVF (R424). -/
def farStatus : Outcome → Nat × Nat × Nat × Bool
  | .performed bs => (recNat bs 0 2, recNat bs 2 2, recNat bs 8 8, recNat bs 4 4 != 0)
  | .error => (stFault, classCode .protection, 0, false)
  | .indeterminate => (stIndeterminate, 0, 0, false)
  | .checksum => (stChecksum, 0, 0, false)
  | _ => (stFault, classCode .remote, 0, false)

/-- A command on a peer is sent whole once its start condition holds, and completes with the answer (R410). -/
def State.farBank (s : State) (c : BankCmd) (f : FarBank) : State :=
  if !s.startHolds c.wg c.start then s
  else
    match s.remoteBatch (.command c.wg c.counter c.num) c.ctx engineBank [(f.owner, f.addr, .bank c.kind f.record f.payload)] with
    | (s, some [o]) => s.finishBank c (farStatus o).1 (farStatus o).2.1 (farStatus o).2.2.1 (farStatus o).2.2.2
    | (s, _) => s

/-- RUN_COMPLETE: a run all of whose members have stopped completes; so does a command that no bank acts on because it is
refused or runs on a peer (log 39). -/
def execRunComplete (id : Nat) (s : State) : Host.Outcome State Fault Refusal :=
  match s.bankCmd? id with
  | none => .next s
  | some c =>
    match c.far with
    | some f => .next (s.farBank c f)
    | none => .next (if c.pending = [] then s.completeBank c else s)

/-! Turns on a pseudo-channel (R333, R334, R336, R338, R346). -/

/-- The command at the head of a pseudo-channel's queue that has not started there. -/
def State.bankTurn (s : State) (p : PcIx) (k : BankKind) : Option BankCmd :=
  if (s.pc p).run.isSome then none
  else match (s.pc p).queue.head?.bind s.bankCmd? with
    | some c => if c.kind = k then some c else none
    | none => none

/-- The tag a store will have at a command's turn: the last BKLOAD queued before it, else the present tag. -/
def State.tagAt (s : State) (p : PcIx) (id : Nat) : Option (BitVec 20) :=
  ((s.pc p).queue.takeWhile (· != id)).foldl (fun t i => match s.bankCmd? i with
    | some c => if c.kind = .load && !c.refused then some c.ctx else t
    | none => t) (s.pc p).tag

/-- A bank unit of the pseudo-channel is out of service (R396). -/
def State.pcRetired (s : State) (p : PcIx) : Bool := s.retired.any fun u => u.1 == 4 && u.2 / 64 == p

/-- A command is refused in its turn, as decided when its first member's turn comes: an untagged or foreign store under a
run, a bank unit out of service. -/
def State.refusedInTurn (s : State) (c : BankCmd) : Bool :=
  c.refused || (c.pending.length == c.members.eraseDups.length && !s.bankBegun c &&
    c.members.any fun p => s.pcRetired p || (c.kind == .run && s.tagAt p c.id != some c.ctx))

/-- BKLOAD_EXECUTE. -/
def execBkloadExecute (pc : PcIx) (s : State) : Host.Outcome State Fault Refusal :=
  match s.bankTurn pc .load with
  | none => .next s
  | some c =>
    if s.refusedInTurn c then .next (s.memberDoneAll pc c.id fun c => { c with refused := true, bytes := 0 })
    else
      let s := s.modPc pc fun x =>
        { x with tag := some c.ctx
                 store := c.words.zipIdx.foldl (fun st w => modVec (fun _ => BitVec.ofNat 32 w.1) st (c.startWord + w.2)) x.store }
      .next (s.memberDoneAll pc c.id id)

/-- A run from fresh state (R325). -/
def freshRun (c : BankCmd) (member : Nat) : Run :=
  let r := c.ranges.getD member (⟨0, 0, 0⟩, ⟨0, 0, 0⟩, ⟨0, 0, 0⟩)
  { cmd := c.id, member := member, word := c.entry, p0 := fld r.1.offset 16 5, p1 := fld r.2.1.offset 16 5, c := 0, x := 0, v := 0
    q := 0, stack := [], row := none, waits := none, buffer := Vector.replicate 64 [], results := [], acc := Vector.replicate 64 (Vector.replicate 8 0), wrote := [] }

/-- BKRUN_EXECUTE: in its turn, and once its start condition holds, a run starts on a member. -/
def execBkrunExecute (pc : PcIx) (s : State) : Host.Outcome State Fault Refusal :=
  match s.bankTurn pc .run with
  | none => .next s
  | some c =>
    if !s.startHolds c.wg c.start then .next s
    else if s.refusedInTurn c then .next (s.memberDone pc c.id fun c => { c with refused := true })
    else .next (s.modPc pc fun x => { x with run := some (freshRun c ((c.members.findIdx? (· == pc)).getD 0)) })

/-- The lines of a pseudo-channel's CC pages leave the L2 slices (R346). -/
def State.dropCcLines (s : State) (p : PcIx) : State :=
  { s with reaches := mapVec (fun (r : Reach) =>
      { r with l2 := r.l2.filter fun x => !(2 ^ 61 ≤ x.key && pcOf (x.key - 2 ^ 61) == p) }) s.reaches }

/-- Publish the bank units' writes of a pseudo-channel: its CC lines leave L2, and ordinary reads see them (R253, R346). -/
def State.publishBank (s : State) (p : PcIx) : State :=
  let s := s.dropCcLines p
  let mine := s.hidden.filter fun c => pcOf c.1 == p
  { s with
    cc := mine.reverse.foldl (fun m c => m.write c.1 c.2) s.cc
    hidden := s.hidden.filter fun c => pcOf c.1 != p
    ccOld := s.ccOld.filter fun c => !(mine.any fun d => d.1 == c.1) }

/-- A run issued before a fence on one of its pseudo-channels has not completed on all its own members (R253). -/
def State.runsBefore (s : State) (c : BankCmd) : Bool :=
  s.bankCmds.any fun d => d.kind == .run && d.id < c.id && d.members.any fun p => c.members.contains p

/-- BKFENCE_ACT: a BKFENCE acts in its turn on a member once the runs before it have completed, and completes with the last. -/
def execBkfenceAct (pc : PcIx) (s : State) : Host.Outcome State Fault Refusal :=
  match s.bankTurn pc .fence with
  | none => .next s
  | some c => .next (if s.runsBefore c then s else (s.publishBank pc).memberDoneAll pc c.id id)

end Sys2Proof.Machine
end

