-- ==== Sys2Proof/Machine/BankOps.lean ====
section
/-! DEFINITION. The micro-operations of a bank microprogram (R340 to R343, R345, R350, R401). -/

namespace Sys2Proof.Machine

/-! The run on the current pseudo-channel. -/

/-- A run, its command and the command's ranges on this member. -/
structure BankCtx where
  r : Run
  c : Option BankCmd
  r0 : Range
  r1 : Range
  res : Range
  vec : Range

def State.bankCtx (s : State) : Option BankCtx :=
  (s.pc s.cur.pc).run.map fun r =>
    let c := s.bankCmd? r.cmd
    let z : Range := ⟨0, 0, 0⟩
    let rs := (c.bind fun c => c.ranges[r.member]?).getD (z, z, z)
    ⟨r, c, rs.1, rs.2.1, rs.2.2, (c.map (·.vector)).getD z⟩

def State.modRun (s : State) (f : Run → Run) : State := s.modPc s.cur.pc fun x => { x with run := x.run.map f }

/-- A bank unit's write, hidden until a BKFENCE. -/
def State.bankWrite (s : State) (key : Nat) (bs : List Byte) : State :=
  { s with
    hidden := (bs.zipIdx.map fun b => ((key + b.2, b.1) : Host.Cell)) ++ s.hidden
    poison := s.poison.filter fun p => !(2 ^ 56 + key ≤ p && p + 32 ≤ 2 ^ 56 + key + bs.length) }

/-- The bytes that two runs of bytes have in common: start and length of each. -/
def commonBytes (a n b m : Nat) : Nat := min (a + n) (b + m) - max a b

/-- The result-range and range-1 bytes that a member has written, each once (R344). -/
def BankCtx.written (x : BankCtx) : Nat :=
  let q := x.res.page + x.res.offset
  x.r.wrote.foldl (fun n k => n + (2048 - commonBytes k 2048 q x.r.q)) x.r.q

/-- The member stops: what its result buffer holds goes to the result range, the bytes it has written are counted, and a status
recorded (R341, R343, R344). -/
def State.stopMember (s : State) (x : BankCtx) (status : Option (Nat × Nat)) : State :=
  (x.r.results.foldl (fun (s : State) y => s.bankWrite y.1 y.2) s).memberDone s.cur.pc x.r.cmd fun c =>
    { c with bytes := c.bytes + x.written
             stops := c.stops ++ (match status with | some y => [(x.r.member, y.1, y.2)] | none => []) }

/-- The run goes on at a word; past word 255 it stops with REJECTED. -/
def State.bankGo (s : State) (x : BankCtx) (word : Nat) : State :=
  if 255 < word then s.stopMember x (some (stRejected, 0)) else s.modRun fun r => { r with word := word }

/-- The next word. -/
def State.bankNext (s : State) (f : Run → Run) : State :=
  let s := s.modRun f
  match s.bankCtx with
  | some x => s.bankGo x (x.r.word + 1)
  | none => s

/-! Steps (R350, R401). -/

/-- The regions a run is charged to. -/
def State.bankPath (s : State) (x : BankCtx) : List Region :=
  match x.c with
  | some c => if c.remote.isSome then [] else s.wgPath c.wg
  | none => []

/-- The bank budget of a run's path has room. -/
def State.bankRoom (s : State) (x : BankCtx) : Bool := (s.bankPath x).all fun r => limitRoom (r.own.bank.map (· * 1024)) r.bankUsed

/-- The quarters of a grant in the activity bucket now. -/
def State.grants (s : State) : Nat := min 500000 (s.bankGrants.1 + 125 * (s.time - s.bankGrants.2))

/-- The priority and the arrival of a run among those that wait; a command of a peer has no region here (log 65). -/
def State.runRank (s : State) (r : Run) : Nat :=
  match s.bankCmd? r.cmd with
  | some c => if c.remote.isSome then 0 else s.wgRank c.wg
  | none => 0

/-- A waiting step of another pseudo-channel is granted first: of a run of higher priority, or of equal priority and come earlier. -/
def State.waitsBefore (s : State) (r : Run) : Bool :=
  s.pcs.toList.any fun p => match p.run with
    | some y => match y.waits with
      | some t =>
        (y.cmd != r.cmd || y.member != r.member) &&
          (s.runRank r < s.runRank y || (s.runRank r == s.runRank y && t < r.waits.getD s.stamp)) &&
          s.bankRoom ⟨y, s.bankCmd? y.cmd, ⟨0, 0, 0⟩, ⟨0, 0, 0⟩, ⟨0, 0, 0⟩, ⟨0, 0, 0⟩⟩
      | none => false
    | none => false

/-- Take the grants and charge the steps. -/
def State.bankCharge (s : State) (x : BankCtx) (steps : Nat) : State :=
  let s' := { s with bankGrants := (s.grants - 4 * steps, s.time) }.modRun fun r => { r with waits := none }
  (s.bankPath x).foldl (fun (s : State) r => s.modRegion r.ctx r.rcb fun y => { y with bankUsed := y.bankUsed + steps }) s'

/-- A step waits for its grant, in arrival order. -/
def State.bankWaits (s : State) : State :=
  s.tick.modRun fun r => { r with waits := some (r.waits.getD s.stamp) }

/-- One operation of a given number of steps: nothing happens without a run, or while a throttle or the bucket holds the step. -/
def State.bankStep (s : State) (steps : Nat) (f : State → BankCtx → State) : Host.Outcome State Fault Refusal :=
  match s.bankCtx with
  | none => .next s
  | some x =>
    .next (if steps = 0 then f s x
      else if !s.bankRoom x then s
      else if 4 * steps ≤ s.grants ∧ !s.waitsBefore x.r then f (s.bankCharge x steps) x
      else s.bankWaits)

/-! Reading and writing DRAM (R253, R345). -/

/-- The values an address may be read as by a run: what bank units wrote and no fence has published, the result buffer's segments
first; otherwise what DRAM holds, or, without REL, any value it held before. A byte of the run's own result range that it has overwritten reads as
the old or the new value. -/
def State.bankByte (s : State) (x : BankCtx) (key : Nat) : Byte :=
  let mine := x.res.page + x.res.offset ≤ key && key < x.res.page + x.res.offset + x.r.q
  let older : List Byte := (s.ccOld.filter fun c => c.1 == key).map (·.2)
  let plain := if ((x.c.map (·.rel)).getD true) then s.cc.read key
    else (s.cc.read key :: older).getD (s.freeNat key % (older.length + 1)) 0
  let staged := x.r.results.reverse.filterMap fun y => if y.1 ≤ key then y.2[key - y.1]? else none
  match staged ++ (s.hidden.filter fun c => c.1 == key).map (·.2) with
  | [] => plain
  | b :: rest => if mine && s.freeBool key then rest.headD plain else b

def State.bankBytes (s : State) (x : BankCtx) (key n : Nat) : List Byte := (List.range n).map fun i => s.bankByte x (key + i)

def State.bankPoisoned (s : State) (key n : Nat) : Bool := (List.range n).any fun i => s.placePoisoned (.cc (key + i))

/-- The locator of a column of a row of a range's page, when all its 2,048 bytes lie in the range. -/
def columnKey (r : Range) (row col : Nat) : Option Nat :=
  let o := row * 2 ^ 16 + col * 2 ^ 11
  if r.offset ≤ o && o + 2048 ≤ r.offset + r.len then some (r.page + o) else none

def bankBounds : Option (Nat × Nat) := some (stBounds, 0)
def bankRejected : Option (Nat × Nat) := some (stRejected, 0)
def bankPoison : Option (Nat × Nat) := some (stPoison, classCode .poison)

/-! The micro-operations (R341, R342). -/

def execBnop (s : State) : Host.Outcome State Fault Refusal := s.bankStep 1 fun s _ => s.bankNext id

/-- A pointer that never wraps. -/
def bump (max n : Nat) : Nat := if n < max then n + 1 else n

def execBact (range inc : Bool) (s : State) : Host.Outcome State Fault Refusal :=
  s.bankStep 6 fun s x =>
    let row := if range then x.r.p1 else x.r.p0
    if range && x.r1.len == 0 then s.stopMember x bankRejected
    else if 31 < row then s.stopMember x bankBounds
    else s.bankNext fun r =>
      { r with row := some (range, row), c := 0, p0 := if inc && !range then bump 63 r.p0 else r.p0
               p1 := if inc && range then bump 63 r.p1 else r.p1 }

def execBpre (s : State) : Host.Outcome State Fault Refusal := s.bankStep 4 fun s _ => s.bankNext fun r => { r with row := none }

/-- The values of 32 bytes in a format. -/
def bankValues (f : BankFmt) (bs : List Byte) : List FVal :=
  let v := natOfBytes bs
  match f with
  | .bf16 => (List.range 16).map fun t => fmtBf16.decode (fld v (16 * t) 16)
  | .e4m3 => (List.range 32).map fun t => fmtE4m3.decode (fld v (8 * t) 8)
  | .e5m2 => (List.range 32).map fun t => fmtE5m2.decode (fld v (8 * t) 8)
  | .int8 => (List.range 32).map fun t => let n := signed 8 (fld v (8 * t) 8)
                                          .fin (n < 0) n.natAbs 0

/-- The exact sum of a block; an INT8 block is an integer, and its zero is +0. -/
def bankSum (f : BankFmt) (a b : List FVal) : FVal :=
  match f, exactSum (a.zipWith exactProduct b) with
  | .int8, .fin _ 0 _ => .fin false 0 0
  | _, v => v

/-- One bank's accumulator after BMAC, and its flags. -/
def bmacBank (f : BankFmt) (col vec : List Byte) (acc : Nat) : Nat × Nat :=
  accAdd fmtF32 acc (bankSum f (bankValues f col) (bankValues f vec))

/-- The accumulators of every bank with one of them replaced, and whether some addition overflowed. -/
def mapAcc (acc : Vector (Vector Elem 8) 64) (j : Nat) (f : Nat → Nat → Nat × Nat) : Vector (Vector Elem 8) 64 × Bool :=
  (Vector.ofFn fun b => modVec (fun a => BitVec.ofNat 32 (f b.val a.toNat).1) acc[b] j,
    (List.range 64).any fun b => (f b (getVec (getVec acc b (Vector.replicate 8 0)) j 0).toNat).2 / flMovf % 2 == 1)

def State.noteMovf (s : State) (x : BankCtx) (m : Bool) : State := if m then s.modBank x.r.cmd fun c => { c with movf := true } else s

def execBmac (j : BitVec 3) (fmt : BankFmt) (incC incX : Bool) (s : State) : Host.Outcome State Fault Refusal :=
  s.bankStep 1 fun s x =>
    match x.r.row with
    | none => s.stopMember x bankRejected
    | some (range, row) =>
      if 31 < x.r.c || 63 < x.r.x then s.stopMember x bankBounds
      else match columnKey (if range then x.r1 else x.r0) row x.r.c with
        | none => s.stopMember x bankBounds
        | some key =>
          if s.bankPoisoned key 2048 then s.stopMember x bankPoison
          else
            let col := s.bankBytes x key 2048
            let vec := getVec x.r.buffer x.r.x []
            let acc := mapAcc x.r.acc j.toNat fun b a => bmacBank fmt (recBytes col (32 * b) 32) vec a
            (s.noteMovf x acc.2).bankNext fun r =>
              { r with acc := acc.1, c := if incC then bump 63 r.c else r.c, x := if incX then bump 127 r.x else r.x }

def execBzero (mask : BitVec 8) (s : State) : Host.Outcome State Fault Refusal :=
  s.bankStep 1 fun s _ => s.bankNext fun r =>
    { r with acc := mapVec (fun (v : Vector Elem 8) => Vector.ofFn fun k => if mask.getLsbD k then 0 else v[k]) r.acc }

/-- acc × factor rounded to nearest even; an overflow sets MOVF. -/
def bsclBank (factor acc : Nat) : Nat × Nat :=
  let r := fmtF32.mul Mode.rne (fmtF32.decode acc) (fmtBf16.decode factor)
  (r.1, r.2 / flOvf % 2 * flMovf)

def execBscl (j : BitVec 3) (factor : BitVec 16) (s : State) : Host.Outcome State Fault Refusal :=
  s.bankStep 1 fun s x =>
    let acc := mapAcc x.r.acc j.toNat fun _ a => bsclBank factor.toNat a
    (s.noteMovf x acc.2).bankNext fun r => { r with acc := acc.1 }

/-- The FP32 words of accumulator j of banks 0 to 63. -/
def accBytes (acc : Vector (Vector Elem 8) 64) (j : Nat) : List Byte :=
  acc.toList.flatMap fun v => bytesOfNat 4 (getVec v j 0).toNat

/-- The oldest segments of the result buffer go to the result range until n are left (R341). -/
def State.drainResults (s : State) (x : BankCtx) (n : Nat) : State :=
  let go := x.r.results.take (x.r.results.length - n)
  (go.foldl (fun (s : State) y => s.bankWrite y.1 y.2) s).modRun fun r => { r with results := r.results.drop go.length }

def execBwra (j : BitVec 3) (s : State) : Host.Outcome State Fault Refusal :=
  s.bankStep 8 fun s x =>
    if x.res.len < x.r.q + 256 then s.stopMember x bankBounds
    else
      let seg := (x.res.page + x.res.offset + x.r.q, accBytes x.r.acc j.toNat)
      (s.drainResults x (Config.resultSegments - 1)).bankNext fun r => { r with results := r.results ++ [seg], q := r.q + 256 }

/-- All accumulators of all banks: 32 bytes a bank. -/
def allAccBytes (acc : Vector (Vector Elem 8) 64) : List Byte := acc.toList.flatMap fun v => v.toList.flatMap fun a => bytesOfNat 4 a.toNat

def execBwrb (col : BitVec 5) (s : State) : Host.Outcome State Fault Refusal :=
  s.bankStep 1 fun s x =>
    match x.r.row with
    | some (true, row) =>
      match columnKey x.r1 row col.toNat with
      | none => s.stopMember x bankBounds
      | some key => ((s.drainResults x 0).bankWrite key (allAccBytes x.r.acc)).bankNext fun r => { r with wrote := (key :: r.wrote).eraseDups }
    | _ => s.stopMember x bankRejected

def execBloop (count : BitVec 16) (s : State) : Host.Outcome State Fault Refusal :=
  s.bankStep 0 fun s x =>
    if 4 ≤ x.r.stack.length then s.stopMember x bankRejected
    else s.bankNext fun r => { r with stack := (r.word + 1, count.toNat + 1) :: r.stack }

def execBend (s : State) : Host.Outcome State Fault Refusal :=
  s.bankStep 0 fun s x =>
    match x.r.stack with
    | [] => s.stopMember x bankRejected
    | (body, n) :: rest =>
      if n ≤ 1 then s.bankNext fun r => { r with stack := rest }
      else (s.modRun fun r => { r with stack := (body, n - 1) :: rest }).bankGo x body

def execBstop (s : State) : Host.Outcome State Fault Refusal := s.bankStep 1 fun s x => s.stopMember x none

/-- Put 32-byte chunks into the buffer from one on. -/
def loadChunks (buf : Vector (List Byte) 64) (first : Nat) (n : Nat) (bs : List Byte) : Vector (List Byte) 64 :=
  (List.range n).foldl (fun b i => modVec (fun _ => recBytes bs (32 * i) 32) b (first + i)) buf

def execBxld (first chunks1 : BitVec 6) (s : State) : Host.Outcome State Fault Refusal :=
  let n := chunks1.toNat + 1
  s.bankStep n fun s x =>
    let key := x.vec.page + x.vec.offset + x.r.v
    if x.vec.len < x.r.v + 32 * n then s.stopMember x bankBounds
    else if s.bankPoisoned key (32 * n) then s.stopMember x bankPoison
    else
      let bs := s.bankBytes x key (32 * n)
      s.bankNext fun r => { r with buffer := loadChunks r.buffer first.toNat n bs, v := r.v + 32 * n, x := first.toNat }

end Sys2Proof.Machine
end

