-- ==== Sys2Proof/Machine/Barriers.lean ====
section
/-! DEFINITION. BAR and the end of its waits (R193 to R198); room in the lane queue and the end of the fusion hold for a
waiting split (R28, R170). -/

namespace Sys2Proof.Machine

/-- The scope a BAR names. -/
def barScope (cl : Bool) : Scope := if cl then .cl else .wg

/-- ARRIVE, SYNC and REMOTE take an expected count of 1 to 1,023 (R193). -/
def barCountOk (v : Word) : Bool := 1 ≤ v.toNat && v.toNat ≤ 1023

def tokenOf (v : Word) : BitVec 32 := v.setWidth 32

/-- The end of a WAIT or SYNC: an acquire at its scope (R195), and the PC advances. -/
def State.barEnd (s : State) (bar : Nat) (cl : Bool) : State :=
  (s.acquire s.curCore (widen (s.barrier s.cur.wg bar).engine (barScope cl))).next4

def execBarArrive (cl : Bool) (bar : BitVec 4) (sa sb : SReg) (s : State) : Host.Outcome State Fault Refusal :=
  if !barCountOk (s.rs sa) then .next (s.trap (Trap.plain .illegal))
  else if s.fenceWaits then .next s.stall
  else
    let r := (s.release s.curCore (barScope cl)).arriveAt s.cur.wg bar.toNat (s.rs sa).toNat
    .next (r.1.ws sb (r.2.setWidth 64)).next4

/-- The comparison of R192 is modulo 2^32, so only the low 32 bits of the token register matter. A WAIT that was cancelled waits
again on the token it had (R197). -/
def execBarWait (cl : Bool) (bar : BitVec 4) (sb : SReg) (s : State) : Host.Outcome State Fault Refusal :=
  let t := (s.curSplit.bind (·.syncToken)).getD (tokenOf (s.rs sb))
  .next (if (s.barrier s.cur.wg bar.toNat).passed t then s.barEnd bar.toNat cl else s.wait (.barrier bar.toNat t cl))

/-- The wait part of SYNC with the token it holds. -/
def State.syncWait (s : State) (cl : Bool) (bar : Nat) (t : BitVec 32) (sb : SReg) : State :=
  if (s.barrier s.cur.wg bar).passed t then (s.ws sb (t.setWidth 64)).barEnd bar cl else s.wait (.sync bar t cl sb)

/-- A SYNC that was cancelled after its arrival holds its token and arrives no second time (R197). -/
def execBarSync (cl : Bool) (bar : BitVec 4) (sa sb : SReg) (s : State) : Host.Outcome State Fault Refusal :=
  match s.curSplit.bind (·.syncToken) with
  | some t => .next (s.syncWait cl bar.toNat t sb)
  | none =>
    if !barCountOk (s.rs sa) then .next (s.trap (Trap.plain .illegal))
    else if s.fenceWaits then .next s.stall
    else
      let r := (s.release s.curCore (barScope cl)).arriveAt s.cur.wg bar.toNat (s.rs sa).toNat
      .next (r.1.syncWait cl bar.toNat r.2 sb)

/-- REMOTE: a rank outside the cluster raises ADDRESS before any wait, a completed workgroup when the arrival would be
made; a workgroup that is saved is waited for (R194, R198). -/
def execBarRemote (bar : BitVec 4) (sa sb sc : SReg) (s : State) : Host.Outcome State Fault Refusal :=
  if !barCountOk (s.rs sa) then .next (s.trap (Trap.plain .illegal))
  else if (s.clusterOf s.cur.wg).2 ≤ (s.rs sc).toNat then .next (s.trap (Trap.plain .address))
  else if s.fenceWaits then .next s.stall
  else
    match s.rankWg s.cur.wg (s.rs sc).toNat with
    | none => .next (s.trap (Trap.plain .address))
    | some w =>
      if s.wgState w = some .resident then
        let r := (s.release s.curCore .cl).arriveAt w bar.toNat (s.rs sa).toNat
        .next (r.1.ws sb (r.2.setWidth 64)).next4
      else if s.wgState w = some .ready then .next s.stall
      else .next (s.trap (Trap.plain .address))

/-- BARRIER_WAKE: a parked WAIT or SYNC ends once its token is passed, and not before (R192, R197). -/
def execBarrierWake (wg : WgIx) (g : GroupIx) (split : SplitIx) (s : State) : Host.Outcome State Fault Refusal :=
  let t := s.at wg g split
  match t.curWait with
  | some (.barrier bar token cl) => if (t.barrier wg bar).passed token then (t.barEnd bar cl).wakeEnd else .next s
  | some (.sync bar token cl sb) =>
    if (t.barrier wg bar).passed token then ((t.ws sb (token.setWidth 64)).barEnd bar cl).wakeEnd else .next s
  | _ => .next s

/-- LANE_QUEUE_ROOM: the held entries are enqueued all together once there is room for them (R28). -/
def execLaneQueueRoom (wg : WgIx) (g : GroupIx) (split : SplitIx) (s : State) : Host.Outcome State Fault Refusal :=
  let t := s.at wg g split
  match t.curWait with
  | some (.room es) => if ((t.curGroup.map fun x => x.room es.length).getD false) then (t.enqueue es).wakeEnd else .next s
  | _ => .next s

/-- FUSION_HOLD_RELEASE: a HELD split whose group's other splits have issued 64 scalar instructions, or that no lower
split remains for, fetches its block alone (R170). -/
def execFusionHoldRelease (wg : WgIx) (g : GroupIx) (split : SplitIx) (s : State) : Host.Outcome State Fault Refusal :=
  .next (if s.running wg then s.modGroup wg g fun x => x.releaseHold split else s)

end Sys2Proof.Machine
end

