-- ==== Sys2Proof/Machine/Control.lean ====
section
/-! DEFINITION. The scalar stream's control: system functions, status registers, idempotent regions, FENCE, TRAP, branches
and jumps (R22, R23, R109 to R113, R120 to R122, R268), and words that encode no instruction (R83). -/

namespace Sys2Proof.Machine

/-! System functions (R120, R121). -/

def execNop (s : State) : Host.Outcome State Fault Refusal := .next s.next4

/-- The split's lanes retire, its entry is free, and overflow records move up; the group may retire (R31, R171, R172). -/
def execExit (s : State) : Host.Outcome State Fault Refusal :=
  .next ((s.modCurGroup fun g => (g.setSplit s.cur.split none).refill 64).retireGroup s.cur.wg s.cur.g)

/-- The quarter's other READY splits issue before this split's next instruction. -/
def execYield (s : State) : Host.Outcome State Fault Refusal :=
  .next (s.modCurSplit fun x => { x with yielded := true }).next4

def execBrk (s : State) : Host.Outcome State Fault Refusal := .next (s.trap (Trap.plain .brk))

def execTrap (code : BitVec 20) (s : State) : Host.Outcome State Fault Refusal :=
  .next (s.trap ⟨.trap, 0, false, false, false, code.toNat⟩)

/-- A word that encodes no instruction raises ILLEGAL: at its own PC in the scalar stream, at its lane index in the lane
stream, with no other effect (R83). -/
def execIllegalEncoding (lane : Bool) (s : State) : Host.Outcome State Fault Refusal :=
  .next (if lane then s.laneRaise .illegal else s.trap (Trap.plain .illegal))

/-! Status registers (R22). -/

/-- CYCLE of a core: cycles of its island's clock since device reset. -/
def State.cycle (s : State) (core : CoreIx) : Nat :=
  let c := s.core core
  c.cycleBase + (s.time - c.cycleSince) * c.mhz / 1000

/-- The value of a status register. -/
def State.sysRead (s : State) (n : Nat) : Nat :=
  let l := s.launchOf s.cur.wg
  let w := s.wg? s.cur.wg
  let nx := (l.map Launch.nwgx).getD 1
  let ny := (l.map Launch.nwgy).getD 1
  let j := (w.map (·.j)).getD 0
  match n with
  | 0x00 => Config.lanes
  | 0x01 => Config.logLanes
  | 0x02 => s.cur.g
  | 0x03 => j % nx
  | 0x04 => j / nx % ny
  | 0x05 => j / nx / ny
  | 0x06 => nx
  | 0x07 => ny
  | 0x08 => (l.map Launch.nwgz).getD 1
  | 0x09 => (s.clusterOf s.cur.wg).1
  | 0x0A => (s.clusterOf s.cur.wg).2
  | 0x0B => s.curCore % Config.coresPerReach
  | 0x0C => reachOfCore s.curCore
  | 0x0D => s.hostif.devnum.toNat
  | 0x0E => (s.curGroup.map (·.flags.toNat)).getD 0
  | 0x0F => s.cycle s.curCore
  | 0x10 => s.now
  | 0x11 => (s.curGroup.map (·.seed.toNat)).getD 0
  | 0x12 => (s.core s.curCore).epoch
  | 0x13 => (w.map (·.wgerr.toNat)).getD 0
  | 0x14 => s.curLcb
  | 0x15 => (l.map Launch.args).getD 0
  | n => if n < 0x30 then (w.map fun x => (x.counter (n - 0x20)).issued).getD 0
         else (w.map fun x => (x.counter (n - 0x30)).completed).getD 0

/-- SYSR and SYSW of FLAGS, and SYSW of SEED, wait until every earlier-enqueued lane instruction has retired (R33). -/
def State.laneBusy (s : State) : Bool := s.queued LaneEntry.isWord

/-- A queued lane instruction that will advance SEED (R33, R50). -/
def LaneEntry.writesSeed (flags : Word) (e : LaneEntry) : Bool :=
  match e.item with
  | .word w _ => ((laneInstr? w).map fun i => roundsSr (laneRnd i) flags).getD false
  | _ => false

/-- SYSR waits for the lane stream's earlier writers of the register (R33). -/
def State.sysWaits (s : State) (n : Nat) : Bool :=
  match n with
  | 0x0E => s.laneBusy
  | 0x11 => s.queued fun e => e.writesSeed ((s.curGroup.map (·.flags)).getD 0)
  | _ => false

def execSysr (sd : SReg) (n : BitVec 6) (s : State) : Host.Outcome State Fault Refusal :=
  if !sysReadable n.toNat then .next (s.trap (Trap.plain .illegal))
  else if s.sysWaits n.toNat then .next s.stall
  else .next (s.ws sd (BitVec.ofNat 64 (s.sysRead n.toNat))).next4

/-- A value that SYSW accepts (R23, R284). -/
def sysLegal (n : Nat) (v : Word) : Bool :=
  sysWritable n && (n != 0x0E || flagsLegal v) && (n != 0x13 || wgerrLegal v)

/-- Write a status register. -/
def State.sysWrite (s : State) (n : Nat) (v : Word) : State :=
  match n with
  | 0x0E => s.modCurGroup fun g => { g with flags := v }
  | 0x11 => s.modCurGroup fun g => { g with seed := v }
  | _ => s.modWg s.cur.wg fun x => { x with wgerr := v }

def execSysw (n : BitVec 6) (sa : SReg) (s : State) : Host.Outcome State Fault Refusal :=
  if !sysLegal n.toNat (s.rs sa) then .next (s.trap (Trap.plain .illegal))
  else if n != 0x13 && s.laneBusy then .next s.stall
  else .next (s.sysWrite n.toNat (s.rs sa)).next4

/-! Idempotent regions (R122). -/

def execIrb (s : State) : Host.Outcome State Fault Refusal :=
  if s.laneBusy then .next s.stall
  else .next (s.modCurSplit fun x => { x with region := some ⟨x.pc + 4, x.mask, 0, s.stamp⟩ }).next4

def execIre (s : State) : Host.Outcome State Fault Refusal :=
  if s.laneBusy then .next s.stall
  else .next (s.modCurSplit fun x => { x with region := none }).next4

/-! FENCE (R243, R246, R268). -/

def orderAcquires : Order → Bool | .acq | .ar => true | _ => false
def orderReleases : Order → Bool | .rel | .ar => true | _ => false

/-- After a FENCE .acq of a wide scope, and after any FENCE .ar, later reads are served at their homes (R246). -/
def fenceAcquires (scope : Scope) : Order → Bool
  | .acq => 2 ≤ scopeRank scope
  | .ar => true
  | _ => false

def execFence (scope : Scope) (order : Order) (s : State) : Host.Outcome State Fault Refusal :=
  if s.fenceWaits then .next s.stall
  else
    let t := if orderReleases order then s.release s.curCore scope else s
    .next (if fenceAcquires scope order then t.acquireAs t.curCore t.cur.wg t.cur.g else t).next4

/-! Branches and jumps (R109 to R112). -/

/-- The target of a direct branch (R68). -/
def State.target {n : Nat} (s : State) (offset : BitVec n) : Word := blockOf s.curPc + offset.signExtend 64 * 64

/-- The link of JL and JR: the start of the block after this one. -/
def State.link (s : State) : Word := blockOf s.curPc + 64

def brTaken (cond : BrCond) (a b : Word) : Bool :=
  match cond with
  | .eq => a == b
  | .ne => a != b
  | .lt => decide (a.toInt < b.toInt)
  | .ge => decide (b.toInt ≤ a.toInt)
  | .ltn => decide (a.toNat < b.toNat)
  | .gen => decide (b.toNat ≤ a.toNat)

def execBr (cond : BrCond) (sa sb : SReg) (offset : BitVec 11) (s : State) : Host.Outcome State Fault Refusal :=
  .next (if brTaken cond (s.rs sa) (s.rs sb) then s.goto (s.target offset) else s.next4)

def execJ (offset : BitVec 26) (s : State) : Host.Outcome State Fault Refusal := .next (s.goto (s.target offset))

def execJl (offset : BitVec 26) (s : State) : Host.Outcome State Fault Refusal :=
  .next ((s.ws 47 s.link).goto (s.target offset))

/-- A target that is no block start raises ALIGN-PC with the target as detail (R362). -/
def execJr (sd sa : SReg) (s : State) : Host.Outcome State Fault Refusal :=
  let t := s.rs sa
  if t.toNat % 64 ≠ 0 then .next (s.trap ⟨.alignPc, 0, false, false, false, t.toNat⟩)
  else .next ((s.ws sd s.link).goto t)

/-! Branches on masks (R112, R113). -/

/-- BRM.DIV: the executing split keeps A AND NOT T at PC + 4; the lanes of T go to the target, in a free entry or in an
overflow record (R171). Both splits stand in the table before either makes its block entry (log 31). -/
def Group.divide (g : Group) (k : SplitIx) (taken : LaneMask) (target : Word) : Group :=
  match g.split k with
  | none => g
  | some x =>
    let g' := g.setSplit k (some { x with mask := x.mask &&& ~~~ taken, pc := x.pc + 4, status := .ready, stalled := false })
    match g.freeEntry with
    | some n =>
      ((g'.setSplit n (some { x with mask := taken, pc := target, status := .ready, stalled := false })).arrive k).arrive n
    | none => ({ g' with overflow := g'.overflow ++ [⟨target, taken, x.regs, x.region⟩] } : Group).arrive k

def execBrm (kind : BrmKind) (m : MReg) (offset : BitVec 20) (s : State) : Host.Outcome State Fault Refusal :=
  if s.queued (·.writesMask m.toNat) then .next s.stall
  else
    let a := s.curMask
    let t := (s.curGroup.map fun g => getVec g.m m.toNat 0).getD 0 &&& a
    let jump := s.goto (s.target offset)
    match kind with
    | .any => .next (if t ≠ 0 then jump else s.next4)
    | .all => .next (if t = a then jump else s.next4)
    | .none => .next (if t = 0 then jump else s.next4)
    | .div =>
      .next (if t = a then jump else if t = 0 then s.next4
        else s.modCurGroup fun g => g.divide s.cur.split t (s.target offset))

end Sys2Proof.Machine
end

