-- ==== Sys2Proof/Machine/Enqueue.lean ====
section
/-! DEFINITION. Enqueuing lane work and reading back from the lane stream: LX, LXR, SETB, MSET, MRD, VRD (R114 to R119),
and the queue entries that SETB and MSET leave (R30). -/

namespace Sys2Proof.Machine

/-- The run of LX and LXR: its words are read before the wait for room, and a fetch fault enqueues nothing (R115). -/
def State.enqueueRun (s : State) (first count : Nat) : State :=
  match s.wordsReady s.agent s.curLcb first count with
  | (s, false) => s.wait (.remote 0)
  | (s, true) =>
  match s.laneWords s.agent s.curLcb first count with
  | .error c => s.raiseCond c true false
  | .ok ws => s.enqueue (ws.map fun x => s.entry (.word x.2 (BitVec.ofNat 20 x.1)))

def execLx (count1 : BitVec 6) (index : BitVec 20) (s : State) : Host.Outcome State Fault Refusal :=
  if 2 ^ 20 ≤ index.toNat + count1.toNat then .next (s.trap (Trap.plain .illegal))
  else .next (s.enqueueRun index.toNat (count1.toNat + 1))

def execLxr (sa sb : SReg) (s : State) : Host.Outcome State Fault Refusal :=
  let first := (s.rs sa).toNat
  let count := (s.rs sb).toNat
  if count < 1 ∨ 64 < count ∨ 2 ^ 20 ≤ first ∨ 2 ^ 20 < first + count then .next (s.trap (Trap.plain .illegal))
  else .next (s.enqueueRun first count)

def execSetb (b : BReg) (sa : SReg) (s : State) : Host.Outcome State Fault Refusal :=
  .next (s.enqueue [s.entry (.setb b (s.rs sa))])

def execMset (m : MReg) (sa : SReg) (s : State) : Host.Outcome State Fault Refusal :=
  if m = 0 then .next (s.trap (Trap.plain .illegal))
  else .next (s.enqueue [s.entry (.mset m (s.rs sa))])

/-- The whole mask, once every earlier writer has retired. -/
def execMrd (sa : SReg) (m : MReg) (s : State) : Host.Outcome State Fault Refusal :=
  if s.queued (·.writesMask m.toNat) then .next s.stall
  else .next (s.ws sa ((s.curGroup.map fun g => getVec g.m m.toNat 0).getD 0)).next4

/-- A lane of a vector register, or of a pair. -/
def execVrd (wide : Bool) (sa sb sc : SReg) (s : State) : Host.Outcome State Fault Refusal :=
  let lane := (s.rs sb).toNat
  let n := (s.rs sc).toNat
  let limit := (s.curGroup.map (·.nregs)).getD 0
  if 64 ≤ lane ∨ limit ≤ n ∨ (wide ∧ n % 2 = 1) then .next (s.trap (Trap.plain .illegal))
  else if s.queued (·.writesReg n) || (wide && s.queued (·.writesReg (n + 1))) then .next s.stall
  else
    let v := (s.curGroup.map fun g => g.elemNat (if wide then 64 else 32) n lane).getD 0
    .next (s.ws sa (BitVec.ofNat 64 v)).next4

/-! Queue entries (R30). -/

/-- The entry at the head is done: it leaves the queue, stalled splits look again, and the group may retire. -/
def State.entryDone (s : State) (f : Group → Group) : State :=
  (s.modCurGroup fun g => (({ f g with laneQ := g.laneQ.tail } : Group).emptyHead).wakeRetry).retireGroup s.cur.wg s.cur.g

def execSetbEntry (s : State) : Host.Outcome State Fault Refusal :=
  match s.curGroup.bind fun g => g.laneQ.head? with
  | some ⟨.setb b v, _, _, _, _⟩ =>
    .next (s.entryDone fun g => { g with b := modVec (fun _ => v) g.b b.toNat, poison := g.poison.filter (· != .b b.toNat) })
  | _ => .next s

/-- Every bit of the mask is written, whatever the tag (R117). -/
def execMsetEntry (s : State) : Host.Outcome State Fault Refusal :=
  match s.curGroup.bind fun g => g.laneQ.head? with
  | some ⟨.mset m v, _, _, _, _⟩ =>
    .next (s.entryDone fun g =>
      if m = 0 then g else { g with m := modVec (fun _ => v) g.m m.toNat, poison := g.poison.filter (· != .m m.toNat) })
  | _ => .next s

end Sys2Proof.Machine
end

