-- ==== Sys2Proof/Machine/Counters.lean ====
section
/-! DEFINITION. WAITC, WAITC.fe and the end of their waits (R269, R270, R284); STRM, QCLR, the queue entries they leave and
the completion of a counted stream (R285 to R292). -/

namespace Sys2Proof.Machine

/-! WAITC (R269, R284). -/

/-- The completed value of a counter of the current workgroup. -/
def State.completed (s : State) (k : Nat) : Nat := ((s.wg? s.cur.wg).map fun x => (x.counter k).completed).getD 0

/-- The failed commands whose traps a WAITC on a counter up to a value raises. -/
def Wg.trapsUpTo (x : Wg) (k value : Nat) : List CmdTrap := x.cmdTraps.filter fun t => t.counter == k && t.num ≤ value

/-- The end of a WAITC: the acquire, then the trap of the lowest-numbered failed command with TRAP that it covers and no
WAITC has raised yet; a WAITC raises one (log 32). -/
def State.waitcEnd (s : State) (k value : Nat) (scope : Scope) : State :=
  let s := s.acquire s.curCore scope
  match (s.wg? s.cur.wg).bind fun x => least (fun a b => a.num < b.num) (x.trapsUpTo k value) with
  | none => s.next4
  | some t =>
    (s.modWg s.cur.wg fun x => { x with cmdTraps := x.cmdTraps.filter (· != t) }).trapCommand t

def execWaitc (scope : Scope) (k : KReg) (sa : SReg) (s : State) : Host.Outcome State Fault Refusal :=
  if s.fenceWaits then .next s.stall
  else
    let v := (s.rs sa).toNat
    .next (if v ≤ s.completed k.toNat then s.waitcEnd k.toNat v scope else s.wait (.counter k.toNat v scope))

/-- The granule of a WAITC.fe: ADDRESS outside the vault window or the allocation, ALIGN-DATA when misaligned. -/
def State.waitGranule (s : State) (va : Nat) : Except Cond (WgIx × Nat) :=
  if windowOf va != .vault then .error ⟨.address, va, false⟩
  else
    match s.vaultTarget s.agent va 1 with
    | none => .error ⟨.address, va, false⟩
    | some (w, off) => if va % 16 = 0 then .ok (w, off / 16) else .error ⟨.alignData, va, false⟩

def State.isFull (s : State) (w : WgIx) (granule : Nat) : Bool := ((s.wg? w).map fun x => x.full.contains granule).getD false

/-- The end of a WAITC.fe: an acquire, at .cl or wider where an engine set the granule full (R196, R270). -/
def State.granuleEnd (s : State) (w : WgIx) (granule : Nat) (scope : Scope) : State :=
  (s.acquire s.curCore (widen (((s.wg? w).map fun x => x.engineFull.contains granule).getD false) scope)).next4

def execWaitcFe (scope : Scope) (sa : SReg) (s : State) : Host.Outcome State Fault Refusal :=
  if s.fenceWaits then .next s.stall
  else
    match s.waitGranule (s.rs sa).toNat with
    | .error c => .next (s.raiseCond c false false)
    | .ok (w, g) => .next (if s.isFull w g then s.granuleEnd w g scope else s.wait (.granule w g scope))

/-- WAITC_WAKE: a parked WAITC or WAITC.fe ends once its condition holds. -/
def execWaitcWake (wg : WgIx) (g : GroupIx) (split : SplitIx) (s : State) : Host.Outcome State Fault Refusal :=
  let t := s.at wg g split
  match t.curWait with
  | some (.counter k v scope) => if v ≤ t.completed k then (t.waitcEnd k v scope).wakeEnd else .next s
  | some (.granule w n scope) => if t.isFull w n then (t.granuleEnd w n scope).wakeEnd else .next s
  | _ => .next s

/-! Streams (R285 to R292). -/

/-- A malformed stream record (R287). -/
def strmMalformed (r : List Byte) : Bool :=
  let c := strmControl r
  fld c 19 13 != 0 || bit c 6 || recNat r 0x0C 4 != 0 || 14 ≤ fld c 0 5 || (strmExtents r).any (· == 0) ||
    2 ^ 40 < strmTotal r || 6 ≤ strmScopeCode r || (!strmCounted r && (strmK r != 0 || strmScopeCode r != 0))

def strmScope (r : List Byte) : Scope := (scopeOf (strmScopeCode r)).getD .grp

/-- The OPEN entry of a stream; a counted stream first becomes a command on its counter, as a release at its scope. -/
def State.openStreamOn (s : State) (q : QReg) (r : List Byte) : State :=
  if strmCounted r then
    let s := s.release s.curCore (strmScope r)
    let s := s.newCmd s.cur.wg (strmK r) (.stream s.cur.g false) none (strmScope r) false
    let n := ((s.wg? s.cur.wg).map fun x => (x.counter (strmK r)).issued).getD 0
    s.enqueue [s.entry (.openQ q r (some (strmK r, n)))]
  else s.enqueue [s.entry (.openQ q r none)]

/-- STRM: until the queue has room and the core has room for the command, it stalls and has not taken effect (R28, R281). -/
def execStrm (q : QReg) (sa : SReg) (s : State) : Host.Outcome State Fault Refusal :=
  if s.fenceWaits then .next s.stall
  else
    match s.readRecord (s.rs sa).toNat 64 16 with
    | .error t => .next t
    | .ok (t, r) =>
      if strmMalformed r then .next (t.trap (Trap.plain .queue))
      else if !(t.curGroup.map fun g => g.room 1).getD true || (strmCounted r && !t.commandRoom) then .next t.stall
      else .next (t.openStreamOn q r)

def execQclr (q : QReg) (s : State) : Host.Outcome State Fault Refusal := .next (s.enqueue [s.entry (.closeQ q)])

/-- A stream opens at its first element, once the queue's former stream is closed (R286); it reads the descriptor that its record
names once, and waits for it where that lies on a peer (R272). -/
def execOpenEntry (s : State) : Host.Outcome State Fault Refusal :=
  match s.curGroup.bind fun g => g.laneQ.head? with
  | some ⟨.openQ q r cmd, _, _, _, stamp⟩ =>
    let ag := s.groupAgent s.cur.wg s.cur.g
    let x := if windowOf (strmBase r) = .view then s.viewAsk ag (Acc.load 1) (strmBase r) else (s, true)
    if !x.2 then .next x.1.laneWait
    else
      let st : Stream := ⟨r, 0, cmd, x.1.imagesOf ag [strmBase r], stamp, []⟩
      .next ((x.1.closeQueue s.cur.wg s.cur.g q.toNat).entryDone fun g => { g with q := modVec (fun _ => some st) g.q q.toNat })
  | _ => .next s

def execCloseEntry (s : State) : Host.Outcome State Fault Refusal :=
  match s.curGroup.bind fun g => g.laneQ.head? with
  | some ⟨.closeQ q, _, _, _, _⟩ => .next ((s.closeQueue s.cur.wg s.cur.g q.toNat).entryDone id)
  | _ => .next s

/-- Every element that the stream of a command has produced is written (R288). -/
def State.streamWritten (s : State) (cmd : CmdRef) : Bool :=
  match s.wg? cmd.wg with
  | none => true
  | some x => x.groups.all fun g => g.behind.all fun b => b.cmd != some (cmd.counter, cmd.num)

/-- STREAM_COMPLETE: a counted stream that has closed completes once its accesses have performed (R288). Completion is a release at its scope (R252). -/
def execStreamComplete (cmd : CmdRef) (s : State) : Host.Outcome State Fault Refusal :=
  match s.cmd? cmd with
  | some ⟨_, _, .stream _ true, _, scope, _, core, none⟩ =>
    .next (if s.streamWritten cmd then (s.release core scope).endCmd cmd stOk 0 0 [] else s)
  | _ => .next s

end Sys2Proof.Machine
end

