-- ==== Sys2Proof/Machine/Tasks.lean ====
section
/-! DEFINITION. The tributary queue: TQPUSH, TQPULL, TQJOIN and the end of a parked TQPULL (R199 to R204). -/

namespace Sys2Proof.Machine

/-- The fields of a task item (R200). -/
def itemControl (r : List Byte) : Nat := recNat r 0 4
def itemNf (r : List Byte) : Nat := fld (itemControl r) 0 2
def itemEm (r : List Byte) : Bool := bit (itemControl r) 2
def itemParent (r : List Byte) : Bool := bit (itemControl r) 3
def itemJoin (r : List Byte) : Nat := recNat r 4 4

/-- Reserved bits and unused fields are zero, and the join count stands with PARENT alone. -/
def itemFieldsOk (r : List Byte) : Bool :=
  fld (itemControl r) 4 28 == 0 && itemNf r ≤ 2 && (itemParent r == (itemJoin r != 0)) &&
    (1 ≤ itemNf r || recNat r 0x08 8 == 0) && (itemNf r == 2 || recNat r 0x10 8 == 0) && (itemEm r || recNat r 0x18 8 == 0)

/-- The granule at a vault-window address, resolved for the pusher (R201, R202). -/
def State.granuleAt (s : State) (ag : Agent) (va : Nat) : Option (WgIx × Nat) :=
  if windowOf va != .vault || va % 16 != 0 then none
  else (s.vaultTarget ag va 16).map fun x => (x.1, x.2 / 16)

/-- The full granules an item names, resolved; none when one is invalid. -/
def State.itemFull (s : State) (r : List Byte) : Option (List (WgIx × Nat)) :=
  (([recNat r 0x08 8, recNat r 0x10 8]).take (itemNf r)).mapM (s.granuleAt s.agent)

/-- The empty granule, when named. -/
def State.itemEmpty (s : State) (r : List Byte) : Option (Option (WgIx × Nat)) :=
  if itemEm r then (s.granuleAt s.agent (recNat r 0x18 8)).map some else some none

/-- The first free slot from a slot on. -/
def freeSlot (used : List Nat) : Nat → Nat → Nat
  | _, 0 => 0
  | k, n + 1 => if used.contains k then freeSlot used ((k + 1) % Config.tributarySlots) n else k

/-- The slot and generation a push takes. Which free slot it is, and a slot's first generation, the spec does not say:
free values (log 3). -/
def State.takeSlot (s : State) (r : Reach) : Nat × Nat :=
  let slot := freeSlot (r.items.map (·.slot)) (s.freeNat 0 % Config.tributarySlots) (r.items.length + 1)
  (slot, match r.gens.find? fun x => x.1 == slot with
    | some x => (x.2 + 1) % 2 ^ 16
    | none => s.freeNat 1 % 2 ^ 16)

def handleOf (slot gen : Nat) : Nat := slot + gen * 2 ^ 16

/-- The effective priority of a workgroup's region (R174). -/
def State.priorityOf (s : State) (w : WgIx) : Nat := pathPriority (s.wgPath w)

/-- Put an item into a reach's queue. -/
def Reach.push (r : Reach) (i : Item) : Reach :=
  { r with items := r.items ++ [i], gens := (i.slot, i.gen) :: r.gens.filter fun x => x.1 != i.slot }

/-- Insert a valid item, as a release at .die: the handle (R202). -/
def State.pushItem (s : State) (ctx : BitVec 20) (priority : Nat) (reach : Nat) (r : List Byte) (full : List (WgIx × Nat))
    (empty : Option (WgIx × Nat)) : State × Nat :=
  let x := s.takeSlot (s.reach reach)
  let item : Item := { slot := x.1, gen := x.2, ctx := ctx, priority := priority, order := s.stamp, join := itemJoin r,
                       parent := itemParent r, full := full, empty := empty, payload := r }
  (s.tick.modReach reach fun y => y.push item, handleOf x.1 x.2)

/-- The results of TQPUSH that leave the queue as it is. -/
def State.pushRefused (s : State) (sb sc : SReg) (status : Nat) : State := ((s.ws sc (BitVec.ofNat 64 status)).ws sb 0).next4

/-- The device and the owner PA of an item address that lies in a door (R410). -/
def State.doorOf (s : State) (va : Nat) : Option (Nat × Nat) :=
  match (s.resolve s.agent (Acc.load 64) va).res with
  | .ok r => (peerOf r.refs).bind fun x => if x.2 / 2 ^ 48 = 0xD then some x else none
  | .error _ => none

/-- A push through a door: the owner answers with the handle and the status, 8 bytes each (log 41). -/
def State.pushFar (s : State) (owner addr : Nat) (r : List Byte) (sb sc : SReg) : State :=
  match s.remoteBatch s.issuer s.curCtx engineTask [(owner, addr, .push r)] with
  | (s, none) => s.wait (.remote 0)
  | (s, some os) =>
    match os.findSome? (outcomeTrap 0 true) with
    | some t => (if t.detail = stIndeterminate then s.setWgerr s.cur.wg 6 else s).trap t
    | none =>
      let bs := (os.head?.map Outcome.data).getD []
      ((s.ws sb (BitVec.ofNat 64 (recNat bs 0 8))).ws sc (BitVec.ofNat 64 (recNat bs 8 8))).next4

def execTqpush (sa sb sc : SReg) (s : State) : Host.Outcome State Fault Refusal :=
  if s.fenceWaits then .next s.stall
  else
    match s.readRecord (s.rs sa).toNat 64 16 with
    | .error t => .next t
    | .ok (s, r) =>
     match s.doorOf (s.rs sa).toNat with
     | some (d, a) => .next (s.pushFar d a r sb sc)
     | none =>
      let reach := reachOfCore s.curCore
      match itemFieldsOk r, s.itemFull r, s.itemEmpty r with
      | true, some full, some empty =>
        if Config.tributarySlots ≤ (s.reach reach).items.length then .next (s.pushRefused sb sc stBusy)
        else
          let x := (s.release s.curCore .die).pushItem s.curCtx (s.priorityOf s.cur.wg) reach r full empty
          .next ((x.1.ws sb (BitVec.ofNat 64 x.2)).ws sc (BitVec.ofNat 64 stOk)).next4
      | _, _, _ => .next (s.pushRefused sb sc stRejected)

/-! Pulling (R201, R203). -/

/-- The workgroup of a named granule is resident. -/
def State.granuleResident (s : State) (g : WgIx × Nat) : Bool := ((s.wg? g.1).map fun x => x.state == .resident).getD false

def State.granuleIsFull (s : State) (g : WgIx × Nat) : Bool := ((s.wg? g.1).map fun x => x.full.contains g.2).getD false

/-- An item is eligible. -/
def State.eligible (s : State) (i : Item) : Bool :=
  (i.full.all fun g => s.granuleResident g && s.granuleIsFull g) &&
    (match i.empty with | some g => s.granuleResident g && !s.granuleIsFull g | none => true) && (i.join == 0 || !i.parent)

/-- The eligible item of a context that is pulled: the highest priority, and among equals the earliest pushed. -/
def State.pullItem (s : State) (reach : Nat) (ctx : BitVec 20) : Option Item :=
  least (fun a b => b.priority < a.priority || (a.priority == b.priority && a.order < b.order))
    ((s.reach reach).items.filter fun i => i.ctx == ctx && s.eligible i)

def Reach.drop (r : Reach) (i : Item) : Reach := { r with items := r.items.filter fun x => !(x.slot == i.slot && x.gen == i.gen) }

/-- The buffer of a TQPULL: its places, or the first condition of R355. -/
def State.pullBuffer (s : State) (va : Nat) : Except Cond (List ByteRef) :=
  if windowOf va != .vault then .error ⟨.address, va, false⟩
  else
    match s.resolveFlat s.agent (Acc.store 64) va with
    | .error c => .error c
    | .ok rs => if va % 64 = 0 then .ok rs else .error ⟨.alignData, va, false⟩

/-- Remove an item, write it to the buffer as plain stores, acquire at .die, and finish. -/
def State.pull (s : State) (i : Item) (rs : List ByteRef) (sb sc : SReg) : State :=
  let s := (s.modReach (reachOfCore s.curCore) fun r => r.drop i).writeRefs s.agent rs i.payload
  (((s.acquire s.curCore .die).ws sb (BitVec.ofNat 64 (handleOf i.slot i.gen))).ws sc (BitVec.ofNat 64 stOk)).next4

/-- TQPULL parks until an item of the context is eligible; its address is checked before. -/
def execTqpull (sa sb sc : SReg) (s : State) : Host.Outcome State Fault Refusal :=
  if s.fenceWaits then .next s.stall
  else
    let va := (s.rs sa).toNat
    match s.pullBuffer va with
    | .error c => .next (s.raiseCond c false true)
    | .ok rs =>
      match s.pullItem (reachOfCore s.curCore) s.curCtx with
      | some i => .next (s.pull i rs sb sc)
      | none => .next (s.wait (.tqpull va sb sc))

/-- TQPULL_REMOVE: a parked TQPULL finds an eligible item and removes it in one step. One whose buffer lies in a vault that is gone
stays parked (R203, log 84). -/
def execTqpullRemove (wg : WgIx) (g : GroupIx) (split : SplitIx) (s : State) : Host.Outcome State Fault Refusal :=
  let t := s.at wg g split
  match t.curWait with
  | some (.tqpull va sb sc) =>
    match t.pullItem (reachOfCore t.curCore) t.curCtx, t.pullBuffer va with
    | some i, .ok rs => (t.pull i rs sb sc).wakeEnd
    | _, _ => .next s
  | _ => .next s

/-! Joining (R204). -/

/-- The item a handle names for a context: a stale handle and another context's item name none, nor does a register with a bit above
the handle's 32 (R204, log 59). -/
def State.itemOf (s : State) (reach : Nat) (ctx : BitVec 20) (handle : Nat) : Option Item :=
  (s.reach reach).items.find? fun i => i.ctx == ctx && handleOf i.slot i.gen == handle

def Reach.join (r : Reach) (i : Item) : Reach :=
  { r with items := modWhere (fun x => x.slot == i.slot && x.gen == i.gen) (fun x => { x with join := x.join - 1 }) r.items }

def execTqjoin (sa sc : SReg) (s : State) : Host.Outcome State Fault Refusal :=
  if s.fenceWaits then .next s.stall
  else
    let reach := reachOfCore s.curCore
    let refused : Host.Outcome State Fault Refusal := .next (s.ws sc (BitVec.ofNat 64 stRejected)).next4
    match s.itemOf reach s.curCtx (s.rs sa).toNat with
    | none => refused
    | some i =>
      if !i.parent || i.join = 0 then refused
      else .next (((s.release s.curCore .die).modReach reach fun r => r.join i).ws sc (BitVec.ofNat 64 stOk)).next4

end Sys2Proof.Machine
end

