-- ==== Sys2Proof/Machine/FabricOwner.lean ====
section
/-! DEFINITION. This device as the owner of a fabric request: places and grants, doors, the owner result cache and the
stream table, and every request kind (R398, R407 to R410, R417 to R421, R426, R427). -/

namespace Sys2Proof.Machine

/-! Places and grants (R398, R407, R408). -/

/-- The device acting for a peer: no core, no workgroup. -/
def peerAgent : Agent := devAgent 0 0

/-- The workgroup that a door is bound to, while it is not complete. -/
def State.doorWg (s : State) (door : Nat) : Option WgIx :=
  (s.fabric.doors.find? fun d => d.1 == door).bind fun d => if s.wgState d.2 = some .complete then none else some d.2

def isDoor (pa : Nat) : Bool := pa / 2 ^ 48 == 0xD

/-- A requester's grants open owner bytes for an access, or the cause of R398: 2 no mapping, 3 permission. -/
def State.grantCause (s : State) (h : ReqHeader) (write : Bool) (pa n : Nat) : Option Nat :=
  let mine := s.fabric.grants.filter fun g =>
    g.dev == h.reqid.origin.toNat && g.ctx == h.reqid.ctx && g.base ≤ pa && pa + n ≤ g.base + g.len
  if mine.isEmpty then some 2 else if write && !mine.any (·.w) then some 3 else none

/-- The places of n bytes at an owner PA, or the cause of the refusal. -/
def State.ownerBytes (s : State) (h : ReqHeader) (write : Bool) (pa n : Nat) : Except Nat (List ByteRef) :=
  match s.grantCause h write pa n with
  | some c => .error c
  | none =>
    if isDoor pa then
      match s.doorWg (fld pa 40 8) with
      | none => .error 2
      | some w =>
        if fld pa 32 8 != 0 || (((s.wg? w).map (·.vaultSize)).getD 0) < fld pa 0 32 + n then .error 4
        else .ok ((List.range n).map fun i => .whole (.vault w (fld pa 0 32 + i)))
    else if isHbm pa && isHbm (pa + n - 1) then .ok ((List.range n).map fun i => .whole (.hbm (pa + i)))
    else if s.isHost pa then .ok ((List.range n).map fun i => .whole (.host (portOfPa pa) ((pa + i) % 2 ^ 48)))
    else .error 4

/-- Several runs of owner bytes; the cause of the first that is refused. -/
def State.ownerSpans (s : State) (h : ReqHeader) (write : Bool) : List (Nat × Nat) → Except Nat (List (List ByteRef))
  | [] => .ok []
  | (pa, n) :: rest =>
    match s.ownerBytes h write pa n with
    | .error c => .error c
    | .ok rs => match s.ownerSpans h write rest with
      | .error c => .error c
      | .ok more => .ok (rs :: more)

/-- A full set by a peer: the granules are full, a wait for them acquires at .cl or wider, and a peer owns them (R196, R382, R408). -/
def State.farFull (s : State) (rs : List ByteRef) : State :=
  (granulesOf rs).foldl (fun (s : State) g =>
    (s.setGranule g true true).modWg g.1 fun x => { x with extGranules := if x.extGranules.contains g.2 then x.extGranules else g.2 :: x.extGranules }) s

/-- Bytes that a peer writes. -/
def State.ownerWrite (s : State) (rs : List ByteRef) (bs : List Byte) : State := (s.writeRefs peerAgent rs bs).farFull rs

def State.ownerRead (s : State) (rs : List ByteRef) : List Byte := s.readRefs peerAgent true rs

/-! Answers (R398, R410). -/

/-- An error response, with its VIOLATION record. -/
def State.refuse (s : State) (h : ReqHeader) (kind cause : Nat) : State :=
  (s.postViolation h.addr h.retdev h.reqid.ctx.toNat h.reqid.engine.toNat cause).reply h kind stFault false false []

/-- A flit reaches this device only through ports that are up, and a request is dropped once its lifetime is 0 (R411). -/
def State.arrives (s : State) (h : ReqHeader) : Bool := s.fabric.portsUp && h.lifetime != 0

/-- The engine codes 7 to 15 are reserved; a request that carries one is refused as one of a kind that is never sent (R6, R410, log
42). -/
def reservedEngine (h : ReqHeader) : Bool := 7 ≤ h.reqid.engine.toNat

/-! Requests without a serial (R407, R413). -/

/-- Perform a request without a serial: the runs it touches, checked; then what it does: a status and its data. -/
def State.plainRequest (s : State) (h : ReqHeader) (kind : Nat) (write : Bool) (spans : List (Nat × Nat))
    (f : State → List (List ByteRef) → State × Nat × List Byte) : State :=
  if !s.arrives h then s
  else if reservedEngine h then s.refuse h kind 4
  else
    match s.ownerSpans h write spans with
    | .error c => s.refuse h kind c
    | .ok rs =>
      let x := f s rs
      x.1.reply h kind x.2.1 false false x.2.2

/-- The bytes of a read; poison is carried back to the requester. -/
def State.readAnswer (s : State) (rs : List ByteRef) (bs : List Byte) : State × Nat × List Byte :=
  if rs.any s.refPoisoned then (s, stPoison, []) else (s, stOk, bs)

/-- LOAD. -/
def execFabLoad (h : ReqHeader) (n : Nat) (s : State) : Host.Outcome State Fault Refusal :=
  .next (s.plainRequest h 0x01 false [(h.addr, n)] fun s rs => s.readAnswer rs.flatten (s.ownerRead rs.flatten))

/-- STORE. -/
def execFabStore (h : ReqHeader) (bytes : List Byte) (s : State) : Host.Outcome State Fault Refusal :=
  .next (s.plainRequest h 0x02 true [(h.addr, bytes.length)] fun s rs => (s.ownerWrite rs.flatten bytes, stOk, []))

/-! Far views (R409). -/

def elemBytes (e : FarElem) : Nat := (e.bits + 7) / 8
def elemSpan (e : FarElem) : Nat × Nat := (e.addr, elemBytes e)

/-- The bytes of one element, a half byte as one byte. -/
def State.elemRead (s : State) (e : FarElem) (rs : List ByteRef) : List Byte :=
  let bs := s.ownerRead rs
  if e.bits = 4 then bytesOfNat 1 (nibble (bs.headD 0) e.high) else bs

/-- Write one element. -/
def State.elemWrite (s : State) (e : FarElem) (rs : List ByteRef) (v : Nat) : State :=
  if e.bits = 4 then s.ownerWrite rs [withNibble ((s.ownerRead rs).headD 0) e.high (v % 16)]
  else s.ownerWrite rs (bytesOfNat (elemBytes e) v)

/-- VLOAD. -/
def execFabVload (h : ReqHeader) (elems : List FarElem) (s : State) : Host.Outcome State Fault Refusal :=
  .next (s.plainRequest h 0x06 false (elems.map elemSpan) fun s rs =>
    s.readAnswer rs.flatten ((elems.zip rs).flatMap fun x => s.elemRead x.1 x.2))

/-- VSTORE: the elements in the order of the lanes, so that the highest lane's stays (R232). -/
def execFabVstore (h : ReqHeader) (elems : List (FarElem × Nat)) (s : State) : Host.Outcome State Fault Refusal :=
  .next (s.plainRequest h 0x07 true (elems.map fun e => elemSpan e.1) fun s rs =>
    ((elems.zip rs).foldl (fun (s : State) x => s.elemWrite x.1.1 x.2 x.1.2) s, stOk, []))

/-! Streams and the result cache (R417 to R419). -/

def State.ownStream? (s : State) (r : ReqId) : Option OwnStream := s.fabric.table.find? fun t => t.reqid == r
def State.modOwn (s : State) (r : ReqId) (f : OwnStream → OwnStream) : State :=
  s.modFabric fun x => { x with table := modWhere (fun t => t.reqid == r) f x.table }

/-- An acknowledgement in the window, or at its end, retires the entries below it. -/
def State.retireTo (s : State) (r : ReqId) (ack : BitVec 32) : State :=
  match s.ownStream? r with
  | none => s
  | some t =>
    let d := ack - t.low
    if Config.serialWindow < d.toNat then s
    else
      let s := s.modFabric fun x => { x with orc := x.orc.filter fun e => !(e.reqid == r && decide (e.serial - t.low < d)) }
      s.modOwn r fun t => { t with low := ack }

/-- Where a serial lies against its stream's low (R418). -/
inductive SerialClass where
  | window | behind | outside
  deriving DecidableEq, Repr

def classifySerial (s low : BitVec 32) : SerialClass :=
  if (s - low).toNat < Config.serialWindow then .window
  else if 1 ≤ (low - s).toNat ∧ (low - s).toNat ≤ 2 ^ 31 then .behind
  else .outside

/-- The rows of R419 before the lookup of the entry: the stream's entry is there and its acknowledgement taken, or an
answer has been given. -/
inductive Admit where
  | done (s : State)
  | go (s : State)

def State.allow (s : State) (h : ReqHeader) (kind : Nat) : Admit :=
  if !s.arrives h then .done s
  else if reservedEngine h then .done (s.refuse h kind 4)
  else if h.inc ≠ s.hostif.incarn.toNat then .done (s.reply h kind stIndeterminate false false [])
  else if (s.ownStream? h.reqid).isNone && Config.streamEntries ≤ s.fabric.table.length then .done (s.reply h kind stBusy true false [])
  else
    let s := if (s.ownStream? h.reqid).isSome then s.modOwn h.reqid fun t => { t with last := s.time }
      else s.modFabric fun x => { x with table := x.table ++ [⟨h.reqid, h.ack, s.time⟩] }
    let s := s.retireTo h.reqid h.ack
    match classifySerial h.serial (((s.ownStream? h.reqid).map (·.low)).getD 0) with
    | .behind => .done s
    | .outside => .done (s.refuse h kind 5)
    | .window =>
      match s.fabric.orc.find? fun e => e.reqid == h.reqid && e.serial == h.serial with
      | some e => .done (s.reply h kind e.status false true e.result)
      | none => .go s

/-- The rows after it: the grants, room for an entry, then f, which gives the runs' effect and result; none is a failed
checksum. -/
def State.serialRequest (s : State) (h : ReqHeader) (kind : Nat) (write : Bool) (spans : List (Nat × Nat))
    (f : State → List (List ByteRef) → Option (State × Nat × List Byte)) : State :=
  match s.allow h kind with
  | .done s => s
  | .go s =>
    match s.ownerSpans h write spans with
    | .error c => s.refuse h kind c
    | .ok rs =>
      if Config.orcEntries ≤ s.fabric.orc.length then s.reply h kind stBusy true false []
      else match f s rs with
        | none => s.reply h kind stChecksum false false []
        | some (s, status, data) => (s.cacheResult h status data).reply h kind status false false data

/-- One read-modify-write at the owner: the old bytes. A full set follows a write through a door. -/
def State.ownerRmw (s : State) (rs : List ByteRef) (f : Nat → Option Nat) : State × List Byte :=
  let x := s.rmwRefs peerAgent rs f
  (if (f x.2).isSome then x.1.farFull rs else x.1, bytesOfNat rs.length x.2)

/-- An atomic that cannot be performed: its bytes are poisoned, or a PCIe host line has no such AtomicOp (R431). -/
def State.rmwStatus (s : State) (pcie : Bool) (rs : List ByteRef) : Option Nat :=
  if !pcie && s.pcieHost rs then some stFault else if rs.any s.refPoisoned then some stPoison else none

/-- One atomic request on one run of bytes. ret: it answers with the old value. -/
def State.oneAtomic (s : State) (h : ReqHeader) (kind n : Nat) (pcie ret : Bool) (f : Nat → Option Nat) : State :=
  s.serialRequest h kind true [(h.addr, n)] fun s rs =>
    match s.rmwStatus pcie rs.flatten with
    | some e => some (s, e, [])
    | none =>
      let x := s.ownerRmw rs.flatten f
      some (x.1, stOk, if ret then x.2 else [])

def rmwWidth (op : Rmw) : Nat := tyBits op.ty / 8

/-- ATOM. -/
def execFabAtom (h : ReqHeader) (op : Rmw) (operand : Nat) (s : State) : Host.Outcome State Fault Refusal :=
  .next (s.oneAtomic h 0x03 (rmwWidth op) (rmwPcie op) true fun old => some (rmwApply op old operand).1)

/-- CAS. -/
def execFabCas (h : ReqHeader) (size expected replacement : Nat) (s : State) : Host.Outcome State Fault Refusal :=
  .next (s.oneAtomic h 0x04 size true true fun old => if old = expected then some replacement else none)

/-- RED. -/
def execFabRed (h : ReqHeader) (op : Rmw) (operand : Nat) (s : State) : Host.Outcome State Fault Refusal :=
  .next (s.oneAtomic h 0x05 (rmwWidth op) (rmwPcie op) false fun old => some (rmwApply op old operand).1)

/-- What a far view atomic makes of lane i's element. -/
def farNew (op : FarAtomic) (i old : Nat) : Option Nat :=
  match op with
  | .rmw r operands rands => some (rmwApply { r with rand := rands.getD i 0 } old (operands.getD i 0)).1
  | .cas expected replacement => if old = expected.getD i 0 then some (replacement.getD i 0) else none

def farPcie : FarAtomic → Bool
  | .rmw r _ _ => rmwPcie r
  | .cas _ _ => true

/-- VATOMIC: the elements one after another, in lane order; the packed old values. -/
def execFabVatomic (h : ReqHeader) (elems : List FarElem) (op : FarAtomic) (s : State) : Host.Outcome State Fault Refusal :=
  .next (s.serialRequest h 0x08 true (elems.map elemSpan) fun s rs =>
    match s.rmwStatus (farPcie op) rs.flatten with
    | some e => some (s, e, [])
    | none =>
      let x := rs.zipIdx.foldl (fun (acc : State × List Byte) r =>
        let y := acc.1.ownerRmw r.1 (farNew op r.2)
        (y.1, acc.2 ++ y.2)) (s, [])
      some (x.1, stOk, x.2))

/-- DOOR: the bytes are written into the vault of the door's workgroup. -/
def execFabDoor (h : ReqHeader) (bytes : List Byte) (s : State) : Host.Outcome State Fault Refusal :=
  .next (s.serialRequest h 0x09 true [(h.addr, bytes.length)] fun s rs => some (s.ownerWrite rs.flatten bytes, stOk, []))

/-! PUSH (R202, R410). -/

/-- Push an item for the workgroup of a door, onto the queue of its reach, in its context: the handle and the status. -/
def State.pushFor (s : State) (w : WgIx) (item : List Byte) : State × Nat × Nat :=
  let t := s.at w 0 0
  let reach := reachOfCore (s.coreOf w)
  match itemFieldsOk item, t.itemFull item, t.itemEmpty item with
  | true, some full, some empty =>
    if Config.tributarySlots ≤ (s.reach reach).items.length then (s, 0, stBusy)
    else
      let x := s.pushItem (s.ctxOf w) (s.priorityOf w) reach item full empty
      (x.1, x.2, stOk)
  | _, _, _ => (s, 0, stRejected)

/-- PUSH. -/
def execFabPush (h : ReqHeader) (item : List Byte) (s : State) : Host.Outcome State Fault Refusal :=
  .next (s.serialRequest h 0x0B true [(h.addr, 64)] fun s _ =>
    match s.doorWg (fld h.addr 40 8) with
    | none => some (s, stRejected, [])
    | some w =>
      let x := s.pushFor w item
      some (x.1, stOk, bytesOfNat 8 x.2.1 ++ bytesOfNat 8 x.2.2))

/-! RCHUNK (R426, R427). -/

def chunkReduce (c : RChunk) : Option Reduce := (tyOfCode c.ty).map fun ty => ⟨ty, c.op, c.exact, c.csum.isSome, c.ximg⟩

/-- The elements a chunk reduces into. -/
def chunkTargets (c : RChunk) : List Nat := (c.elems.map (·.1)).eraseDups

/-- The exact sum of some elements (R427). -/
def sumValues (x : Reduce) (bs : List (List Byte)) : XAcc := bs.foldl (fun acc b => acc.plus (x.value b)) XAcc.zero

/-- The new elements of a chunk. -/
def chunkResults (c : RChunk) (x : Reduce) (old : List (List Byte)) : List (List Byte) :=
  ((chunkTargets c).zip old).map fun t => x.combine t.2 ((c.elems.filter fun e => e.1 == t.1).map (·.2))

/-- The check of R427: the sum after equals the sum before plus the checksum. -/
def chunkChecks (c : RChunk) (x : Reduce) (old new : List (List Byte)) : Bool :=
  match c.csum with
  | none => true
  | some image => sumValues x new == (sumValues x old).plus (imageValue image)

/-- RCHUNK. -/
def execFabRchunk (h : ReqHeader) (chunk : RChunk) (s : State) : Host.Outcome State Fault Refusal :=
  match chunkReduce chunk with
  | none => .next (if s.arrives h then s.refuse h 0x0C 4 else s)
  | some x =>
    .next (s.serialRequest h 0x0C true ((chunkTargets chunk).map fun a => (a, x.bytes)) fun s rs =>
      match s.rmwStatus (!(x.exact || x.ximg || x.op != 0 || tyFloat x.ty)) rs.flatten with
      | some e => some (s, e, [])
      | none =>
        let old := rs.map s.ownerRead
        let new := chunkResults chunk x old
        if chunkChecks chunk x old new then some ((rs.zip new).foldl (fun (s : State) r => s.ownerWrite r.1 r.2) s, stOk, []) else none)

/-! BANK (R410; log 39). -/

/-- The places a requester translated: the vector's, then each member's, from the payload. -/
def farPlaces (r payload : List Byte) : List MemberPlaces × BankPlace :=
  let at_ := fun (i : Nat) => (some (none, recNat payload (8 * i) 8) : BankPlace)
  ((List.range (bkMembers r)).map fun j => (at_ (3 * j + 1), at_ (3 * j + 2), at_ (3 * j + 3)), at_ 0)

def farWords (r payload : List Byte) : List Nat :=
  (List.range ((payload.length - (8 + 24 * bkMembers r)) / 4)).map fun i => recNat payload (8 + 24 * bkMembers r + 4 * i) 4

/-- The bytes of a bank command: its anchors, and of a run its ranges and the vector. -/
def farSpans (k : BankKind) (r : List Byte) (ms : List MemberPlaces) (vec : BankPlace) : List (Nat × Nat) × List (Nat × Nat) :=
  let use := fun (p : BankPlace) (n : Nat) => if n = 0 then [] else [(placePa p, n)]
  if k = .run then
    (ms.flatMap (fun m => use m.1 (bkLen0 r)) ++ use vec (bkVlen r), ms.flatMap fun m => use m.2.1 (bkLen1 r) ++ use m.2.2 (bkRlen r))
  else (ms.flatMap fun m => use m.1 1, [])

/-- A remote command of this serial is still in progress; a copy of its request is dropped. -/
def State.bankInProgress (s : State) (h : ReqHeader) : Bool :=
  s.bankCmds.any fun c => match c.remote with
    | some g => g.reqid == h.reqid && g.serial == h.serial
    | none => false

def firstCause (s : State) (h : ReqHeader) (write : Bool) (spans : List (Nat × Nat)) : Option Nat :=
  spans.findSome? fun x => s.grantCause h write x.1 x.2

/-- BANK: the command joins its members' queues; its answer follows when it completes. -/
def execFabBank (h : ReqHeader) (kind : BankKind) (record : List Byte) (payload : List Byte) (s : State) :
    Host.Outcome State Fault Refusal :=
  match s.allow h 0x0A with
  | .done t => .next t
  | .go s =>
    if s.bankInProgress h then .next s
    else
      let (ms, vec) := farPlaces record payload
      let words := if kind = .load then farWords record payload else []
      let spans := farSpans kind record ms vec
      match (firstCause s h false spans.1).orElse fun _ => firstCause s h true spans.2 with
      | some c => .next (s.refuse h 0x0A c)
      | none =>
        if Config.orcEntries ≤ s.fabric.orc.length then .next (s.reply h 0x0A stBusy true false [])
        else
          let ok := bkHeaderOk kind record && bkFieldsOk kind record words && bankPlacesOk kind record ms vec
          let c := bankCmdOf s.nextBank kind record ms vec words ok
          .next (s.joinQueues { c with ctx := h.reqid.ctx, remote := some h })

/-! The other kinds (R410, R419). -/

/-- PROBE. -/
def execFabProbe (h : ReqHeader) (s : State) : Host.Outcome State Fault Refusal :=
  .next (if !s.arrives h then s else if reservedEngine h then s.refuse h 0x20 4 else s.reply h 0x20 stOk false false [])

/-- ACK: entries retire. No answer follows (log 42). -/
def execFabAck (h : ReqHeader) (s : State) : Host.Outcome State Fault Refusal :=
  .next (if s.arrives h && !reservedEngine h then (s.modOwn h.reqid fun t => { t with last := s.time }).retireTo h.reqid h.ack else s)

/-- CLOSE: every entry of the stream retires, and the stream's entry is free. -/
def execFabClose (h : ReqHeader) (s : State) : Host.Outcome State Fault Refusal :=
  let table := s.fabric.table.filter fun t => t.reqid != h.reqid
  let orc := s.fabric.orc.filter fun e => e.reqid != h.reqid
  .next (if s.arrives h && !reservedEngine h then s.modFabric fun x => { x with table := table, orc := orc } else s)

/-- A kind that is never sent. -/
def execUnknownKind (h : ReqHeader) (kind : Nat) (s : State) : Host.Outcome State Fault Refusal :=
  .next (if s.arrives h then s.refuse h kind 4 else s)

/-- STREAM_ENTRY_FREE: no VALID entries and no traffic for 10 ms. -/
def execStreamEntryFree (ix : Nat) (s : State) : Host.Outcome State Fault Refusal :=
  match s.fabric.table[ix]? with
  | none => .next s
  | some t =>
    if s.time < t.last + 10000000 || s.fabric.orc.any (fun e => e.reqid == t.reqid) ||
        s.bankCmds.any (fun c => match c.remote with | some g => g.reqid == t.reqid | none => false) then .next s
    else .next (s.modFabric fun x => { x with table := x.table.eraseIdx ix })

end Sys2Proof.Machine
end

