-- ==== Sys2Proof/Machine/FabricRequester.lean ====
section
/-! DEFINITION. This device as a requester: responses, timers, incarnations, saved serials; flits in the ports; replicas
(R404, R411 to R416, R420 to R425, R446). -/

namespace Sys2Proof.Machine

/-! What an answer does (R415, R420, R424). -/

/-- The kind code of a request (R410). -/
def Payload.kindCode : Payload → Nat
  | .load _ => 0x01 | .store _ => 0x02 | .atom _ _ => 0x03 | .cas _ _ _ => 0x04 | .red _ _ => 0x05 | .vload _ => 0x06
  | .vstore _ => 0x07 | .vatomic _ _ => 0x08 | .door _ => 0x09 | .bank _ _ _ => 0x0A | .push _ => 0x0B | .rchunk _ => 0x0C
  | .probe => 0x20 | .ack => 0x21 | .close => 0x22

/-- The lowest serial that has not completed moves past completed ones. -/
def ReqStream.advance (t : ReqStream) : Nat → ReqStream
  | 0 => t
  | n + 1 =>
    if t.done.contains t.ack then ({ t with ack := t.ack + 1, done := t.done.filter (· != t.ack) } : ReqStream).advance n else t

def ReqStream.complete (t : ReqStream) (serial : BitVec 32) : ReqStream :=
  ({ t with done := serial :: t.done } : ReqStream).advance (t.done.length + 1)

/-- Whoever waits for an answer looks again (R424). -/
def State.wakeIssuer (s : State) (i : Issuer) : State :=
  match i with
  | .scalar w g k => s.modSplit w g k fun x => match x.status with
    | .waiting (.remote _) => x.toReady
    | _ => x
  | .lane w g _ | .stream w g => s.modGroup w g fun x => { x with head := { x.head with waiting := false } }
  | .command w c n => let r : CmdRef := ⟨w, c, n⟩; if ((s.cmd? r).map (·.ending.isSome)).getD false then (s.resumeEnd r).completeWg w else s
  | .reduction w g =>
    (s.modGroup w g Group.wakeRetry).completeWg w
  | .device => s

/-- Nobody takes the outcome of an operation: one of the device, or a VRED that has retired (R267). -/
def Issuer.untaken : Issuer → Bool
  | .device | .reduction _ _ => true
  | _ => false

/-- What a failed VRED that has retired leaves: an unknown outcome sets WGERR.INDET (R267, R424, log 51). -/
def State.reductionEnd (s : State) (i : Issuer) (out : Outcome) : State :=
  match i, out with
  | .reduction w _, .indeterminate => s.setWgerr w 6
  | _, _ => s

/-- An operation is DONE with an outcome, delivered once: its serial completes, and its issuer looks again. One whose outcome nobody
takes leaves the table. -/
def State.opDone (s : State) (id : Nat) (out : Outcome) : State :=
  match s.op? id with
  | none => s
  | some o =>
    let s := match o.serial with
      | some n => s.modStream o.reqid o.owner fun t => t.complete n
      | none => s
    let s := if o.issuer.untaken then (s.modFabric fun x => { x with ops := x.ops.filter fun y => y.id != id }).reductionEnd o.issuer out
      else s.modOp id fun y => { y with state := .done, result := some out }
    (s.wakeIssuer o.issuer).progress o.reqid.ctx

/-- What a status other than BUSY means. -/
def outcomeOf (r : Response) : Outcome :=
  match r.status.toNat with
  | 0 => .performed r.data
  | 3 => .poison
  | 4 => .checksum
  | 6 => .indeterminate
  | _ => .error

/-- A new incarnation of an owner: every outstanding serial of the stream completes INDETERMINATE, the requester learns the
incarnation and sends a PROBE (R422). -/
def State.newIncarnation (s : State) (r : ReqId) (owner inc : Nat) : State :=
  let open_ := (s.fabric.ops.filter fun o => o.reqid == r && o.owner == owner && o.serial.isSome && !o.answered).map (·.id)
  let s := open_.foldl (fun (s : State) id => s.opDone id .indeterminate) s
  let s := s.modStream r owner fun t => { t with inc := some inc }
  s.modFabric fun x => x.addOp .device owner r 0 .probe

/-- The delay after a BUSY answer: 4 µs, then twice the last, up to 1 ms. -/
def busyNext (d : Nat) : Nat := if d = 0 then 4000 else min (2 * d) 1000000

/-- An answer to an operation that is SENT or in WAITBUSY. -/
def State.answered (s : State) (o : RemoteOp) (r : Response) : State :=
  match o.payload with
  | .probe => ((s.modStream o.reqid o.owner fun t => { t with inc := some r.inc }).opDone o.id (.performed [])).pump
  | _ =>
    if r.busy then
      let d := busyNext o.busyDelay
      s.modOp o.id fun y => { y with state := .waitbusy (s.time + d), busyDelay := d }
    else if r.status.toNat = stChecksum ∧ o.checksums < 2 then
      let o := { o with checksums := o.checksums + 1, onlyBusy := false, state := .sent, lastSent := s.time }
      (s.modOp o.id fun _ => o).transmit o
    else (s.opDone o.id (outcomeOf r)).pump

/-- The response answers an outstanding operation: its tag, kind, stream and serial. -/
def RemoteOp.answeredBy (o : RemoteOp) (r : Response) : Bool :=
  r.kind == o.payload.kindCode + 0x80 && r.reqid == o.reqid && (o.serial.getD r.serial == r.serial) &&
    (match o.state with | .sent | .waitbusy _ => true | _ => false)

/-- The bytes of a response's flit (log 23). -/
def responseBytes (r : Response) : Nat := 32 + r.data.length

/-- RESPONSE: a second response, one for a SAVED serial and one for nothing outstanding are discarded. -/
def execResponse (r : Response) (s : State) : Host.Outcome State Fault Refusal :=
  match s.op? r.tag with
  | none => .next s
  | some o =>
    if !s.fabric.portsUp || !o.answeredBy r then .next s
    else
      let s := s.chargeFabric o.issuer (responseBytes r)
      let learned := (s.stream? o.reqid o.owner).bind (·.inc)
      match learned with
      | some i =>
        if i = r.inc then .next (s.answered o r)
        else
          let t := s.newIncarnation o.reqid o.owner r.inc
          match t.op? o.id with
          | some o => .next (if o.serial.isNone && o.answeredBy r then t.answered o r else t.pump)
          | none => .next t.pump
      | none => .next (s.answered o r)

/-! Timers (R412, R415, R420, R446). -/

/-- The lifetime L in ns. -/
def State.lifetimeNs (s : State) : Nat := s.hostif.params.lifetimeUs * 1000

/-- RETRANSMIT: 2L after the first copy, the interval doubling up to 32L. -/
def execRetransmit (op : Nat) (s : State) : Host.Outcome State Fault Refusal :=
  match s.op? op with
  | none => .next s
  | some o =>
    if o.state ≠ .sent || s.time < o.lastSent + 2 ^ min o.copies 5 * s.lifetimeNs then .next s
    else if s.fabricHeld o.issuer then .next (s.noteFabric o.issuer)
    else
      let o := { o with lastSent := s.time, copies := o.copies + 1 }
      .next ((s.modOp op fun _ => o).transmit o)

/-- What giving up an operation comes to: a serial may have been performed unless every answer was BUSY. -/
def RemoteOp.givenUp (o : RemoteOp) : Outcome :=
  if o.serial.isNone then .gaveUp
  else match o.state with
    | .waitbusy _ => if o.onlyBusy then .notPerformed else .indeterminate
    | _ => .indeterminate

/-- GIVE_UP: unanswered for G. A PROBE that nobody answers is begun again with the stream (log 42). -/
def execGiveUp (op : Nat) (s : State) : Host.Outcome State Fault Refusal :=
  match s.op? op with
  | none => .next s
  | some o =>
    let live := match o.state with | .sent | .waitbusy _ => true | _ => false
    if !live || s.time < o.firstSent + s.hostif.params.giveUp then .next s
    else match o.payload with
      | .probe =>
        let idle := fun (t : ReqStream) => t.reqid == o.reqid && t.owner == o.owner && t.inc.isNone
        .next ((s.modFabric fun x => { x with streams := x.streams.filter fun t => !idle t }).opDone op .gaveUp).pump
      | _ => .next (s.opDone op o.givenUp).pump

/-- WAITBUSY: the delay ends. -/
def execWaitbusy (op : Nat) (s : State) : Host.Outcome State Fault Refusal :=
  match s.op? op with
  | none => .next s
  | some o =>
    match o.state with
    | .waitbusy t =>
      if s.time < t then .next s
      else if s.fabricHeld o.issuer then .next (s.noteFabric o.issuer)
      else
        let o := { o with state := .sent, lastSent := s.time, copies := 1 }
        .next ((s.modOp op fun _ => o).transmit o)
    | _ => .next s

/-- ACK_TIMER: 100 µs without a request on a stream whose acknowledgement has advanced. -/
def execAckTimer (stream : Nat) (s : State) : Host.Outcome State Fault Refusal :=
  match s.fabric.streams[stream]? with
  | none => .next s
  | some t =>
    if t.ackSent = t.ack || s.time < t.lastSent + 100000 || !s.fabric.portsUp then .next s
    else
      let h : ReqHeader := { ser := false, lifetime := s.hostif.params.lifetimeUs, retdev := s.hostif.devnum.toNat, inc := 0,
                             reqid := t.reqid, serial := 0, ack := t.ack, addr := 0, tag := 0 }
      .next ((s.modStream t.reqid t.owner fun t => { t with ackSent := t.ack, lastSent := s.time }).emit (.request t.owner h .ack))

/-- The work that a saved operation belongs to has resumed. -/
def State.opResumed (s : State) (o : RemoteOp) : Bool :=
  !s.issuerSaved o && !((s.ctx? o.reqid.ctx).map (·.switchedOut)).getD false

/-- SAVED_RETRANSMIT: no sooner than L after the save, once the work has resumed; the timers begin again. -/
def execSavedRetransmit (op : Nat) (s : State) : Host.Outcome State Fault Refusal :=
  match s.op? op with
  | none => .next s
  | some o =>
    match o.state with
    | .saved t =>
      if s.time < t + s.lifetimeNs || !s.opResumed o || !s.fabric.portsUp then .next s
      else if s.fabricHeld o.issuer then .next (s.noteFabric o.issuer)
      else
        let o := { o with state := .sent, firstSent := s.time, lastSent := s.time, copies := 1 }
        .next ((s.modOp op fun _ => o).transmit o)
    | _ => .next s

/-! Ports and replicas (R15, R404, R411). -/

/-- LIFETIME_EXPIRY: a flit that has been in a port for all of its lifetime is dropped. The flits of the ports are counted through:
place ix of port p is number 18 ix + p. -/
def execLifetimeExpiry (flit : Nat) (s : State) : Host.Outcome State Fault Refusal :=
  let port := flit % Config.fabricPorts
  let ix := flit / Config.fabricPorts
  match (s.fabric.port port)[ix]? with
  | none => .next s
  | some (_, life, since) => if s.residence since < life then .next s else .next (s.modFabric fun x => x.dropFlit port ix)

/-- CRC_FAILED_FLIT: a flit that arrives at one of the ports F0 to F17 with a failed CRC is dropped before it reaches any state of the
device, and the link does nothing about it (R8, R15). -/
def execCrcFailedFlit (port : Nat) (s : State) : Host.Outcome State Fault Refusal := let _ := port; .next s

/-- REPLICA_APPLY: a replica applies the next write of a sequencer's order. -/
def execReplicaApply (seqReach replica : Nat) (s : State) : Host.Outcome State Fault Refusal :=
  if replica < 4 then .next (s.replicaApplyOne seqReach replica) else .next s

end Sys2Proof.Machine
end

