-- ==== Sys2Proof/Machine/ViewOps.lean ====
section
/-! DEFINITION. VIEWB, VIEWI and RMINV, and what completes the last two (R271 to R276). -/

namespace Sys2Proof.Machine

/-! Writing the view table and a residency map (R272, R274, R276). -/

/-- The device writes bytes of a descriptor. It needs no write permission; a table outside the ordinary pages gives ADDRESS. -/
def State.putDesc (s : State) (ag : Agent) (view : Nat) (bs : List Byte) : Except Cond State :=
  let va := s.descVa ag.ctx view
  if windowOf va != .ordinary then .error ⟨.address, va, false⟩
  else match s.resolveFlat ag (Acc.load 128) va with
    | .error c => .error c
    | .ok rs => .ok (s.devWriteRefs ag (rs.take bs.length) bs)

/-- The status an image earns, and the state after it was written (R272). -/
def State.bindView (s : State) (ag : Agent) (view : Nat) (image : List Byte) : Except Cond (State × Nat) :=
  if 0xFFFF < view || !(parseDesc image).imageOk then .ok (s, stRejected)
  else match s.putDesc ag view image with
    | .error c => .error c
    | .ok s => .ok (s, stOk)

/-- A descriptor becomes INVALID: its control word is 0. -/
def State.invalidateView (s : State) (ag : Agent) (view : Nat) : Except Cond State := s.putDesc ag view (bytesOfNat 4 0)

/-- The status codes of an entry (R226). -/
def kvUnmapped : Nat := 3

/-- An entry becomes UNMAPPED with a new gen; its other fields stay. -/
def unmapEntry (e : Nat) : Nat := setFld (setFld e 0 3 kvUnmapped) 8 16 (fld e 8 16 + 1)

/-- RMINV on an entry: status and fault code, and the new state. A descriptor or entry that cannot be read or written ends it
with FAULT (log 40). -/
def State.unmap (s : State) (ag : Agent) (view entry : Nat) : State × Nat × Nat :=
  if 0xFFFF < view then (s, stRejected, 0)
  else match s.descOf ag 0 view with
    | .error c => (s, stFault, classCode c.cls)
    | .ok d =>
      if d.kind != some .kvmap || d.entryCount ≤ entry then (s, stRejected, 0)
      else
        let va := (d.index + 16 * entry) % 2 ^ 64
        match s.resolveFlat ag (Acc.load 16) va with
        | .error c => (s, stFault, classCode c.cls)
        | .ok _ => (s.putEntry ag va unmapEntry, stOk, 0)

/-! Who still uses the old image or entry (R273, R274). -/

/-- The operand loads of the device, in slots and in saved slots. -/
def State.allLoads (s : State) : List Load :=
  (s.cores.toList.flatMap fun c => c.slots.toList.flatMap (·.loads)) ++
    s.wgs.flatMap fun x => x.savedSlots.flatMap fun y => y.2.loads

/-- What marks a use: of an image, by its view; of what an access resolved to; of a view and its map entry. -/
structure Uses where
  image : Option Nat
  access : Resolved → Bool
  via : Nat × Nat → Bool

/-- The uses of a view's old image. -/
def Uses.ofView (view : Nat) : Uses := ⟨some view, fun r => r.via.any fun x => x.1 == view, fun x => x.1 == view⟩

/-- The uses of an old map entry. -/
def Uses.ofEntry (view entry : Nat) : Uses :=
  ⟨none, fun r => r.via.any fun x => x == (view, entry + 1), fun x => x == (view, entry + 1)⟩

def Uses.images (u : Uses) (l : List (Nat × List Byte)) : Bool := l.any fun x => some x.1 == u.image

/-- The streams of a group that are open with an old image, or have produced elements through it. -/
def Group.streamUses (g : Group) (u : Uses) : List Nat :=
  (g.q.toList.filterMap fun q => q.bind fun st => if u.images st.images then some st.id else none) ++
    g.behind.filterMap fun b => if b.via.any u.via then some b.stream else none

/-- The accesses of a group that await a peer: by split, or of the lane stream. -/
def Group.lookUses (g : Group) (u : Uses) : List (Option SplitIx) :=
  (splitIxs.filterMap fun k => (g.split k).bind fun x => if x.looks.any fun y => u.access y.2 then some (some k) else none) ++
    if (g.head.looks.getD []).any fun y => match y.2 with | .inl r => u.access r | .inr _ => false then [none] else []

/-- The groups of a context. -/
def State.ctxGroups (s : State) (ctx : BitVec 20) : List (WgIx × GroupIx × Group) :=
  s.wgs.zipIdx.flatMap fun (x : Wg × Nat) =>
    if s.ctxOf x.2 != ctx then [] else x.1.groups.zipIdx.map fun (g : Group × Nat) => (x.2, g.2, g.1)

/-- Remote operations of a context that nobody waits for and that have not been answered: VREDs that have retired. -/
def State.retiredOps (s : State) (ctx : BitVec 20) : List Nat :=
  (s.fabric.ops.filter fun o => o.issuer.retired && !o.answered && o.reqid.ctx == ctx).map (·.id)

/-- What uses an old image or entry in a context. -/
def State.holders (s : State) (ctx : BitVec 20) (u : Uses) : Holders :=
  { cmds := s.wgs.zipIdx.flatMap fun (x : Wg × Nat) =>
      if s.ctxOf x.2 != ctx then []
      else (x.1.cmds.filter fun c => c.slices.any fun y => u.images y.images).map fun c => ⟨x.2, c.counter, c.num⟩
    loads := (s.allLoads.filter fun l => s.ctxOf l.wg == ctx && l.via.any u.via).map (·.num)
    streams := (s.ctxGroups ctx).flatMap fun g => (g.2.2.streamUses u).map fun n => (g.1, g.2.1, n)
    looks := (s.ctxGroups ctx).flatMap fun g => (g.2.2.lookUses u).map fun k => (g.1, g.2.1, k)
    ops := s.retiredOps ctx }

def Holders.none : Holders := ⟨[], [], [], [], []⟩

/-- None of them uses it any more. -/
def State.released (s : State) (h : Holders) (u : Uses) : Bool :=
  (h.cmds.all fun c => (s.cmd? c).isNone) && !(s.allLoads.any fun l => h.loads.contains l.num) &&
    (h.streams.all fun x => !((s.group? x.1 x.2.1).map fun g => (g.streamUses u).contains x.2.2).getD false) &&
    (h.looks.all fun x => !((s.group? x.1 x.2.1).map fun g => (g.lookUses u).contains x.2.2).getD false) &&
    !(s.fabric.ops.any fun o => h.ops.contains o.id && !o.answered)

/-! The instructions. -/

/-- VIEWB. -/
def execViewb (sa sb sc : SReg) (s : State) : Host.Outcome State Fault Refusal :=
  if s.fenceWaits then .next s.stall
  else
    match s.readRecord (s.rs sb).toNat 128 16 with
    | .error t => .next t
    | .ok (s, image) =>
      match s.bindView s.agent (s.rs sa).toNat image with
      | .error c => .next (s.raiseCond c false true)
      | .ok (s, status) => .next (s.ws sc (BitVec.ofNat 64 status)).next4

/-- The completion record of a view command must be aligned; its issue waits as FENCE at group scope and for room, and is a release
at .dev. -/
def State.viewCmd (s : State) (sb : SReg) (k : State → State) : Host.Outcome State Fault Refusal :=
  if s.fenceWaits then .next s.stall
  else match recordMisaligned (s.rs sb).toNat with
    | some c => .next (s.raiseCond c false false)
    | none => if s.commandRoom then .next (k (s.release s.curCore .dev)) else .next s.stall

/-- VIEWI: the descriptor is invalid at once; the command completes when nothing uses the old image. -/
def execViewi (k : KReg) (sa sb : SReg) (s : State) : Host.Outcome State Fault Refusal :=
  s.viewCmd sb fun s =>
    let view := (s.rs sa).toNat
    let issue := fun (s : State) (status : Nat) (old : Holders) =>
      (s.newCmd s.cur.wg k.toNat (.viewi (s.recordOf sb) status 0 view old) none .dev false).next4
    if 0xFFFF < view then issue s stRejected Holders.none
    else match s.invalidateView s.agent view with
      | .error c => s.raiseCond c false true
      | .ok t => issue t stOk (s.holders s.curCtx (Uses.ofView view))

/-- RMINV: the entry is UNMAPPED at once; the command completes when nothing uses the old entry. -/
def execRminv (k : KReg) (sa sb sc : SReg) (s : State) : Host.Outcome State Fault Refusal :=
  s.viewCmd sb fun s =>
    let view := (s.rs sa).toNat
    let entry := (s.rs sc).toNat
    let x := s.unmap s.agent view entry
    let old := if x.2.1 = stOk then s.holders s.curCtx (Uses.ofEntry view entry) else Holders.none
    (x.1.newCmd s.cur.wg k.toNat (.rminv (s.recordOf sb) x.2.1 x.2.2 view entry old) none .dev false).next4

/-- VIEWI_COMPLETE: completion is a release at .dev. -/
def execViewiComplete (cmd : CmdRef) (s : State) : Host.Outcome State Fault Refusal :=
  match s.cmd? cmd with
  | some ⟨_, _, .viewi va status fault view old, _, scope, _, core, none⟩ =>
    .next (if s.released old (Uses.ofView view) then (s.release core scope).endCmd cmd status fault 0 (va.toList.map fun a => (0, a)) else s)
  | _ => .next s

/-- RMINV_COMPLETE. -/
def execRminvComplete (cmd : CmdRef) (s : State) : Host.Outcome State Fault Refusal :=
  match s.cmd? cmd with
  | some ⟨_, _, .rminv va status fault view entry old, _, scope, _, core, none⟩ =>
    .next (if s.released old (Uses.ofEntry view entry) then (s.release core scope).endCmd cmd status fault 0 (va.toList.map fun a => (0, a))
      else s)
  | _ => .next s

end Sys2Proof.Machine
end

