-- ==== Sys2Proof/Machine/Launches.lean ====
section
/-! DEFINITION. Region control blocks, launch records and their checks, capacity on the cores, LNCH, and the dependence of
launches (R173 to R181, R184, R360). -/

namespace Sys2Proof.Machine

/-! Region control blocks (R173 to R176). -/

/-- A limit, or none when its inherit bit is set. -/
def rcbLimit (r : List Byte) (bitNo off : Nat) : Option Nat := if bit (recNat r 0x38 4) bitNo then none else some (recNat r off 4)

/-- A region as its RCB gives it, nothing consumed yet. -/
def parseRcb (ctx : BitVec 20) (va : Nat) (r : List Byte) : Region :=
  { rcb := va, parent := recNat r 0 8, ctx := ctx, nfd := bit (recNat r 0x08 4) 8, trapQueue := recNat r 0x18 8
    inheritPriority := bit (recNat r 0x38 4) 7, inheritMask := bit (recNat r 0x38 4) 6
    own := { priority := fld (recNat r 0x08 4) 0 6, cores := rcbLimit r 0 0x20, vault := rcbLimit r 1 0x24, issue := rcbLimit r 2 0x28
             hbm := rcbLimit r 3 0x2C, bank := rcbLimit r 4 0x30, fabric := rcbLimit r 5 0x34, mask := BitVec.ofNat 192 (recNat r 0x40 24) }
    issueUsed := 0, hbmUsed := 0, bankUsed := 0, fabricUsed := 0, heldHbm := 0, heldBank := 0, heldFabric := 0, throttledNow := [] }

/-- The validity of one RCB, root or not. -/
def rcbOk (c : Ctx) (va : Nat) (r : List Byte) : Bool :=
  let control := recNat r 0x08 4
  let root := va == c.rootRcb
  va % 256 == 0 && fld control 6 2 == 0 && fld control 9 23 == 0 && fld (recNat r 0x38 4) 8 24 == 0 && recNat r 0x3C 4 == 0 &&
    recNat r 0x58 8 == 0 &&
    (if root then recNat r 0 8 == 0 && recNat r 0x0C 4 == c.id.toNat && recNat r 0x18 8 != 0
     else recNat r 0 8 != 0 && recNat r 0x0C 4 == 0 && recNat r 0x10 8 == 0)

/-- The chain of an RCB up to its registered root, if every RCB on it is valid. -/
def State.rcbChain (s : State) (c : Ctx) (va : Nat) : Nat → Option (List Region)
  | 0 => none
  | n + 1 =>
    match s.devRead (devAgent c.id 0) va 256 with
    | .error _ => none
    | .ok r =>
      if !rcbOk c va r then none
      else if va = c.rootRcb then some [parseRcb c.id va r]
      else (s.rcbChain c (recNat r 0 8) n).map fun rest => parseRcb c.id va r :: rest

/-- A region as read anew keeps what it has consumed. -/
def Region.renew (old new : Region) : Region :=
  { new with issueUsed := old.issueUsed, hbmUsed := old.hbmUsed, bankUsed := old.bankUsed, fabricUsed := old.fabricUsed
             heldHbm := old.heldHbm, heldBank := old.heldBank, heldFabric := old.heldFabric, throttledNow := old.throttledNow }

def State.putRegion (s : State) (r : Region) : State :=
  match s.region? r.ctx r.rcb with
  | some _ => s.modRegion r.ctx r.rcb fun old => old.renew r
  | none => { s with regions := s.regions ++ [r] }

/-- The effective core mask (R174). -/
def pathMask : List Region → BitVec 192
  | [] => BitVec.allOnes 192
  | r :: rest => if r.inheritMask then pathMask rest else r.own.mask &&& pathMask rest

/-- (class, priority) of a path as one number. -/
def pathRank (p : List Region) : Nat :=
  (if p.all fun r => limitRoom r.own.issue r.issueUsed then 64 else 0) + pathPriority p % 64

/-! Capacity (R184, R378). -/

/-- What a workgroup takes of a core. -/
structure Claim where
  core : CoreIx
  launch : Nat
  j : Nat
  groups : Nat
  regs : Nat
  vault : Nat
  ctx : BitVec 20
  rcbs : List Nat
  slots : List Nat
  tiles : Nat
  deriving DecidableEq, Repr

/-- The claim of a workgroup of a launch on a core; a pre-empted one takes back its slots and tiles. -/
def State.claimOf (s : State) (l : Nat) (x : Launch) (j : Nat) (core : CoreIx) : Claim :=
  let w := s.wgs.find? fun y => y.launch == l && y.j == j
  { core := core, launch := l, j := j, groups := x.groups, regs := x.groups * x.regs, vault := x.vault, ctx := x.ctx
    rcbs := (s.path x.ctx x.region).map (·.rcb), slots := (w.map fun y => y.savedSlots.map (·.1)).getD []
    tiles := (w.map fun y => y.tiles.length).getD 0 }

/-- The claims of the resident workgroups, but for some that are to go. -/
def State.residentClaims (s : State) (gone : List WgIx) : List Claim :=
  s.wgs.zipIdx.filterMap fun (y : Wg × Nat) =>
    if y.1.state = .resident ∧ !gone.contains y.2 then
      (s.launch? y.1.launch).map fun x => { s.claimOf y.1.launch x y.1.j y.1.core with slots := [] }
    else none

/-- Group slots a core has free. -/
def freeSlots (claims : List Claim) (core : CoreIx) : Nat :=
  32 - (claims.filter fun c => c.core == core).foldl (fun n c => n + c.groups) 0

def sumOn (claims : List Claim) (core : CoreIx) (f : Claim → Nat) : Nat :=
  (claims.filter fun c => c.core == core).foldl (fun n c => n + f c) 0

/-- Every cores and vault limit of some regions holds. -/
def limitsOk (regions : List Region) (claims : List Claim) : Bool :=
  regions.all fun r =>
    let mine := claims.filter fun c => c.ctx == r.ctx && c.rcbs.contains r.rcb
    (match r.own.cores with | some n => (mine.map (·.core)).eraseDups.length ≤ n | none => true) &&
      (match r.own.vault with | some n => mine.foldl (fun v c => v + c.vault) 0 ≤ n * 4096 | none => true)

/-- What placement on a core is tested against: the cores open to it, the limits in force, the workgroups that are to go. -/
structure Fit where
  mask : BitVec 192
  withheld : Bool
  regions : List Region
  gone : List WgIx

/-- A core takes part in placement: it is in service and not withheld for a scan (R391, R396); a capacity counts it then
too. -/
def State.coreOpen (s : State) (withheld : Bool) (c : CoreIx) : Bool := (s.core c).inService && (withheld || !(s.core c).withheld)

/-- An operand slot is free for a workgroup that returns. -/
def State.slotOpen (s : State) (gone : List WgIx) (core n : Nat) : Bool :=
  let x := s.slot core n
  x.state == .free || gone.contains x.owner

/-- A workgroup fits a core beside others. -/
def State.fits (s : State) (f : Fit) (claims : List Claim) (c : Claim) : Bool :=
  f.mask.getLsbD c.core && s.coreOpen f.withheld c.core && c.groups ≤ freeSlots claims c.core &&
    sumOn claims c.core (·.regs) + c.regs ≤ Config.vregsPerCore && sumOn claims c.core (·.vault) + c.vault ≤ Config.vaultPerCore &&
    sumOn claims c.core (·.tiles) + c.tiles ≤ Config.accTiles &&
    (c.slots.all fun n => s.slotOpen f.gone c.core n && !(claims.any fun d => d.core == c.core && d.slots.contains n)) &&
    limitsOk f.regions (claims ++ [c])

/-- The core of a list that fits with the most free slots, the lowest among equals. -/
def State.bestCore (s : State) (f : Fit) (claims : List Claim) (mk : CoreIx → Claim) (cores : List CoreIx) : Option Claim :=
  least (fun a b => freeSlots claims b.core < freeSlots claims a.core || (freeSlots claims a.core == freeSlots claims b.core && a.core < b.core))
    ((cores.map mk).filter (s.fits f claims))

/-- Workgroups placed one after another on cores of a list. -/
def State.placeList (s : State) (f : Fit) (cores : List CoreIx) (claims : List Claim) : List (CoreIx → Claim) → Option (List Claim)
  | [] => some []
  | make :: rest =>
    match s.bestCore f claims make cores with
    | none => none
    | some c => (s.placeList f cores (claims ++ [c]) rest).map (c :: ·)

/-- The package cluster of a core (R9). -/
def hwCluster (c : CoreIx) : Nat := c / 48 * 6 + (2 * (c % 48 / 8 / 2) + c % 8 / 4)
def clusterCores (k : Nat) : List CoreIx := (List.range Config.cores).filter fun c => hwCluster c == k

/-- A cluster's workgroups placed whole on one hardware cluster. -/
def State.placeCluster (s : State) (f : Fit) (claims : List Claim) (mks : List (CoreIx → Claim)) : Option (List Claim) :=
  let free := fun (k : Nat) => (clusterCores k).foldl (fun n c => n + freeSlots claims c) 0
  let able := (List.range 24).filterMap fun k => (s.placeList f (clusterCores k) claims mks).map fun cs => (k, cs)
  (least (fun a b => free b.1 < free a.1 || (free a.1 == free b.1 && a.1 < b.1)) able).map (·.2)

/-- Clusters placed in order. -/
def State.placeClusters (s : State) (f : Fit) (claims : List Claim) : List (List (CoreIx → Claim)) → Option (List Claim)
  | [] => some []
  | mks :: rest =>
    match s.placeCluster f claims mks with
    | none => none
    | some new => (s.placeClusters f (claims ++ new) rest).map (new ++ ·)

/-- A unit, cluster by cluster, placed whole or not. -/
def State.placeUnit (s : State) (f : Fit) (cs : Nat) (claims : List Claim) (unit : List (List (CoreIx → Claim))) : Option (List Claim) :=
  if Config.cores * 32 < unit.flatten.length then none
  else if cs = 1 then s.placeList f (List.range Config.cores) claims unit.flatten
  else s.placeClusters f claims unit

/-! The launch record (R177, R178). -/

/-- A launch as a record describes it, before it is accepted. -/
def draftLaunch (ctx : BitVec 20) (region : Nat) (record : List Byte) (va completion : Nat) : Launch :=
  { region := region, ctx := ctx, record := record, recordVa := va, completion := completion, state := .queued, accepted := 0
    left := [], heldWrites := [], heldReads := [], skipReads := [], finished := 0 }

def Launch.depHandle (l : Launch) : Nat := l.f 0x48 8
def Launch.depA (l : Launch) : Nat := l.f 0x50 4
def Launch.depB (l : Launch) : Int := signed 32 (l.f 0x54 4)
def Launch.depC (l : Launch) : Nat := l.f 0x58 4
def Launch.depP (l : Launch) : Nat := l.f 0x5C 4

/-- Reserved fields and ranges. -/
def Launch.fieldsOk (l : Launch) : Bool :=
  fld l.flags 5 27 == 0 && fld l.laneEntry 26 4 == 0 && allZero (recBytes l.record 0x60 32) &&
    1 ≤ l.nwgx && 1 ≤ l.nwgy && 1 ≤ l.nwgz && 1 ≤ l.groups && l.groups ≤ 32 && l.f 0x15 1 ≤ 64 &&
    16 ≤ l.regs && l.regs ≤ 256 && l.regs % 16 == 0 && l.vault % 4096 == 0 && l.vault ≤ Config.vaultPerCore &&
    l.entry % 64 == 0 && l.lcb % 4 == 0 && l.priv % 16 == 0 && l.priv ≤ 65536 && l.handle % 8 == 0 &&
    l.count < 2 ^ 32 && l.count % l.clusterSize == 0 &&
    (match l.run with | some (n, first) => first + n ≤ 2 ^ 20 | none => true) &&
    (!l.dep || (l.depHandle != 0 && l.depHandle % 8 == 0 && 1 ≤ l.depC && l.depC ≤ 64))

/-- One cluster fits the cores of the mask, and under COOP the whole grid within the mask and the cores limits, with no
other workgroup resident. -/
def State.capacityOk (s : State) (l : Launch) (path : List Region) : Bool :=
  let mk := fun (j : Nat) (core : CoreIx) => { s.claimOf s.launches.length l j core with rcbs := path.map (·.rcb) }
  let coresOnly := path.map fun r => { r with own := { r.own with vault := none } }
  (s.placeUnit ⟨pathMask path, true, [], List.range s.wgs.length⟩ l.clusterSize [] [(List.range l.clusterSize).map mk]).isSome &&
    (!l.coop || (l.count ≤ Config.cores * 32 &&
      (s.placeUnit ⟨pathMask path, true, coresOnly, List.range s.wgs.length⟩ l.clusterSize []
        ((List.range (l.count / l.clusterSize)).map fun c => (List.range l.clusterSize).map fun r => mk (c * l.clusterSize + r))).isSome))

/-- Validate a launch record: its region path, or REJECTED. With an issuing region, that region or a descendant. -/
def State.validateLaunch (s : State) (ctx : BitVec 20) (issuing : Option Nat) (record : List Byte) : Option (List Region) :=
  match s.ctx? ctx with
  | none => none
  | some c =>
    let rcb := if recNat record 0 8 = 0 then issuing.getD 0 else recNat record 0 8
    match s.rcbChain c rcb 16 with
    | none => none
    | some path =>
      let l := draftLaunch ctx rcb record 0 0
      let mine := match issuing with | some r => path.any fun x => x.rcb == r | none => true
      let path := path.map fun r => ((s.region? ctx r.rcb).map fun old => old.renew r).getD r
      if mine && l.fieldsOk && s.capacityOk l path then some path else none

/-- Launches that are accepted and not yet DONE (R181). -/
def State.liveLaunches (s : State) : Nat := (s.launches.filter fun l => l.state != .done && l.state != .ended).length

/-- Accept a launch at the end of its level's queue. -/
def State.acceptLaunch (s : State) (ctx : BitVec 20) (path : List Region) (record : List Byte) (va completion : Nat) : State :=
  let s := path.foldl (fun (s : State) r => s.putRegion r) s
  let rcb := (path.head?.map (·.rcb)).getD 0
  ({ s with launches := s.launches ++ [{ draftLaunch ctx rcb record va completion with accepted := s.stamp }] }).tick

/-- A valid launch is accepted, or waits for room in the launch queue with the record as it was read (R181). -/
def State.lnchAccept (s : State) (sc : SReg) (va completion : Nat) (record : List Byte) (path : List Region) : State :=
  if Config.launchLimit ≤ s.liveLaunches then (s.modCurSplit fun x => { x with lnch := some (record, path) }).stall
  else (((s.release s.curCore .dev).acceptLaunch s.curCtx path record va completion).ws sc 0).next4

/-- LNCH (R181). -/
def execLnch (sa sb sc : SReg) (s : State) : Host.Outcome State Fault Refusal :=
  let va := (s.rs sa).toNat
  let rec_ := (s.rs sb).toNat
  match s.curSplit.bind (·.lnch) with
  | some (record, path) => .next (s.lnchAccept sc va rec_ record path)
  | none =>
  if s.fenceWaits then .next s.stall
  else
    match s.readRecord2 va 128 16 rec_ with
    | .error t => .next t
    | .ok (s, record) =>
      match s.validateLaunch s.curCtx (some (((s.launchOf s.cur.wg).map (·.region)).getD 0)) record with
      | some path => .next (s.lnchAccept sc va rec_ record path)
      | none =>
        if rec_ = 0 then .next (s.ws sc (BitVec.ofNat 64 stRejected)).next4
        else match s.scalarWrite rec_ false (completionBytes stRejected 0 0) with
          | .error t => .next t
          | .ok (s, _) => .next (s.ws sc (BitVec.ofNat 64 stRejected)).next4

/-! DEP (R180, R360). -/

/-- The producer indices that workgroup j needs, inside the producer's grid. -/
def Launch.needs (l : Launch) (j : Nat) : List Nat :=
  let first : Int := (l.depA * j : Nat) + l.depB
  (List.range l.depC).filterMap fun (i : Nat) =>
    let n : Int := first + (i : Int)
    if 0 ≤ n && n < l.depP then some n.toNat else none

/-- One needed bit: set, clear, or not readable now. A doubleword whose read faulted is not read again before the
disposition; after SKIP its bits count as 1. -/
inductive DepBit where
  | set | clear
  | held
  | fault (addr : Nat) (c : Cond)

def State.depBit (s : State) (l : Launch) (i : Nat) : DepBit :=
  let addr := (l.depHandle + i / 64 * 8) % 2 ^ 64
  if l.skipReads.contains addr then .set
  else if l.heldReads.contains addr then .held
  else match s.devRead (devAgent l.ctx 0) addr 8 with
    | .error c => .fault addr c
    | .ok bs => if bit (natOfBytes bs) (i % 64) then .set else .clear

/-- Evaluate one PENDING workgroup. -/
def State.depOne (s : State) (ix j : Nat) : State :=
  match s.launch? ix with
  | none => s
  | some l =>
    if l.left.contains j then s
    else
      let bits := (l.needs j).map (s.depBit l)
      let faults := bits.filterMap fun b => match b with | .fault a c => some (a, c) | _ => none
      match faults with
      | (a, c) :: _ =>
        if l.heldReads.isEmpty then
          (s.modLaunch ix fun x => { x with heldReads := [a] }).postDevice (.launchRead ix a) l.ctx l.region
            ⟨c.cls, a, c.malformed, false, false, l.recordVa⟩
        else s
      | [] =>
        if bits.all fun b => match b with | .set => true | _ => false then s.modLaunch ix fun x => { x with left := x.left ++ [j] }
        else s

/-- DEP_EVALUATION: the PENDING workgroups of a launch are evaluated; the reads are acquires at .sys. -/
def execDepEvaluation (launch : Nat) (s : State) : Host.Outcome State Fault Refusal :=
  match s.launch? launch with
  | none => .next s
  | some l =>
    if l.dep && (l.state == .queued || l.state == .active) then
      .next ((List.range l.count).foldl (fun (s : State) j => s.depOne launch j) s)
    else .next s

end Sys2Proof.Machine
end

