-- ==== Sys2Proof/Machine/Schedule.lean ====
section
/-! DEFINITION. Placement: the units that are placed whole, their order, the cores and slots they take, the victims of
priority, and the restore of a pre-empted workgroup (R182 to R185, R376 to R378). -/

namespace Sys2Proof.Machine

/-! Candidates (R183). -/

/-- The linear indices of the unit that workgroup j of a launch belongs to: the grid under COOP, else its cluster. -/
def Launch.unitOf (l : Launch) (j : Nat) : List Nat :=
  if l.coop then List.range l.count else (List.range l.clusterSize).map fun r => j / l.clusterSize * l.clusterSize + r

/-- A candidate: its launch, its members, whether it was pre-empted, and its place in the order. -/
structure PlaceUnit where
  launch : Nat
  members : List Nat
  back : Bool
  rank : Nat
  accepted : Nat
  deriving DecidableEq, Repr

/-- The workgroups of a launch that have been placed at least once. -/
def State.placedOf (s : State) (ix : Nat) : List Wg := s.wgs.filter fun w => w.launch == ix

/-- The lowest pre-empted unit of a launch. -/
def State.backMembers (s : State) (ix : Nat) (l : Launch) : Option (List Nat) :=
  let back := ((s.placedOf ix).filter fun w => w.state == .ready).map (·.j)
  (least (fun a b => a < b) back).map fun j => (l.unitOf j).filter back.contains

/-- The lowest unit of a launch that is READY and has never been placed. Without DEP units are placed in order; under DEP
every member has left PENDING. -/
def State.freshMembers (s : State) (ix : Nat) (l : Launch) : Option (List Nat) :=
  let placed := (s.placedOf ix).map (·.j)
  if l.dep then
    let able := l.left.filter fun j => !placed.contains j && (l.unitOf j).all l.left.contains
    (least (fun a b => a < b) able).map l.unitOf
  else if placed.length < l.count then some (l.unitOf placed.length)
  else none

/-- The first candidate of a launch. Nothing of a context that is switched out, or whose WATCHDOG record is pending, is
placed (R381, R383). -/
def State.candidate (s : State) (ix : Nat) : Option PlaceUnit :=
  match s.launch? ix with
  | none => none
  | some l =>
    let held := ((s.ctx? l.ctx).map fun c => c.switchedOut || c.watchdogHeld).getD true
    if held || l.state == .done || l.state == .ended then none
    else
      let rank := pathRank (s.path l.ctx l.region)
      match s.backMembers ix l with
      | some ms => some ⟨ix, ms, true, rank, l.accepted⟩
      | none =>
        if l.state == .running then none
        else (s.freshMembers ix l).map fun ms => ⟨ix, ms, false, rank, l.accepted⟩

/-- The order of R183. A unit that cannot be placed blocks all others, since none ranks above the first. -/
def PlaceUnit.before (a b : PlaceUnit) : Bool :=
  b.rank < a.rank || (a.rank == b.rank && ((a.back && !b.back) || (a.back == b.back && a.accepted < b.accepted)))

def State.topUnit (s : State) : Option PlaceUnit :=
  least PlaceUnit.before ((List.range s.launches.length).filterMap s.candidate)

/-- What a unit needs placed, cluster by cluster. -/
def State.makesOf (s : State) (u : PlaceUnit) (l : Launch) : List (List (CoreIx → Claim)) :=
  (u.members.map (· / l.clusterSize)).eraseDups.map fun c =>
    (u.members.filter fun j => j / l.clusterSize == c).map fun j => s.claimOf u.launch l j

/-- Place a unit beside the workgroups that stay. -/
def State.tryPlace (s : State) (u : PlaceUnit) (l : Launch) (gone : List WgIx) : Option (List Claim) :=
  let path := s.path l.ctx l.region
  s.placeUnit ⟨pathMask path, false, path, gone⟩ l.clusterSize (s.residentClaims gone) (s.makesOf u l)

/-! Victims (R185, R372). -/

/-- Resident workgroups that leave together with one: its cluster, or its launch under COOP. -/
def State.unitWgs (s : State) (w : WgIx) : List WgIx :=
  match s.wg? w, s.launchOf w with
  | some x, some l =>
    (List.range s.wgs.length).filter fun v => match s.wg? v with
      | some y => y.launch == x.launch && y.state == .resident && (l.coop || y.j / l.clusterSize == x.j / l.clusterSize)
      | none => false
  | _, _ => []

/-- Mark workgroups, and all that leave with them, for pre-emption (R372). -/
def State.markUnits (s : State) (ws : List WgIx) : State :=
  (ws.flatMap s.unitWgs).foldl (fun (s : State) w => s.modWg w fun x => { x with preempt := true }) s

/-- Workgroups already marked. -/
def State.marked (s : State) : List WgIx :=
  (List.range s.wgs.length).filter fun w => ((s.wg? w).map fun x => x.state == .resident && x.preempt).getD false

/-- A resident workgroup holds what a unit lacks: a place on a core of the unit's mask, or part of a cores or vault limit on its
path. -/
def State.inTheWay (s : State) (l : Launch) (w : WgIx) : Bool :=
  let path := s.path l.ctx l.region
  (pathMask path).getLsbD (s.coreOf w) ||
    path.any fun r => (r.own.cores.isSome || r.own.vault.isSome) && (s.wgPath w).any fun y => y.ctx == r.ctx && y.rcb == r.rcb

/-- Resident workgroups of lower rank that stand in a unit's way, not yet going. -/
def State.lowerWgs (s : State) (l : Launch) (rank : Nat) (gone : List WgIx) : List WgIx :=
  (List.range s.wgs.length).filter fun w => match s.wg? w with
    | some x => x.state == .resident && !gone.contains w && s.wgRank w < rank && s.inTheWay l w
    | none => false

def State.placedAt (s : State) (w : WgIx) : Nat := ((s.wg? w).map (·.placed)).getD 0

/-- Take victims until the unit fits: the lowest rank first, the most recently placed among equals. -/
def State.victims (s : State) (u : PlaceUnit) (l : Launch) : Nat → List WgIx → Option (List WgIx)
  | 0, gone => if (s.tryPlace u l gone).isSome then some gone else none
  | n + 1, gone =>
    if (s.tryPlace u l gone).isSome then some gone
    else
      let worse := fun (a b : WgIx) => s.wgRank a < s.wgRank b || (s.wgRank a == s.wgRank b && s.placedAt b < s.placedAt a)
      match least worse (s.lowerWgs l u.rank gone) with
      | none => none
      | some w => s.victims u l n (gone ++ s.unitWgs w)

/-! Placing (R184, R376 to R378). -/

/-- Group slots in use on a core: a workgroup keeps those of its retired groups until it completes (R184, log 82). -/
def State.usedSlots (s : State) (core : CoreIx) : List Nat :=
  s.wgs.flatMap fun w => if w.state = .resident ∧ w.core = core then w.groups.map (·.slot) else []

/-- The slot of the next group: the quarter with the fewest occupied slots, the lowest among equals; there the lowest. -/
def nextSlot (used : List Nat) : Nat :=
  let count := fun (q : Nat) => (used.filter fun n => n / 8 == q).length
  let q := (least (fun a b => count a < count b) [0, 1, 2, 3]).getD 0
  (((List.range 8).map fun i => 8 * q + i).find? fun n => !used.contains n).getD (8 * q)

def takeSlots (used : List Nat) : Nat → List Nat
  | 0 => []
  | n + 1 => nextSlot used :: takeSlots (used ++ [nextSlot used]) n

/-- The lanes that group g of G launches: the last group has L lanes (R177). -/
def Launch.groupMask (l : Launch) (g : Nat) : LaneMask :=
  if g + 1 = l.groups then BitVec.ofNat 64 (2 ^ l.lastLanes - 1) else BitVec.allOnes 64

/-- A workgroup placed for the first time. Its core's L1 is invalidated, so that its groups see what their launch and its
dependences have released (R180, R243, R353). -/
def State.placeFresh (s : State) (l : Launch) (c : Claim) : State :=
  let s := s.l1Invalidate c.core
  let slots := takeSlots (s.usedSlots c.core) l.groups
  let groups := slots.zipIdx.map fun x => Group.start (l.groupMask x.2) l.regs l.priv (BitVec.ofNat 64 l.entry) l.run.isSome x.1
  { s with wgs := s.wgs ++ [Wg.start c.launch c.j c.core l.vault s.stamp groups] }

/-- A group whose workgroup is placed again: its READY splits enter their blocks (R169), and those that a stopped lane stream holds
are parked (R357). -/
def Group.resume (g : Group) (slot : Nat) : Group :=
  (splitIxs.foldl (fun (g : Group) k => match g.split k with
    | some x => if x.status = .ready then g.arrive k else g
    | none => g) { g with slot := slot }).parkForLane

/-- A saved slot under its number on the new core, its loads on that core. -/
def State.restoreSlots (s : State) (core : CoreIx) (slots : List (Nat × Slot)) : State :=
  slots.foldl (fun (s : State) x => s.modSlot core x.1 fun _ => x.2) s

/-- A pre-empted workgroup is placed again: its image is restored whole, and its reads are as new as on the core it left (R241). It may
have completed while it was saved but for this (R179, R379). -/
def State.placeBack (s : State) (w : WgIx) (x : Wg) (c : Claim) : State :=
  let slots := takeSlots (s.usedSlots c.core) x.groups.length
  (((s.l1Invalidate c.core).restoreSlots c.core x.savedSlots).modWg w fun x =>
    { x with
      state := .resident, core := c.core, placed := s.stamp, preempt := false, wasPreempted := false, savedSlots := []
      cmds := x.cmds.map fun y => { y with core := c.core }
      groups := (x.groups.zip slots).map fun y => y.1.resume y.2 }).completeWg w

/-- Place one workgroup on the core of its claim. -/
def State.placeOne (s : State) (l : Launch) (c : Claim) : State :=
  let s := s.tick
  let s := match s.wgs.findIdx? fun y => y.launch == c.launch && y.j == c.j with
    | some w => match s.wg? w with
      | some x => s.placeBack w x c
      | none => s
    | none => s.placeFresh l c
  s.progress l.ctx

/-- The launch is ACTIVE, and RUNNING once every workgroup has been placed (R182). -/
def State.launchPlaced (s : State) (ix : Nat) : State :=
  let n := (s.placedOf ix).length
  s.modLaunch ix fun l =>
    if l.state = .queued ∨ l.state = .active then { l with state := if n < l.count then .active else .running } else l

/-- PLACEMENT: the first candidate is placed whole; or, if only workgroups of lower rank stand in its way, they are marked
for pre-emption. -/
def execPlacement (s : State) : Host.Outcome State Fault Refusal :=
  match s.topUnit with
  | none => .next s
  | some u =>
    match s.launch? u.launch with
    | none => .next s
    | some l =>
      match s.tryPlace u l [] with
      | some cs => .next ((cs.foldl (fun (s : State) c => s.placeOne l c) s).launchPlaced u.launch)
      | none =>
        match s.victims u l s.wgs.length s.marked with
        | some ws => .next (s.markUnits ws)
        | none => .next s

end Sys2Proof.Machine
end

