-- ==== Sys2Proof/Machine/Preempt.lean ====
section
/-! DEFINITION. Pre-emption, the period, BUDGET records, the watchdog, held trap records (R188, R363, R372 to R384, R399,
R400). -/

namespace Sys2Proof.Machine

/-! Pre-emption (R373 to R376). -/

/-- Step 2: a wait is cancelled before it takes effect. The stall of a BKFENCE goes on in the saved image (R348, R379); a
WAIT keeps its token, and a SYNC that of the arrival it has made (R197). -/
def Split.cancel (x : Split) : Split :=
  match x.status with
  | .waiting (.bkfence _ _) | .parked | .ready => x
  | .waiting (.sync _ t _ _) | .waiting (.barrier _ t _) => { x with status := .ready, syncToken := some t, lnch := none }
  | .waiting _ | .held _ => { x with status := .ready, lnch := none }

def Group.cancel (g : Group) : Group :=
  splitIxs.foldl (fun (g : Group) k => g.modSplit k Split.cancel) { g with head := { g.head with waiting := false } }

/-- The save keeps a stream's record, position and command, and no element read ahead (R376). -/
def Group.discardAhead (g : Group) : Group := { g with q := mapVec (fun o => o.map fun z => { z with ahead := [] }) g.q }

/-- Step 3, once over the slots of the unit and its MMAs. -/
def State.drainOnce (s : State) (ws : List WgIx) : State :=
  let s := ws.foldl (fun (s : State) w =>
    let core := s.coreOf w
    (List.range 32).foldl (fun (s : State) n =>
      if (s.slot core n).owner = w then (s.loadStep core n false).loadStep core n true else s) s) s
  ws.foldl (fun (s : State) w => (List.range (((s.wg? w).map fun x => x.seqs.length).getD 0)).foldl (fun (s : State) i => s.mmaStep w i) s) s

/-- How many loads and MMAs a unit has outstanding. -/
def State.drainWork (s : State) (ws : List WgIx) : Nat :=
  ws.foldl (fun n w =>
    let core := s.coreOf w
    n + ((s.wg? w).map fun x => x.seqs.length).getD 0 +
      (List.range 32).foldl (fun n i => if (s.slot core i).owner = w then n + (s.slot core i).loads.length else n) 0) 0

/-- Step 3, until nothing more can finish or execute. -/
def State.drainUnit (s : State) (ws : List WgIx) : State :=
  (List.range (s.drainWork ws)).foldl (fun (s : State) _ => s.drainOnce ws) s

/-- An operation that pre-emption saves with its serial: all but those of bank commands and of the device (R375, R377). -/
def RemoteOp.saves (ws : List WgIx) (o : RemoteOp) : Bool :=
  o.issuer.ofWgs ws && (match o.payload with | .bank _ _ _ => false | _ => true) &&
    (match o.state with | .sent | .waitbusy _ => true | _ => false)

/-- Outstanding operations of workgroups become SAVED (R375, R422). -/
def State.saveOps (s : State) (ws : List WgIx) : State :=
  s.modFabric fun x => { x with ops := modWhere (RemoteOp.saves ws) (fun o => { o with state := .saved s.time }) x.ops }

/-- Steps 5 and 6 for one workgroup: its slots go into its image, and what it held on the core is free. -/
def State.saveWg (s : State) (w : WgIx) : State :=
  match s.wg? w with
  | none => s
  | some x =>
    let mine := (List.range 32).filterMap fun n =>
      let y := s.slot x.core n
      if y.owner = w ∧ y.state ≠ .free then some (n, y) else none
    let s := s.modCore x.core fun c =>
      { c with slots := mapVec (Slot.freeOf [w]) c.slots, eddy := mapVec (fun l => l.filter fun e => e.wg != w) c.eddy }
    let s := s.modWg w fun x =>
      { x with state := .ready, savedSlots := mine, preempt := false, wasPreempted := true
               groups := x.groups.map fun g => g.cancel.discardAhead }
    (s.progress (s.ctxOf w)).wakeCore x.core

/-- Step 3 and 4 have not ended: a load without .fe awaits rows of a peer, or a running copy awaits a peer within a chunk. -/
def State.unsettled (s : State) (ws : List WgIx) : Bool :=
  ws.any fun w =>
    let core := s.coreOf w
    ((List.range 32).any fun n =>
      let x := s.slot core n
      x.owner == w && x.loads.any fun l => l.granules.isEmpty && s.cmdUnanswered ⟨w, 16, l.num⟩) ||
    (((s.wg? w).map fun x => x.cmds.any fun c => match c.kind with
      | .copy _ true _ => s.cmdUnanswered ⟨w, c.counter, c.num⟩
      | _ => false).getD false)

/-- Stop, settle and drain a unit (R373). -/
def State.settleUnit (s : State) (ws : List WgIx) : State :=
  (ws.foldl (fun (s : State) w => s.modWg w fun x => { x with preempt := true, groups := x.groups.map Group.cancel }) s).drainUnit ws

/-- Pre-empt a unit. Its running copies stop at the chunk they have reached (R374); write streams write every element already
produced (R373). -/
def State.preemptUnit (s : State) (ws : List WgIx) : State :=
  let s := ws.foldl (fun (s : State) w => s.flushWg w) (s.settleUnit ws)
  ws.foldl (fun (s : State) w => s.saveWg w) (s.saveOps ws)

/-- PREEMPTION: the unit of a resident workgroup that is marked. The save begins once the drained unit awaits no peer. -/
def execPreemption (wg : WgIx) (s : State) : Host.Outcome State Fault Refusal :=
  if s.marked.contains wg then
    let ws := s.unitWgs wg
    let t := s.settleUnit ws
    .next (if t.unsettled ws then t else s.preemptUnit ws)
  else .next s

/-! The period (R188, R372, R399, R400, R434). -/

/-- Limits and priority as an RCB now gives them; the mask and the rest stand, and where the RCB cannot be read or is no longer valid
so do they (R176, log 81). -/
def Region.reread (r : Region) (image : List Byte) : Region :=
  let new := parseRcb r.ctx r.rcb image
  { r with own := { new.own with mask := r.own.mask }, inheritPriority := new.inheritPriority }

def State.rereadRegion (s : State) (r : Region) : Region :=
  match s.ctx? r.ctx, s.devRead (devAgent r.ctx 0) r.rcb 256 with
  | some c, .ok bs => if rcbOk c r.rcb bs then r.reread bs else r
  | _, _ => r

/-- Some run of the region's workgroups is held by the bank budget of its path. -/
def State.bankHeld (s : State) (r : Region) : Bool :=
  let full := !((s.path r.ctx r.rcb).all fun x => limitRoom (x.own.bank.map (· * 1024)) x.bankUsed)
  full && s.pcs.toList.any fun p => match p.run.bind fun run => s.bankCmd? run.cmd with
    | some c => c.remote.isNone && ((s.launchOf c.wg).map fun l => l.ctx == r.ctx && l.region == r.rcb).getD false
    | none => false

/-- Boundaries at which an activity has been held: 10 waits for its BUDGET record, 11 has had it (R400). -/
def heldNext (n : Nat) (held : Bool) : Nat := if !held then 0 else if n < Config.budgetBoundaries then n + 1 else n

def State.boundaryRegion (s : State) (r : Region) : Region :=
  let bank := s.bankHeld r
  let n := s.rereadRegion r
  { n with issueUsed := 0, hbmUsed := 0, bankUsed := 0, fabricUsed := 0
           heldHbm := heldNext r.heldHbm (r.throttledNow.contains 1), heldBank := heldNext r.heldBank bank
           heldFabric := heldNext r.heldFabric (r.throttledNow.contains 3), throttledNow := [] }

/-- A CONFIG value takes effect (R434). -/
def Params.set (p : Params) (x : Nat × Nat) : Params :=
  match x.1 with
  | 1 => { p with watchdog := x.2 }
  | 2 => { p with scanInterval := x.2 }
  | 3 => { p with faultCount := x.2 }
  | 4 => { p with faultWindow := x.2 }
  | 5 => { p with lifetimeUs := x.2 }
  | 6 => { p with giveUp := x.2 }
  | 7 => { p with tierHot := x.2 }
  | 8 => { p with powerCap := x.2 }
  | 9 => { p with logRings := some x.2 }
  | _ => p

/-- Holdings of a region beyond its limits: a workgroup must leave. -/
def State.overLimit (s : State) (r : Region) (gone : List WgIx) : Bool := !limitsOk [r] (s.residentClaims gone)

/-- Resident workgroups of a region or its descendants, not yet going. -/
def State.regionWgs (s : State) (r : Region) (gone : List WgIx) : List WgIx :=
  (List.range s.wgs.length).filter fun w => match s.wg? w with
    | some x => x.state == .resident && !gone.contains w && (s.wgPath w).any fun y => y.ctx == r.ctx && y.rcb == r.rcb
    | none => false

/-- Workgroups leave, most recently placed first, until a region's holdings lie within its limits (R372). -/
def State.budgetVictims (s : State) (r : Region) : Nat → List WgIx → List WgIx
  | 0, gone => gone
  | n + 1, gone =>
    if !s.overLimit r gone then gone
    else match least (fun a b => s.placedAt b < s.placedAt a) (s.regionWgs r gone) with
      | none => gone
      | some w => s.budgetVictims r n (gone ++ s.unitWgs w)

/-- PERIOD: what happens at a boundary, once it has come. -/
def execPeriod (s : State) : Host.Outcome State Fault Refusal :=
  if s.now / Config.periodNs ≤ s.lastPeriod then .next s
  else
    let regions := s.regions.map s.boundaryRegion
    let s := { s with regions := regions, lastPeriod := s.now / Config.periodNs }
    let s := s.modHost fun h => { h with params := h.newParams.foldl Params.set h.params, newParams := [] }
    .next (regions.foldl (fun (s : State) r => s.markUnits (s.budgetVictims r s.wgs.length s.marked)) s)

/-- BUDGET: one record for a stretch in which an activity was held at 10 boundaries (R400). which: 1 hbm, 2 bank, 3 fabric. -/
def execBudget (region which : Nat) (s : State) : Host.Outcome State Fault Refusal :=
  match s.regions[region]? with
  | none => .next s
  | some r =>
    let held := match which with | 1 => r.heldHbm | 2 => r.heldBank | 3 => r.heldFabric | _ => 0
    if held ≠ Config.budgetBoundaries then .next s
    else
      let posted := held + 1
      let s := s.modRegion r.ctx r.rcb fun x => match which with
        | 1 => { x with heldHbm := posted }
        | 2 => { x with heldBank := posted }
        | _ => { x with heldFabric := posted }
      .next (s.postDevice (.budget r.rcb) r.ctx r.rcb ⟨.budget, 0, false, false, false, r.rcb ||| which⟩)

/-! The watchdog (R382 to R384). -/

/-- A byte in host or peer memory. -/
def ByteRef.offsite : ByteRef → Bool
  | .whole (.host _ _) | .whole (.peer _ _) | .nibs (.host _ _) _ _ _ | .nibs (.peer _ _) _ _ _ => true
  | _ => false

/-- The first byte of an address lies in host or peer memory. -/
def State.offsite (s : State) (ag : Agent) (va : Nat) : Bool :=
  match (s.resolve ag (Acc.load 1) va).res with
  | .error _ => false
  | .ok r => r.refs.any ByteRef.offsite

/-- The lowest incomplete command at or below a value of a counter. -/
def Wg.lowestCmd (x : Wg) (k value : Nat) : Option Cmd :=
  least (fun a b => a.num < b.num) (x.cmds.filter fun c => c.counter == k && c.num ≤ value)

/-- A throttle holds activities of a workgroup's region or of an ancestor (R399, R400). -/
def State.throttled (s : State) (w : WgIx) : Bool :=
  (s.wgPath w).any fun r => !r.throttledNow.isEmpty || 0 < r.heldHbm || 0 < r.heldFabric

/-- A command that reads or writes host or peer memory, or whose steps a throttle holds (R382, R400). -/
def State.cmdOffsite (s : State) (w : WgIx) (c : Cmd) : Bool :=
  let ag := s.wgAgent w 0
  s.throttled w || match c.kind with
  | .copy slices _ _ => slices.any fun x =>
      let ag := { s.wgAgent w x.group with images := x.images }
      (sliceOffers x 0).any fun o => s.offsite ag o.dst || (match o.src with | some a => s.offsite ag a | none => false)
  | .stream g _ => ((s.group? w g).map fun y => (y.q.toList.any fun q => match q with
      | some st => st.cmd == some (c.counter, c.num) &&
          (List.range (strmTotal st.record - st.p)).any fun t => s.offsite { ag with images := st.images } (strmAddr st.record (st.p + t))
      | none => false) || y.behind.any fun b => b.cmd == some (c.counter, c.num) && b.refs.any ByteRef.offsite).getD false
  | .bank id => match s.bankCmd? id with
      | some b => b.far.isSome || ((s.launchOf w).map fun l => (s.region? l.ctx l.region).any fun r => s.bankHeld r).getD false
      | none => false
  | .viewi _ _ _ _ _ | .rminv _ _ _ _ _ _ => false

/-- Directly, or through a start condition on such a command. -/
def State.cmdExternal (s : State) (w : WgIx) : Nat → Cmd → Bool
  | 0, _ => false
  | n + 1, c =>
    s.cmdOffsite w c || (match c.start with
      | some (j, v) => if s.startHolds w c.start then false
        else (((s.wg? w).bind fun x => x.lowestCmd j v).map (s.cmdExternal w n)).getD false
      | none => false)

/-- A granule that the host or a peer owns. -/
def State.granuleExternal (s : State) (g : WgIx × Nat) : Bool := ((s.wg? g.1).map fun x => x.extGranules.contains g.2).getD false

/-- The lane stream of a group waits externally: for a disposition, for responses, or for granules the host or a peer owns. -/
def State.laneExternal (s : State) (w : WgIx) (n : GroupIx) (g : Group) : Bool :=
  let t := s.at w n 0
  g.head.stopped || (g.head.waiting && (
    (s.fabric.ops.any fun o => o.result.isNone && (match o.issuer with | .lane a b _ | .stream a b => a == w && b == n | _ => false)) ||
    (match g.laneQ.head?.map (·.instr) with
      | some i => match memOpOf i with
        | some o => o.fe && (t.feWaiting g o (g.active o.guard) (match i with | .vld _ => true | _ => false)).any fun x => match x.2.res with
          | .ok r => (granuleOf r).any s.granuleExternal
          | .error _ => false
        | none => false
      | none => false)))

/-- A split's wait is external: one held by a throttle awaits the next period (R400); a BKFENCE's is internal (R348). -/
def State.waitExternal (s : State) (w : WgIx) (n : GroupIx) (g : Group) (x : Split) : Bool :=
  s.recordHeld w n || (match x.status with
    | .parked | .waiting (.remote _) => true
    | .waiting (.counter k v _) =>
      (((s.wg? w).bind fun y => y.lowestCmd k v).map (s.cmdExternal w 64)).getD false
    | .waiting (.granule v m _) => s.granuleExternal (v, m)
    | .waiting .retry | .waiting (.room _) => s.laneExternal w n g
    | .ready => s.throttled w
    | _ => false)

/-- The waits of every resident split of a context, those in overflow records included: external or not. A group whose
splits have all exited waits with its lane stream. -/
def State.contextWaits (s : State) (ctx : BitVec 20) : List Bool :=
  s.wgs.zipIdx.flatMap fun (y : Wg × Nat) =>
    if y.1.state = .resident ∧ s.ctxOf y.2 = ctx then
      y.1.groups.zipIdx.flatMap fun (g : Group × Nat) =>
        let splits := (splitIxs.filterMap fun k => (g.1.split k).map (s.waitExternal y.2 g.2 g.1)) ++ g.1.overflow.map fun _ => false
        if splits.isEmpty && !g.1.retired then [s.laneExternal y.2 g.2 g.1] else splits
    else []

/-- Resident workgroups of a context. -/
def State.contextWgs (s : State) (ctx : BitVec 20) : List WgIx :=
  (List.range s.wgs.length).filter fun w => s.wgState w == some .resident && s.ctxOf w == ctx

/-- Launches of a context that await the host: a write or a bitmap read of theirs is held (R360). -/
def State.launchesHeld (s : State) (ctx : BitVec 20) : List Bool :=
  s.launches.filterMap fun l =>
    if l.ctx == ctx && !(l.heldWrites.isEmpty && l.heldReads.isEmpty) then some true else none

/-- WATCHDOG: after P without progress, all waits internal: the workgroups are pre-empted and one record is posted; all
external: QUIESCENT-EXTERNAL, once per quiet stretch. -/
def execWatchdog (ctx : BitVec 20) (s : State) : Host.Outcome State Fault Refusal :=
  match s.ctx? ctx with
  | none => .next s
  | some c =>
    let quiet := s.time - c.lastProgress
    let waits := s.contextWaits ctx ++ s.launchesHeld ctx
    if quiet < s.hostif.params.watchdog || (s.contextWgs ctx).isEmpty || c.watchdogHeld then .next s
    else if waits.all fun e => !e then
      let s := s.markUnits (s.contextWgs ctx)
      let s := s.modCtx ctx fun c => { c with watchdogHeld := true }
      .next (s.postDevice (.watchdog ctx) ctx c.rootRcb { Trap.plain .watchdog with detail := quiet / 1000 })
    else if waits.all id && !c.quietPosted then
      .next ((s.postEvent .quiescentExternal 0 ctx.toNat (quiet / 1000) 0).modCtx ctx fun c => { c with quietPosted := true })
    else .next s

/-- HELD_TRAP_RECORD: a record behind a full queue is written once the queue has room. -/
def execHeldTrapRecord (ix : Nat) (s : State) : Host.Outcome State Fault Refusal := .next (s.writeHeld ix)

end Sys2Proof.Machine
end

