-- ==== Sys2Proof/Machine/Reliability.lean ====
section
/-! DEFINITION. Lasting faults and retirement, poison of a group's own state, the eddy queue, the patrol, the rotating scan,
the end of a page-in (R385 to R396, R437). -/

namespace Sys2Proof.Machine

/-! Lasting faults (R394 to R396). -/

def unitCore : Nat := 1
def unitRow : Nat := 3
def unitBank : Nat := 4
def unitHostPort : Nat := 6

/-- Workgroups resident on a core. -/
def State.coreWgs (s : State) (core : CoreIx) : List WgIx :=
  (List.range s.wgs.length).filter fun w => s.wgState w == some .resident && s.coreOf w == core

/-- Launches whose clusters, or whose grid under COOP, no longer fit the capacity in service (R395). -/
def State.unplaceable (s : State) : List Nat :=
  (List.range s.launches.length).filter fun ix => match s.launch? ix with
    | some l => l.state != .done && l.state != .ended && !s.capacityOk l (s.path l.ctx l.region)
    | none => false

/-- UNPLACEABLE is logged, and the fault domain of the launch's region killed. -/
def State.killUnplaceable (s : State) : State :=
  s.unplaceable.foldl (fun (s : State) ix => match s.launch? ix with
    | some l =>
      if l.state == .done || l.state == .ended then s
      else (s.postLog .unplaceable 0 0 l.ctx.toNat l.region 0).killDomain l.ctx (s.domainOf l.ctx l.region)
    | none => s) s

/-- The bank row that a RETIRED record of type 3 or 4 names is not among what a fault reports: a free value (log 28). -/
def State.retiredWhere (s : State) (type unit : Nat) : Nat :=
  if type = unitRow ∨ type = unitBank then s.freeNat (2 ^ 90 + unit) % 2 ^ 14 else 0

/-- A unit leaves service. A core's workgroups are pre-empted; a host port's link goes down. -/
def State.retire (s : State) (type unit : Nat) : State :=
  if s.retired.contains (type, unit) then s
  else
    let s := { s with retired := s.retired ++ [(type, unit)], faults := s.faults.filter fun f => !(f.1 == type && f.2.1 == unit) }
    let s := s.postLog .retired type unit 0 (s.retiredWhere type unit) 0
    if type = unitCore then
      ((s.modCore unit fun c => { c with inService := false }).markUnits (s.coreWgs unit)).killUnplaceable
    else if type = unitHostPort then s.modHost fun h => { h with ports := modVec (fun p => { p with mode := .down }) h.ports unit }
    else s

/-- Count a fault of a unit; at the configured count within the window the fault is lasting. -/
def State.countFault (s : State) (type unit : Nat) : State :=
  let s := { s with faults := (type, unit, s.time) :: s.faults.filter fun f => s.time < f.2.2 + s.hostif.params.faultWindow }
  if s.hostif.params.faultCount ≤ (s.faults.filter fun f => f.1 == type && f.2.1 == unit).length then s.retire type unit else s

/-! Poison of a group's own state (R386, R387). -/

/-- The region a group consumes poison in: that of the given split, else the first open one. -/
def Group.consumes (g : Group) (k : SplitIx) : Option RegionState :=
  ((g.split k).bind (·.region)).orElse fun _ => g.openRegions.head?.map (·.1)

def Group.mayRestart (g : Group) (k : SplitIx) : Bool :=
  g.retired || (g.restartable && (match g.consumes k with | some r => r.restarts < 3 | none => false))

/-- One group consumes the poison of its state. -/
def State.consumeState (s : State) (w : WgIx) (n : GroupIx) (k : SplitIx) : State :=
  match s.group? w n with
  | none => s
  | some g =>
    if g.retired then s
    else s.consumePoison w n ((g.consumes k).map (·.irb)) 0 k 0 (match g.split k with | some x => x.pc.toNat | none => 0) 0 0
      (poisonTrap 0 false (unitCore, s.coreOf w))

/-- POISON_CONSUMED: a split meets the poison of state that its workgroup shares, which every group consumes at once. -/
def execPoisonConsumed (wg : WgIx) (g : GroupIx) (split : SplitIx) (s : State) : Host.Outcome State Fault Refusal :=
  match s.wg? wg with
  | some x =>
    if x.state ≠ .resident || (s.group? wg g).isNone then .next s
    else if x.poisonShared then
      let s := s.modWg wg fun x => { x with poisonShared := false }
      match x.groups.findIdx? fun z => !z.mayRestart split with
      | some bad => .next (s.consumeState wg bad split)
      | none => .next ((List.range x.groups.length).foldl (fun (s : State) n => s.consumeState wg n split) s)
    else .next s
  | none => .next s

/-! The eddy queue (R389, R390). -/

/-- EDDY_RECHECK: an entry leaves the queue; whether its re-execution agreed is an input (log 22). -/
def execEddyRecheck (core quarter ix : Nat) (mismatch : Bool) (s : State) : Host.Outcome State Fault Refusal :=
  match (getVec (s.core core).eddy quarter [])[ix]? with
  | none => .next s
  | some e =>
    let s := s.modCore core fun c => { c with eddy := modVec (fun l => l.eraseIdx ix) c.eddy quarter }
    if !mismatch then .next s
    else
      let s := (s.postLog .mismatch unitCore core 0 0 0).countFault unitCore core
      if s.wgState e.wg = some .resident then
        .next (s.consumePoison e.wg e.g e.irb 1 0 e.index e.pc.toNat 0 0 (poisonTrap 0 false (unitCore, core)))
      else .next s

/-! The patrol (R385). -/

/-- PATROL: every 24 hours every sector is read and corrected data written back, which changes no value. -/
def execPatrol (s : State) : Host.Outcome State Fault Refusal :=
  if s.time < s.lastPatrol + 86400000000000 then .next s else .next { s with lastPatrol := s.time }

/-! The rotating scan (R391, R392). -/

/-- The next core of a reach that is in service, from a position on. -/
def State.scanNext (s : State) (reach : Nat) : Option CoreIx :=
  let from_ := (s.reach reach).nextCore
  ((List.range 48).map fun i => 48 * reach + (from_ + i) % 48).find? fun c => (s.core c).inService && !(s.core c).withheld

/-- A core of a reach that is withheld and whose patterns do not run yet. -/
def State.scanDue (s : State) (reach : Nat) : Option CoreIx :=
  ((List.range 48).map fun i => 48 * reach + i).find? fun c => (s.core c).inService && (s.core c).withheld && (s.core c).scanning.isNone

/-- The patterns begin once the core's workgroups are gone: EPOCH is one more. -/
def State.scanBegin (s : State) (core : CoreIx) : State :=
  if (s.coreWgs core).isEmpty then s.modCore core fun c => { c with epoch := c.epoch + 1, scanning := some (s.time, false) } else s

/-- SCAN: a withheld core's patterns begin; otherwise, once the interval is over, the next core is withheld and its
workgroups, with their clusters and COOP launches, leave. -/
def execScan (reach : Nat) (s : State) : Host.Outcome State Fault Refusal :=
  if 4 ≤ reach then .next s
  else match s.scanDue reach with
    | some c => .next (s.scanBegin c)
    | none =>
      let p := s.hostif.params.scanInterval
      if p = 0 || s.time < (s.reach reach).lastScan + p then .next s
      else match s.scanNext reach with
        | none => .next s
        | some c =>
          let s := s.modReach reach fun r => { r with nextCore := (c % 48 + 1) % 48, lastScan := s.time }
          .next (((s.modCore c fun x => { x with withheld := true }).markUnits (s.coreWgs c)).scanBegin c)

/-- A core returns to placement: the scan it passed is the last that passed. -/
def Core.scanPassed (c : Core) : Core := { c with withheld := false, scanning := none, lastPass := c.epoch }

/-- SUSPECT names the last scan that passed and the one before the failed scan, the first of two. -/
def State.logSuspect (s : State) (core : CoreIx) : State :=
  let c := s.core core
  s.postLog .suspect unitCore core 0 (c.lastPass % 2 ^ 32 + (c.epoch - 2) % 2 ^ 32 * 2 ^ 32) 0

/-- SCAN_RESULT: the patterns have run for 2 ms; whether they passed is an input (log 22). -/
def execScanResult (core : CoreIx) (passed : Bool) (s : State) : Host.Outcome State Fault Refusal :=
  match (s.core core).scanning with
  | none => .next s
  | some (start, again) =>
    if s.time < start + 2000000 then .next s
    else if again then
      let s := s.logSuspect core
      if passed then .next (s.modCore core Core.scanPassed)
      else .next (((s.modCore core fun c => { c with scanning := none }).countFault unitCore core).retire unitCore core)
    else if passed then .next (s.modCore core Core.scanPassed)
    else
      .next ((s.modCore core fun c => { c with epoch := c.epoch + 1, scanning := some (s.time, true) }).countFault unitCore core)

/-! Page-ins (R437). -/

/-- The bytes of a tier copy; where its address is no longer in a host aperture they are free values. -/
def State.tierBytes (s : State) (pa n : Nat) : List Byte :=
  match s.physBytes pa n with
  | some bs => bs
  | none => (List.range n).map fun i => s.freeByte (2 ^ 91 + i)

/-- The sector of an address in L2: local HBM or a host line. -/
def State.l2Key (s : State) (pa : Nat) : Option Nat :=
  if isHbm pa then poisonKey (.hbm pa) else if s.isHost pa then poisonKey (.host (portOfPa pa) (pa % 2 ^ 48)) else none

/-- The poison of the sectors that a copy takes whole moves with it (R386); the rest of a partly copied sector keeps its own. -/
def State.copyPoison (s : State) (source frame n : Nat) : List Nat :=
  (List.range ((n + 31) / 32)).foldl (fun l i =>
    let key := sectorOf (frame + 32 * i)
    let poisoned := match s.l2Key (source + 32 * i) with
      | some k => s.poison.contains k
      | none => false
    let rest := l.filter (· != key)
    if poisoned then key :: rest else if 32 * (i + 1) ≤ n then rest else l) s.poison

/-- The copy of a page-in arrives in its frame, charged to the region whose fetch started it (R399, R437). -/
def State.fillFrame (s : State) (p : PageIn) (bs : List Byte) : State :=
  { s with mem := s.mem.writeRun p.frame bs, poison := s.copyPoison p.source p.frame p.size }.l2ServeFor p.owner true 0
    (sectorRun p.frame bs.length)

/-- PAGE_IN_COMPLETE: the copy ends, and the entry becomes RESIDENT if it still is INFLIGHT under its generation. A reach
runs its first 64 page-ins. -/
def execPageInComplete (reach ix : Nat) (s : State) : Host.Outcome State Fault Refusal :=
  match (s.reach reach).pageIns[ix]? with
  | none => .next s
  | some p =>
    if 64 ≤ ix then .next s
    else
      let s := s.modReach reach fun r => { r with pageIns := r.pageIns.eraseIdx ix }
      let s := s.fillFrame p (s.tierBytes p.source p.size)
      let ag := devAgent p.ctx reach
      let entry := match s.devRead ag p.entryVa 16 with
        | .ok bs => natOfBytes bs
        | .error _ => 0
      let name := fun (gen : Nat) => gen % 2 ^ 16 + p.entry % 2 ^ 32 * 2 ^ 16 + p.view * 2 ^ 48
      if fld entry 0 3 = 2 ∧ fld entry 8 16 = p.gen then
        let s := s.replicaDrainAll.putEntry ag p.entryVa fun e => setFld (setFld (setFld e 24 40 (p.frame / 2 ^ 12)) 0 3 0) 8 16 (p.gen + 1)
        .next (s.postEvent .pagedIn 0 p.ctx.toNat (name (p.gen + 1)) p.frame)
      else .next (s.postEvent .pageAbandoned 0 p.ctx.toNat (name (fld entry 8 16)) p.frame)

end Sys2Proof.Machine
end

