-- ==== Sys2Proof/Machine/Sha512.lean ====
section
/-! DEFINITION. SHA-512 (FIPS 180-4), the digest of the measurement log and of the attestation report (R441, R442). Its
constants are computed from what defines them, the fraction bits of roots of primes, and its working variables are held
as the two sequences they are four shifts of. -/

namespace Sys2Proof.Machine

/-- The primes below 410, the first 80 of all. -/
def digestPrimes : List Nat :=
  (List.range 410).filter fun p => 2 ≤ p && (List.range 21).all fun q => q < 2 || q == p || p % q != 0

/-- The largest r below guess + 2 ^ bits with r ^ k ≤ n, found from the highest bit down. -/
def floorRoot (k n : Nat) : Nat → Nat → Nat
  | 0, guess => guess
  | bits + 1, guess =>
    let next := guess + 2 ^ bits
    floorRoot k n bits (if next ^ k ≤ n then next else guess)

/-- The first 64 fraction bits of the k-th root of p. -/
def rootFraction (k p : Nat) : Word := BitVec.ofNat 64 (floorRoot k (p * 2 ^ (64 * k)) 70 0)

/-- The exclusive or of x rotated right by each of rs. -/
def rotations (rs : List Nat) (x : Word) : Word := rs.foldl (fun sum r => sum ^^^ x.rotateRight r) 0

/-- The word of the schedule 16 places after the oldest of the window. -/
def digestNext (window : List Word) : Word :=
  let near := window.getD 14 0
  let far := window.getD 1 0
  (window.getD 0 0 + (rotations [1, 8] far ^^^ far >>> 7)) + (window.getD 9 0 + (rotations [19, 61] near ^^^ near >>> 6))

/-- The last four values of the two sequences of a block, the newest first: as holds the working variables a, b, c, d and
es e, f, g, h. -/
structure DigestVars where
  as : List Word
  es : List Word

/-- One round, by its key: what both sequences add, and what only the first does. -/
def DigestVars.round (v : DigestVars) (key : Word) : DigestVars :=
  let a (n : Nat) := v.as.getD n 0
  let e (n : Nat) := v.es.getD n 0
  let chosen := e 2 ^^^ (e 0 &&& (e 1 ^^^ e 2))
  let both := key + e 3 + chosen + rotations [14, 18, 41] (e 0)
  let majority := (a 0 &&& (a 1 ||| a 2)) ||| (a 1 &&& a 2)
  { as := (both + majority + rotations [28, 34, 39] (a 0)) :: v.as.take 3, es := (a 3 + both) :: v.es.take 3 }

/-- The rounds of a block: each takes a prime's constant and the oldest word of the window, which moves on by one. -/
def DigestVars.rounds : List Nat → List Word → DigestVars → DigestVars
  | [], _, v => v
  | p :: ps, window, v =>
    DigestVars.rounds ps (window.drop 1 ++ [digestNext window]) (v.round (rootFraction 3 p + window.getD 0 0))

/-- The big-endian words of a message. -/
def digestWords : Nat → List Byte → List Word
  | 0, _ => []
  | n + 1, bs => BitVec.ofNat 64 (natOfBytes (bs.take 8).reverse) :: digestWords n (bs.drop 8)

/-- The chaining values before the first block. -/
def DigestVars.start : DigestVars :=
  let roots := (digestPrimes.take 8).map (rootFraction 2)
  { as := roots.take 4, es := roots.drop 4 }

/-- One block of 16 words. -/
def DigestVars.block (v : DigestVars) (words : List Word) : DigestVars :=
  let r := DigestVars.rounds digestPrimes words v
  { as := List.zipWith (· + ·) v.as r.as, es := List.zipWith (· + ·) v.es r.es }

def DigestVars.blocks : Nat → List Word → DigestVars → DigestVars
  | 0, _, v => v
  | n + 1, words, v => DigestVars.blocks n (words.drop 16) (v.block (words.take 16))

/-- What stands behind a message of n bytes: a one bit, zeros, and the length in bits as 16 big-endian bytes, up to a
multiple of 128. -/
def digestTail (n : Nat) : List Byte :=
  0x80 :: List.replicate ((239 - n % 128) % 128) 0 ++ (bytesOfNat 16 (8 * n)).reverse

/-- The 64 bytes of the digest. -/
def sha512 (bs : List Byte) : List Byte :=
  let words := digestWords ((bs.length + 144) / 128 * 16) (bs ++ digestTail bs.length)
  let v := DigestVars.blocks (words.length / 16) words DigestVars.start
  (v.as ++ v.es).flatMap fun w => (bytesOfNat 8 w.toNat).reverse

end Sys2Proof.Machine
end

