-- ==== Sys2Proof/Machine/HostCommands.lean ====
section
/-! DEFINITION. The command ring and the host's commands (R365, R371, R381, R407, R408, R433, R434, R436 to R438, R442,
R443). -/

namespace Sys2Proof.Machine

/-! Ring entries (R433). -/

def HostCmd.code (c : HostCmd) : Nat := recNat c.entry 0 2
def HostCmd.flags (c : HostCmd) : Nat := recNat c.entry 2 2
def HostCmd.ctxField (c : HostCmd) : Nat := recNat c.entry 4 4
def HostCmd.ctx (c : HostCmd) : BitVec 20 := BitVec.ofNat 20 c.ctxField
/-- Operand i, eight bytes (log 16). -/
def HostCmd.op (c : HostCmd) (i : Nat) : Nat := recNat c.entry (8 + 8 * i) 8
def HostCmd.serial (c : HostCmd) : Bool := bit c.flags 0

/-- A code outside the table, a reserved flag bit, or a context id above 20 bits: REJECTED, whatever the operands. -/
def HostCmd.malformed (c : HostCmd) : Bool := c.code == 0 || 0x12 < c.code || c.flags / 2 != 0 || 2 ^ 20 ≤ c.ctxField

def HostCmd.read (ring : Nat) (entry : List Byte) : HostCmd :=
  { ring := ring, entry := entry, started := false, old := Holders.none, holdLanes := [], holdBanks := [], pages := [] }

/-- The command leaves the list, and COMMAND-DONE is posted with its ring index. -/
def State.cmdPost (s : State) (c : HostCmd) (status size : Nat) : State :=
  (s.modHost fun h => { h with cmds := h.cmds.filter fun x => x.ring != c.ring }).postEvent .commandDone status c.ctxField c.ring size

/-- Malformed commands whose turn has come. -/
def State.rejectMalformed (s : State) : Nat → State
  | 0 => s
  | n + 1 =>
    match s.hostif.cmds.find? fun c => !c.started with
    | some c => if c.malformed then (s.cmdPost c stRejected 0).rejectMalformed n else s
    | none => s

/-- A command completes. -/
def State.cmdDone (s : State) (c : HostCmd) (status size : Nat) : State :=
  (s.cmdPost c status size).rejectMalformed s.hostif.cmds.length

/-- A command has started and waits for its completion condition. -/
def State.cmdStart (s : State) (c : HostCmd) : State :=
  (s.modHost fun h => { h with cmds := modWhere (fun x => x.ring == c.ring) (fun _ => { c with started := true }) h.cmds }).rejectMalformed
    s.hostif.cmds.length

/-- The index mask of a ring: its number of entries, a power of two from 16 to 65,536. -/
def ringSizeOk (n : Nat) : Bool := 16 ≤ n && n ≤ 65536 && 2 ^ Nat.log2 n == n

/-- Some port is up, so that host memory can be reached. -/
def State.hostUp (s : State) : Bool := s.hostif.ports.toList.any fun p => p.mode != .down

/-- Read the entries from cmdhead up to cmdtail. -/
def State.readRing (s : State) : Nat → State
  | 0 => s
  | n + 1 =>
    let h := s.hostif
    if h.cmdhead = h.cmdtail then s
    else
      let entry := s.host.readRun ((h.cmdbase.toNat + 64 * (h.cmdhead.toNat % h.cmdsize.toNat)) % 2 ^ 48) 64
      (s.modHost fun h => { h with cmds := h.cmds ++ [HostCmd.read h.cmdhead.toNat entry], cmdhead := h.cmdhead + 1 }).readRing n

/-- The doorbell: the device reads the new commands, once it has booted. -/
def State.doorbell (s : State) : State :=
  let h := s.hostif
  if h.bootstat = 1 && s.hostUp && ringSizeOk h.cmdsize.toNat && h.cmdbase.toNat % 64 == 0 &&
      (h.cmdtail - h.cmdhead).toNat ≤ h.cmdsize.toNat then
    let s := s.readRing h.cmdsize.toNat
    s.rejectMalformed s.hostif.cmds.length
  else s

/-- CMDTAIL. -/
def execCmdtail (v : BitVec 32) (s : State) : Host.Outcome State Fault Refusal :=
  .next (s.modHost fun h => { h with cmdtail := v }).doorbell

/-! Whose turn it is (R433). -/

/-- While such a command is outstanding, its effect is not complete, and later commands of its context wait: DESTROY, LAUNCH,
SWITCH-OUT. -/
def HostCmd.blocks (c : HostCmd) : Bool := c.code == 0x02 || c.code == 0x03 || c.code == 0x06

/-- The command of a ring index, if it has started, or may start now: commands start in ring order, a SERIAL one once no
earlier command is outstanding, and one of a context once the effects of the context's earlier ones are there. -/
def State.hostTurn (s : State) (ring code : Nat) : Option HostCmd :=
  match s.hostif.cmds.find? fun c => c.ring == ring with
  | none => none
  | some c =>
    let earlier := s.hostif.cmds.takeWhile fun x => x.ring != ring
    if c.code != code || c.malformed then none
    else if c.started then some c
    else if earlier.all (·.started) && (!c.serial || earlier.isEmpty) && earlier.all fun x => x.ctxField != c.ctxField || !x.blocks then some c
    else none

/-- A host command acts when it is its turn. -/
def State.hostRun (s : State) (ring code : Nat) (f : State → HostCmd → State) : State :=
  match s.hostTurn ring code with
  | none => s
  | some c => f s c

/-- The same for a command that acts on its context: REJECTED when no such context is registered. -/
def State.ctxRun (s : State) (ring code : Nat) (f : State → HostCmd → Ctx → State) : State :=
  s.hostRun ring code fun s c => match s.ctx? c.ctx with
    | none => s.cmdDone c stRejected 0
    | some x => f s c x

/-- REJECTED, changing nothing. -/
def State.reject (s : State) (c : HostCmd) : State := s.cmdDone c stRejected 0

/-! Contexts. -/

/-- A context as it is registered. -/
def newCtx (id : BitVec 20) (rcb pageRoot origin viewTable time : Nat) : Ctx :=
  { id := id, rootRcb := rcb, pageRoot := pageRoot, origin := origin, viewTable := viewTable, switchedOut := false
    watchdogHeld := false, lastProgress := time, quietPosted := false, pools := [], tierMisses := [], noFrames := []
    tierCounts := [], exported := none }

/-- The image of a root RCB, read through the page tree that is being registered. -/
def State.rcbImage (s : State) (pageRoot rcb : Nat) : Option (List Byte) :=
  if windowOf rcb != .ordinary || rcb % 256 != 0 then none
  else match s.walk rcb levels pageRoot with
    | .error _ => none
    | .ok l =>
      let rs := (List.range 256).map fun i => ByteRef.whole (leafPlace l (rcb + i))
      if rs.any s.refPoisoned || hasPeer rs then none else some (s.readRefs (devAgent 0 0) true rs)

/-- Register the context that a root RCB names; none when the RCB is invalid or the id is in use. -/
def State.registerCtx (s : State) (rcb pageRoot origin : Nat) : Option State :=
  if pageRoot % 4096 != 0 || !(isHbm pageRoot || s.isHost pageRoot) || 2 ^ 16 ≤ origin then none
  else match s.rcbImage pageRoot rcb with
    | none => none
    | some r =>
      let x := newCtx (BitVec.ofNat 20 (recNat r 0x0C 4)) rcb pageRoot origin (recNat r 0x10 8) s.time
      if rcbOk x rcb r && (s.ctx? x.id).isNone then some ({ s with contexts := s.contexts ++ [x] }.putRegion (parseRcb x.id rcb r))
      else none

/-- REGISTER: root RCB address, page-tree root, origin device. -/
def execRegister (ring : Nat) (s : State) : Host.Outcome State Fault Refusal :=
  .next (s.hostRun ring 0x01 fun s c => match s.registerCtx (c.op 0) (c.op 1) (c.op 2) with
    | some t => t.cmdDone c stOk 0
    | none => s.reject c)

/-- Something of a context that a kill leaves to finish is in flight: a page-in or a bank command (R393). -/
def State.ctxBusy (s : State) (ctx : BitVec 20) : Bool :=
  s.bankCmds.any (fun b => b.remote.isNone && b.ctx == ctx) || s.reaches.toList.any fun r => r.pageIns.any fun p => p.ctx == ctx

/-- A context's id is free, and what the device still held of it is gone. -/
def State.dropCtx (s : State) (ctx : BitVec 20) : State :=
  { s with
    contexts := s.contexts.filter fun x => x.id != ctx
    regions := s.regions.filter fun r => r.ctx != ctx
    pending := s.pending.filter fun p => p.ctx != ctx
    cores := mapVec (fun (c : Core) => { c with tlb := c.tlb.filter fun e => e.ctx != ctx }) s.cores
    reaches := mapVec (fun (r : Reach) => { r with tlb := r.tlb.filter fun e => e.ctx != ctx }) s.reaches }

/-- DESTROY: the root fault domain is killed, its streams closed; the id is free once nothing of it is in flight. -/
def execDestroy (ring : Nat) (s : State) : Host.Outcome State Fault Refusal :=
  .next (s.ctxRun ring 0x02 fun s c x =>
    let s := if c.started then s else s.killDomain x.id x.rootRcb
    if s.ctxBusy x.id then s.cmdStart c else (s.dropCtx x.id).cmdDone c stOk 0)

/-- A refused launch: REJECTED goes into its completion record, unless that write faults. -/
def State.refuseLaunch (s : State) (c : HostCmd) (completion : Nat) : State :=
  if completion = 0 then s.reject c
  else match s.devWrite (devAgent c.ctx 0) completion (completionBytes stRejected 0 0) with
    | .ok t => t.reject c
    | .error _ => s.reject c

/-- LAUNCH: launch record, completion record or 0. Accepting is a release at .sys of what the host wrote before. -/
def execLaunch (ring : Nat) (s : State) : Host.Outcome State Fault Refusal :=
  .next (s.ctxRun ring 0x03 fun s c _ =>
    let va := c.op 0
    let completion := c.op 1
    if va % 16 != 0 || completion % 16 != 0 then s.reject c
    else match s.devRead (devAgent c.ctx 0) va 128 with
      | .error _ => s.refuseLaunch c completion
      | .ok record =>
        match if recNat record 0 8 = 0 then none else s.validateLaunch c.ctx none record with
        | none => s.refuseLaunch c completion
        | some path =>
          if Config.launchLimit ≤ s.liveLaunches then s.cmdStart c
          else (s.replicaDrainAll.acceptLaunch c.ctx path record va completion).cmdDone c stOk 0)

/-- DISPOSE: trap sequence; 0 CONTINUE, 1 SKIP, 2 KILL. -/
def dispositionOf : Nat → Option Disposition
  | 0 => some .continue_
  | 1 => some .skip
  | 2 => some .kill
  | _ => none

def execDispose (ring : Nat) (s : State) : Host.Outcome State Fault Refusal :=
  .next (s.ctxRun ring 0x04 fun s c _ =>
    match dispositionOf (c.op 1) with
    | none => s.reject c
    | some d =>
      if 2 ^ 32 ≤ c.op 0 then s.reject c
      else match s.dispose c.ctx (BitVec.ofNat 32 (c.op 0)) d with
        | some t => t.cmdDone c stOk 0
        | none => s.reject c)

/-! INVALIDATE (R371). -/

/-- Two ranges have an address in common. -/
def rangesMeet (a n b m : Nat) : Bool := a < b + m && b < a + n

/-- The entries that a split holds for room in the lane queue. -/
def Split.roomEntries (x : Split) : List LaneEntry := match x.status with | .waiting (.room es) => es | _ => []

/-- A group's lane entries, enqueued or held for room. -/
def Group.laneEntries (g : Group) : List LaneEntry :=
  g.laneQ ++ splitIxs.flatMap fun k => match g.split k with | some x => x.roomEntries | none => []

/-- Lane-queue entries, enqueued or held for room, whose word lies in a range: group and stamp. -/
def Group.wordsIn (g : Group) (lcb va n : Nat) : List Nat :=
  (g.laneEntries.filter fun e => match e.item with
    | .word _ ix => rangesMeet va n ((lcb + 12 * ix.toNat) % 2 ^ 64) 12
    | _ => false).map (·.stamp)

/-- The same in all groups of a context. -/
def State.wordsIn (s : State) (ctx : BitVec 20) (va n : Nat) : List (Nat × Nat × Nat) :=
  s.wgs.zipIdx.flatMap fun (x : Wg × Nat) =>
    if s.ctxOf x.2 != ctx then []
    else x.1.groups.zipIdx.flatMap fun (g : Group × Nat) =>
      (g.1.wordsIn (((s.launchOf x.2).map Launch.lcb).getD 0) va n).map fun t => (x.2, g.2, t)

/-- An entry with a stamp is still in a group's queue or held for room. -/
def State.wordHeld (s : State) (x : Nat × Nat × Nat) : Bool :=
  match s.group? x.1 x.2.1 with
  | none => false
  | some g => g.laneEntries.any fun e => e.stamp == x.2.2

/-- A cached translation of a context that a range touches. -/
def TlbEntry.meets (e : TlbEntry) (ctx : BitVec 20) (va n : Nat) : Bool := e.ctx == ctx && rangesMeet va n e.leaf.base e.leaf.size

/-- A range, and the pages of the translations of it that the L1 TLBs and the reach TLBs hold. -/
def State.invalidPages (s : State) (ctx : BitVec 20) (va n : Nat) : List (Nat × Nat) :=
  let pages := fun (l : List TlbEntry) => (l.filter fun e => e.meets ctx va n).map fun e => (e.leaf.base, e.leaf.size)
  (va, n) :: ((s.cores.toList.flatMap fun c => pages c.tlb) ++ s.reaches.toList.flatMap fun r => pages r.tlb).eraseDups

/-- Cached translations of a range are discarded, the access counts of its TIER pages restart (R436), and what write streams have
produced through the old translations is written (R371). -/
def State.discard (s : State) (ctx : BitVec 20) (va n : Nat) : State :=
  let keep := fun (l : List TlbEntry) => l.filter fun e => !e.meets ctx va n
  let s := { s with
    cores := mapVec (fun (c : Core) => { c with tlb := keep c.tlb }) s.cores
    reaches := mapVec (fun (r : Reach) => { r with tlb := keep r.tlb }) s.reaches }
  let s := s.modCtx ctx fun x => { x with tierCounts := x.tierCounts.filter fun t => !(va ≤ t.1 && t.1 < va + n) }
  (s.contextWgs ctx).foldl (fun (s : State) w => s.flushWg w) s

/-- The uses of some pages: accesses that have been resolved and await a peer. -/
def Uses.ofPages (pages : List (Nat × Nat)) : Uses :=
  ⟨none, fun r => r.bases.any fun a => pages.any fun p => p.1 ≤ a && a < p.1 + p.2, fun _ => false⟩

/-- What a command of the host waits for: uses of an old entry, of an old image, or of discarded translations. -/
def HostCmd.uses (c : HostCmd) : Uses :=
  match c.code with
  | 0x11 => Uses.ofEntry (c.op 0) (c.op 1)
  | 0x12 => Uses.ofView (c.op 0)
  | _ => Uses.ofPages c.pages

/-- Remote operations of a context that have been sent and not answered. -/
def State.sentOps (s : State) (ctx : BitVec 20) : List Nat :=
  (s.fabric.ops.filter fun o => o.reqid.ctx == ctx && o.state != .queued && !o.answered).map (·.id)

/-- What translated through the pages of an INVALIDATE and has not completed. -/
def State.invalidateHolds (s : State) (c : HostCmd) (pages : List (Nat × Nat)) : HostCmd :=
  let met := fun (x : Nat × Nat) => pages.any fun p => rangesMeet p.1 p.2 x.1 x.2
  let loads := (s.allLoads.filter fun l => s.ctxOf l.wg == c.ctx && (l.statusVas.any met || l.rows.any fun r => r.vas.any met)).map (·.num)
  { c with
    pages := pages
    old := { s.holders c.ctx (Uses.ofPages pages) with loads := loads, ops := s.sentOps c.ctx }
    holdBanks := (s.bankCmds.filter fun b => b.remote.isNone && b.ctx == c.ctx && b.vas.any met).map (·.id)
    holdLanes := (pages.flatMap fun p => s.wordsIn c.ctx p.1 p.2).eraseDups }

/-- Nothing that a command waits for is left. -/
def State.cmdClear (s : State) (c : HostCmd) : Bool :=
  s.released c.old c.uses && !(s.bankCmds.any fun b => c.holdBanks.contains b.id) && !(c.holdLanes.any s.wordHeld)

/-- Complete a started command, or leave it waiting. -/
def State.cmdWait (s : State) (c : HostCmd) : State := if s.cmdClear c then s.cmdDone c stOk 0 else s.cmdStart c

/-- INVALIDATE: VA, length. -/
def execInvalidate (ring : Nat) (s : State) : Host.Outcome State Fault Refusal :=
  .next (s.ctxRun ring 0x05 fun s c _ =>
    if c.started then s.cmdWait c
    else
      let pages := s.invalidPages c.ctx (c.op 0) (c.op 1)
      let s := s.discard c.ctx (c.op 0) (c.op 1)
      s.cmdWait (s.invalidateHolds c pages))

/-! Context switches (R376, R381, R423). -/

/-- The bytes that the table of R376 gives one group and one workgroup. -/
def State.groupImageSize (s : State) (w : WgIx) (n : GroupIx) (g : Group) : Nat :=
  let opens := (g.laneQ.filter fun e => match e.item with | .openQ _ _ _ => true | _ => false).length
  let ops := (s.fabric.ops.filter fun o => o.issuer == .stream w n || (Issuer.ofGroup w n) o.issuer).length
  let traps := (s.pending.filter fun p => match p.origin with
    | .scalar a b _ | .lane a b | .command a b _ => a == w && b == n
    | _ => false).length
  376 + 704 + 256 * g.nregs + 248 + 304 + 1536 + 64 * opens + 24 + 768 + 16 + 48 * ops + 64 * traps

def cmdImageSize (c : Cmd) : Nat := 64 + 128 * (match c.kind with | .copy slices _ _ => slices.length | _ => 0)

def State.wgImageSize (s : State) (w : WgIx) (x : Wg) : Nat :=
  x.groups.zipIdx.foldl (fun n (g : Group × Nat) => n + s.groupImageSize w g.2 g.1) 0 + x.vaultSize + x.vaultSize / 128 + 392 +
    x.cmds.foldl (fun n c => n + cmdImageSize c) 0 + 9152 * x.savedSlots.length + 16400 * x.tiles.length + 1088 * x.seqs.length

/-- The size of a context's image: its saved workgroups, and its stream state, whose size the spec does not give (log 45). -/
def State.imageSize (s : State) (ctx : BitVec 20) : Nat :=
  s.wgs.zipIdx.foldl (fun n (x : Wg × Nat) => if x.1.state = .ready ∧ s.ctxOf x.2 = ctx then n + s.wgImageSize x.2 x.1 else n) 0 +
    s.freeNat (2 ^ 92 + ctx.toNat)

/-- Write the image: its bytes are free values. -/
def State.exportImage (s : State) (ctx : BitVec 20) (pa size : Nat) : State :=
  let s := s.hostPut pa ((List.range size).map fun i => s.freeByte (2 ^ 93 + i))
  s.modCtx ctx fun x => { x with exported := some pa }

/-- SWITCH-OUT: export buffer PA in host memory, or 0. -/
def execSwitchOut (ring : Nat) (s : State) : Host.Outcome State Fault Refusal :=
  .next (s.ctxRun ring 0x06 fun s c x =>
    let pa := c.op 0
    if !c.started && pa != 0 && !s.isHost pa then s.reject c
    else
      let s := if c.started then s
        else (s.modCtx x.id fun x => { x with switchedOut := true, exported := none }).markUnits (s.contextWgs x.id)
      if !(s.contextWgs x.id).isEmpty then s.cmdStart c
      else if pa = 0 then s.cmdDone c stOk 0
      else
        let size := s.imageSize x.id
        (s.exportImage x.id pa size).cmdDone c stOk size)

/-- RESUME: import buffer PA, or 0. The buffer is that of the context's last SWITCH-OUT here; an image of another device has no
layout in the spec, and the machine stops. -/
def execResume (ring : Nat) (s : State) : Host.Outcome State Fault Refusal :=
  match s.hostTurn ring 0x07 with
  | none => .next s
  | some c =>
    match s.ctx? c.ctx with
    | none => .next (s.reject c)
    | some x =>
      if c.op 0 = 0 ∨ x.exported = some (c.op 0) then
        .next ((s.modCtx x.id fun x => { x with switchedOut := false, lastProgress := s.time }).cmdDone c stOk 0)
      else if s.isHost (c.op 0) then .refused .foreignImage
      else .next (s.reject c)

/-! Views, entries and frames (R272 to R274, R437, R438). -/

/-- A command of the host reads and writes descriptors and entries as the device. -/
def HostCmd.agent (c : HostCmd) : Agent := devAgent c.ctx 0

/-- An entry's operands are ones that RMSET may install. -/
def rmsetOk (lo segaddr : Nat) : Bool :=
  fld lo 0 3 != 2 && fld lo 0 3 ≤ 4 && fld lo 3 1 == 0 && fld lo 5 3 == 0 && segaddr < 2 ^ 52 && segaddr % 2 == 0

/-- The new entry: the operands, with the next generation. -/
def rmsetEntry (lo segaddr old : Nat) : Nat := setFld lo 8 16 (fld old 8 16 + 1) + segaddr * 2 ^ 64

/-- Install an entry; a fault on the way ends with FAULT (log 40). -/
def State.rmsetTo (s : State) (ag : Agent) (view entry lo segaddr : Nat) : State × Nat :=
  if 0xFFFF < view || !rmsetOk lo segaddr then (s, stRejected)
  else match s.descOf ag 0 view with
    | .error _ => (s, stFault)
    | .ok d =>
      if d.kind != some .kvmap || d.entryCount ≤ entry then (s, stRejected)
      else
        let va := (d.index + 16 * entry) % 2 ^ 64
        match s.resolveFlat ag (Acc.load 16) va with
        | .error _ => (s, stFault)
        | .ok _ => (s.replicaDrainAll.putEntry ag va (rmsetEntry lo segaddr), stOk)

/-- RMSET: view, entry number, entry low doubleword, segaddr. -/
def execRmset (ring : Nat) (s : State) : Host.Outcome State Fault Refusal :=
  .next (s.ctxRun ring 0x08 fun s c _ =>
    let x := s.rmsetTo c.agent (c.op 0) (c.op 1) (c.op 2) (c.op 3)
    x.1.cmdDone c x.2 0)

/-- Frames join the end of a view's pool, and its entries without a frame may start again. -/
def Ctx.addFrames (x : Ctx) (view : Nat) (fs : List Nat) : Ctx :=
  { x with
    pools := (x.pools.filter fun p => p.1 != view) ++ [(view, x.pool view ++ fs)]
    noFrames := x.noFrames.filter fun e => e.1 != view }

/-- The frames of a list of PAs: 4 KiB-aligned local HBM. -/
def framesOf (n : Nat) (bs : List Byte) : Option (List Nat) :=
  let fs := (List.range n).map fun i => recNat bs (8 * i) 8
  if fs.all fun f => isHbm f && f % 4096 == 0 then some fs else none

/-- FRAMES: view; count; list PA. -/
def execFrames (ring : Nat) (s : State) : Host.Outcome State Fault Refusal :=
  .next (s.ctxRun ring 0x09 fun s c x =>
    let n := c.op 1
    if 0xFFFF < c.op 0 || n < 1 || 4096 < n then s.reject c
    else match (s.physBytes (c.op 2) (8 * n)).bind (framesOf n) with
      | none => s.reject c
      | some fs => (s.modCtx x.id fun x => x.addFrames (c.op 0) fs).cmdDone c stOk 0)

/-- VIEWSET: view; image PA. -/
def execViewset (ring : Nat) (s : State) : Host.Outcome State Fault Refusal :=
  .next (s.ctxRun ring 0x0A fun s c _ =>
    match s.physBytes (c.op 1) 128 with
    | none => s.cmdDone c stFault 0
    | some image => match s.bindView c.agent (c.op 0) image with
      | .error _ => s.cmdDone c stFault 0
      | .ok (t, status) => t.cmdDone c status 0)

/-- HOST_RMINV: view; entry number. It completes when nothing uses the old entry. -/
def execHostRminv (ring : Nat) (s : State) : Host.Outcome State Fault Refusal :=
  .next (s.ctxRun ring 0x11 fun s c _ =>
    if c.started then s.cmdWait c
    else
      let x := s.unmap c.agent (c.op 0) (c.op 1)
      if x.2.1 != stOk then x.1.cmdDone c x.2.1 0
      else x.1.cmdWait { c with old := s.holders c.ctx c.uses })

/-- HOST_VIEWI: view. It completes when nothing uses the old image. -/
def execHostViewi (ring : Nat) (s : State) : Host.Outcome State Fault Refusal :=
  .next (s.ctxRun ring 0x12 fun s c _ =>
    if c.started then s.cmdWait c
    else if 0xFFFF < c.op 0 then s.reject c
    else match s.invalidateView c.agent (c.op 0) with
      | .error _ => s.cmdDone c stFault 0
      | .ok t => t.cmdWait { c with old := s.holders c.ctx c.uses })

/-! Grants and doors (R407, R408). -/

/-- The grant of a command: peer device, peer context, owner PA, length, W. -/
def HostCmd.grant? (c : HostCmd) : Option GrantEntry :=
  if c.op 0 < 2 ^ 16 ∧ c.op 1 < 2 ^ 20 ∧ c.op 2 + c.op 3 ≤ 2 ^ 52 ∧ c.op 4 < 2 then
    some ⟨c.op 0, BitVec.ofNat 20 (c.op 1), c.op 2, c.op 3, c.op 4 == 1⟩
  else none

/-- GRANT. -/
def execGrant (ring : Nat) (s : State) : Host.Outcome State Fault Refusal :=
  .next (s.hostRun ring 0x0B fun s c => match c.grant? with
    | none => s.reject c
    | some g => (s.modFabric fun x => { x with grants := x.grants ++ [g] }).cmdDone c stOk 0)

/-- What a revocation leaves of a grant to the same requester (log 43). -/
def GrantEntry.minus (g r : GrantEntry) : List GrantEntry :=
  if g.dev != r.dev || g.ctx != r.ctx || !rangesMeet g.base g.len r.base r.len then [g]
  else
    let below := { g with len := r.base - g.base }
    let above := { g with base := r.base + r.len, len := g.base + g.len - (r.base + r.len) }
    [below, above].filter fun x => x.len != 0

/-- REVOKE. -/
def execRevoke (ring : Nat) (s : State) : Host.Outcome State Fault Refusal :=
  .next (s.hostRun ring 0x0C fun s c => match c.grant? with
    | none => s.reject c
    | some r => (s.modFabric fun x => { x with grants := x.grants.flatMap fun g => g.minus r }).cmdDone c stOk 0)

/-- The workgroup of a launch handle and a workgroup index that has been placed and is not COMPLETE. -/
def State.doorTarget (s : State) (ctx : BitVec 20) (handle j : Nat) : Option WgIx :=
  s.wgs.findIdx? fun x => x.j == j && x.state != .complete &&
    (match s.launch? x.launch with | some l => l.ctx == ctx && l.handle == handle | none => false)

/-- BIND-DOOR: door; launch handle; workgroup index. -/
def execBindDoor (ring : Nat) (s : State) : Host.Outcome State Fault Refusal :=
  .next (s.ctxRun ring 0x0D fun s c _ =>
    if 256 ≤ c.op 0 then s.reject c
    else match s.doorTarget c.ctx (c.op 1) (c.op 2) with
      | none => s.reject c
      | some w =>
        (s.modFabric fun x => { x with doors := (c.op 0, w) :: x.doors.filter fun d => d.1 != c.op 0 }).cmdDone c stOk 0)

/-! Parameters and attestation (R434, R442). -/

/-- A parameter's value in the model's units, if it is in range. Times come in microseconds (log 16). -/
def State.configValue (s : State) (p v : Nat) : Option Nat :=
  let within := fun (lo hi : Nat) => decide (lo ≤ v) && decide (v ≤ hi)
  match p with
  | 1 => if within 1000 10000000 then some (v * 1000) else none
  | 2 => if v == 0 || within 2000 10000000 then some (v * 1000) else none
  | 3 => if within 1 255 then some v else none
  | 4 => if within 1000000 3600000000 then some (v * 1000) else none
  | 5 => if within 8 1024 then some v else none
  | 6 => if within 10000 60000000 then some (v * 1000) else none
  | 7 => if v < 2 ^ 32 then some v else none
  | 8 => if within 600 1800 then some v else none
  | 9 => if (s.physBytes v 64).isSome then some v else none
  | _ => none

/-- CONFIG: parameter; value. It applies from the next period boundary. -/
def execConfig (ring : Nat) (s : State) : Host.Outcome State Fault Refusal :=
  .next (s.hostRun ring 0x0E fun s c => match s.configValue (c.op 0) (c.op 1) with
    | none => s.reject c
    | some v => (s.modHost fun h => { h with newParams := h.newParams ++ [(c.op 0, v)] }).cmdDone c stOk 0)

/-- The signed part of an attestation report. -/
def HostIf.reportBody (h : HostIf) (nonce : List Byte) : List Byte :=
  nonce ++ sha512 h.measurements.flatten ++ bytesOfNat 2 h.devnum.toNat ++ bytesOfNat 2 h.incarn.toNat ++
    bytesOfNat 4 h.secver.toNat ++ List.replicate 376 0

/-- The report: the body and its signature by the identity key (log 20). -/
def HostIf.report (h : HostIf) (nonce : List Byte) : List Byte :=
  let body := h.reportBody nonce
  body ++ (List.range 512).map (Config.signature body)

/-- ATTEST: nonce PA; report PA. -/
def execAttest (ring : Nat) (s : State) : Host.Outcome State Fault Refusal :=
  .next (s.hostRun ring 0x0F fun s c => match s.physBytes (c.op 0) 64 with
    | none => s.reject c
    | some nonce => match s.physPut (c.op 1) (s.hostif.report nonce) with
      | none => s.reject c
      | some t => t.cmdDone c stOk 0)

/-! Warm reset (R419, R443). -/

/-- Something that a warm reset lets finish is in flight: an operation of a peer, a bank run, a page-in (R393, R419). -/
def State.anyBusy (s : State) : Bool :=
  s.bankCmds.any (fun b => b.remote.isSome || s.bankBegun b) || s.reaches.toList.any fun r => !r.pageIns.isEmpty

/-- Every context is killed without a save (R393). -/
def State.killAll (s : State) : State := s.contexts.foldl (fun (s : State) x => s.killDomain x.id x.rootRcb) s

/-- The register file after a warm reset: the firmware, identity and log rings stay, the rings are gone. -/
def HostIf.warm (h : HostIf) : HostIf :=
  { HostIf.reset with
    stepping := h.stepping, bootstat := h.bootstat, secver := h.secver, incarn := h.incarn, devnum := h.devnum
    measurements := h.measurements, params := { Params.reset with logRings := h.params.logRings }
    ports := h.ports }

/-- The fabric after a warm reset: ports, result cache and stream table stay, and what is in the ports leaves. -/
def Fabric.warm (x : Fabric) : Fabric :=
  { Fabric.reset with
    nextOp := x.nextOp, orc := x.orc, table := x.table, portsUp := x.portsUp
    sent := x.sent ++ x.ports.toList.flatMap fun l => l.map fun f => f.1 }

/-- A core after a warm reset: CYCLE counts from here. A retired core stays out of service. -/
def Core.warm (c : Core) (time : Nat) : Core :=
  { Core.reset with cycleSince := time, mhz := c.mhz, inService := c.inService }

/-- Replicas hold every ordered write, and caches nothing. -/
def State.warm (s : State) : State :=
  let s := s.replicaDrainAll
  { s with
    resetAt := s.time, cores := mapVec (fun (c : Core) => c.warm s.time) s.cores, reaches := Vector.replicate 4 Reach.reset
    pcs := Vector.replicate 512 Pc.reset, bankCmds := [], contexts := [], regions := [], launches := [], wgs := [], pending := []
    kills := [], faults := [], fabric := s.fabric.warm, hostif := s.hostif.warm, lastPeriod := 0, bankGrants := (500000, s.time) }

/-- The outstanding WARM-RESET commands complete together: one that comes while another runs is absorbed into it. -/
def State.warmDone (s : State) : State :=
  (s.hostif.cmds.filter fun x => x.started && x.code == 0x10).foldl (fun (s : State) x => s.cmdPost x stOk 0) s

/-- A warm reset, once nothing is in flight that it lets finish. -/
def State.warmReset (s : State) : State := if s.anyBusy then s else s.killAll.warmDone.warm

/-- WARM-RESET. -/
def execWarmReset (ring : Nat) (s : State) : Host.Outcome State Fault Refusal :=
  .next (s.hostRun ring 0x10 fun s c => (s.cmdStart c).warmReset)

/-- FUNCTION_LEVEL_RESET. -/
def execFunctionLevelReset (s : State) : Host.Outcome State Fault Refusal := .next s.warmReset

end Sys2Proof.Machine
end

