-- ==== Sys2Proof/Machine/HostPorts.lean ====
section
/-! DEFINITION. The register file and the ports: register writes, host accesses, snoops, link training, MSI-X, cold reset
and boot, soft errors, clocks (R385, R386, R429 to R432, R435, R440, R443, R444). -/

namespace Sys2Proof.Machine

/-! The register file (R430). -/

/-- The bytes of a field that a register write covers are replaced: a write of size bytes at an offset. -/
def mergeField (old at_ n offset size value : Nat) : Nat :=
  natOfBytes ((List.range n).map fun i =>
    if offset ≤ at_ + i ∧ at_ + i < offset + size then BitVec.ofNat 8 (value / 256 ^ (at_ + i - offset)) else BitVec.ofNat 8 (old / 256 ^ i))

/-- A write covers part of a field. -/
def touches (at_ n offset size : Nat) : Bool := rangesMeet at_ n offset size

/-- The fields that the host writes; every other offset ignores the write. -/
def HostIf.regWrite (h : HostIf) (o n v : Nat) : HostIf :=
  { h with
    cmdbase := BitVec.ofNat 64 (mergeField h.cmdbase.toNat 0x10 8 o n v)
    cmdsize := BitVec.ofNat 32 (mergeField h.cmdsize.toNat 0x18 4 o n v)
    cmdtail := BitVec.ofNat 32 (mergeField h.cmdtail.toNat 0x1C 4 o n v)
    evbase := BitVec.ofNat 64 (mergeField h.evbase.toNat 0x28 8 o n v)
    evsize := BitVec.ofNat 32 (mergeField h.evsize.toNat 0x30 4 o n v)
    evread := BitVec.ofNat 32 (mergeField h.evread.toNat 0x38 4 o n v)
    incarn := BitVec.ofNat 16 (mergeField h.incarn.toNat 0x3C 2 o n v)
    devnum := BitVec.ofNat 16 (mergeField h.devnum.toNat 0x3E 2 o n v) }

/-- Held events are written while the ring has room. -/
def State.eventRoom (s : State) : State := s.flushEvents s.hostif.heldEvents.length

/-- The fabric ports come up once the host has written incarn, unless boot has failed (R440, R443). -/
def State.portsRise (s : State) : State :=
  if s.hostif.bootstat.toNat ≤ 1 then (s.modFabric fun x => { x with portsUp := true }).pump else s

/-- EVREAD. -/
def execEvread (v : BitVec 32) (s : State) : Host.Outcome State Fault Refusal :=
  .next (s.modHost fun h => { h with evread := v }).eventRoom

/-- INCARN. -/
def execIncarn (v : BitVec 16) (s : State) : Host.Outcome State Fault Refusal :=
  .next (s.modHost fun h => { h with incarn := v }).portsRise

/-- REGISTER_WRITE: stored, or ignored; a write that covers cmdtail, evread or incarn is also the event that such a write
is. -/
def execRegisterWrite (offset size value : Nat) (s : State) : Host.Outcome State Fault Refusal :=
  let s := s.modHost fun h => h.regWrite offset size value
  let s := if touches 0x38 4 offset size then s.eventRoom else s
  let s := if touches 0x3C 2 offset size then s.portsRise else s
  .next (if touches 0x1C 4 offset size then s.doorbell else s)

/-! Host accesses (R405, R429, R430, R432). -/

/-- A port's link mode. -/
def State.portMode (s : State) (port : Nat) : PortMode := (getVec s.hostif.ports port HostPort.reset).mode

/-- How many bytes a host access touches. -/
def hostOpSize : HostOp → Nat
  | .read n => n
  | .write bs => bs.length
  | .fetchAdd n _ | .swap n _ | .cas n _ _ => n

/-- What an access leaves in place of the bytes it met; none for a read. Atomics are of 32 and 64 bits. -/
def hostOpResult (op : HostOp) (old : Nat) : Option (List Byte) :=
  let atomic := fun (n v : Nat) => if n = 4 ∨ n = 8 then some (bytesOfNat n v) else none
  match op with
  | .read _ => none
  | .write bs => some bs
  | .fetchAdd n a => atomic n (old + a)
  | .swap n a => atomic n a
  | .cas n e r => atomic n (if old % 256 ^ n = e % 256 ^ n then r else old)

/-- Perform a host access at places of this device: it takes effect at its home, in the order in which the port delivers it; in a
REPL page at the sequencer (R405, log 69). -/
def State.hostAt (s : State) (op : HostOp) (rs : List ByteRef) : State :=
  match hostOpResult op (s.homeNat peerAgent rs) with
  | none => s
  | some bs => s.writeRefs peerAgent rs bs

/-- An access through BAR2 to HBM: refused in a range that the device keeps for itself. -/
def State.bar2Access (s : State) (offset : Nat) (op : HostOp) (place : Nat → Place) : State :=
  let addrs := (List.range (hostOpSize op)).map fun i => offset + i
  if !(addrs.all isHbm) then s
  else if addrs.any Config.deviceReserved then s.postViolation offset (s.freeNat (2 ^ 94)) 0 0 4
  else s.hostAt op (addrs.map fun a => .whole (place a))

/-- An access of the host to its own memory; a line of it that this device held goes back to the host first. -/
def State.hostOwnAccess (s : State) (hpa : Nat) (op : HostOp) : State :=
  let s := s.modHost fun h => { h with lines := h.lines.filter fun l => !rangesMeet l.addr 128 hpa (hostOpSize op) }
  match hostOpResult op (s.hostNat hpa (hostOpSize op)) with
  | none => s
  | some bs => s.hostPut hpa bs

/-- HOST_ACCESS. BAR2 does not answer while boot verifies, and after a failed boot it is the recovery window. -/
def execHostAccess (port : Nat) (target : HostTarget) (op : HostOp) (s : State) : Host.Outcome State Fault Refusal :=
  match target with
  | .hostMem hpa => .next (s.hostOwnAccess hpa op)
  | .bar2 offset =>
    if s.portMode port = .down then .next s
    else if 2 ≤ s.hostif.bootstat.toNat then .refused .recoveryWindow
    else if s.hostif.bootstat = 0 then .next s
    else .next (s.bar2Access offset op .hbm)
  | .bar2Repl offset =>
    if s.portMode port = .down then .next s
    else if 2 ≤ s.hostif.bootstat.toNat then .refused .recoveryWindow
    else if s.hostif.bootstat = 0 then .next s
    else .next (s.bar2Access offset op .repl)

/-- What a snoop leaves of a line: invalidating, nothing; otherwise the data has gone to the host, and M becomes O, E becomes S. -/
def HostLine.snooped (l : HostLine) : HostLine :=
  { l with state := match l.state with | .m | .o => .o | .e | .s => .s }

/-- SNOOP: a host line held in this device's L2 (R431). -/
def execSnoop (port hpa : Nat) (invalidating : Bool) (s : State) : Host.Outcome State Fault Refusal :=
  let hit := fun (l : HostLine) => l.port == port && l.addr == hpa / 128 * 128
  .next (s.modHost fun h =>
    { h with lines := if invalidating then h.lines.filter fun l => !hit l else modWhere hit HostLine.snooped h.lines })

/-! Links and signals (R429, R435). -/

/-- LINK_UP: a port in service trains in the mode the host selects; lines of an earlier mode are no longer held. -/
def execLinkUp (port : Nat) (mode : PortMode) (s : State) : Host.Outcome State Fault Refusal :=
  if 2 ≤ port || mode = .down || s.retired.contains (unitHostPort, port) then .next s
  else
    .next (s.modHost fun h =>
      { h with ports := modVec (fun p => { p with mode := mode }) h.ports port, lines := h.lines.filter fun l => l.port != port })

/-- A held signal goes out once 2 µs have passed since the last. -/
def HostPort.release (p : HostPort) (vector time : Nat) : HostPort :=
  match getVec p.msix vector (none, false) with
  | (some last, true) =>
    if p.mode = .down || time < last + 2000 then p
    else { p with msix := modVec (fun _ => (some time, false)) p.msix vector, signals := p.signals ++ [vector] }
  | _ => p

/-- MSI_X_SIGNAL. -/
def execMsiXSignal (port vector : Nat) (s : State) : Host.Outcome State Fault Refusal :=
  .next (s.modHost fun h => { h with ports := modVec (fun p => p.release vector s.time) h.ports port })

/-! Cold reset and boot (R440, R441, R443). -/

/-- A port after a cold reset: the link must train again. -/
def HostPort.cold (p : HostPort) : HostPort := { HostPort.reset with signals := p.signals }

/-- The machine after a cold reset: fuses stay, and so does what is outside the device: host memory, what it has sent and
signalled, and the model's own counters and agenda. -/
def State.cold (s : State) : State :=
  { State.reset with
    agenda := s.agenda, cur := s.cur, free := s.free, stamp := s.stamp, host := s.host
    fabric := { Fabric.reset with sent := s.fabric.sent }
    hostif := { HostIf.reset with
                stepping := s.hostif.stepping, secver := s.hostif.secver, ports := mapVec HostPort.cold s.hostif.ports } }

/-- COLD_RESET. -/
def execColdReset (s : State) : Host.Outcome State Fault Refusal := .next s.cold

/-- BOOT: verification ends, with the digests of the verified images; on a failure the fabric ports stay down (log 19). -/
def execBoot (outcome : BootOutcome) (s : State) : Host.Outcome State Fault Refusal :=
  if s.hostif.bootstat ≠ 0 || outcome.bootstat = 0 || 4 < outcome.bootstat.toNat then .next s
  else
    let s := s.modHost fun h => { h with bootstat := outcome.bootstat, measurements := outcome.digests }
    .next (if outcome.bootstat = 1 then s.doorbell else s.modFabric fun x => { x with portsUp := false })

/-! Soft errors (R385, R386, R394). -/

def unitSlice : Nat := 2

/-- The unit type that an error counts against (R396). -/
def siteType : ErrorSite → Nat
  | .hbm _ | .cc _ => unitRow
  | .l2 _ => unitSlice
  | _ => unitCore

/-- The address of a CORRECTED record: the physical address of a sector; other stores have none, and 0 stands there (log 46). -/
def siteAddr : ErrorSite → Nat
  | .hbm pa | .l2 pa => pa
  | .cc key => key
  | _ => 0

/-- The context whose data a store holds. -/
def State.siteCtx (s : State) : ErrorSite → Nat
  | .vault w _ | .vreg w _ _ _ | .sreg w _ _ | .mreg w _ _ | .breg w _ _ | .xreg w _ | .tile w _ | .shared w => (s.ctxOf w).toNat
  | .tlb _ c _ | .coreTlb _ c _ => c.toNat
  | _ => 0

/-- Stores with parity only: the entry is dropped and fetched again, counted as corrected. -/
def paritySite : ErrorSite → Bool
  | .l1 _ _ | .code _ _ | .tlb _ _ _ | .coreTlb _ _ _ => true
  | _ => false

def State.dropEntry (s : State) : ErrorSite → State
  | .l1 core key => s.modCore core fun c => { c with l1 := c.l1.filter fun x => x.key != key / 32 * 32 }
  | .code core key =>
    let keep := fun (l : List Sector) => l.filter fun x => x.key != key / 32 * 32
    s.modCore core fun c => { c with scalarCode := keep c.scalarCode, laneCode := keep c.laneCode }
  | .tlb reach ctx base => s.modReach reach fun r => { r with tlb := r.tlb.filter fun e => !(e.ctx == ctx && e.leaf.base == base) }
  | .coreTlb core ctx base => s.modCore core fun c => { c with tlb := c.tlb.filter fun e => !(e.ctx == ctx && e.leaf.base == base) }
  | _ => s

/-- Poison a register of a group. -/
def State.poisonReg (s : State) (w : WgIx) (g : GroupIx) (r : PoisonReg) : State :=
  s.modGroup w g fun x => { x with poison := if x.poison.contains r then x.poison else r :: x.poison }

/-- Poison a sector. -/
def State.poisonSector (s : State) (key : Nat) : State :=
  { s with poison := if s.poison.contains key then s.poison else key :: s.poison }

/-- An uncorrectable error marks its location as poisoned. -/
def State.poisonSite (s : State) : ErrorSite → State
  | .hbm pa => if isHbm pa then s.poisonSector (sectorOf pa) else s
  | .cc key => s.poisonSector (2 ^ 56 + sectorOf key)
  | .l2 pa => match s.l2Key pa with
    | some k => s.poisonSector k
    | none => s
  | .vault w off => s.modWg w fun x => { x with poisonVault := if off < x.vaultSize then (off / 16) :: x.poisonVault.filter (· != off / 16) else x.poisonVault }
  | .vreg w g r l => s.poisonReg w g (.v r l)
  | .sreg w g r => if r = 0 then s else s.poisonReg w g (.s r)
  | .mreg w g r => s.poisonReg w g (.m r)
  | .breg w g r => s.poisonReg w g (.b r)
  | .xreg w g => s.poisonReg w g .x
  | .tile w t => s.modWg w fun x => { x with tiles := modWhere (fun y => y.1 == t) (fun y => (y.1, { y.2 with error := some (classCode .poison) })) x.tiles }
  | .slot core n => s.modSlot core n fun x => { x with d := { x.d with poisonData := true } }
  | .shared w => s.modWg w fun x => if x.state = .complete then x else { x with poisonShared := true }
  | .l1 _ _ | .code _ _ | .tlb _ _ _ | .coreTlb _ _ _ => s

/-- SOFT_ERROR: corrected and logged, or its location poisoned; either way a fault of the unit. -/
def execSoftError (err : SoftError) (s : State) : Host.Outcome State Fault Refusal :=
  let type := siteType err.site
  let s := if err.corrected || paritySite err.site then
      (s.dropEntry err.site).postLog .corrected type err.unit (s.siteCtx err.site) (siteAddr err.site) 0
    else s.poisonSite err.site
  .next (s.countFault type err.unit)

/-! Clocks (R14, R16, R22, R444). -/

/-- A core's island changes its clock: CYCLE has counted at the old rate so far. -/
def Core.clock (c : Core) (time mhz : Nat) : Core :=
  { c with cycleBase := c.cycleBase + (time - c.cycleSince) * c.mhz / 1000, cycleSince := time, mhz := mhz }

/-- A setting the power controller may make: no clock above the one the spec gives the island, and a core's rail between 420 and 600 mV
(R14, R444; log 21). -/
def IslandSetting.ok (x : IslandSetting) : Bool :=
  x.island < 256 && x.mhz ≤ (Island.of x.island).fullMhz.getD x.mhz &&
    (Island.of x.island != .core || (420 ≤ x.millivolts && x.millivolts ≤ 600))

def State.setIsland (s : State) (x : IslandSetting) : State :=
  let s := { s with islands := modVec (fun _ => (x.mhz, x.millivolts)) s.islands x.island }
  if x.island < Config.cores then s.modCore x.island fun c => c.clock s.time x.mhz else s

/-- JUNCTION_TEMPERATURE_LIMIT. -/
def execJunctionTemperatureLimit (settings : List IslandSetting) (s : State) : Host.Outcome State Fault Refusal :=
  .next ((settings.filter IslandSetting.ok).foldl (fun (s : State) x => s.setIsland x) s)

end Sys2Proof.Machine
end

