-- ==== Sys2Proof/Machine/LaneInt.lean ====
section
/-! DEFINITION. The lane instructions on integers and bits, compares, selects and moves, masks, and the cross-lane
instructions (R126 to R140). -/

namespace Sys2Proof.Machine

/-! Integer arithmetic (R129, R130). -/

/-- Fit of R130: clamp under .sat, else wrap. -/
def fit (ty : ElemTy) (sat : Bool) (v : Int) : Nat :=
  wrap (tyBits ty) (if sat then clampInt (tyMin ty) (tyMax ty) v else v)

/-- An integer form of up to three sources, computed exactly. -/
def State.intOp (s : State) (i : Instr) (o : LaneOp) (sh : Shape) (f : Int → Int → Int → Int) : Host.Outcome State Fault Refusal :=
  .next (s.runOp i o sh (perLane fun _ _ a b c _ =>
    (fit o.ty (o.mods == 1) (f (intVal o.ty a) (intVal o.ty b) (intVal o.ty c)), 0)))

def intAbs (a : Int) : Int := if a < 0 then -a else a
def intMin (a b : Int) : Int := if a ≤ b then a else b
def intMax (a b : Int) : Int := if a ≤ b then b else a

def execVadd (o : LaneOp) (s : State) : Host.Outcome State Fault Refusal := s.intOp (.vadd o) o (shape2 (tyBits o.ty)) fun a b _ => a + b
def execVsub (o : LaneOp) (s : State) : Host.Outcome State Fault Refusal := s.intOp (.vsub o) o (shape2 (tyBits o.ty)) fun a b _ => a - b
def execVmul (o : LaneOp) (s : State) : Host.Outcome State Fault Refusal := s.intOp (.vmul o) o (shape2 (tyBits o.ty)) fun a b _ => a * b
def execVmulh (o : LaneOp) (s : State) : Host.Outcome State Fault Refusal :=
  s.intOp (.vmulh o) o (shape2 (tyBits o.ty)) fun a b _ => a * b / 2 ^ tyBits o.ty
def execVmad (o : LaneOp) (s : State) : Host.Outcome State Fault Refusal :=
  s.intOp (.vmad o) o (shape3 (tyBits o.ty)) fun a b c => a * b + c
def execVdiv (o : LaneOp) (s : State) : Host.Outcome State Fault Refusal :=
  s.intOp (.vdiv o) o (shape2 (tyBits o.ty)) fun a b _ => if b = 0 then -1 else a.tdiv b
def execVrem (o : LaneOp) (s : State) : Host.Outcome State Fault Refusal :=
  s.intOp (.vrem o) o (shape2 (tyBits o.ty)) fun a b _ => if b = 0 then a else a - b * a.tdiv b
def execVmin (o : LaneOp) (s : State) : Host.Outcome State Fault Refusal := s.intOp (.vmin o) o (shape2 (tyBits o.ty)) fun a b _ => intMin a b
def execVmax (o : LaneOp) (s : State) : Host.Outcome State Fault Refusal := s.intOp (.vmax o) o (shape2 (tyBits o.ty)) fun a b _ => intMax a b
def execVabs (o : LaneOp) (s : State) : Host.Outcome State Fault Refusal := s.intOp (.vabs o) o (shape1 (tyBits o.ty)) fun a _ _ => intAbs a
def execVneg (o : LaneOp) (s : State) : Host.Outcome State Fault Refusal := s.intOp (.vneg o) o (shape1 (tyBits o.ty)) fun a _ _ => -a

/-! Logic and bit fields (R131). -/

/-- A bit form: a pure function of the unsigned sources. -/
def State.bitOp (s : State) (i : Instr) (o : LaneOp) (sh : Shape) (f : Nat → Nat → Nat → Nat → Nat) : Host.Outcome State Fault Refusal :=
  .next (s.runOp i o sh (perLane fun _ _ a b c e => (f a b c e, 0)))

/-- Two sources of the type's width, and shifts, whose count is a 32-bit element. -/
def shapeShift (w : Nat) : Shape := { d := w, a := some w, b := some 32 }
def shapeCount (w : Nat) : Shape := { d := 32, a := some w }
def shapeBfe (w : Nat) : Shape := { d := w, a := some w, b := some 32, c := some 32 }
def shapeBfi (w : Nat) : Shape := { d := w, a := some w, b := some w, c := some 32, e := some 32 }

def popCountNat (w v : Nat) : Nat := ((List.range w).filter fun i => bit v i).length
def leadingZeros (w v : Nat) : Nat := if v = 0 then w else w - 1 - Nat.log2 v

/-- VBFE: position and length are the low bytes of B and C; an i type extends the field's sign. -/
def bitExtract (ty : ElemTy) (a b c : Nat) : Nat :=
  let w := tyBits ty
  let pos := min (b % 256) w
  let len := min (c % 256) (w - pos)
  let f := fld a pos len
  if tySigned ty && len != 0 then wrap w (signed len f) else f

/-- VBFI: the field of the base is replaced by low bits of the value. -/
def bitInsert (w base value c e : Nat) : Nat :=
  let pos := min (c % 256) w
  let len := min (e % 256) (w - pos)
  let field := (2 ^ len - 1) * 2 ^ pos
  (base &&& (2 ^ w - 1 - field)) ||| (value * 2 ^ pos &&& field)

def execVand (o : LaneOp) (s : State) : Host.Outcome State Fault Refusal := s.bitOp (.vand o) o (shape2 (tyBits o.ty)) fun a b _ _ => a &&& b
def execVor (o : LaneOp) (s : State) : Host.Outcome State Fault Refusal := s.bitOp (.vor o) o (shape2 (tyBits o.ty)) fun a b _ _ => a ||| b
def execVxor (o : LaneOp) (s : State) : Host.Outcome State Fault Refusal := s.bitOp (.vxor o) o (shape2 (tyBits o.ty)) fun a b _ _ => a ^^^ b
def execVnot (o : LaneOp) (s : State) : Host.Outcome State Fault Refusal :=
  s.bitOp (.vnot o) o (shape1 (tyBits o.ty)) fun a _ _ _ => 2 ^ tyBits o.ty - 1 - a
def execVshl (o : LaneOp) (s : State) : Host.Outcome State Fault Refusal :=
  s.bitOp (.vshl o) o (shapeShift (tyBits o.ty)) fun a b _ _ => a * 2 ^ (b % tyBits o.ty) % 2 ^ tyBits o.ty
def execVshr (o : LaneOp) (s : State) : Host.Outcome State Fault Refusal :=
  s.bitOp (.vshr o) o (shapeShift (tyBits o.ty)) fun a b _ _ => a / 2 ^ (b % tyBits o.ty)
def execVsra (o : LaneOp) (s : State) : Host.Outcome State Fault Refusal :=
  s.bitOp (.vsra o) o (shapeShift (tyBits o.ty)) fun a b _ _ =>
    wrap (tyBits o.ty) (signed (tyBits o.ty) a / 2 ^ (b % tyBits o.ty))
def execVpopc (o : LaneOp) (s : State) : Host.Outcome State Fault Refusal :=
  s.bitOp (.vpopc o) o (shapeCount (tyBits o.ty)) fun a _ _ _ => popCountNat (tyBits o.ty) a
def execVclz (o : LaneOp) (s : State) : Host.Outcome State Fault Refusal :=
  s.bitOp (.vclz o) o (shapeCount (tyBits o.ty)) fun a _ _ _ => leadingZeros (tyBits o.ty) a
def execVbfe (o : LaneOp) (s : State) : Host.Outcome State Fault Refusal :=
  s.bitOp (.vbfe o) o (shapeBfe (tyBits o.ty)) fun a b c _ => bitExtract o.ty a b c
def execVbfi (o : LaneOp) (s : State) : Host.Outcome State Fault Refusal :=
  s.bitOp (.vbfi o) o (shapeBfi (tyBits o.ty)) fun a b c e => bitInsert (tyBits o.ty) a b c e

/-! Compare, select and move (R132, R133). -/

/-- A comparison of integers, or of bit patterns. -/
def cmpInt (cond : Nat) (a b : Int) : Bool :=
  match cond with
  | 0 => a == b | 1 => a != b | 2 => decide (a < b) | 3 => decide (a ≤ b) | 4 => decide (b < a) | _ => decide (b ≤ a)

/-- A float comparison and its IOP. -/
def cmpFloat (cond : Nat) (a b : FVal) : Bool × Nat :=
  let un := a.isNan || b.isNan
  let c := a.compare b
  let quiet := snanFlag [a, b]
  let loud := if un then flIop else 0
  match cond with
  | 0 => (!un && c == 0, quiet)
  | 1 => (un || c != 0, quiet)
  | 2 => (!un && decide (c < 0), loud)
  | 3 => (!un && decide (c ≤ 0), loud)
  | 4 => (!un && decide (0 < c), loud)
  | 5 => (!un && decide (0 ≤ c), loud)
  | 6 => (un, quiet)
  | _ => (!un, quiet)

def compareElem (ty : ElemTy) (cond : Nat) (ftz : Bool) (a b : Nat) : Bool × Nat :=
  if tyFloat ty then cmpFloat cond ((fmtOf ty).input ftz a) ((fmtOf ty).input ftz b)
  else (cmpInt cond (intVal ty a) (intVal ty b), 0)

def execVcmp (o : LaneOp) (s : State) : Host.Outcome State Fault Refusal :=
  .next (s.runOp (.vcmp o) o (shape2 (tyBits o.ty)) fun x =>
    let r := fun i => compareElem o.ty o.mods.toNat (flagsFtz x.g.flags) (x.a i) (x.b i)
    { dm := fun i => (r i).1, fl := (lanesOf x.active).foldl (fun fl i => fl ||| (r i).2) 0 })

/-- Bit i of the mask an operand names. -/
def Group.maskBit (g : Group) (o : Operand) (i : Nat) : Bool :=
  match o with
  | .m r => (getVec g.m r.toNat 0).getLsbD i
  | _ => false

def execVsel (o : LaneOp) (s : State) : Host.Outcome State Fault Refusal :=
  .next (s.runOp (.vsel o) o (shape2 (tyBits o.ty)) fun x =>
    { d := fun i => if x.g.maskBit o.c i then x.a i else x.b i })
def execVmov (o : LaneOp) (s : State) : Host.Outcome State Fault Refusal := s.bitOp (.vmov o) o (shape1 (tyBits o.ty)) fun a _ _ _ => a

/-- The layout of R81 as operands: its sources are unused. -/
def immAsOp (o : ImmOp) : LaneOp :=
  ⟨o.ty, o.rnd, o.guard, o.d, .v 0, .v 0, .v 0, .v 0, o.hint, o.bypass, o.mods⟩

def execVimm (o : ImmOp) (s : State) : Host.Outcome State Fault Refusal :=
  .next (s.runOp (.vimm o) (immAsOp o) (shape0 (tyBits o.ty)) fun _ =>
    { d := fun _ => if o.ty == .b64 then (o.imm.signExtend 64).toNat else o.imm.toNat })
def execVlane (o : LaneOp) (s : State) : Host.Outcome State Fault Refusal :=
  .next (s.runOp (.vlane o) o (shape0 32) fun _ => { d := fun i => i })

/-! Masks (R134). -/

/-- A mask form: the destination bits of the active lanes. -/
def State.maskOp (s : State) (i : Instr) (o : LaneOp) (f : Bool → Bool → Bool) : Host.Outcome State Fault Refusal :=
  .next (s.runOp i o (shape0 32) fun x => { dm := fun l => f (x.g.maskBit o.a l) (x.g.maskBit o.b l) })

def execMand (o : LaneOp) (s : State) : Host.Outcome State Fault Refusal := s.maskOp (.mand o) o (· && ·)
def execMor (o : LaneOp) (s : State) : Host.Outcome State Fault Refusal := s.maskOp (.mor o) o (· || ·)
def execMxor (o : LaneOp) (s : State) : Host.Outcome State Fault Refusal := s.maskOp (.mxor o) o (· != ·)
def execMnot (o : LaneOp) (s : State) : Host.Outcome State Fault Refusal := s.maskOp (.mnot o) o fun a _ => !a

/-- The lowest active lane whose bit is set. -/
def execMfirst (o : LaneOp) (s : State) : Host.Outcome State Fault Refusal :=
  .next (s.runOp (.mfirst o) o (shape0 32) fun x =>
    let f := (lanesOf x.active).find? fun i => x.g.maskBit o.a i
    { dm := fun i => f == some i })

/-- The set bits of the whole mask. -/
def execMpopc (o : LaneOp) (s : State) : Host.Outcome State Fault Refusal :=
  .next (s.runOp (.mpopc o) o (shape0 32) fun x =>
    let n := ((List.range 64).filter fun i => x.g.maskBit o.a i).length
    { d := fun _ => n })

/-- The active lanes below lane i whose bit is set. -/
def execViota (o : LaneOp) (s : State) : Host.Outcome State Fault Refusal :=
  .next (s.runOp (.viota o) o (shape0 32) fun x =>
    { d := fun i => ((lanesOf x.active).filter fun j => decide (j < i) && x.g.maskBit o.a j).length })

/-! Reading other lanes (R135 to R138). -/

/-- The value lane i receives from a source lane: A of a launched lane, else the fill; and its status bit (R135). -/
def Ins.fromLane (x : Ins) (o : LaneOp) (i : Nat) (j : Option Nat) : Nat × Bool :=
  match j with
  | some k =>
    if k < 64 && (getVec x.g.m 0 0).getLsbD k then (x.g.elemNat (tyBits o.ty) (vectorNo o.a) k, false) else (x.c i, true)
  | none => (x.c i, true)

/-- The optional status mask of E. -/
def statusMask (o : LaneOp) (f : Nat → Bool) : List (Nat × (Nat → Bool)) :=
  match o.e with
  | .m r => [(r.toNat, f)]
  | _ => []

def shapeCross (w : Nat) : Shape := { d := w, a := some w, c := some w, cross := true }
def shapePerm (w : Nat) : Shape := { d := w, a := some w, b := some 32, c := some w, cross := true }

/-- An instruction that reads another lane: which lane, and what is done with its value. -/
def State.crossOp (s : State) (i : Instr) (o : LaneOp) (sh : Shape) (src : Ins → Nat → Option Nat) (f : Nat → Nat → Nat → Nat) :
    Host.Outcome State Fault Refusal :=
  .next (s.runOp i o sh fun x =>
    { d := fun l => f l (x.a l) (x.fromLane o l (src x l)).1
      masks := statusMask o fun l => (x.fromLane o l (src x l)).2 })

/-- The distance of VSHFL's off field (R136). -/
def shflDistance (off : Nat) : Nat := if off < 6 then 64 / 2 ^ (off + 1) else off - 7

/-- The lane that a VSHFL mode names. -/
def shflLane (mode d i : Nat) : Option Nat :=
  match mode with
  | 0 => if d ≤ i then some (i - d) else none
  | 1 => if i + d < 64 then some (i + d) else none
  | 2 => some (i ^^^ d)
  | _ => some ((i + d) % 64)

def execVshfl (o : LaneOp) (s : State) : Host.Outcome State Fault Refusal :=
  s.crossOp (.vshfl o) o (shapeCross (tyBits o.ty)) (fun _ i => shflLane (o.mods.toNat / 16) (shflDistance (o.mods.toNat % 16)) i)
    fun _ _ p => p
def execVperm (o : LaneOp) (s : State) : Host.Outcome State Fault Refusal :=
  s.crossOp (.vperm o) o (shapePerm (tyBits o.ty)) (fun x i => some (x.b i)) fun _ _ p => p

/-- The butterfly step (R138). -/
def stepValue (ty : ElemTy) (op d i a p : Nat) : Nat :=
  let w := tyBits ty
  match op with
  | 0 => (a + p) % 2 ^ w
  | 1 => wrap w (intMin (intVal ty a) (intVal ty p))
  | 2 => wrap w (intMax (intVal ty a) (intVal ty p))
  | 3 => a &&& p
  | 4 => a ||| p
  | 5 => a ^^^ p
  | _ => if i &&& d ≠ 0 then p else a

def execVstep (o : LaneOp) (s : State) : Host.Outcome State Fault Refusal :=
  let d := 64 / 2 ^ (o.mods.toNat % 8 + 1)
  s.crossOp (.vstep o) o (shapeCross (tyBits o.ty)) (fun _ i => some (i ^^^ d)) fun i a p => stepValue o.ty (o.mods.toNat / 8) d i a p

/-! Scans and compression (R139, R140). -/

/-- The identity of a scan. -/
def scanIdentity (ty : ElemTy) (op : Nat) : Nat :=
  let f := fmtOf ty
  match op with
  | 0 => if tyFloat ty then f.signBit true else 0
  | 1 => if tyFloat ty then f.infinity false else wrap (tyBits ty) (tyMax ty)
  | _ => if tyFloat ty then f.infinity true else wrap (tyBits ty) (tyMin ty)

/-- One Combine, in the mode of the lane whose element the step adds. -/
def scanCombine (ty : ElemTy) (op : Nat) (md : Mode) (acc a : Nat) : Nat × Nat :=
  let w := tyBits ty
  let f := fmtOf ty
  if tyFloat ty then
    match op with
    | 0 => f.add md (f.input md.ftz acc) (f.input md.ftz a)
    | 1 => f.minNum false md.ftz acc a
    | _ => f.minNum true md.ftz acc a
  else
    match op with
    | 0 => ((acc + a) % 2 ^ w, 0)
    | 1 => (wrap w (intMin (intVal ty acc) (intVal ty a)), 0)
    | _ => (wrap w (intMax (intVal ty acc) (intVal ty a)), 0)

/-- The first element of a scan: an input of the operation, a NaN canonical and a subnormal flushed under FTZ (R51, R54, R149). -/
def scanFirst (ty : ElemTy) (ftz : Bool) (a : Nat) : Nat × Nat :=
  let f := fmtOf ty
  if tyFloat ty then
    match f.input ftz a with
    | .nan s => (f.canonicalNan, if s then flIop else 0)
    | .fin neg 0 _ => (f.signBit neg, 0)
    | _ => (a, 0)
  else (a, 0)

/-- The scan over the active lanes: lane, result; and the flags. first says that no element has been taken. -/
def scanLanes (g : Group) (o : LaneOp) (a : Nat → Nat) : List Nat → Bool → Nat → Nat → List (Nat × Nat) × Nat
  | [], _, _, fl => ([], fl)
  | l :: ls, first, acc, fl =>
    let (acc', fl') := if first then scanFirst o.ty (flagsFtz g.flags) (a l) else scanCombine o.ty (o.mods.toNat % 4) (g.mode o.rnd l 0) acc (a l)
    let (rest, f) := scanLanes g o a ls false acc' (fl ||| fl')
    ((l, if bit o.mods.toNat 2 then acc else acc') :: rest, f)

def lookupLane (rs : List (Nat × Nat)) (i : Nat) : Nat := ((rs.find? fun r => r.1 == i).map (·.2)).getD 0

def execVscan (o : LaneOp) (s : State) : Host.Outcome State Fault Refusal :=
  .next (s.runOp (.vscan o) o (shape1 (tyBits o.ty)) fun x =>
    let (rs, fl) := scanLanes x.g o x.a (lanesOf x.active) true (scanIdentity o.ty (o.mods.toNat % 4)) 0
    { d := lookupLane rs, fl := fl })

/-- VCOMP: the selected lanes' values go to the lowest active lanes, the rest receive the fill (R140). -/
def compSource (x : Ins) (o : LaneOp) (i : Nat) : Option Nat :=
  let ls := lanesOf x.active
  (ls.filter fun j => x.g.maskBit o.b j)[ls.idxOf i]?

def execVcomp (o : LaneOp) (s : State) : Host.Outcome State Fault Refusal :=
  .next (s.runOp (.vcomp o) o { d := tyBits o.ty, a := some (tyBits o.ty), c := some (tyBits o.ty) } fun x =>
    { d := fun i => match compSource x o i with | some j => x.a j | none => x.c i
      masks := statusMask o fun i => (compSource x o i).isNone })

end Sys2Proof.Machine
end

