-- ==== Sys2Proof/Machine/Scalar.lean ====
section
/-! DEFINITION. The scalar arithmetic: ALU functions, immediates, constants and code addresses (R98 to R103). -/

namespace Sys2Proof.Machine

/-- An instruction that only writes one register. -/
def State.result (s : State) (sd : SReg) (v : Word) : Host.Outcome State Fault Refusal := .next (s.ws sd v).next4

def boolWord (b : Bool) : Word := if b then 1 else 0

/-- An ALU function of two registers. -/
def State.alu (s : State) (sd sa sb : SReg) (f : Word → Word → Word) : Host.Outcome State Fault Refusal :=
  s.result sd (f (s.rs sa) (s.rs sb))

/-- The same function of a register and the sign-extended 14-bit immediate (R102). -/
def State.aluImm (s : State) (sd sa : SReg) (imm : BitVec 14) (f : Word → Word → Word) : Host.Outcome State Fault Refusal :=
  s.result sd (f (s.rs sa) (imm.signExtend 64))

/-! The functions of R101. -/

def aluShl (a b : Word) : Word := a <<< (b.toNat % 64)
def aluShr (a b : Word) : Word := a >>> (b.toNat % 64)
def aluSra (a b : Word) : Word := a.sshiftRight (b.toNat % 64)
def aluMin (a b : Word) : Word := if a.toInt ≤ b.toInt then a else b
def aluMax (a b : Word) : Word := if a.toInt ≤ b.toInt then b else a
def aluMinn (a b : Word) : Word := if a.toNat ≤ b.toNat then a else b
def aluMaxn (a b : Word) : Word := if a.toNat ≤ b.toNat then b else a
def aluSlt (a b : Word) : Word := boolWord (decide (a.toInt < b.toInt))
def aluSltn (a b : Word) : Word := boolWord (decide (a.toNat < b.toNat))
def aluMulh (a b : Word) : Word := BitVec.ofInt 64 (a.toInt * b.toInt / 2 ^ 64)
def aluMulhn (a b : Word) : Word := BitVec.ofNat 64 (a.toNat * b.toNat / 2 ^ 64)

/-- Division toward zero; by zero all ones; -2^63 by -1 wraps to -2^63. -/
def aluDiv (a b : Word) : Word := if b = 0 then BitVec.allOnes 64 else BitVec.ofInt 64 (a.toInt.tdiv b.toInt)
def aluDivn (a b : Word) : Word := if b = 0 then BitVec.allOnes 64 else BitVec.ofNat 64 (a.toNat / b.toNat)

/-- The remainder takes the dividend's sign; by zero it is the dividend. -/
def aluRem (a b : Word) : Word := if b = 0 then a else BitVec.ofInt 64 (a.toInt - b.toInt * a.toInt.tdiv b.toInt)
def aluRemn (a b : Word) : Word := if b = 0 then a else BitVec.ofNat 64 (a.toNat % b.toNat)

/-! ALU (R101). -/

def execAdd (sd sa sb : SReg) (s : State) : Host.Outcome State Fault Refusal := s.alu sd sa sb (· + ·)
def execSub (sd sa sb : SReg) (s : State) : Host.Outcome State Fault Refusal := s.alu sd sa sb (· - ·)
def execAnd (sd sa sb : SReg) (s : State) : Host.Outcome State Fault Refusal := s.alu sd sa sb (· &&& ·)
def execOr (sd sa sb : SReg) (s : State) : Host.Outcome State Fault Refusal := s.alu sd sa sb (· ||| ·)
def execXor (sd sa sb : SReg) (s : State) : Host.Outcome State Fault Refusal := s.alu sd sa sb (· ^^^ ·)
def execShl (sd sa sb : SReg) (s : State) : Host.Outcome State Fault Refusal := s.alu sd sa sb aluShl
def execShr (sd sa sb : SReg) (s : State) : Host.Outcome State Fault Refusal := s.alu sd sa sb aluShr
def execSra (sd sa sb : SReg) (s : State) : Host.Outcome State Fault Refusal := s.alu sd sa sb aluSra
def execMin (sd sa sb : SReg) (s : State) : Host.Outcome State Fault Refusal := s.alu sd sa sb aluMin
def execMax (sd sa sb : SReg) (s : State) : Host.Outcome State Fault Refusal := s.alu sd sa sb aluMax
def execMinn (sd sa sb : SReg) (s : State) : Host.Outcome State Fault Refusal := s.alu sd sa sb aluMinn
def execMaxn (sd sa sb : SReg) (s : State) : Host.Outcome State Fault Refusal := s.alu sd sa sb aluMaxn
def execSlt (sd sa sb : SReg) (s : State) : Host.Outcome State Fault Refusal := s.alu sd sa sb aluSlt
def execSltn (sd sa sb : SReg) (s : State) : Host.Outcome State Fault Refusal := s.alu sd sa sb aluSltn
def execMul (sd sa sb : SReg) (s : State) : Host.Outcome State Fault Refusal := s.alu sd sa sb (· * ·)
def execMulh (sd sa sb : SReg) (s : State) : Host.Outcome State Fault Refusal := s.alu sd sa sb aluMulh
def execMulhn (sd sa sb : SReg) (s : State) : Host.Outcome State Fault Refusal := s.alu sd sa sb aluMulhn
def execDiv (sd sa sb : SReg) (s : State) : Host.Outcome State Fault Refusal := s.alu sd sa sb aluDiv
def execDivn (sd sa sb : SReg) (s : State) : Host.Outcome State Fault Refusal := s.alu sd sa sb aluDivn
def execRem (sd sa sb : SReg) (s : State) : Host.Outcome State Fault Refusal := s.alu sd sa sb aluRem
def execRemn (sd sa sb : SReg) (s : State) : Host.Outcome State Fault Refusal := s.alu sd sa sb aluRemn

/-- CSEL reads the old sd as its condition. -/
def execCsel (sd sa sb : SReg) (s : State) : Host.Outcome State Fault Refusal :=
  s.result sd (if s.rs sd ≠ 0 then s.rs sa else s.rs sb)

/-! Immediates (R102). -/

def execAddi (sd sa : SReg) (imm : BitVec 14) (s : State) : Host.Outcome State Fault Refusal := s.aluImm sd sa imm (· + ·)
def execAndi (sd sa : SReg) (imm : BitVec 14) (s : State) : Host.Outcome State Fault Refusal := s.aluImm sd sa imm (· &&& ·)
def execOri (sd sa : SReg) (imm : BitVec 14) (s : State) : Host.Outcome State Fault Refusal := s.aluImm sd sa imm (· ||| ·)
def execXori (sd sa : SReg) (imm : BitVec 14) (s : State) : Host.Outcome State Fault Refusal := s.aluImm sd sa imm (· ^^^ ·)
def execSlti (sd sa : SReg) (imm : BitVec 14) (s : State) : Host.Outcome State Fault Refusal := s.aluImm sd sa imm aluSlt
def execSltni (sd sa : SReg) (imm : BitVec 14) (s : State) : Host.Outcome State Fault Refusal := s.aluImm sd sa imm aluSltn
def execShli (sd sa : SReg) (count : BitVec 6) (s : State) : Host.Outcome State Fault Refusal :=
  s.result sd (aluShl (s.rs sa) (count.setWidth 64))
def execShri (sd sa : SReg) (count : BitVec 6) (s : State) : Host.Outcome State Fault Refusal :=
  s.result sd (aluShr (s.rs sa) (count.setWidth 64))
def execSrai (sd sa : SReg) (count : BitVec 6) (s : State) : Host.Outcome State Fault Refusal :=
  s.result sd (aluSra (s.rs sa) (count.setWidth 64))

/-! Constants and code addresses (R103). -/

/-- The 32-bit pattern imm20 << 12, sign-extended. -/
def execLih (sd : SReg) (imm : BitVec 20) (s : State) : Host.Outcome State Fault Refusal :=
  s.result sd ((imm ++ (0 : BitVec 12)).signExtend 64)

/-- Bits [63:44] are replaced; [43:0] keep their value. -/
def execLit (sd : SReg) (imm : BitVec 20) (s : State) : Host.Outcome State Fault Refusal :=
  s.result sd (imm ++ (s.rs sd).setWidth 44)

/-- A block start: the start of this block plus imm blocks. -/
def execAddpc (sd : SReg) (imm : BitVec 20) (s : State) : Host.Outcome State Fault Refusal :=
  s.result sd (blockOf s.curPc + imm.signExtend 64 * 64)

end Sys2Proof.Machine
end

