-- ==== Sys2Proof/Machine/Dispatch.lean ====
section
/-! DEFINITION. The dispatch: one arm per constructor of Instr, each one call of its meaning. -/

namespace Sys2Proof.Machine

/-- What an instruction does. -/
def exec (i : Instr) (s : State) : Host.Outcome State Fault Refusal :=
  match i with
  | .nop => Sys2Proof.Machine.execNop s
  | .exit => Sys2Proof.Machine.execExit s
  | .yield => Sys2Proof.Machine.execYield s
  | .brk => Sys2Proof.Machine.execBrk s
  | .sysr sd n => Sys2Proof.Machine.execSysr sd n s
  | .sysw n sa => Sys2Proof.Machine.execSysw n sa s
  | .irb => Sys2Proof.Machine.execIrb s
  | .ire => Sys2Proof.Machine.execIre s
  | .fence scope order => Sys2Proof.Machine.execFence scope order s
  | .trap code => Sys2Proof.Machine.execTrap code s
  | .addpc sd imm => Sys2Proof.Machine.execAddpc sd imm s
  | .add sd sa sb => Sys2Proof.Machine.execAdd sd sa sb s
  | .sub sd sa sb => Sys2Proof.Machine.execSub sd sa sb s
  | .and sd sa sb => Sys2Proof.Machine.execAnd sd sa sb s
  | .or sd sa sb => Sys2Proof.Machine.execOr sd sa sb s
  | .xor sd sa sb => Sys2Proof.Machine.execXor sd sa sb s
  | .shl sd sa sb => Sys2Proof.Machine.execShl sd sa sb s
  | .shr sd sa sb => Sys2Proof.Machine.execShr sd sa sb s
  | .sra sd sa sb => Sys2Proof.Machine.execSra sd sa sb s
  | .min sd sa sb => Sys2Proof.Machine.execMin sd sa sb s
  | .max sd sa sb => Sys2Proof.Machine.execMax sd sa sb s
  | .minn sd sa sb => Sys2Proof.Machine.execMinn sd sa sb s
  | .maxn sd sa sb => Sys2Proof.Machine.execMaxn sd sa sb s
  | .slt sd sa sb => Sys2Proof.Machine.execSlt sd sa sb s
  | .sltn sd sa sb => Sys2Proof.Machine.execSltn sd sa sb s
  | .mul sd sa sb => Sys2Proof.Machine.execMul sd sa sb s
  | .mulh sd sa sb => Sys2Proof.Machine.execMulh sd sa sb s
  | .mulhn sd sa sb => Sys2Proof.Machine.execMulhn sd sa sb s
  | .div sd sa sb => Sys2Proof.Machine.execDiv sd sa sb s
  | .divn sd sa sb => Sys2Proof.Machine.execDivn sd sa sb s
  | .rem sd sa sb => Sys2Proof.Machine.execRem sd sa sb s
  | .remn sd sa sb => Sys2Proof.Machine.execRemn sd sa sb s
  | .csel sd sa sb => Sys2Proof.Machine.execCsel sd sa sb s
  | .addi sd sa imm => Sys2Proof.Machine.execAddi sd sa imm s
  | .andi sd sa imm => Sys2Proof.Machine.execAndi sd sa imm s
  | .ori sd sa imm => Sys2Proof.Machine.execOri sd sa imm s
  | .xori sd sa imm => Sys2Proof.Machine.execXori sd sa imm s
  | .shli sd sa count => Sys2Proof.Machine.execShli sd sa count s
  | .shri sd sa count => Sys2Proof.Machine.execShri sd sa count s
  | .srai sd sa count => Sys2Proof.Machine.execSrai sd sa count s
  | .slti sd sa imm => Sys2Proof.Machine.execSlti sd sa imm s
  | .sltni sd sa imm => Sys2Proof.Machine.execSltni sd sa imm s
  | .lih sd imm => Sys2Proof.Machine.execLih sd imm s
  | .lit sd imm => Sys2Proof.Machine.execLit sd imm s
  | .lds size acq sd sa imm => Sys2Proof.Machine.execLds size acq sd sa imm s
  | .sts size rel sd sa imm => Sys2Proof.Machine.execSts size rel sd sa imm s
  | .satom op scope ar sa sb sc => Sys2Proof.Machine.execSatom op scope ar sa sb sc s
  | .scas scope ar sa sb sc => Sys2Proof.Machine.execScas scope ar sa sb sc s
  | .br cond sa sb offset => Sys2Proof.Machine.execBr cond sa sb offset s
  | .j offset => Sys2Proof.Machine.execJ offset s
  | .jl offset => Sys2Proof.Machine.execJl offset s
  | .jr sd sa => Sys2Proof.Machine.execJr sd sa s
  | .brm kind m offset => Sys2Proof.Machine.execBrm kind m offset s
  | .lx count1 index => Sys2Proof.Machine.execLx count1 index s
  | .lxr sa sb => Sys2Proof.Machine.execLxr sa sb s
  | .setb b sa => Sys2Proof.Machine.execSetb b sa s
  | .mrd sa m => Sys2Proof.Machine.execMrd sa m s
  | .vrd wide sa sb sc => Sys2Proof.Machine.execVrd wide sa sb sc s
  | .mset m sa => Sys2Proof.Machine.execMset m sa s
  | .barArrive cl bar sa sb => Sys2Proof.Machine.execBarArrive cl bar sa sb s
  | .barWait cl bar sb => Sys2Proof.Machine.execBarWait cl bar sb s
  | .barSync cl bar sa sb => Sys2Proof.Machine.execBarSync cl bar sa sb s
  | .barRemote bar sa sb sc => Sys2Proof.Machine.execBarRemote bar sa sb sc s
  | .waitc scope k sa => Sys2Proof.Machine.execWaitc scope k sa s
  | .waitcFe scope sa => Sys2Proof.Machine.execWaitcFe scope sa s
  | .strm q sa => Sys2Proof.Machine.execStrm q sa s
  | .qclr q => Sys2Proof.Machine.execQclr q s
  | .cpy k sa sb start => Sys2Proof.Machine.execCpy k sa sb start s
  | .cpyr k sa sb start => Sys2Proof.Machine.execCpyr k sa sb start s
  | .oclaim count1 sa => Sys2Proof.Machine.execOclaim count1 sa s
  | .orel sa => Sys2Proof.Machine.execOrel sa s
  | .opld kind fe sa sb => Sys2Proof.Machine.execOpld kind fe sa sb s
  | .mma t oA oB sa accumulate seg causal => Sys2Proof.Machine.execMma t oA oB sa accumulate seg causal s
  | .gang sa => Sys2Proof.Machine.execGang sa s
  | .tqpush sa sb sc => Sys2Proof.Machine.execTqpush sa sb sc s
  | .tqpull sa sb sc => Sys2Proof.Machine.execTqpull sa sb sc s
  | .tqjoin sa sc => Sys2Proof.Machine.execTqjoin sa sc s
  | .bkload sa sb => Sys2Proof.Machine.execBkload sa sb s
  | .bkrun sa sb start => Sys2Proof.Machine.execBkrun sa sb start s
  | .bkfence sa sb => Sys2Proof.Machine.execBkfence sa sb s
  | .viewb sa sb sc => Sys2Proof.Machine.execViewb sa sb sc s
  | .viewi k sa sb => Sys2Proof.Machine.execViewi k sa sb s
  | .rminv k sa sb sc => Sys2Proof.Machine.execRminv k sa sb sc s
  | .lnch sa sb sc => Sys2Proof.Machine.execLnch sa sb sc s
  | .vadd o => Sys2Proof.Machine.execVadd o s
  | .vsub o => Sys2Proof.Machine.execVsub o s
  | .vmul o => Sys2Proof.Machine.execVmul o s
  | .vmulh o => Sys2Proof.Machine.execVmulh o s
  | .vmad o => Sys2Proof.Machine.execVmad o s
  | .vdiv o => Sys2Proof.Machine.execVdiv o s
  | .vrem o => Sys2Proof.Machine.execVrem o s
  | .vmin o => Sys2Proof.Machine.execVmin o s
  | .vmax o => Sys2Proof.Machine.execVmax o s
  | .vabs o => Sys2Proof.Machine.execVabs o s
  | .vneg o => Sys2Proof.Machine.execVneg o s
  | .vand o => Sys2Proof.Machine.execVand o s
  | .vor o => Sys2Proof.Machine.execVor o s
  | .vxor o => Sys2Proof.Machine.execVxor o s
  | .vnot o => Sys2Proof.Machine.execVnot o s
  | .vshl o => Sys2Proof.Machine.execVshl o s
  | .vshr o => Sys2Proof.Machine.execVshr o s
  | .vsra o => Sys2Proof.Machine.execVsra o s
  | .vpopc o => Sys2Proof.Machine.execVpopc o s
  | .vclz o => Sys2Proof.Machine.execVclz o s
  | .vbfe o => Sys2Proof.Machine.execVbfe o s
  | .vbfi o => Sys2Proof.Machine.execVbfi o s
  | .vcmp o => Sys2Proof.Machine.execVcmp o s
  | .vsel o => Sys2Proof.Machine.execVsel o s
  | .vmov o => Sys2Proof.Machine.execVmov o s
  | .vimm o => Sys2Proof.Machine.execVimm o s
  | .vlane o => Sys2Proof.Machine.execVlane o s
  | .mand o => Sys2Proof.Machine.execMand o s
  | .mor o => Sys2Proof.Machine.execMor o s
  | .mxor o => Sys2Proof.Machine.execMxor o s
  | .mnot o => Sys2Proof.Machine.execMnot o s
  | .mfirst o => Sys2Proof.Machine.execMfirst o s
  | .mpopc o => Sys2Proof.Machine.execMpopc o s
  | .vshfl o => Sys2Proof.Machine.execVshfl o s
  | .vperm o => Sys2Proof.Machine.execVperm o s
  | .vstep o => Sys2Proof.Machine.execVstep o s
  | .vscan o => Sys2Proof.Machine.execVscan o s
  | .vcomp o => Sys2Proof.Machine.execVcomp o s
  | .viota o => Sys2Proof.Machine.execViota o s
  | .vfadd o => Sys2Proof.Machine.execVfadd o s
  | .vfsub o => Sys2Proof.Machine.execVfsub o s
  | .vfmul o => Sys2Proof.Machine.execVfmul o s
  | .vfma o => Sys2Proof.Machine.execVfma o s
  | .vfmin o => Sys2Proof.Machine.execVfmin o s
  | .vfmax o => Sys2Proof.Machine.execVfmax o s
  | .vfabs o => Sys2Proof.Machine.execVfabs o s
  | .vfneg o => Sys2Proof.Machine.execVfneg o s
  | .vfdiv o => Sys2Proof.Machine.execVfdiv o s
  | .vfsqrt o => Sys2Proof.Machine.execVfsqrt o s
  | .vfrcp o => Sys2Proof.Machine.execVfrcp o s
  | .vfrsq o => Sys2Proof.Machine.execVfrsq o s
  | .vfex2 o => Sys2Proof.Machine.execVfex2 o s
  | .vflg2 o => Sys2Proof.Machine.execVflg2 o s
  | .vfsin o => Sys2Proof.Machine.execVfsin o s
  | .vfcos o => Sys2Proof.Machine.execVfcos o s
  | .vfcls o => Sys2Proof.Machine.execVfcls o s
  | .vcvt o => Sys2Proof.Machine.execVcvt o s
  | .vpack o => Sys2Proof.Machine.execVpack o s
  | .vunpk o => Sys2Proof.Machine.execVunpk o s
  | .vqmx o => Sys2Proof.Machine.execVqmx o s
  | .vqaq o => Sys2Proof.Machine.execVqaq o s
  | .vdq o => Sys2Proof.Machine.execVdq o s
  | .xclr o => Sys2Proof.Machine.execXclr o s
  | .xadd o => Sys2Proof.Machine.execXadd o s
  | .xsub o => Sys2Proof.Machine.execXsub o s
  | .xrnd o => Sys2Proof.Machine.execXrnd o s
  | .xst o => Sys2Proof.Machine.execXst o s
  | .xlda o => Sys2Proof.Machine.execXlda o s
  | .vld o => Sys2Proof.Machine.execVld o s
  | .vst o => Sys2Proof.Machine.execVst o s
  | .vpref o => Sys2Proof.Machine.execVpref o s
  | .vatom o => Sys2Proof.Machine.execVatom o s
  | .vcas o => Sys2Proof.Machine.execVcas o s
  | .vred o => Sys2Proof.Machine.execVred o s
  | .acrd o => Sys2Proof.Machine.execAcrd o s
  | .acwr o => Sys2Proof.Machine.execAcwr o s
  | .acscl o => Sys2Proof.Machine.execAcscl o s
  | .acmax o => Sys2Proof.Machine.execAcmax o s
  | .acexp o => Sys2Proof.Machine.execAcexp o s
  | .setbEntry => Sys2Proof.Machine.execSetbEntry s
  | .msetEntry => Sys2Proof.Machine.execMsetEntry s
  | .openEntry => Sys2Proof.Machine.execOpenEntry s
  | .closeEntry => Sys2Proof.Machine.execCloseEntry s
  | .laneQueueRoom wg g split => Sys2Proof.Machine.execLaneQueueRoom wg g split s
  | .fusionHoldRelease wg g split => Sys2Proof.Machine.execFusionHoldRelease wg g split s
  | .barrierWake wg g split => Sys2Proof.Machine.execBarrierWake wg g split s
  | .waitcWake wg g split => Sys2Proof.Machine.execWaitcWake wg g split s
  | .feLanePerform wg g lane => Sys2Proof.Machine.execFeLanePerform wg g lane s
  | .tqpullRemove wg g split => Sys2Proof.Machine.execTqpullRemove wg g split s
  | .oclaimGrant core => Sys2Proof.Machine.execOclaimGrant core s
  | .acsclWaitEnd wg g => Sys2Proof.Machine.execAcsclWaitEnd wg g s
  | .operandLoadComplete core slot segment => Sys2Proof.Machine.execOperandLoadComplete core slot segment s
  | .mmaExecute wg seqNo => Sys2Proof.Machine.execMmaExecute wg seqNo s
  | .slotFree core slot => Sys2Proof.Machine.execSlotFree core slot s
  | .collectiveStart cmd => Sys2Proof.Machine.execCollectiveStart cmd s
  | .copyComplete cmd => Sys2Proof.Machine.execCopyComplete cmd s
  | .copyCut cmd chunks => Sys2Proof.Machine.execCopyCut cmd chunks s
  | .streamComplete cmd => Sys2Proof.Machine.execStreamComplete cmd s
  | .bkloadExecute pc => Sys2Proof.Machine.execBkloadExecute pc s
  | .bkrunExecute pc => Sys2Proof.Machine.execBkrunExecute pc s
  | .runComplete id => Sys2Proof.Machine.execRunComplete id s
  | .bkfenceAct pc => Sys2Proof.Machine.execBkfenceAct pc s
  | .illegalEncoding lane => Sys2Proof.Machine.execIllegalEncoding lane s
  | .bnop => Sys2Proof.Machine.execBnop s
  | .bact range inc => Sys2Proof.Machine.execBact range inc s
  | .bpre => Sys2Proof.Machine.execBpre s
  | .bmac j fmt incC incX => Sys2Proof.Machine.execBmac j fmt incC incX s
  | .bzero mask => Sys2Proof.Machine.execBzero mask s
  | .bscl j factor => Sys2Proof.Machine.execBscl j factor s
  | .bwra j => Sys2Proof.Machine.execBwra j s
  | .bwrb col => Sys2Proof.Machine.execBwrb col s
  | .bloop count => Sys2Proof.Machine.execBloop count s
  | .bend => Sys2Proof.Machine.execBend s
  | .bstop => Sys2Proof.Machine.execBstop s
  | .bxld first chunks1 => Sys2Proof.Machine.execBxld first chunks1 s
  | .viewiComplete cmd => Sys2Proof.Machine.execViewiComplete cmd s
  | .rminvComplete cmd => Sys2Proof.Machine.execRminvComplete cmd s
  | .pageInComplete reach ix => Sys2Proof.Machine.execPageInComplete reach ix s
  | .placement => Sys2Proof.Machine.execPlacement s
  | .preemption wg => Sys2Proof.Machine.execPreemption wg s
  | .depEvaluation launch => Sys2Proof.Machine.execDepEvaluation launch s
  | .period => Sys2Proof.Machine.execPeriod s
  | .budget region which => Sys2Proof.Machine.execBudget region which s
  | .watchdog ctx => Sys2Proof.Machine.execWatchdog ctx s
  | .heldTrapRecord ix => Sys2Proof.Machine.execHeldTrapRecord ix s
  | .poisonConsumed wg g split => Sys2Proof.Machine.execPoisonConsumed wg g split s
  | .eddyRecheck core quarter ix mismatch => Sys2Proof.Machine.execEddyRecheck core quarter ix mismatch s
  | .patrol => Sys2Proof.Machine.execPatrol s
  | .scan reach => Sys2Proof.Machine.execScan reach s
  | .scanResult core passed => Sys2Proof.Machine.execScanResult core passed s
  | .fabLoad h n => Sys2Proof.Machine.execFabLoad h n s
  | .fabStore h bytes => Sys2Proof.Machine.execFabStore h bytes s
  | .fabAtom h op operand => Sys2Proof.Machine.execFabAtom h op operand s
  | .fabCas h size expected replacement => Sys2Proof.Machine.execFabCas h size expected replacement s
  | .fabRed h op operand => Sys2Proof.Machine.execFabRed h op operand s
  | .fabVload h elems => Sys2Proof.Machine.execFabVload h elems s
  | .fabVstore h elems => Sys2Proof.Machine.execFabVstore h elems s
  | .fabVatomic h elems op => Sys2Proof.Machine.execFabVatomic h elems op s
  | .fabDoor h bytes => Sys2Proof.Machine.execFabDoor h bytes s
  | .fabBank h kind record payload => Sys2Proof.Machine.execFabBank h kind record payload s
  | .fabPush h item => Sys2Proof.Machine.execFabPush h item s
  | .fabRchunk h chunk => Sys2Proof.Machine.execFabRchunk h chunk s
  | .fabProbe h => Sys2Proof.Machine.execFabProbe h s
  | .fabAck h => Sys2Proof.Machine.execFabAck h s
  | .fabClose h => Sys2Proof.Machine.execFabClose h s
  | .unknownKind h kind => Sys2Proof.Machine.execUnknownKind h kind s
  | .response r => Sys2Proof.Machine.execResponse r s
  | .retransmit op => Sys2Proof.Machine.execRetransmit op s
  | .giveUp op => Sys2Proof.Machine.execGiveUp op s
  | .waitbusy op => Sys2Proof.Machine.execWaitbusy op s
  | .ackTimer stream => Sys2Proof.Machine.execAckTimer stream s
  | .streamEntryFree ix => Sys2Proof.Machine.execStreamEntryFree ix s
  | .savedRetransmit op => Sys2Proof.Machine.execSavedRetransmit op s
  | .register ring => Sys2Proof.Machine.execRegister ring s
  | .destroy ring => Sys2Proof.Machine.execDestroy ring s
  | .launch ring => Sys2Proof.Machine.execLaunch ring s
  | .dispose ring => Sys2Proof.Machine.execDispose ring s
  | .invalidate ring => Sys2Proof.Machine.execInvalidate ring s
  | .switchOut ring => Sys2Proof.Machine.execSwitchOut ring s
  | .resume ring => Sys2Proof.Machine.execResume ring s
  | .rmset ring => Sys2Proof.Machine.execRmset ring s
  | .frames ring => Sys2Proof.Machine.execFrames ring s
  | .viewset ring => Sys2Proof.Machine.execViewset ring s
  | .grant ring => Sys2Proof.Machine.execGrant ring s
  | .revoke ring => Sys2Proof.Machine.execRevoke ring s
  | .bindDoor ring => Sys2Proof.Machine.execBindDoor ring s
  | .config ring => Sys2Proof.Machine.execConfig ring s
  | .attest ring => Sys2Proof.Machine.execAttest ring s
  | .warmReset ring => Sys2Proof.Machine.execWarmReset ring s
  | .hostRminv ring => Sys2Proof.Machine.execHostRminv ring s
  | .hostViewi ring => Sys2Proof.Machine.execHostViewi ring s
  | .cmdtail v => Sys2Proof.Machine.execCmdtail v s
  | .evread v => Sys2Proof.Machine.execEvread v s
  | .incarn v => Sys2Proof.Machine.execIncarn v s
  | .registerWrite offset size value => Sys2Proof.Machine.execRegisterWrite offset size value s
  | .hostAccess port target op => Sys2Proof.Machine.execHostAccess port target op s
  | .snoop port hpa invalidating => Sys2Proof.Machine.execSnoop port hpa invalidating s
  | .linkUp port mode => Sys2Proof.Machine.execLinkUp port mode s
  | .coldReset => Sys2Proof.Machine.execColdReset s
  | .functionLevelReset => Sys2Proof.Machine.execFunctionLevelReset s
  | .boot outcome => Sys2Proof.Machine.execBoot outcome s
  | .replicaApply seqReach replica => Sys2Proof.Machine.execReplicaApply seqReach replica s
  | .lifetimeExpiry flit => Sys2Proof.Machine.execLifetimeExpiry flit s
  | .crcFailedFlit port => Sys2Proof.Machine.execCrcFailedFlit port s
  | .msiXSignal port vector => Sys2Proof.Machine.execMsiXSignal port vector s
  | .softError err => Sys2Proof.Machine.execSoftError err s
  | .junctionTemperatureLimit settings => Sys2Proof.Machine.execJunctionTemperatureLimit settings s

end Sys2Proof.Machine
end

