-- ==== Sys2Proof/Machine/Step.lean ====
section
/-! DEFINITION. One step of the machine: the agenda's next move (log 1). -/

namespace Sys2Proof.Machine

/-- An instruction of a group executes and its group settles (R170, R357). -/
def runGroup (r : Issued) : Host.Outcome State Fault Refusal :=
  match r with
  | .done s => .next s
  | .run s i =>
    match exec i s with
    | .next t => .next t.settleCur
    | o => o

/-- A bank micro-operation executes. -/
def runBank (r : Issued) : Host.Outcome State Fault Refusal :=
  match r with
  | .done s => .next s
  | .run s i => exec i s

/-- What a move does. -/
def stepMove (s : State) (m : Move) : Host.Outcome State Fault Refusal :=
  match m with
  | .issue c q =>
    if c < Config.cores ∧ q < Config.quartersPerCore then runGroup (s.issueScalar c q) else .fault .noSuchAgent
  | .laneIssue c q =>
    if c < Config.cores ∧ q < Config.quartersPerCore then runGroup (s.issueLane c q) else .fault .noSuchAgent
  | .bankStep p => if p < Config.pseudoChannels then runBank (s.issueBank p) else .fault .noSuchAgent
  | .event i => if isEvent i then exec i s else .fault .noSuchAgent
  | m => .next (s.applyMove m)

/-- One step: the next move, unless a spent hbm limit holds it (R399). -/
def step (s : State) : Host.Outcome State Fault Refusal :=
  match s.nextMove with
  | (s, m) => match stepMove s m with
    | .next t => .next (s.throttle t)
    | o => o

/-- The machine with one instruction word placed where its next step fetches it (log 4). -/
def State.withFetchWord (s : State) (nbits w : Nat) : State := s.placeWord nbits w

end Sys2Proof.Machine
end

