-- ==== Sys2Proof/Safety.lean ====
section
/-! DEFINITION. The terms in which claims are stated: canonical memories, safe steps, the split and the group that execute,
what a scalar or a lane instruction leaves behind, and which bytes a store changes. -/

namespace Sys2Proof

open Machine

/-- The vault and the lane-private blocks of a workgroup are canonical. -/
def Machine.Wg.memoryOk (x : Wg) : Bool := x.vault.wf && x.groups.all fun g => g.priv.wf

/-- Every memory of the machine is canonical: HBM, CC pages, host memory, vaults, lane-private blocks. -/
def Machine.State.memoryOk (s : State) : Bool := s.mem.wf && s.cc.wf && s.host.wf && s.wgs.all Wg.memoryOk

/-- A step is safe when it neither faults nor is refused. -/
def stepSafe (s : State) : Prop := ∃ t, step s = .next t

/-- n steps are safe, one after another. -/
def runSafe : Nat → State → Prop
  | 0, _ => True
  | n + 1, s => ∃ t, step s = .next t ∧ runSafe n t

namespace Machine

/-! Who executes. -/

/-- The split x of group g executes. -/
def Runs (s : State) (g : Group) (x : Split) : Prop := s.curGroup = some g ∧ g.split s.cur.split = some x

/-- A scalar register as the split x of group g reads it: s0 is zero, s48 to s63 are the split's (R19). -/
def scalarReg (g : Group) (x : Split) (r : SReg) : Word :=
  if r = 0 then 0 else if r.toNat < 48 then getVec g.s r.toNat 0 else getVec x.regs (r.toNat - 48) 0

/-- The group after entry k wrote v to a scalar register: s0 discards it (R19), and the register's poison ends (R386). -/
def Group.wrote (g : Group) (k : SplitIx) (r : SReg) (v : Word) : Group :=
  if r = 0 then g
  else
    let h : Group := { g with poison := g.poison.filter fun p => p != .s r.toNat }
    if r.toNat < 48 then { h with s := modVec (fun _ => v) h.s r.toNat }
    else h.modSplit k fun x => { x with regs := modVec (fun _ => v) x.regs (r.toNat - 48) }

/-- The group after entry k went to an address, where it makes its block entry (R169). -/
def Group.went (g : Group) (k : SplitIx) (pc : Word) : Group :=
  (g.modSplit k fun x => { x with pc := pc, status := .ready, stalled := false, syncToken := none, lnch := none }).arrive k

/-- The state with the executing group replaced. -/
def State.putGroup (s : State) (g : Group) : State := s.modCurGroup fun _ => g

/-- The state after the split x of g wrote v to sd and advanced: nothing but its group differs. -/
def State.resulted (s : State) (g : Group) (x : Split) (sd : SReg) (v : Word) : State :=
  s.putGroup ((g.wrote s.cur.split sd v).went s.cur.split (x.pc + 4))

/-- The state after the split x of g went to an address: nothing but its group differs. -/
def State.jumped (s : State) (g : Group) (pc : Word) : State := s.putGroup (g.went s.cur.split pc)

/-- The start of the 64-byte block that holds an address (R110). -/
def blockStart (pc : Word) : Word := BitVec.ofNat 64 (pc.toNat / 64 * 64)

/-! Memory, byte by byte and nibble by nibble. -/

/-- Every byte of memory reads as before, from caches and past them, for every agent. -/
def MemorySame (s t : State) : Prop := ∀ ag fresh p, t.readPlace ag fresh p = s.readPlace ag fresh p

/-- A place whose byte is its own: HBM, vault, lane-private, host memory, or a CC byte that no unpublished bank-unit write
covers (R253). It exists. -/
def State.ownPlace (s : State) : Place → Prop
  | .hbm _ | .host _ _ => True
  | .vault w _ => (s.wg? w).isSome
  | .priv w g _ => (s.group? w g).isSome
  | .cc key => s.hiddenByte key = none
  | .repl _ | .peer _ _ | .null => False

/-- References to such places; a null element reads zero and writes nothing (R224, R227). -/
def State.ownRef (s : State) : ByteRef → Prop
  | .whole p => s.ownPlace p ∨ p = .null
  | .nibs lo _ hi _ => (s.ownPlace lo ∨ lo = .null) ∧ (s.ownPlace hi ∨ hi = .null)

/-- Two places that name one byte: host memory is one whichever port it is reached through. -/
def sameByte : Place → Place → Bool
  | .host _ a, .host _ b => a == b
  | p, q => p == q

/-- The nibble of a place. -/
def State.nibbleAt (s : State) (ag : Agent) (p : Place) (high : Bool) : Nat := nibble (s.readPlace ag true p) high

/-- The nibbles that a store of one byte at a reference writes, in order: place, which nibble, value (R222). -/
def refNibbles (r : ByteRef) (b : Byte) : List (Place × Bool × Nat) :=
  match r with
  | .whole p => [(p, false, b.toNat % 16), (p, true, b.toNat / 16)]
  | .nibs lo lh hi hh => [(lo, lh, b.toNat % 16), (hi, hh, b.toNat / 16)]

/-- The nibbles that a store of bytes at references writes. -/
def storeNibbles (rs : List ByteRef) (bs : List Byte) : List (Place × Bool × Nat) :=
  (rs.zip bs).flatMap fun x => refNibbles x.1 x.2

/-- The value last written to a nibble by a list of nibble writes, if any. -/
def lastNibble (ws : List (Place × Bool × Nat)) (p : Place) (high : Bool) : Option Nat :=
  ((ws.filter fun w => sameByte w.1 p && w.2.1 == high).getLast?).map fun w => w.2.2

/-- From s to t exactly the nibbles of ws were written, the last write of each staying: every other nibble of every place
reads as before. -/
def Written (s t : State) (ws : List (Place × Bool × Nat)) : Prop :=
  ∀ ag p high, s.ownPlace p → t.nibbleAt ag p high = (lastNibble ws p high).getD (s.nibbleAt ag p high)

/-- Every byte of memory reads as before past L1. -/
def HomeSame (s t : State) : Prop := ∀ ag p, t.readPlace ag true p = s.readPlace ag true p

/-- Every replica has applied every ordered write (R405). -/
def ReplicasCurrent (s : State) : Prop :=
  ∀ q r, q < 4 → r < 4 → (s.reach q).replLog.length ≤ getVec (s.reach q).replApplied r 0

/-- A release by the executing core has no replica to wait for. -/
def Drained (s : State) : Prop := s.curCore < Config.cores ∧ ReplicasCurrent s

/-- What accesses leave beside bytes: s with the caches of t, and the bytes its regions have been charged (R214 to R217, R399). -/
def State.cachesOf (s t : State) : State :=
  { s with
    cores := Vector.ofFn fun i =>
      let c := t.cores[i]
      { s.cores[i] with l1 := c.l1, scalarCode := c.scalarCode, laneCode := c.laneCode }
    reaches := Vector.ofFn fun i => { s.reaches[i] with l2 := t.reaches[i].l2 }
    regions := s.regions.zipIdx.map fun r =>
      let n := (t.regions[r.2]?).getD r.1
      { r.1 with hbmUsed := n.hbmUsed, fabricUsed := n.fabricUsed, throttledNow := n.throttledNow }
    hostif := { s.hostif with lines := t.hostif.lines } }

/-- Before an access of the executing split at va resolves, the view unit has read what it needs, which leaves u (R219, R224, R226);
the access does not await a peer from before. An access outside the view aperture needs nothing: u is s. -/
def State.prepared (s u : State) (acc : Acc) (va : Nat) : Prop := s.lookHeld va = none ∧ s.viewReady s.agent acc va = (u, true)

/-- An access of the executing split resolves to its own, unpoisoned bytes, and no tier accounting is on (R436). -/
def State.local (s u : State) (acc : Acc) (va : Nat) (r : Resolved) : Prop :=
  s.prepared u acc va ∧ u.resolve u.agent acc va = ⟨.ok r, none⟩ ∧ r.refs.length = acc.n ∧
    (∀ b ∈ r.refs, u.ownRef b ∧ u.refPoisoned b = false) ∧ u.hostif.params.tierHot = 0

/-- An access of the executing split meets a condition other than poison. -/
def State.meets (s u : State) (acc : Acc) (va : Nat) (c : Cond) : Prop :=
  s.prepared u acc va ∧ u.resolve u.agent acc va = ⟨.error c, none⟩ ∧ c.cls ≠ .poison

/-- The view unit reads what accesses of an agent at some addresses need, one after another, which leaves t. -/
def State.viewsReady (ag : Agent) (acc : Acc) : State → List Nat → State → Prop
  | s, [], t => t = s
  | s, va :: vas, t => ∃ u, s.viewReady ag acc va = (u, true) ∧ State.viewsReady ag acc u vas t

/-- The elements of a read stream for some lanes, in lane order: as read ahead, else read now, from the bytes of the group's own memory;
what is delivered, and the state that this leaves (R289). hint and past say how the reads use the caches. -/
def State.pops (x : Stream) (hint : Nat) (past : Bool) : State → List Nat → List (Nat × List Byte) → State → Prop
  | s, [], got, t => got = [] ∧ t = s
  | s, l :: ls, got, t =>
    ∃ b rest, got = (l, b) :: rest ∧
      match x.ahead.find? fun a => a.1 == x.p + l with
      | some a => b = a.2 ∧ State.pops x hint past s ls rest t
      | none =>
        let ag := s.streamAgent x
        let acc := Acc.load (strmWidth x.record / 8)
        ∃ u r, s.viewReady ag acc (strmAddr x.record (x.p + l)) = (u, true) ∧
          u.resolve ag acc (strmAddr x.record (x.p + l)) = ⟨.ok r, none⟩ ∧ r.refs.length = acc.n ∧
          (∀ y ∈ r.refs, u.ownRef y ∧ u.refPoisoned y = false) ∧ u.hostif.params.tierHot = 0 ∧
          b = u.readRefs ag past r.refs ∧ State.pops x hint past (u.served ag hint past r.refs) ls rest t

/-- The sources of some offers of a running copy, one after another, from its groups' own memory or its fill: the bytes read, and the state
that this leaves (R293, R297). -/
def State.sources (r : CmdRef) (xs : List Slice) : State → List CopyOffer → List (List Byte) → State → Prop
  | s, [], got, t => got = [] ∧ t = s
  | s, o :: os, got, t =>
    ∃ b rest, got = b :: rest ∧
      match o.src with
      | none => b = bytesOfNat (slEsize (sliceRecord xs o.slice)) (slFill (sliceRecord xs o.slice)) ∧ State.sources r xs s os rest t
      | some va =>
        let ag := s.copyAgent r o.group
        let acc := Acc.load (slEsize (sliceRecord xs o.slice))
        ∃ u q, s.viewReady ag acc va = (u, true) ∧ u.resolve ag acc va = ⟨.ok q, none⟩ ∧ q.refs.length = acc.n ∧
          (∀ y ∈ q.refs, u.ownRef y ∧ u.refPoisoned y = false) ∧ u.hostif.params.tierHot = 0 ∧ b = u.readRefs ag true q.refs ∧
          State.sources r xs (u.served ag (slHint (sliceRecord xs o.slice)) true q.refs) os rest t

/-! Lane instructions. -/

/-- The lane instruction i is at the head of the executing group's queue, tagged, legal, its registers allocated, no
register poisoned, and a split of the group is live. -/
structure LaneRuns (s : State) (i : Instr) (regs : List Nat) (g : Group) (e : LaneEntry) (rest : List LaneEntry) : Prop where
  group : s.curGroup = some g
  queue : g.laneQ = e :: rest
  legal : i.wf = true
  allocated : ∀ r ∈ regs, r < g.nregs
  clean : g.poison = []
  live : ∃ k ∈ splitIxs, (g.split k).isSome

/-- The active lanes of an instruction under a tag (R29, R72). -/
def activeLanes (g : Group) (tag : LaneMask) (x : Guard) (l : Nat) : Bool :=
  let a := ((getVec g.m x.a.mask.toNat 0).getLsbD l) != x.a.negate
  let b := ((getVec g.m x.b.mask.toNat 0).getLsbD l) != x.b.negate
  tag.getLsbD l && (match x.combine with | .aOnly => a | .and => a && b | .or => a || b | .xor => a != b)

/-- A source position of w bits that is no operand queue, in a lane (R75, R126). -/
def laneSource (g : Group) (ty : ElemTy) (w : Nat) (o : Operand) (l : Nat) : Nat :=
  match o with
  | .v r => g.elemNat w r.toNat l
  | .b r => (getVec g.b r.toNat 0).toNat % 2 ^ w
  | .imm n => immValue ty w n
  | _ => 0

/-- Bit l of the mask an operand names. -/
def laneMaskBit (g : Group) (o : Operand) (l : Nat) : Bool :=
  match o with
  | .m r => (getVec g.m r.toNat 0).getLsbD l
  | _ => false

/-- What a lane instruction delivers: per register and lane, per mask and lane, the exact accumulator, its queues, its flags. -/
structure Delivery where
  elem : Nat → Nat → Option Elem := fun _ _ => none
  mask : Nat → Nat → Option Bool := fun _ _ => none
  x : Option XAcc := none
  q : Option (Vector (Option Stream) 8) := none
  produced : List Behind := []
  flags : Nat := 0

/-- The registers that a w-bit result of a type leaves in one lane of operand o: sign-extended to 32 bits for i8 and i16,
zero-extended else; a 64-bit one takes the pair (R126). -/
def elemResult (ty : ElemTy) (w : Nat) (o : Operand) (v : Nat) (r : Nat) : Option Elem :=
  match o with
  | .v d =>
    if w = 64 then
      if r = d.toNat then some (BitVec.ofNat 32 v) else if r = d.toNat + 1 then some (BitVec.ofNat 32 (v / 2 ^ 32)) else none
    else if r = d.toNat then
      some (if w = tyBits ty ∧ (ty = .i8 ∨ ty = .i16) then BitVec.ofInt 32 (signed w v) else BitVec.ofNat 32 (v % 2 ^ w))
    else none
  | _ => none

/-- The mask bit that a mask destination receives; m0 never changes (R20). -/
def maskResult (o : Operand) (b : Bool) (r : Nat) : Option Bool :=
  match o with
  | .m d => if d ≠ 0 ∧ r = d.toNat then some b else none
  | _ => none

/-- The full bits and the accumulator tiles of every workgroup are as before. -/
def SideSame (s t : State) : Prop :=
  ∀ w, (t.wg? w).map (fun x => (x.full, x.engineFull, x.tiles)) = (s.wg? w).map fun x => (x.full, x.engineFull, x.tiles)

/-- A workgroup but for its vault bytes and their full bits. -/
def Wg.noVault (x : Wg) : Wg := { x with vault := [], full := [], engineFull := [], poisonVault := [] }

/-- A workgroup but for its groups, its vault and its tiles. -/
def Wg.frame (x : Wg) : Wg := { x with groups := [], vault := [], full := [], engineFull := [], poisonVault := [], tiles := [] }

/-- A context but for what the watchdog notes of it (R382). -/
def Ctx.frame (c : Ctx) : Ctx := { c with lastProgress := 0, quietPosted := false }

/-- What lane work leaves alone outside its group, memory apart: the tables of the device, what workgroups share but for vaults
and tiles, the rows of bank units, host registers, and the registers of every other group. -/
def ElsewhereSame (s t : State) : Prop :=
  t.cur = s.cur ∧ t.contexts.map Ctx.frame = s.contexts.map Ctx.frame ∧ t.regions = s.regions ∧ t.launches = s.launches ∧
    t.pending = s.pending ∧ t.pcs = s.pcs ∧ t.reaches = s.reaches ∧ { t.hostif with lines := [] } = { s.hostif with lines := [] } ∧
    t.wgs.map Wg.frame = s.wgs.map Wg.frame ∧ (∀ c, { t.core c with eddy := (s.core c).eddy } = s.core c) ∧
    ∀ w g, (w, g) ≠ (s.cur.wg, s.cur.g) →
      (t.group? w g).map (fun h => { h with priv := [] }) = (s.group? w g).map fun h => { h with priv := [] }

/-- A split as lane work leaves it: only its status may change, when it looks again (R100). -/
def splitFacts (x : Split) : Word × LaneMask × Vector Word 16 × Option RegionState := (x.pc, x.mask, x.regs, x.region)

/-- The lane instruction i has retired from s to t: the active lanes have received its delivery, sticky flags are ORed in
unless no lane is active (R23, R29), SEED is one more if it rounds under SR (R50), the queue has lost its head, and all else
of the group is unchanged. -/
structure Retired (s t : State) (i : Instr) (g : Group) (rest : List LaneEntry) (act : Nat → Bool) (d : Delivery) : Prop where
  elsewhere : ElsewhereSame s t
  group : ∃ h, t.curGroup = some h ∧
    (∀ r l, r < 256 → l < 64 → h.elem r l = if act l then (d.elem r l).getD (g.elem r l) else g.elem r l) ∧
    (∀ m l, m < 16 → l < 64 → (getVec h.m m 0).getLsbD l =
      if act l then (d.mask m l).getD ((getVec g.m m 0).getLsbD l) else (getVec g.m m 0).getLsbD l) ∧
    h.x = d.x.getD g.x ∧
    h.flags = g.flags ||| BitVec.ofNat 64 (if (List.range 64).any act then d.flags else 0) ∧
    h.seed = (if roundsSr (laneRnd i) h.flags then g.seed + 1 else g.seed) ∧
    h.laneQ = rest ∧ h.head = Head.empty ∧
    h.s = g.s ∧ h.b = g.b ∧ h.nregs = g.nregs ∧ h.gang = g.gang ∧ h.gangCount = g.gangCount ∧
    h.overflow = g.overflow ∧ h.q = d.q.getD g.q ∧ h.behind = g.behind ++ d.produced ∧ h.poison = [] ∧ h.retired = g.retired ∧ ∀ k, (h.split k).map splitFacts = (g.split k).map splitFacts

/-! What the scalar instructions compute, written from their rules over unbounded integers. -/

/-- The register results of R101 to R103: destination and value, given the reading of registers and the PC. -/
def scalarResult (rd : SReg → Word) (pc : Word) : Instr → Option (SReg × Int)
  | .add d a b => some (d, (rd a).toNat + (rd b).toNat)
  | .sub d a b => some (d, (rd a).toNat - (rd b).toNat)
  | .and d a b => some (d, ((rd a).toNat &&& (rd b).toNat : Nat))
  | .or d a b => some (d, ((rd a).toNat ||| (rd b).toNat : Nat))
  | .xor d a b => some (d, ((rd a).toNat ^^^ (rd b).toNat : Nat))
  | .shl d a b => some (d, (rd a).toNat * 2 ^ ((rd b).toNat % 64))
  | .shr d a b => some (d, ((rd a).toNat / 2 ^ ((rd b).toNat % 64) : Nat))
  | .sra d a b => some (d, (rd a).toInt / 2 ^ ((rd b).toNat % 64))
  | .min d a b => some (d, min (rd a).toInt (rd b).toInt)
  | .max d a b => some (d, max (rd a).toInt (rd b).toInt)
  | .minn d a b => some (d, (min (rd a).toNat (rd b).toNat : Nat))
  | .maxn d a b => some (d, (max (rd a).toNat (rd b).toNat : Nat))
  | .slt d a b => some (d, if (rd a).toInt < (rd b).toInt then 1 else 0)
  | .sltn d a b => some (d, if (rd a).toNat < (rd b).toNat then 1 else 0)
  | .mul d a b => some (d, (rd a).toNat * (rd b).toNat)
  | .mulh d a b => some (d, (rd a).toInt * (rd b).toInt / 2 ^ 64)
  | .mulhn d a b => some (d, ((rd a).toNat * (rd b).toNat / 2 ^ 64 : Nat))
  | .div d a b => some (d, if rd b = 0 then 2 ^ 64 - 1 else (rd a).toInt.tdiv (rd b).toInt)
  | .divn d a b => some (d, if rd b = 0 then 2 ^ 64 - 1 else ((rd a).toNat / (rd b).toNat : Nat))
  | .rem d a b => some (d, if rd b = 0 then (rd a).toInt else (rd a).toInt.tmod (rd b).toInt)
  | .remn d a b => some (d, if rd b = 0 then (rd a).toNat else ((rd a).toNat % (rd b).toNat : Nat))
  | .csel d a b => some (d, if rd d ≠ 0 then (rd a).toNat else (rd b).toNat)
  | .addi d a n => some (d, (rd a).toInt + n.toInt)
  | .andi d a n => some (d, ((rd a).toNat &&& (n.signExtend 64).toNat : Nat))
  | .ori d a n => some (d, ((rd a).toNat ||| (n.signExtend 64).toNat : Nat))
  | .xori d a n => some (d, ((rd a).toNat ^^^ (n.signExtend 64).toNat : Nat))
  | .shli d a n => some (d, (rd a).toNat * 2 ^ n.toNat)
  | .shri d a n => some (d, ((rd a).toNat / 2 ^ n.toNat : Nat))
  | .srai d a n => some (d, (rd a).toInt / 2 ^ n.toNat)
  | .slti d a n => some (d, if (rd a).toInt < n.toInt then 1 else 0)
  | .sltni d a n => some (d, if (rd a).toNat < (n.signExtend 64).toNat then 1 else 0)
  | .lih d n => some (d, n.toInt * 2 ^ 12)
  | .lit d n => some (d, n.toNat * 2 ^ 44 + (rd d).toNat % 2 ^ 44)
  | .addpc d n => some (d, (blockStart pc).toNat + n.toInt * 64)
  | _ => none

/-- The comparison of BR (R109). -/
def comparison (c : BrCond) (a b : Word) : Bool :=
  match c with
  | .eq => a = b
  | .ne => a ≠ b
  | .lt => a.toInt < b.toInt
  | .ge => b.toInt ≤ a.toInt
  | .ltn => a.toNat < b.toNat
  | .gen => b.toNat ≤ a.toNat

/-- The target of a direct branch: this block's start plus a number of blocks (R68). -/
def branchTarget {n : Nat} (pc : Word) (offset : BitVec n) : Word := BitVec.ofInt 64 ((blockStart pc).toNat + offset.toInt * 64)

/-! Stalls, traps, orders. -/

/-- The executing split stalls with none of its instruction's effect (R100): it waits and will execute in full again. -/
def Stalled (s t : State) (g : Group) : Prop :=
  t.curGroup = some (g.modSplit s.cur.split fun x => { x with status := .waiting .retry, stalled := true }) ∧ MemorySame s t

/-- The trap record of the executing split (R362): class, the flags W, F, M as bits 4 to 6 of the origin byte, the address and
the detail. -/
def scalarRecord (s : State) (x : Split) (cls flags addr detail : Nat) : Pending :=
  let ctx := s.curCtx
  { origin := .scalar s.cur.wg s.cur.g s.cur.split, ctx := ctx
    queue := s.trapQueueOf ctx (((s.launchOf s.cur.wg).map (·.region)).getD 0), reach := reachOfCore s.curCore
    record := trapBytes cls (4 * (s.cur.split % 4) + flags) (s.cur.g % 32 + s.curCore % 256 * 32) ctx.toNat
      (((s.wg? s.cur.wg).map (·.j)).getD 0) 0 x.pc.toNat addr 0 0 detail
    seq := none }

/-- From u, where the trap has stopped its split or its lane stream, the record p is written to its queue, or held behind an
earlier held record of its reach or a full queue; a queue that cannot be used kills the fault domain (R363). -/
def Posted (u t : State) (p : Pending) : Prop :=
  if u.pending.any fun q => q.seq.isNone && q.reach == p.reach then t = { u with pending := u.pending ++ [p] }
  else match u.tryRecord p with
    | .full => t = { u with pending := u.pending ++ [p] }
    | .done v seq => t = { v with pending := v.pending ++ [{ p with seq := some seq }] }
    | .bad => t = u.killDomain p.ctx (u.domainOf p.ctx (((u.launchOf u.cur.wg).map (·.region)).getD 0))

/-- The executing split took a trap (R99, R356): it is parked at its PC, and the record is posted. -/
def TrapTaken (s t : State) (g : Group) (p : Pending) : Prop := Posted (s.putGroup (g.modSplit s.cur.split Split.park)) t p

/-- An instruction traps. -/
def Traps (i : Instr) (s : State) (g : Group) (p : Pending) : Prop := ∃ t, exec i s = .next t ∧ TrapTaken s t g p

/-- The index that a record names for the queue entry at the head: a lane word's, else 0 (R29, R362). -/
def LaneEntry.index (e : LaneEntry) : Nat :=
  match e.item with
  | .word _ n => n.toNat
  | _ => 0

/-- The trap record of the instruction at the head of the executing group's queue (R362): it names the lowest split that shares
a lane with the tag, the lanes that met the condition, and those that had performed. -/
def laneRecord (s : State) (g : Group) (e : LaneEntry) (cls flags addr detail : Nat) (fault performed : LaneMask) : Pending :=
  let ctx := s.curCtx
  let split := (splitIxs.find? fun k => (g.split k).any fun y => y.mask &&& e.tag != 0).getD 0
  { origin := .lane s.cur.wg s.cur.g, ctx := ctx
    queue := s.trapQueueOf ctx (((s.launchOf s.cur.wg).map (·.region)).getD 0), reach := reachOfCore s.curCore
    record := trapBytes cls (1 + 4 * (split % 4) + flags) (s.cur.g % 32 + s.curCore % 256 * 32) ctx.toNat
      (((s.wg? s.cur.wg).map (·.j)).getD 0) e.index e.pc.toNat addr fault.toNat performed.toNat detail
    seq := none }

/-- The lane stream of the executing group took a trap (R143, R357): it stops with the instruction at its head, whose fault and
performed masks stay with it, the splits that share a lane with its tag are parked, and the record is posted. -/
def LaneTrapTaken (s t : State) (g : Group) (fault performed : LaneMask) (p : Pending) : Prop :=
  Posted (s.putGroup (Group.parkForLane { g with head := { g.head with stopped := true, fault := fault, performed := performed,
                                                                       waiting := false, issued := false } })) t p

/-- The scopes from .cl up, at which an acquire empties caches (R215). -/
def wideScope : Scope → Bool
  | .grp | .wg => false
  | .cl | .die | .dev | .sys => true

/-- After an acquire at .cl or wider: the L1 of the executing core is empty (R215), and so are its instruction caches (log 11). -/
def State.emptied (s : State) (acquires : Bool) : State :=
  if acquires then s.modCore s.curCore fun c => { c with l1 := [], scalarCode := [], laneCode := [] } else s

/-- After such an acquire, or a FENCE .ar, the group's reads are served at their homes (R246, R247, log 11). -/
def Group.newer (g : Group) (acquires : Bool) : Group := if acquires then { g with acquired := true } else g

/-- FENCE at group scope has nothing to wait for: no lane memory instruction of the group is queued (R33), what its write streams
have produced is written (R291), and every VRED of it is answered (R267). -/
def State.noLaneMemory (s : State) (g : Group) : Prop :=
  (∀ e ∈ g.laneQ, e.memory = false) ∧ g.behind = [] ∧ ∀ o ∈ s.fabric.ops, o.issuer ≠ .reduction s.cur.wg s.cur.g

/-- No lane instruction of the group is queued. -/
def Group.noLaneWork (g : Group) : Prop := ∀ e ∈ g.laneQ, e.isWord = false

/-- The values of the readable status registers (R22) for group n of workgroup w of launch l. -/
def statusValue (s : State) (w : Wg) (l : Launch) (g : Group) (n : Nat) : Nat :=
  match n with
  | 0x00 => 64
  | 0x01 => 6
  | 0x02 => s.cur.g
  | 0x03 => w.j % l.nwgx
  | 0x04 => w.j / l.nwgx % l.nwgy
  | 0x05 => w.j / l.nwgx / l.nwgy
  | 0x06 => l.nwgx
  | 0x07 => l.nwgy
  | 0x08 => l.nwgz
  | 0x09 => w.j % l.clusterSize
  | 0x0A => l.clusterSize
  | 0x0B => w.core % 48
  | 0x0C => w.core / 48
  | 0x0D => s.hostif.devnum.toNat
  | 0x0E => g.flags.toNat
  | 0x0F => s.cycle w.core
  | 0x10 => s.time - s.resetAt
  | 0x11 => g.seed.toNat
  | 0x12 => (s.core w.core).epoch
  | 0x13 => w.wgerr.toNat
  | 0x14 => l.lcb
  | 0x15 => l.args
  | n => if n < 0x30 then (w.counter (n - 0x20)).issued else (w.counter (n - 0x30)).completed

/-- The old and the operand value of a scalar atomic give the new one (R106). -/
def satomValue (op : SAtomOp) (old b : Word) : Word :=
  match op with
  | .add => old + b
  | .min => if old.toInt ≤ b.toInt then old else b
  | .max => if old.toInt ≤ b.toInt then b else old
  | .minn => if old.toNat ≤ b.toNat then old else b
  | .maxn => if old.toNat ≤ b.toNat then b else old
  | .and => old &&& b
  | .or => old ||| b
  | .xor => old ^^^ b
  | .exch => b

/-- The executing group is h but for its lane-private bytes. -/
def State.groupIs (t : State) (h : Group) : Prop := ∃ h', t.curGroup = some h' ∧ { h' with priv := h.priv } = h

/-! Records, commands, and what handing work to an engine leaves of the group. -/

/-- The executing split reads an operand record of n bytes at an aligned address of its own memory, which leaves v. -/
def State.reads (s v : State) (va n align : Nat) (bs : List Byte) : Prop :=
  va % align = 0 ∧ ∃ u r, s.local u (Acc.load n) va r ∧ bs = u.readRefs u.agent false r.refs ∧ v = u.served u.agent 0 false r.refs

/-- An aligned completion record: every command that names one has it (R282). -/
def recordAligned (va : Nat) : Prop := va % 16 = 0

/-- The executing workgroup with one more command on counter k, which takes the counter's next number (R278). -/
def Wg.withCommand (w : Wg) (k : Nat) (kind : CmdKind) (start : Option (Nat × Nat)) (scope : Scope) (trap : Bool) : Wg :=
  { w with counters := modVec (fun c => { c with issued := c.issued + 1 }) w.counters k
           cmds := w.cmds ++ [⟨k, (w.counter k).issued + 1, kind, start, scope, trap, w.core, none⟩] }

/-- All registers, queues and flags of a group are as before. -/
def RegistersSame (g h : Group) : Prop :=
  h.s = g.s ∧ h.m = g.m ∧ h.b = g.b ∧ h.v = g.v ∧ h.nregs = g.nregs ∧ h.x = g.x ∧ h.q = g.q ∧ h.laneQ = g.laneQ ∧ h.flags = g.flags ∧
    h.seed = g.seed ∧ h.gang = g.gang

/-- Entry k of a group stands READY at an address that is no block start, with the registers of x. -/
def StandsAt (h : Group) (k : SplitIx) (x : Split) (pc : Word) : Prop :=
  pc.toNat % 64 ≠ 0 → ∃ y, h.split k = some y ∧ y.pc = pc ∧ y.status = .ready ∧ y.mask = x.mask ∧ y.regs = x.regs

/-- The completion record that a register names: none with s0 (R293). -/
def namedRecord (g : Group) (x : Split) (r : SReg) : Option Nat := if r = 0 then none else some (scalarReg g x r).toNat

/-- The executing split x of g has handed work to an engine and advanced: no register and no byte of memory has changed. -/
def HandedOver (s t : State) (g : Group) (x : Split) : Prop :=
  MemorySame s t ∧ ∃ h, t.curGroup = some h ∧ RegistersSame g h ∧ StandsAt h s.cur.split x (x.pc + 4)

/-- The executing split waits, and nothing else of its group has changed. -/
def Waits (s t : State) (g : Group) (w : Wait) : Prop :=
  t = s.putGroup (g.modSplit s.cur.split fun y => { y with status := .waiting w, stalled := true })

/-- One arrival that names count c (R191): the word after it. -/
def Barrier.arrived1 (b : Barrier) (c : Nat) : Barrier :=
  let e := if b.expected = 0 then c else b.expected
  if b.arrived + 1 = e then ⟨b.phase + 1, 0, 0, b.engine⟩ else ⟨b.phase, e, b.arrived + 1, b.engine⟩

/-- A workgroup after an arrival on its word n; a count that differs from the phase's sets WGERR.BARX (R191). -/
def Wg.arrived (w : Wg) (n c : Nat) : Wg :=
  let b := getVec w.barriers n Barrier.zero
  { w with wgerr := if b.expected ≠ 0 ∧ c ≠ b.expected then w.wgerr ||| 128 else w.wgerr
           barriers := modVec (fun b => b.arrived1 c) w.barriers n }

/-- A token is passed (R192). -/
def tokenPassed (b : Barrier) (t : BitVec 32) : Prop :=
  1 ≤ (b.phase.toNat + 2 ^ 32 - t.toNat) % 2 ^ 32 ∧ (b.phase.toNat + 2 ^ 32 - t.toNat) % 2 ^ 32 ≤ 2 ^ 31 - 1

/-! What the lane instructions deliver, family by family, written from their rules. -/

/-- An instruction's operands, the vector registers it names and its delivery. -/
structure LaneClaim where
  op : LaneOp
  regs : List Nat
  delivery : Delivery

/-- A form computed lane by lane: D of w bits, its sources with their widths, and the value and flags of each lane; the flags
of the active lanes are ORed. -/
def byLane (o : LaneOp) (act : Nat → Bool) (w : Nat) (sources : List (Operand × Nat)) (f : Nat → Nat × Nat) : LaneClaim :=
  { op := o, regs := ((o.d, w) :: sources).flatMap fun y => operandRegs y.2 y.1
    delivery :=
      { elem := fun r l => elemResult o.ty w o.d (f l).1 r
        flags := (List.range 64).foldl (fun fl l => if act l then fl ||| (f l).2 else fl) 0 } }

/-- A form whose destination is a mask, bit by bit. -/
def byLaneMask (o : LaneOp) (sources : List (Operand × Nat)) (fl : Nat) (f : Nat → Bool) : LaneClaim :=
  { op := o, regs := sources.flatMap fun y => operandRegs y.2 y.1
    delivery := { mask := fun m l => maskResult o.d (f l) m, flags := fl } }

/-- Fit of R130: under .sat clamped to the type's range, else modulo 2^w. -/
def fitTo (ty : ElemTy) (sat : Bool) (v : Int) : Nat :=
  let w := tyBits ty
  let lo : Int := if tySigned ty then -(2 ^ (w - 1)) else 0
  let hi : Int := if tySigned ty then 2 ^ (w - 1) - 1 else 2 ^ w - 1
  ((if sat then max lo (min hi v) else v) % 2 ^ w).toNat

/-- An integer element: two's complement for a signed type. -/
def intElem (ty : ElemTy) (v : Nat) : Int := if tySigned ty then signed (tyBits ty) v else (v % 2 ^ tyBits ty : Nat)

/-- The integer arithmetic of R129 and R130. -/
def intClaim (g : Group) (act : LaneOp → Nat → Bool) (i : Instr) : Option LaneClaim :=
  let one (o : LaneOp) (f : Int → Int) := some (byLane o (act o) (tyBits o.ty) [(o.a, tyBits o.ty)] fun l =>
    (fitTo o.ty (o.mods == 1) (f (intElem o.ty (laneSource g o.ty (tyBits o.ty) o.a l))), 0))
  let two (o : LaneOp) (f : Int → Int → Int) :=
    some (byLane o (act o) (tyBits o.ty) [(o.a, tyBits o.ty), (o.b, tyBits o.ty)] fun l =>
      (fitTo o.ty (o.mods == 1) (f (intElem o.ty (laneSource g o.ty (tyBits o.ty) o.a l))
        (intElem o.ty (laneSource g o.ty (tyBits o.ty) o.b l))), 0))
  match i with
  | .vadd o => two o (· + ·)
  | .vsub o => two o (· - ·)
  | .vmul o => two o (· * ·)
  | .vmulh o => two o fun a b => a * b / 2 ^ tyBits o.ty
  | .vmad o =>
    some (byLane o (act o) (tyBits o.ty) [(o.a, tyBits o.ty), (o.b, tyBits o.ty), (o.c, tyBits o.ty)] fun l =>
      (fitTo o.ty (o.mods == 1) (intElem o.ty (laneSource g o.ty (tyBits o.ty) o.a l) *
        intElem o.ty (laneSource g o.ty (tyBits o.ty) o.b l) + intElem o.ty (laneSource g o.ty (tyBits o.ty) o.c l)), 0))
  | .vdiv o => two o fun a b => if b = 0 then -1 else a.tdiv b
  | .vrem o => two o fun a b => if b = 0 then a else a.tmod b
  | .vmin o => two o min
  | .vmax o => two o max
  | .vabs o => one o fun a => (a.natAbs : Int)
  | .vneg o => one o fun a => -a
  | _ => none

/-- The logic, shifts and bit fields of R131, and VMOV, VIMM and VLANE of R132 and R133, as bit patterns. -/
def bitClaim (g : Group) (act : LaneOp → Nat → Bool) (i : Instr) : Option LaneClaim :=
  let src (o : LaneOp) (w : Nat) (from_ : Operand) (l : Nat) : Nat := laneSource g o.ty w from_ l
  let one (o : LaneOp) (w : Nat) (f : Nat → Nat) :=
    some (byLane o (act o) w [(o.a, tyBits o.ty)] fun l => (f (src o (tyBits o.ty) o.a l), 0))
  let two (o : LaneOp) (wb : Nat) (f : Nat → Nat → Nat) :=
    some (byLane o (act o) (tyBits o.ty) [(o.a, tyBits o.ty), (o.b, wb)] fun l => (f (src o (tyBits o.ty) o.a l) (src o wb o.b l), 0))
  match i with
  | .vand o => two o (tyBits o.ty) (· &&& ·)
  | .vor o => two o (tyBits o.ty) (· ||| ·)
  | .vxor o => two o (tyBits o.ty) (· ^^^ ·)
  | .vnot o => one o (tyBits o.ty) fun a => 2 ^ tyBits o.ty - 1 - a
  | .vshl o => two o 32 fun a b => a * 2 ^ (b % tyBits o.ty) % 2 ^ tyBits o.ty
  | .vshr o => two o 32 fun a b => a / 2 ^ (b % tyBits o.ty)
  | .vsra o => two o 32 fun a b => (signed (tyBits o.ty) a / 2 ^ (b % tyBits o.ty) % 2 ^ tyBits o.ty).toNat
  | .vpopc o => one o 32 fun a => (List.range (tyBits o.ty)).countP fun k => a.testBit k
  | .vclz o => one o 32 fun a => if a = 0 then tyBits o.ty else tyBits o.ty - 1 - Nat.log2 a
  | .vbfe o =>
    some (byLane o (act o) (tyBits o.ty) [(o.a, tyBits o.ty), (o.b, 32), (o.c, 32)] fun l =>
      let pos := min (src o 32 o.b l % 256) (tyBits o.ty)
      let len := min (src o 32 o.c l % 256) (tyBits o.ty - pos)
      let field := src o (tyBits o.ty) o.a l / 2 ^ pos % 2 ^ len
      (if tySigned o.ty ∧ len ≠ 0 then (signed len field % 2 ^ tyBits o.ty).toNat else field, 0))
  | .vbfi o =>
    some (byLane o (act o) (tyBits o.ty) [(o.a, tyBits o.ty), (o.b, tyBits o.ty), (o.c, 32), (o.e, 32)] fun l =>
      let pos := min (src o 32 o.c l % 256) (tyBits o.ty)
      let len := min (src o 32 o.e l % 256) (tyBits o.ty - pos)
      let base := src o (tyBits o.ty) o.a l
      (base % 2 ^ pos + src o (tyBits o.ty) o.b l % 2 ^ len * 2 ^ pos + base / 2 ^ (pos + len) * 2 ^ (pos + len), 0))
  | .vmov o => one o (tyBits o.ty) id
  | .vimm o =>
    some (byLane (immAsOp o) (act (immAsOp o)) (tyBits o.ty) [] fun _ => (if o.ty = .b64 then (o.imm.toInt % 2 ^ 64).toNat else o.imm.toNat, 0))
  | .vlane o => some (byLane o (act o) 32 [] fun l => (l, 0))
  | _ => none

/-- The compares, selects and mask instructions of R132 to R134, and VIOTA. -/
def maskClaim (g : Group) (act : LaneOp → Nat → Bool) (i : Instr) : Option LaneClaim :=
  let logic (o : LaneOp) (f : Bool → Bool → Bool) :=
    some (byLaneMask o [] 0 fun l => f (laneMaskBit g o.a l) (laneMaskBit g o.b l))
  match i with
  | .vcmp o =>
    let r (l : Nat) : Bool × Nat := compareElem o.ty o.mods.toNat (flagsFtz g.flags) (laneSource g o.ty (tyBits o.ty) o.a l)
      (laneSource g o.ty (tyBits o.ty) o.b l)
    some (byLaneMask o [(o.a, tyBits o.ty), (o.b, tyBits o.ty)]
      ((List.range 64).foldl (fun fl l => if act o l then fl ||| (r l).2 else fl) 0) fun l => (r l).1)
  | .vsel o =>
    some (byLane o (act o) (tyBits o.ty) [(o.a, tyBits o.ty), (o.b, tyBits o.ty)] fun l =>
      (laneSource g o.ty (tyBits o.ty) (if laneMaskBit g o.c l then o.a else o.b) l, 0))
  | .mand o => logic o (· && ·)
  | .mor o => logic o (· || ·)
  | .mxor o => logic o (· != ·)
  | .mnot o => logic o fun a _ => !a
  | .mfirst o =>
    some (byLaneMask o [] 0 fun l => act o l && laneMaskBit g o.a l && (List.range l).all fun k => !(act o k && laneMaskBit g o.a k))
  | .mpopc o => some (byLane o (act o) 32 [] fun _ => ((List.range 64).countP fun l => laneMaskBit g o.a l, 0))
  | .viota o => some (byLane o (act o) 32 [] fun l => ((List.range (min l 64)).countP fun k => act o k && laneMaskBit g o.a k, 0))
  | _ => none

/-- A value taken from a launched lane of A, else the fill of C, and the status bit that says which (R135). -/
def fromOther (g : Group) (o : LaneOp) (l : Nat) (j : Option Nat) : Nat × Bool :=
  match j with
  | some k =>
    if k < 64 ∧ (getVec g.m 0 0).getLsbD k then (laneSource g o.ty (tyBits o.ty) o.a k, false)
    else (laneSource g o.ty (tyBits o.ty) o.c l, true)
  | none => (laneSource g o.ty (tyBits o.ty) o.c l, true)

/-- A cross-lane form: for each lane its source lane, and the value from its own and the other lane's. -/
def byOther (g : Group) (o : LaneOp) (act : Nat → Bool) (sources : List (Operand × Nat)) (src : Nat → Option Nat)
    (f : Nat → Nat → Nat → Nat) : LaneClaim :=
  let c := byLane o act (tyBits o.ty) sources fun l =>
    (f l (laneSource g o.ty (tyBits o.ty) o.a l) (fromOther g o l (src l)).1, 0)
  { c with delivery := { c.delivery with mask := fun m l => maskResult o.e (fromOther g o l (src l)).2 m } }

/-- The butterfly operations of R138. -/
def stepResult (ty : ElemTy) (op d l a p : Nat) : Nat :=
  match op with
  | 0 => (a + p) % 2 ^ tyBits ty
  | 1 => (min (intElem ty a) (intElem ty p) % 2 ^ tyBits ty).toNat
  | 2 => (max (intElem ty a) (intElem ty p) % 2 ^ tyBits ty).toNat
  | 3 => a &&& p
  | 4 => a ||| p
  | 5 => a ^^^ p
  | _ => if l &&& d = 0 then a else p

/-- What a scan makes of its first element, an input like the others: a float NaN becomes canonical, with IOP if it signals (R51), and
a subnormal a zero of its sign under FTZ (R54). -/
def scanInput (g : Group) (ty : ElemTy) (v : Nat) : Nat × Nat :=
  if tyFloat ty then
    match (fmtOf ty).input (flagsFtz g.flags) v with
    | .nan signals => ((fmtOf ty).canonicalNan, if signals then 16 else 0)
    | .fin negative 0 _ => ((fmtOf ty).signBit negative, 0)
    | _ => (v, 0)
  else (v, 0)

/-- The cross-lane instructions of R135 to R140: a scan folds the active lanes up to, or before, each lane in ascending order. -/
def crossClaim (g : Group) (act : LaneOp → Nat → Bool) (i : Instr) : Option LaneClaim :=
  match i with
  | .vshfl o =>
    let off := o.mods.toNat % 16
    let d := if off < 6 then 64 / 2 ^ (off + 1) else off - 7
    let src (l : Nat) : Option Nat := match o.mods.toNat / 16 with
      | 0 => if d ≤ l then some (l - d) else none
      | 1 => if l + d < 64 then some (l + d) else none
      | 2 => some (l ^^^ d)
      | _ => some ((l + d) % 64)
    some (byOther g o (act o) [(o.a, tyBits o.ty), (o.c, tyBits o.ty)] src fun _ _ p => p)
  | .vperm o =>
    some (byOther g o (act o) [(o.a, tyBits o.ty), (o.b, 32), (o.c, tyBits o.ty)] (fun l => some (laneSource g o.ty 32 o.b l)) fun _ _ p => p)
  | .vstep o =>
    let d := 64 / 2 ^ (o.mods.toNat % 8 + 1)
    some (byOther g o (act o) [(o.a, tyBits o.ty), (o.c, tyBits o.ty)] (fun l => some (l ^^^ d)) fun l a p =>
      stepResult o.ty (o.mods.toNat / 8) d l a p)
  | .vcomp o =>
    let lanes := (List.range 64).filter (act o)
    let chosen := lanes.filter (laneMaskBit g o.b)
    let src (l : Nat) : Option Nat := chosen[lanes.idxOf l]?
    let c := byLane o (act o) (tyBits o.ty) [(o.a, tyBits o.ty), (o.c, tyBits o.ty)] fun l =>
      (match src l with
        | some j => laneSource g o.ty (tyBits o.ty) o.a j
        | none => laneSource g o.ty (tyBits o.ty) o.c l, 0)
    some { c with delivery := { c.delivery with mask := fun m l => maskResult o.e (src l).isNone m } }
  | .vscan o =>
    let op := o.mods.toNat % 4
    let a (l : Nat) : Nat := laneSource g o.ty (tyBits o.ty) o.a l
    let scan (ls : List Nat) : Nat × Nat :=
      match ls with
      | [] => (scanIdentity o.ty op, 0)
      | k :: ks => ks.foldl (fun (acc : Nat × Nat) l =>
          let r := scanCombine o.ty op (g.mode o.rnd l 0) acc.1 (a l)
          (r.1, acc.2 ||| r.2)) (scanInput g o.ty (a k))
    let lanes := (List.range 64).filter (act o)
    let before (l : Nat) : List Nat := lanes.filter fun k => if o.mods.getLsbD 2 then k < l else k ≤ l
    let c := byLane o (act o) (tyBits o.ty) [(o.a, tyBits o.ty)] fun l => ((scan (before l)).1, 0)
    some { c with delivery := { c.delivery with flags := (scan lanes).2 } }
  | _ => none

/-- A float source after the FTZ treatment of inputs (R24). -/
def floatElem (g : Group) (o : LaneOp) (from_ : Operand) (l : Nat) : FVal :=
  (fmtOf o.ty).input (flagsFtz g.flags) (laneSource g o.ty (tyBits o.ty) from_ l)

/-- The floating-point arithmetic of R146 to R151: one rounding of the exact result in the instruction's mode; the sign forms,
minimum, maximum and class on encodings; the transcendentals to nearest even (R147). -/
def floatClaim (g : Group) (act : LaneOp → Nat → Bool) (i : Instr) : Option LaneClaim :=
  let w (o : LaneOp) : Nat := tyBits o.ty
  let one (o : LaneOp) (f : Fmt → Mode → FVal → Nat × Nat) := some (byLane o (act o) (w o) [(o.a, w o)] fun l =>
    f (fmtOf o.ty) (g.mode o.rnd l 0) (floatElem g o o.a l))
  let two (o : LaneOp) (f : Fmt → Mode → FVal → FVal → Nat × Nat) := some (byLane o (act o) (w o) [(o.a, w o), (o.b, w o)] fun l =>
    f (fmtOf o.ty) (g.mode o.rnd l 0) (floatElem g o o.a l) (floatElem g o o.b l))
  let codes (o : LaneOp) (f : Fmt → Nat → Nat → Nat × Nat) := some (byLane o (act o) (w o) [(o.a, w o), (o.b, w o)] fun l =>
    f (fmtOf o.ty) (laneSource g o.ty (w o) o.a l) (laneSource g o.ty (w o) o.b l))
  let code (o : LaneOp) (d : Nat) (f : Fmt → Nat → Nat × Nat) := some (byLane o (act o) d [(o.a, w o)] fun l =>
    f (fmtOf o.ty) (laneSource g o.ty (w o) o.a l))
  let nearest (m : Mode) : Mode := { m with rnd := .rne }
  match i with
  | .vfadd o => two o fun f m a b => f.add m a b
  | .vfsub o => two o fun f m a b => f.add m a b.negate
  | .vfmul o => two o fun f m a b => f.mul m a b
  | .vfdiv o => two o fun f m a b => f.div m a b
  | .vfma o =>
    some (byLane o (act o) (w o) [(o.a, w o), (o.b, w o), (o.c, w o)] fun l =>
      (fmtOf o.ty).fma (g.mode o.rnd l 0) (floatElem g o o.a l) (floatElem g o o.b l) (floatElem g o o.c l))
  | .vfsqrt o => one o fun f m a => f.sqrt m a
  | .vfrcp o => one o fun f m a => f.rcp m a
  | .vfrsq o => one o fun f m a => f.rsqrt m a
  | .vfex2 o => one o fun f m a => f.exp2 (nearest m) a
  | .vflg2 o => one o fun f m a => f.log2 (nearest m) a
  | .vfsin o => one o fun f m a => f.sinPi (nearest m) false a
  | .vfcos o => one o fun f m a => f.sinPi (nearest m) true a
  | .vfmin o => codes o fun f a b => f.minNum false (flagsFtz g.flags) a b
  | .vfmax o => codes o fun f a b => f.minNum true (flagsFtz g.flags) a b
  | .vfabs o => code o (w o) fun f a => f.setSign (fun _ => false) (flagsFtz g.flags) a
  | .vfneg o => code o (w o) fun f a => f.setSign (fun b => !b) (flagsFtz g.flags) a
  | .vfcls o => code o 32 fun f a => (f.classWord a, 0)
  | _ => none

/-- The flags that a list of results per lane raises over the active lanes. -/
def flagsOfLanes (act : Nat → Bool) (f : Nat → List (Nat × Nat)) : Nat :=
  ((List.range 64).filter act).foldl (fun fl l => (f l).foldl (fun fl r => fl ||| r.2) fl) 0

/-- The conversions and quantisations of R152 to R159. -/
def convertClaim (g : Group) (act : LaneOp → Nat → Bool) (i : Instr) : Option LaneClaim :=
  match i with
  | .vcvt o =>
    some (byLane o (act o) (tyBits o.ty) [(o.a, tyBits (srcOf o))] fun l =>
      convert (srcOf o) o.ty { g.mode o.rnd l 0 with inf := infBit o } (laneSource g o.ty (tyBits (srcOf o)) o.a l))
  | .vpack o =>
    let n := packCount (tyBits o.ty)
    let k := if tyBits o.ty = 6 then 3 else 1
    let results (l : Nat) : List (Nat × Nat) := (List.range n).map fun j =>
      convert (srcOf o) o.ty { g.mode o.rnd l j with inf := infBit o } ((g.elem (vectorNo o.a + j) l).toNat % 2 ^ tyBits (srcOf o))
    let stream (l : Nat) : Nat := (results l).foldr (fun r v => r.1 % 2 ^ tyBits o.ty + v * 2 ^ tyBits o.ty) 0
    some { op := o, regs := (List.range n).map (vectorNo o.a + ·) ++ (List.range k).map (vectorNo o.d + ·)
           delivery := { elem := fun r l => if vectorNo o.d ≤ r ∧ r < vectorNo o.d + k then
                           some (BitVec.ofNat 32 (stream l / 2 ^ (32 * (r - vectorNo o.d)))) else none
                         flags := flagsOfLanes (act o) results } }
  | .vunpk o =>
    let w := tyBits (srcOf o)
    let n := packCount w
    let k := if w = 6 then 3 else 1
    let stream (l : Nat) : Nat := (List.range k).foldl (fun v j => v + (g.elem (vectorNo o.a + j) l).toNat * 2 ^ (32 * j)) 0
    let results (l : Nat) : List (Nat × Nat) := (List.range n).map fun j =>
      convert (srcOf o) o.ty { Mode.rne with ftz := flagsFtz g.flags } (stream l / 2 ^ (w * j) % 2 ^ w)
    some { op := o, regs := (List.range k).map (vectorNo o.a + ·) ++ (List.range n).map (vectorNo o.d + ·)
           delivery := { elem := fun r l => if vectorNo o.d ≤ r ∧ r < vectorNo o.d + n then
                           some (extend o.ty (((results l)[r - vectorNo o.d]?.map fun x => x.1).getD 0)) else none
                         flags := flagsOfLanes (act o) results } }
  | .vqaq o =>
    some (byLane o (act o) (tyBits o.ty) [(o.a, tyBits (srcOf o)), (o.b, 16), (o.c, 8)] fun l =>
      quantiseAq (if o.ty = .aq8 then 255 else 15) (g.mode o.rnd l 0)
        ((fmtOf (srcOf o)).decode (laneSource g o.ty (tyBits (srcOf o)) o.a l)) (fmtF16.decode (laneSource g o.ty 16 o.b l))
        (laneSource g o.ty 8 o.c l))
  | .vdq o =>
    let mx := tyMx (srcOf o)
    let wb := if mx then 8 else 16
    some (byLane o (act o) (tyBits o.ty) ([(o.a, tyBits (srcOf o)), (o.b, wb)] ++ if mx then [] else [(o.c, 8)]) fun l =>
      dequantise (srcOf o) o.ty (g.mode o.rnd l 0) (laneSource g o.ty (tyBits (srcOf o)) o.a l) (laneSource g o.ty wb o.b l)
        (if mx then 0 else laneSource g o.ty 8 o.c l))
  | .vqmx o =>
    let w := tyBits (srcOf o)
    let block (t : Nat) : Nat × List (Nat × Nat) :=
      quantiseMx o.ty (g.mode o.rnd 0 0) (fun j => srBits g.seed.toNat (32 * t + j) 0) ((List.range 32).map fun j =>
        if act o (32 * t + j) then (fmtOf (srcOf o)).decode (laneSource g o.ty w o.a (32 * t + j)) else .fin false 0 0)
    let code (l : Nat) : Nat × Nat := ((block (l / 32)).2[l % 32]?).getD (0, 0)
    let c := byLane o (act o) 32 [(o.a, w), (o.e, 32)] code
    let elem (r l : Nat) : Option Elem := if r = vectorNo o.e then some (BitVec.ofNat 32 (block (l / 32)).1) else c.delivery.elem r l
    some { c with delivery := { c.delivery with elem := elem } }
  | _ => none

/-- The exact accumulator of R56 to R60 and R160 to R162: XCLR zeroes x, XADD and XSUB add every active lane's exact value, in
lane order, XRND rounds x once for all active lanes, in the lowest active lane's mode and without FTZ (R54). -/
def exactClaim (g : Group) (act : LaneOp → Nat → Bool) (i : Instr) : Option LaneClaim :=
  let lanes (o : LaneOp) : List Nat := (List.range 64).filter (act o)
  let adds (o : LaneOp) (f : FVal → FVal) :=
    let r := g.x.addAll ((lanes o).map fun l => f ((fmtOf o.ty).decode (laneSource g o.ty (tyBits o.ty) o.a l)))
    some { op := o, regs := operandRegs (tyBits o.ty) o.a, delivery := { x := some r.1, flags := r.2 } }
  match i with
  | .xclr o =>
    some { op := o, regs := []
           delivery := { x := if (lanes o).isEmpty then none else some ⟨0, false, false, false, false⟩ } }
  | .xadd o => adds o id
  | .xsub o => adds o FVal.negate
  | .xrnd o =>
    let r := g.x.round (fmtOf o.ty) { g.mode o.rnd ((lanes o).headD 0) 0 with ftz := false }
    some { op := o, regs := operandRegs (tyBits o.ty) o.d
           delivery := { elem := fun k _ => elemResult o.ty (tyBits o.ty) o.d r.1 k, flags := r.2 } }
  | _ => none

/-! Lane memory. -/

/-- The active lanes of a memory instruction, in ascending order. -/
def memLanes (g : Group) (tag : LaneMask) (o : MemOp) : List Nat := (List.range 64).filter (activeLanes g tag o.guard)

/-- A lane's access is to its own, unpoisoned bytes. -/
def State.ownAccess (s : State) (acc : Acc) (r : Resolved) : Prop :=
  r.refs.length = acc.n ∧ ∀ b ∈ r.refs, s.ownRef b ∧ s.refPoisoned b = false

/-- Every lane's access resolves to its own, unpoisoned bytes. -/
def State.lanesOwn (s : State) (lanes : List Nat) (acc : Acc) (addr : Nat → Nat) (r : Nat → Resolved) : Prop :=
  ∀ l ∈ lanes, s.resolve (s.laneAgent l) acc (addr l) = ⟨.ok (r l), none⟩ ∧ s.ownAccess acc (r l)

/-- The same once the view unit has read what the lanes' accesses need, which leaves u; no tier accounting is on (R436). -/
def State.lanesLocal (s u : State) (lanes : List Nat) (acc : Acc) (addr : Nat → Nat) (r : Nat → Resolved) : Prop :=
  u.hostif.params.tierHot = 0 ∧ s.laneLooks lanes acc addr = (u, some (lanes.map fun l => (l, ⟨.ok (r l), none⟩))) ∧
    ∀ l ∈ lanes, u.ownAccess acc (r l)

/-- The element of D in a lane, as a bit pattern. -/
def dElem (o : MemOp) (g : Group) (l : Nat) : Nat := g.elemNat (tyBits o.ty) (vectorNo o.d) l

/-- A release has no replica to wait for. -/
def Releases (s : State) (o : MemOp) : Prop := o.order = .rel ∨ o.order = .ar → Drained s

/-- After an acquire at .cl or wider by some lane, the core's L1 is empty (R215), and the group's reads see their homes (R247). -/
def Acquired (s t : State) (o : MemOp) (lanes : List Nat) : Prop :=
  o.order = .acq ∨ o.order = .ar → lanes ≠ [] → wideScope o.scope = true → s.curCore < 192 →
    (t.core s.curCore).l1 = [] ∧ ∀ h, t.curGroup = some h → h.acquired = true

/-- The new value and the flags of one lane of VATOM or VRED, from the old value and the lane's element of D (R261). -/
def atomResult (o : MemOp) (g : Group) (op : RmwOp) (l old : Nat) : Nat × Nat :=
  let b := dElem o g l
  let w := tyBits o.ty
  let f := fmtOf o.ty
  match op with
  | .add =>
    if tyFloat o.ty then f.add (g.mode o.rnd l 0) (f.input (flagsFtz g.flags) old) (f.input (flagsFtz g.flags) b) else ((old + b) % 2 ^ w, 0)
  | .min => if tyFloat o.ty then f.minNum false (flagsFtz g.flags) old b else (if intElem o.ty old ≤ intElem o.ty b then old else b, 0)
  | .max => if tyFloat o.ty then f.minNum true (flagsFtz g.flags) old b else (if intElem o.ty old ≤ intElem o.ty b then b else old, 0)
  | .and => (old &&& b, 0)
  | .or => (old ||| b, 0)
  | .xor => (old ^^^ b, 0)
  | .exch => (b, 0)

/-- The lanes of an atomic, one after another, each a read-modify-write at its home in one step: the state after them, and the
old value of each lane. -/
def State.rmwLanes (s : State) (r : Nat → Resolved) (f : Nat → Nat → Option Nat) (lanes : List Nat) : State × List (Nat × Nat) :=
  lanes.foldl (fun (a : State × List (Nat × Nat)) l =>
    let x := a.1.rmwRefs (s.laneAgent l) (r l).refs (f l)
    (x.1, a.2 ++ [(l, x.2)])) (s, [])

/-- The value listed for a lane. -/
def valueIn (l : Nat) (xs : List (Nat × Nat)) : Nat := ((xs.find? fun x => x.1 == l).map (·.2)).getD 0

/-! Queue entries and ended waits. -/

/-- A group whose head entry is done: it leaves the queue, and what stalled on it looks again. -/
def Group.popped (g : Group) : Group := Group.wakeRetry (Group.emptyHead { g with laneQ := g.laneQ.tail })

/-- The wait of the executing split has ended: its group settles, and its context has made progress (R170, R357, R382). -/
def State.woken (s : State) : State := (s.progress s.curCtx).modCurGroup Group.settle

/-- The split x of g waits for w in a resident workgroup y, and is the one the next event names. -/
structure WaitsFor (s : State) (g : Group) (x : Split) (y : Wg) (w : Wait) : Prop where
  runs : Runs s g x
  status : x.status = .waiting w
  wg : s.wg? s.cur.wg = some y
  resident : y.state = .resident
  running : y.preempt = false
  unit : s.cur.pc = 0

/-! Accumulator tiles. -/

/-- A tile with its elements given one by one, all else as in base. -/
def TileIs (t base : Tile) (f : Nat → Nat → Elem) : Prop :=
  { t with elems := base.elems } = base ∧ ∀ m c, m < 64 → c < 64 → t.elem m c = f m c

/-- The tiles of a workgroup. -/
def State.tilesOf (s : State) (w : WgIx) : List (Nat × Tile) := ((s.wg? w).map (·.tiles)).getD []

/-- What an accumulator form takes and makes: the claim for its registers, the tiles it acts on, the tags it takes, whether an
unbound tile will do, whether it waits for a token, and the new tiles where some lane is active: number, base, elements. -/
structure TileClaim where
  claim : LaneClaim
  on : List Nat
  takes : AccFmt → Bool
  unbound : Bool := false
  token : Option (BitVec 32) := none
  fresh : Bool := false
  tiles : List (Nat × Tile × (Nat → Nat → Elem)) := []

/-- ACRD, ACWR, ACSCL, ACMAX and ACEXP (R322, R323) on workgroup w. -/
def tileClaim (g : Group) (w : Wg) (act : LaneOp → Nat → Bool) (i : Instr) : Option TileClaim :=
  let ins (o : LaneOp) (ty : ElemTy) (wa : Nat) : Ins :=
    ⟨g, maskOf ((List.range 64).filter (act o)), laneSource g ty wa o.a, laneSource g ty 32 o.b, laneSource g ty 32 o.c, laneSource g ty 32 o.e⟩
  let flags (o : LaneOp) (f : Nat → Nat) : Nat := ((List.range 64).filter (act o)).foldl (fun fl l => fl ||| f l) 0
  let float (tag : AccFmt) : Bool := tag == .fp32 || tag == .fp16
  let rowFlags (f : Nat → Nat → Nat × Nat) (l : Nat) : Nat := (List.range 64).foldl (fun fl c => fl ||| (f l c).2) 0
  let tile (o : LaneOp) (d : Operand) : Nat × Tile :=
    let n := (accTiles o d).headD 0
    (n, (w.tile n).getD (Tile.new .fp32))
  match i with
  | .acrd o =>
    let scl := o.mods = 1
    let f := acrdLane w o (tile o o.a).1 (accRow g o.b) (ins o o.ty 32)
    some { claim := byLane o (act o) (tyBits o.ty) (if scl then [(o.c, 32), (o.e, 32)] else []) f
           on := accTiles o o.a, takes := acrdTakes o.ty, unbound := true }
  | .acwr o =>
    let tag := acwrTag o.ty
    let row := accRow g o.b
    let wa := if o.ty = .f64 then 64 else 32
    let f := acwrLane o (ins o (if o.ty = .f16 then .f32 else o.ty) wa)
    let n := (accTiles o o.d).headD 0
    let new (k shift : Nat) : Nat × Tile × (Nat → Nat → Elem) :=
      let base := (w.tile k).getD (Tile.new tag)
      (k, base, fun m c => if m = row ∧ act o c then BitVec.ofNat 32 ((f c).1 / 2 ^ shift) else base.elem m c)
    some { claim := { op := o, regs := operandRegs wa o.a, delivery := { flags := flags o fun l => (f l).2 } }
           on := accTiles o o.d, takes := (· == tag), unbound := true, fresh := true
           tiles := new n 0 :: (if o.ty = .f64 then [new (n + 1) 32] else []) }
  | .acscl o =>
    let y := tile o o.d
    let f := acsclElem w o y.1 y.2.tag (ins o o.ty 32)
    some { claim := { op := o, regs := operandRegs 32 o.a, delivery := { flags := flags o (rowFlags f) } }
           on := accTiles o o.d, takes := float, token := if o.mods = 1 then some (acsclToken g o.b) else none
           tiles := [(y.1, { y.2 with corrected := y.2.corrected || o.mods == 1 }, fun m c =>
             if act o m then BitVec.ofNat 32 (f m c).1 else y.2.elem m c)] }
  | .acmax o => some { claim := byLane o (act o) 32 [] (acmaxLane (tile o o.a).2), on := accTiles o o.a, takes := float }
  | .acexp o =>
    let y := tile o o.a
    let x := ins o o.ty 32
    let f := acexpElem w o y.1 y.2.tag x
    let new (m c : Nat) : Elem := if act o m then BitVec.ofNat 32 (f m c).1 else y.2.elem m c
    let sum (l : Nat) : Nat × Nat := acexpSum o y.2.tag x l fun c => (new l c).toNat % 2 ^ (accFmt y.2.tag).width
    let c := byLane o (act o) 32 [(o.b, 32), (o.c, 32)] sum
    some { claim := { c with delivery := { c.delivery with flags := flags o (rowFlags f) ||| flags o fun l => (sum l).2 } }
           on := accTiles o o.a, takes := float, tiles := [(y.1, y.2, new)] }
  | _ => none

/-! Runs on a pseudo-channel. -/

/-- The run r of command c is on the current pseudo-channel, with its ranges. -/
structure BankRun (s : State) (r : Run) (c : BankCmd) (r0 r1 res : Range) : Prop where
  run : (s.pc s.cur.pc).run = some r
  cmd : s.bankCmd? r.cmd = some c
  ranges : c.ranges[r.member]? = some (r0, r1, res)

/-- Nothing holds the steps of the run's next operation: the bank budgets of its path have room (R399), the activity bucket has a
grant for each step, and no run that waits is granted first (R350, R401). -/
def BankAllowed (s : State) (x : BankCtx) (steps : Nat) : Prop :=
  steps = 0 ∨ (s.bankRoom x = true ∧ 4 * steps ≤ s.grants ∧ s.waitsBefore x.r = false)

/-- The run of the current pseudo-channel goes on as r. -/
def State.runIs (s : State) (r : Run) : State := s.modPc s.cur.pc fun y => { y with run := some r }

/-- The segments of a result buffer go to the result range, oldest first (R341). -/
def State.segmentsOut (s : State) (segs : List (Nat × List Byte)) : State := segs.foldl (fun u y => u.bankWrite y.1 y.2) s

/-- The bytes that a run has written, each once: those of the result range, and of each column those outside it (R344). -/
def runBytes (res : Range) (r : Run) : Nat :=
  let first := res.page + res.offset
  r.q + (r.wrote.map fun k => ((List.range 2048).filter fun i => decide (k + i < first ∨ first + r.q ≤ k + i)).length).sum

/-- The run r of the current pseudo-channel stops: its result buffer goes out, the bytes it wrote are counted, a status recorded, its
member is done. -/
def State.runStops (s : State) (r : Run) (res : Range) (status : Option (Nat × Nat)) : State :=
  ((s.segmentsOut r.results).modPc s.cur.pc fun y => { y with queue := y.queue.filter (· != r.cmd), run := none }).modBank r.cmd fun c =>
    { c with bytes := c.bytes + runBytes res r
             stops := c.stops ++ (match status with | some y => [(r.member, y.1, y.2)] | none => [])
             pending := c.pending.filter (· != s.cur.pc) }

/-! Workgroups as a launch starts them. -/

/-- Group n of a workgroup of launch l as R21 and R177 start it: all registers zero but m0, which holds its lanes; one split at the
entry. -/
def GroupStarted (l : Launch) (n : Nat) (g : Group) : Prop :=
  let lanes : LaneMask := if n + 1 = l.groups then BitVec.ofNat 64 (2 ^ l.lastLanes - 1) else BitVec.allOnes 64
  (∀ r, getVec g.s r 0 = 0) ∧ (∀ r, getVec g.m r 0 = if r = 0 then lanes else 0) ∧ (∀ r, getVec g.b r 0 = 0) ∧
    (∀ r k, g.elem r k = 0) ∧ g.x = ⟨0, false, false, false, false⟩ ∧ (∀ q, getVec g.q q none = none) ∧ g.laneQ = [] ∧ g.overflow = [] ∧
    g.flags = 0 ∧ g.seed = 0 ∧ g.gang = 0 ∧ g.nregs = l.regs ∧ g.pv = l.priv ∧ g.priv = [] ∧ g.retired = false ∧
    g.entryRun = l.run.isSome ∧ ∀ k, (g.split k).map (fun x => (splitFacts x, x.status)) =
      if k = 0 then some ((BitVec.ofNat 64 l.entry, lanes, Vector.replicate 16 0, none), .ready) else none

/-- A workgroup that has just been placed for the first time, on the core of its claim (R190, R213, R278, R284). -/
def Started (l : Launch) (c : Claim) (w : Wg) : Prop :=
  w.launch = c.launch ∧ w.j = c.j ∧ w.core = c.core ∧ w.state = .resident ∧ w.preempt = false ∧ w.vaultSize = l.vault ∧ w.vault = [] ∧
    w.full = [] ∧ w.engineFull = [] ∧ w.wgerr = 0 ∧ w.cmds = [] ∧ w.tiles = [] ∧ w.seqs = [] ∧
    (∀ n, getVec w.barriers n Barrier.zero = Barrier.zero) ∧
    (∀ n, w.counter n = ⟨0, 0, []⟩) ∧ w.groups.length = l.groups ∧ ∀ n g, w.groups[n]? = some g → GroupStarted l n g

/-! Fabric requests at their owner. -/

/-- The header and the kind of a request that this device serves (R410). A reduce-copy chunk is one only if its element type is
one of R294. -/
def ownerKind : Instr → Option (ReqHeader × Nat)
  | .fabLoad h _ => some (h, 0x01)
  | .fabStore h _ => some (h, 0x02)
  | .fabAtom h _ _ => some (h, 0x03)
  | .fabCas h _ _ _ => some (h, 0x04)
  | .fabRed h _ _ => some (h, 0x05)
  | .fabVload h _ => some (h, 0x06)
  | .fabVstore h _ => some (h, 0x07)
  | .fabVatomic h _ _ => some (h, 0x08)
  | .fabDoor h _ => some (h, 0x09)
  | .fabBank h _ _ _ => some (h, 0x0A)
  | .fabPush h _ => some (h, 0x0B)
  | .fabRchunk h c => if (chunkReduce c).isSome then some (h, 0x0C) else none
  | .fabProbe h => some (h, 0x20)
  | .fabAck h => some (h, 0x21)
  | .fabClose h => some (h, 0x22)
  | .unknownKind h k =>
    if [0x01, 0x02, 0x03, 0x04, 0x05, 0x06, 0x07, 0x08, 0x09, 0x0A, 0x0B, 0x0C, 0x20, 0x21, 0x22].contains k then none else some (h, k)
  | _ => none

/-- The kinds that carry a serial (R410). -/
def serialKind (k : Nat) : Bool := [0x03, 0x04, 0x05, 0x08, 0x09, 0x0A, 0x0B, 0x0C].contains k

/-- How many bytes a request writes at its address, for the kinds that write one run. -/
def ownerSpan : Instr → Option Nat
  | .fabAtom _ op _ | .fabRed _ op _ => some (rmwWidth op)
  | .fabCas _ n _ _ => some n
  | .fabDoor _ bs => some bs.length
  | .fabPush _ _ => some 64
  | _ => none

/-- A request with a serial comes on a stream whose one entry has this low, and acknowledges nothing new (R417 to R419). -/
structure Heard (s : State) (h : ReqHeader) (low : BitVec 32) : Prop where
  arrives : s.arrives h = true
  engine : reservedEngine h = false
  inc : h.inc = s.hostif.incarn.toNat
  stream : ∃ last, s.fabric.table.filter (fun t => t.reqid == h.reqid) = [⟨h.reqid, low, last⟩]
  ack : h.ack = low

/-- The stream of a request has had traffic. -/
def State.heard (s : State) (h : ReqHeader) : State :=
  { s with fabric := { s.fabric with
    table := modWhere (fun t => t.reqid == h.reqid) (fun t => { t with last := s.time }) s.fabric.table } }

/-- From s to t a flit goes into the port p, with the full lifetime; no other port changes (R8, R411). -/
def Enters (s t : State) (p : Nat) (f : Flit) : Prop :=
  ∀ q, q < 18 → t.fabric.port q = s.fabric.port q ++ if q = p then [(f, s.hostif.params.lifetimeUs, s.time)] else []

/-- From s to t a fresh copy of the operation o goes into the port p, with the full lifetime, and o' takes its place (R410 to R412). -/
def Sends (s t : State) (p : Nat) (o o' : RemoteOp) : Prop :=
  t.op? o.id = some o' ∧ MemorySame s t ∧ t.fabric.ops.length = s.fabric.ops.length ∧
    ∃ h : ReqHeader, Enters s t p (.request o.owner h o.payload) ∧
      h.lifetime = s.hostif.params.lifetimeUs ∧ h.retdev = s.hostif.devnum.toNat ∧ h.reqid = o.reqid ∧ h.ser = o.serial.isSome ∧
      h.serial = o.serial.getD 0 ∧ h.addr = o.addr ∧ h.tag = o.id

/-- The outcome that a status other than BUSY stands for (R283, R424). -/
def statusOutcome (status : Nat) (data : List Byte) : Outcome :=
  if status = 0 then .performed data else if status = 3 then .poison else if status = 4 then .checksum else if status = 6 then .indeterminate
  else .error

/-- The ring index and the code of a host command (R433). -/
def hostCommand : Instr → Option (Nat × Nat)
  | .register n => some (n, 0x01)
  | .destroy n => some (n, 0x02)
  | .launch n => some (n, 0x03)
  | .dispose n => some (n, 0x04)
  | .invalidate n => some (n, 0x05)
  | .switchOut n => some (n, 0x06)
  | .resume n => some (n, 0x07)
  | .rmset n => some (n, 0x08)
  | .frames n => some (n, 0x09)
  | .viewset n => some (n, 0x0A)
  | .grant n => some (n, 0x0B)
  | .revoke n => some (n, 0x0C)
  | .bindDoor n => some (n, 0x0D)
  | .config n => some (n, 0x0E)
  | .attest n => some (n, 0x0F)
  | .warmReset n => some (n, 0x10)
  | .hostRminv n => some (n, 0x11)
  | .hostViewi n => some (n, 0x12)
  | _ => none

/-- The register claims of all families. -/
def registerClaim (g : Group) (act : LaneOp → Nat → Bool) (i : Instr) : Option LaneClaim :=
  (intClaim g act i).or <| (bitClaim g act i).or <| (maskClaim g act i).or <| (crossClaim g act i).or <| (floatClaim g act i).or <|
    (convertClaim g act i).or (exactClaim g act i)

/-- What a family says of the instruction i at the head of the executing group's queue: it retires, delivering its claim. -/
def LaneResult (family : Group → (LaneOp → Nat → Bool) → Instr → Option LaneClaim) : Prop :=
  ∀ (s : State) (i : Instr) (c : LaneClaim) (g : Group) (e : LaneEntry) (rest : List LaneEntry),
    let act (o : LaneOp) : Nat → Bool := activeLanes g e.tag o.guard
    family g act i = some c → LaneRuns s i c.regs g e rest → usesQueue c.op = false →
    ∃ t, exec i s = .next t ∧ MemorySame s t ∧ SideSame s t ∧ Retired s t i g rest (act c.op) c.delivery

end Machine

end Sys2Proof
end

