-- ==== Sys2Proof/Certificates/Slice0/Obligations.lean ====
section
/-! DEFINITION. The statements for the provers, each a proposition named after what it states. -/

open Sys2Proof Sys2Proof.Machine

/-! Scalar instructions. -/

/-- R101 to R103 with R19 and R99: every arithmetic, immediate and constant instruction writes its rule's value modulo 2^64 to
sd, the split advances by 4 with a block entry there, and nothing else of the machine changes. -/
def Obligations.ScalarArithmeticResult : Prop :=
  ∀ (s : State) (g : Group) (x : Split) (i : Instr) (sd : SReg) (v : Int),
    Runs s g x → scalarResult (scalarReg g x) x.pc i = some (sd, v) →
    exec i s = .next (s.resulted g x sd (BitVec.ofInt 64 v))

/-- R99, R109, R110, R111, R120: a taken BR, J and JL go to the branch target, a BR not taken and NOP advance; JL links s47 to
the next block; JR to a block start links sd to the next block and jumps to the old value of sa; nothing else changes. -/
def Obligations.BranchResult : Prop :=
  ∀ (s : State) (g : Group) (x : Split), Runs s g x →
    exec .nop s = .next (s.jumped g (x.pc + 4)) ∧
    (∀ c sa sb off, exec (.br c sa sb off) s = .next (s.jumped g
      (if comparison c (scalarReg g x sa) (scalarReg g x sb) then branchTarget x.pc off else x.pc + 4))) ∧
    (∀ off, exec (.j off) s = .next (s.jumped g (branchTarget x.pc off))) ∧
    (∀ off, exec (.jl off) s =
      .next (s.putGroup ((g.wrote s.cur.split 47 (blockStart x.pc + 64)).went s.cur.split (branchTarget x.pc off)))) ∧
    ∀ sd sa, (scalarReg g x sa).toNat % 64 = 0 → exec (.jr sd sa) s =
      .next (s.putGroup ((g.wrote s.cur.split sd (blockStart x.pc + 64)).went s.cur.split (scalarReg g x sa)))

/-- R83, R111, R121, R22, R23, R284 with R99 and R356: BRK, TRAP, a word that encodes no instruction, a JR whose target is no block
start and a SYSW of a refused value trap: the split is parked at its PC and only its record is written. -/
def Obligations.TrappingInstructions : Prop :=
  ∀ (s : State) (g : Group) (x : Split), Runs s g x →
    Traps .brk s g (scalarRecord s x 0x0F 0 0 0) ∧
    (∀ code, Traps (.trap code) s g (scalarRecord s x 0x0E 0 0 code.toNat)) ∧
    Traps (.illegalEncoding false) s g (scalarRecord s x 0x01 0 0 0) ∧
    (∀ sd sa, (scalarReg g x sa).toNat % 64 ≠ 0 →
      Traps (.jr sd sa) s g (scalarRecord s x 0x02 0 0 (scalarReg g x sa).toNat)) ∧
    (∀ sa, 2 ^ 13 ≤ (scalarReg g x sa).toNat ∨ 6 ≤ fld (scalarReg g x sa).toNat 9 3 →
      Traps (.sysw 0x0E sa) s g (scalarRecord s x 0x01 0 0 0)) ∧
    (∀ sa, 2 ^ 8 ≤ (scalarReg g x sa).toNat → Traps (.sysw 0x13 sa) s g (scalarRecord s x 0x01 0 0 0))

/-- R112, R113, R171: BRM waits for queued writers of its mask, then branches on T = m AND A; .div with some but not all lanes
taken divides the split, the taken lanes in the lowest free entry or an overflow record. -/
def Obligations.MaskBranchResult : Prop :=
  ∀ (s : State) (g : Group) (x : Split) (m : MReg) (off : BitVec 20), Runs s g x →
    let taken := getVec g.m m.toNat 0 &&& x.mask
    let away := s.jumped g (branchTarget x.pc off)
    let past := s.jumped g (x.pc + 4)
    if g.laneQ.any fun e => e.writesMask m.toNat then
      ∀ kind, ∃ t, exec (.brm kind m off) s = .next t ∧ Stalled s t g
    else
      exec (.brm .any m off) s = .next (if taken ≠ 0 then away else past) ∧
      exec (.brm .all m off) s = .next (if taken = x.mask then away else past) ∧
      exec (.brm .none m off) s = .next (if taken = 0 then away else past) ∧
      exec (.brm .div m off) s = .next (
        if taken = x.mask then away else if taken = 0 then past
        else
          let rest := g.setSplit s.cur.split (some { x with mask := x.mask &&& ~~~ taken, pc := x.pc + 4, status := .ready, stalled := false })
          match splitIxs.find? fun k => (g.split k).isNone with
          | some n =>
            let both := rest.setSplit n (some { x with mask := taken, pc := branchTarget x.pc off, status := .ready, stalled := false })
            s.putGroup ((both.arrive s.cur.split).arrive n)
          | none =>
            s.putGroup (Group.arrive { rest with overflow := g.overflow ++ [⟨branchTarget x.pc off, taken, x.regs, x.region⟩] }
              s.cur.split))

/-- R22, R33, R120: SYSR of a readable register writes its value to sd and advances; FLAGS waits for all queued lane
instructions, SEED for those that will advance it. -/
def Obligations.StatusReadResult : Prop :=
  ∀ (s : State) (g : Group) (x : Split) (w : Wg) (l : Launch) (sd : SReg) (n : BitVec 6),
    Runs s g x → s.wg? s.cur.wg = some w → s.launch? w.launch = some l →
    (n.toNat ≤ 0x15 ∨ 0x20 ≤ n.toNat) →
    (n = 0x0E → g.noLaneWork) → (n = 0x11 → ∀ e ∈ g.laneQ, e.writesSeed g.flags = false) →
    exec (.sysr sd n) s = .next (s.resulted g x sd (BitVec.ofNat 64 (statusValue s w l g n.toNat)))

/-- R22, R23, R33, R284: SYSW of an accepted value to FLAGS or SEED, with no lane instruction queued, writes that register of the
group; to WGERR, the workgroup's; while one is queued the write of FLAGS or SEED stalls. -/
def Obligations.StatusWriteResult : Prop :=
  ∀ (s : State) (g : Group) (x : Split) (sa : SReg), Runs s g x →
    let v := scalarReg g x sa
    (g.noLaneWork → v.toNat < 2 ^ 13 → fld v.toNat 9 3 < 6 →
      exec (.sysw 0x0E sa) s = .next (s.putGroup (Group.went { g with flags := v } s.cur.split (x.pc + 4)))) ∧
    (g.noLaneWork →
      exec (.sysw 0x11 sa) s = .next (s.putGroup (Group.went { g with seed := v } s.cur.split (x.pc + 4)))) ∧
    (¬ g.noLaneWork → ∃ t, exec (.sysw 0x11 sa) s = .next t ∧ Stalled s t g) ∧
    (v.toNat < 2 ^ 8 →
      exec (.sysw 0x13 sa) s = .next ((s.modWg s.cur.wg fun w => { w with wgerr := v }).jumped g (x.pc + 4)))

/-- R120, R122, R31, R172: YIELD marks its split; IRB with no lane work queued opens a region at PC + 4 with the split's mask, IRE
closes it; EXIT frees the split's entry, and overflow records take it. -/
def Obligations.SplitControlResult : Prop :=
  ∀ (s : State) (g : Group) (x : Split), Runs s g x →
    exec .yield s = .next (s.putGroup
      ((g.modSplit s.cur.split fun y => { y with yielded := true }).went s.cur.split (x.pc + 4))) ∧
    (g.noLaneWork → exec .irb s = .next (s.putGroup
      ((g.modSplit s.cur.split fun y => { y with region := some ⟨x.pc + 4, x.mask, 0, s.stamp⟩ }).went s.cur.split (x.pc + 4)))) ∧
    (g.noLaneWork → exec .ire s = .next (s.putGroup
      ((g.modSplit s.cur.split fun y => { y with region := none }).went s.cur.split (x.pc + 4)))) ∧
    (¬ g.noLaneWork → ∃ t, exec .irb s = .next t ∧ Stalled s t g) ∧
    (let h := (g.setSplit s.cur.split none).refill 64
     h.drained = false → exec .exit s = .next (s.putGroup h))

/-- R172, R285: the EXIT that leaves its group no split, no overflow record and no lane work retires the group and closes its
queues, while another group of the workgroup lives. -/
def Obligations.ExitRetiresGroup : Prop :=
  ∀ (s : State) (g : Group) (x : Split) (w : Wg), Runs s g x → s.wg? s.cur.wg = some w → g.retired = false →
    ((g.setSplit s.cur.split none).refill 64).drained = true →
    (∃ n h, n ≠ s.cur.g ∧ w.groups[n]? = some h ∧ h.retired = false) →
    ∃ t h, exec .exit s = .next t ∧ t.curGroup = some h ∧ h.retired = true ∧ (∀ q, q < 8 → getVec h.q q none = none) ∧
      MemorySame s t ∧ ∀ n, n ≠ s.cur.g → t.group? s.cur.wg n = s.group? s.cur.wg n

/-- R33, R215, R246, R268, R405: FENCE stalls while a lane memory instruction is queued, an element a write stream produced is not
written or a VRED is unanswered; then, with every replica up to date, an acquire at .cl or wider, and .ar at any scope, empties the
L1 of its core and has the group's later reads served at their homes, and the split advances; nothing else changes. A release at
.dev or .sys leaves no replica behind its sequencer's order. -/
def Obligations.FenceResult : Prop :=
  (∀ (s : State) (g : Group) (x : Split) (scope : Scope) (order : Order), Runs s g x →
      let acquires : Bool := order == .ar || (order == .acq && wideScope scope)
      (s.noLaneMemory g → Drained s →
        exec (.fence scope order) s = .next ((s.emptied acquires).jumped (g.newer acquires) (x.pc + 4))) ∧
      (¬ s.noLaneMemory g → ∃ t, exec (.fence scope order) s = .next t ∧ Stalled s t g)) ∧
  (∀ (s : State) (core : CoreIx) (scope : Scope), scope = .dev ∨ scope = .sys → ReplicasCurrent (s.release core scope))

/-- R67, R99, R104, R256: LDS writes its bytes, extended as its size says, to sd, and advances; an acquiring one reads past L1 and
empties the core's; an access that meets a condition other than poison traps with its class, address and flags, and writes no register.
What the access leaves in the caches is v; no byte at its home changes, and for an access outside the view aperture nothing but caches. -/
def Obligations.ScalarLoadResult : Prop :=
  ∀ (s : State) (g : Group) (x : Split) (size : LdSize) (acq : Bool) (sd sa : SReg) (imm : BitVec 9), Runs s g x →
    let n := match size with | .i8 | .n8 => 1 | .i16 | .n16 => 2 | .i32 | .n32 => 4 | .b64 => 8
    let acc : Acc := { Acc.load n with strict := acq }
    let va := (BitVec.ofInt 64 ((scalarReg g x sa).toInt + imm.toInt)).toNat
    (∀ u r g', s.local u acc va r → Runs u g' x →
      let m := natOfBytes (u.readRefs u.agent acq r.refs)
      let v := u.served u.agent 0 acq r.refs
      exec (.lds size acq sd sa imm) s = .next ((v.emptied acq).resulted (g'.newer acq) x sd
        (match size with
        | .i8 | .i16 | .i32 => BitVec.ofInt 64 (signed (8 * n) m)
        | _ => BitVec.ofNat 64 m)) ∧
      (windowOf va ≠ .view → s.cachesOf v = v) ∧ (windowOf va ≠ .view ∨ ReplicasCurrent s → HomeSame s v)) ∧
    (∀ u c g', s.meets u acc va c → Runs u g' x →
      ∃ t, exec (.lds size acq sd sa imm) s = .next t ∧
        TrapTaken u t g' (scalarRecord u x (classCode c.cls) (if c.malformed then 64 else 0) c.addr 0))

/-- R67, R99, R105, R256: STS writes the low bytes of sd at its address and nothing else, and advances; one that meets a condition
other than poison traps and writes nothing. -/
def Obligations.ScalarStoreResult : Prop :=
  ∀ (s : State) (g : Group) (x : Split) (size : StSize) (rel : Bool) (sd sa : SReg) (imm : BitVec 9), Runs s g x →
    (rel = true → s.noLaneMemory g ∧ Drained s) →
    let n := match size with | .i8 => 1 | .i16 => 2 | .i32 => 4 | .b64 => 8
    let acc : Acc := { Acc.store n with strict := rel }
    let va := (BitVec.ofInt 64 ((scalarReg g x sa).toInt + imm.toInt)).toNat
    (∀ u r g', s.local u acc va r → Runs u g' x →
      ∃ t, exec (.sts size rel sd sa imm) s = .next t ∧
        Written u t (storeNibbles r.refs (bytesOfNat n (scalarReg g x sd).toNat)) ∧ t.groupIs (g'.went s.cur.split (x.pc + 4)) ∧
        ElsewhereSame (u.cachesOf t) t) ∧
    (∀ u c g', s.meets u acc va c → Runs u g' x →
      ∃ t, exec (.sts size rel sd sa imm) s = .next t ∧
        TrapTaken u t g' (scalarRecord u x (classCode c.cls) (if c.malformed then 80 else 16) c.addr 0))

/-- R106, R107, R242: SATOM and SCAS read the old 8 bytes at their home and write the new ones in one step, SCAS only where the
old value equals sb, and sc receives the old value; nothing else is written. An access that meets a condition other than poison traps
and writes nothing. -/
def Obligations.ScalarAtomicResult : Prop :=
  ∀ (s : State) (g : Group) (x : Split) (scope : Scope) (ar : Bool) (sa sb sc : SReg), Runs s g x →
    (ar = true → s.noLaneMemory g ∧ Drained s) →
    let acc : Acc := { Acc.store 8 with strict := true }
    let va := (scalarReg g x sa).toNat
    (∀ u r g', s.local u acc va r → Runs u g' x →
      let old := BitVec.ofNat 64 (natOfBytes (u.readRefs u.agent true r.refs))
      let after := ((g'.newer (ar && wideScope scope)).wrote s.cur.split sc old).went s.cur.split (x.pc + 4)
      (∀ op, (op = .add ∨ op = .exch ∨ u.pcieHost r.refs = false) →
        ∃ t, exec (.satom op scope ar sa sb sc) s = .next t ∧ t.groupIs after ∧ ElsewhereSame (u.cachesOf t) t ∧
          Written u t (storeNibbles r.refs (bytesOfNat 8 (satomValue op old (scalarReg g x sb)).toNat))) ∧
      (∃ t, exec (.scas scope ar sa sb sc) s = .next t ∧ t.groupIs after ∧ ElsewhereSame (u.cachesOf t) t ∧
        Written u t (if old = scalarReg g x sb then storeNibbles r.refs (bytesOfNat 8 (scalarReg g x sc).toNat) else []))) ∧
    (∀ u c g', s.meets u acc va c → Runs u g' x →
      let p := scalarRecord u x (classCode c.cls) (if c.malformed then 80 else 16) c.addr 0
      (∀ op, ∃ t, exec (.satom op scope ar sa sb sc) s = .next t ∧ TrapTaken u t g' p) ∧
      ∃ t, exec (.scas scope ar sa sb sc) s = .next t ∧ TrapTaken u t g' p)

/-! Handing work to the lane stream. -/

/-- R28, R30, R114 to R117: SETB, MSET, QCLR, LX and LXR enqueue their entries all together, each tagged with the split's mask, when
the queue has room for them, and wait for room else; the words of LX and LXR are those at LCB + 12 × index. -/
def Obligations.LaneEnqueueResult : Prop :=
  ∀ (s : State) (g : Group) (x : Split), Runs s g x →
    let enqueuesFrom (u : State) (g' : Group) (i : Instr) (items : List LaneItem) : Prop :=
      let entry (item : LaneItem) : LaneEntry := ⟨item, x.mask, x.pc, x.region.map (·.irb), u.stamp⟩
      if g'.laneQ.length + items.length ≤ 64 then
        exec i s = .next (u.tick.putGroup (Group.went { g' with laneQ := g'.laneQ ++ items.map entry } s.cur.split (x.pc + 4)))
      else ∃ t, exec i s = .next t ∧ Waits u t g' (.room (items.map entry))
    let enqueues := enqueuesFrom s g
    let lcb := s.curLcb
    let words (u : State) (g' : Group) (first : Nat) (bs : List (List Byte)) : Prop :=
      s.wordsReady s.agent lcb first bs.length = (u, true) ∧ Runs u g' x ∧
        ∀ j b, bs[j]? = some b → u.codeRead u.agent true ((lcb + 12 * (first + j)) % 2 ^ 64) 12 = .ok b
    let items (first : Nat) (bs : List (List Byte)) : List LaneItem :=
      bs.zipIdx.map fun b => .word (natOfBytes b.1) (BitVec.ofNat 20 (first + b.2))
    (∀ b sa, enqueues (.setb b sa) [.setb b (scalarReg g x sa)]) ∧
    (∀ m sa, m ≠ 0 → enqueues (.mset m sa) [.mset m (scalarReg g x sa)]) ∧
    (∀ q, enqueues (.qclr q) [.closeQ q]) ∧
    (∀ (c : BitVec 6) (ix : BitVec 20) bs u g', ix.toNat + c.toNat < 2 ^ 20 → bs.length = c.toNat + 1 → words u g' ix.toNat bs →
      enqueuesFrom u g' (.lx c ix) (items ix.toNat bs)) ∧
    (∀ sa sb bs u g', bs.length = (scalarReg g x sb).toNat → 1 ≤ bs.length → bs.length ≤ 64 →
      (scalarReg g x sa).toNat + bs.length ≤ 2 ^ 20 → words u g' (scalarReg g x sa).toNat bs →
      enqueuesFrom u g' (.lxr sa sb) (items (scalarReg g x sa).toNat bs))

/-- R33, R118, R119: MRD writes the whole mask to sa and VRD a lane of a register or pair, zero-extended, once no queued entry
writes what they read; until then they stall. R20, R114: MSET to m0, LX past index 0xF_FFFF, LXR with a count outside 1 to 64 or
past the last index, and VRD of a lane at or above W, of an unallocated register or of an odd pair raise ILLEGAL and enqueue nothing. -/
def Obligations.LaneReadBackResult : Prop :=
  (∀ (s : State) (g : Group) (x : Split), Runs s g x →
      (∀ sa m, (∀ e ∈ g.laneQ, e.writesMask m.toNat = false) →
        exec (.mrd sa m) s = .next (s.resulted g x sa (getVec g.m m.toNat 0))) ∧
      (∀ sa (m : MReg), (∃ e ∈ g.laneQ, e.writesMask m.toNat = true) → ∃ t, exec (.mrd sa m) s = .next t ∧ Stalled s t g) ∧
      (∀ w sa sb sc, let l := (scalarReg g x sb).toNat
        let n := (scalarReg g x sc).toNat
        l < 64 → n < g.nregs → (w = true → n % 2 = 0) →
        (∀ e ∈ g.laneQ, e.writesReg n = false ∧ (w = true → e.writesReg (n + 1) = false)) →
        exec (.vrd w sa sb sc) s = .next (s.resulted g x sa
          (if w then g.elem (n + 1) l ++ g.elem n l else (g.elem n l).setWidth 64)))) ∧
  (∀ (s : State) (g : Group) (x : Split), Runs s g x →
      let p := scalarRecord s x 0x01 0 0 0
      (∀ sa, Traps (.mset 0 sa) s g p) ∧
      (∀ (c : BitVec 6) (ix : BitVec 20), 2 ^ 20 ≤ ix.toNat + c.toNat → Traps (.lx c ix) s g p) ∧
      (∀ sa sb, (scalarReg g x sb).toNat = 0 ∨ 64 < (scalarReg g x sb).toNat ∨
          2 ^ 20 < (scalarReg g x sa).toNat + (scalarReg g x sb).toNat → Traps (.lxr sa sb) s g p) ∧
      (∀ w sa sb sc, 64 ≤ (scalarReg g x sb).toNat ∨ g.nregs ≤ (scalarReg g x sc).toNat ∨
          (w = true ∧ (scalarReg g x sc).toNat % 2 = 1) → Traps (.vrd w sa sb sc) s g p))

/-- R285 to R287, R281: STRM of a well-formed record opens its stream through a queue entry; a counted one is also a command on its
counter; a malformed record raises QUEUE. -/
def Obligations.StreamOpenResult : Prop :=
  ∀ (s v : State) (g g' : Group) (x : Split) (w : Wg) (q : QReg) (sa : SReg) (r : List Byte),
    Runs s g x → s.noLaneMemory g → s.reads v (scalarReg g x sa).toNat 64 16 r → Runs v g' x → v.wg? s.cur.wg = some w →
    (strmMalformed r = true → ∃ t, exec (.strm q sa) s = .next t ∧ TrapTaken v t g' (scalarRecord v x 0x09 0 0 0)) ∧
    (strmMalformed r = false → g'.laneQ.length < 64 →
      let entry (cmd : Option (Nat × Nat)) : LaneEntry := ⟨.openQ q r cmd, x.mask, x.pc, x.region.map (·.irb), v.stamp⟩
      let after (cmd : Option (Nat × Nat)) : Group := Group.went { g' with laneQ := g'.laneQ ++ [entry cmd] } s.cur.split (x.pc + 4)
      (strmCounted r = false → exec (.strm q sa) s = .next (v.tick.putGroup (after none))) ∧
      (strmCounted r = true → Drained v → v.inFlight v.curCore < 1024 →
        exec (.strm q sa) s = .next (State.putGroup
          (v.tick.modWg s.cur.wg fun w => w.withCommand (strmK r) (.stream s.cur.g false) none (strmScope r) false)
          (after (some (strmK r, (w.counter (strmK r)).issued + 1))))))

/-! Barriers and waits. -/

/-- R191 to R197: ARRIVE is one arrival on the own word and gives its token; WAIT ends, as an acquire, when its token is passed, and
waits else; SYNC arrives and then waits for its token; a WAIT or SYNC that holds a token from before a pre-emption waits for that one,
and arrives no second time; the acquire is at .cl or wider once an engine has arrived on the word. REMOTE arrives on the word of the
workgroup at a rank. An expected count outside 1 to 1,023 raises ILLEGAL, a REMOTE rank outside the cluster ADDRESS; neither
arrives. -/
def Obligations.BarrierResult : Prop :=
  (∀ (s : State) (g : Group) (x : Split) (w : Wg) (cl : Bool) (bar : BitVec 4) (sa sb : SReg),
      Runs s g x → s.wg? s.cur.wg = some w →
      let c := (scalarReg g x sa).toNat
      let b := getVec w.barriers bar.toNat Barrier.zero
      let wide : Bool := cl || b.engine
      let token := x.syncToken.getD ((scalarReg g x sb).setWidth 32)
      (tokenPassed b token → exec (.barWait cl bar sb) s = .next ((s.emptied wide).jumped (g.newer wide) (x.pc + 4))) ∧
      (¬ tokenPassed b token → ∃ t, exec (.barWait cl bar sb) s = .next t ∧ Waits s t g (.barrier bar.toNat token cl)) ∧
      (∀ k, x.syncToken = some k →
        (tokenPassed b k → exec (.barSync cl bar sa sb) s =
          .next ((s.emptied wide).resulted (g.newer wide) x sb (k.setWidth 64))) ∧
        (¬ tokenPassed b k → ∃ t, exec (.barSync cl bar sa sb) s = .next t ∧ Waits s t g (.sync bar.toNat k cl sb))) ∧
      (1 ≤ c → c ≤ 1023 → s.noLaneMemory g → Drained s →
        let u := s.modWg s.cur.wg fun w => w.arrived bar.toNat c
        exec (.barArrive cl bar sa sb) s = .next (u.resulted g x sb (b.phase.setWidth 64)) ∧
        (x.syncToken = none →
          (b.arrived1 c).phase ≠ b.phase → exec (.barSync cl bar sa sb) s =
            .next ((u.emptied wide).resulted (g.newer wide) x sb (b.phase.setWidth 64))) ∧
        (x.syncToken = none → (b.arrived1 c).phase = b.phase →
          ∃ t, exec (.barSync cl bar sa sb) s = .next t ∧ Waits u t g (.sync bar.toNat b.phase cl sb)) ∧
        (∀ sd v y, s.rankWg s.cur.wg (scalarReg g x sd).toNat = some v → (scalarReg g x sd).toNat < (s.clusterOf s.cur.wg).2 →
          s.wg? v = some y → y.state = .resident →
          exec (.barRemote bar sa sb sd) s = .next ((s.modWg v fun w => w.arrived bar.toNat c).resulted g x sb
            ((getVec y.barriers bar.toNat Barrier.zero).phase.setWidth 64))))) ∧
  (∀ (s : State) (g : Group) (x : Split) (cl : Bool) (bar : BitVec 4) (sa sb sc : SReg), Runs s g x →
      let c := (scalarReg g x sa).toNat
      (c = 0 ∨ 1023 < c →
        Traps (.barArrive cl bar sa sb) s g (scalarRecord s x 0x01 0 0 0) ∧
        (x.syncToken = none → Traps (.barSync cl bar sa sb) s g (scalarRecord s x 0x01 0 0 0)) ∧
        Traps (.barRemote bar sa sb sc) s g (scalarRecord s x 0x01 0 0 0)) ∧
      (1 ≤ c → c ≤ 1023 → (s.clusterOf s.cur.wg).2 ≤ (scalarReg g x sc).toNat →
        Traps (.barRemote bar sa sb sc) s g (scalarRecord s x 0x04 0 0 0)))

/-- R269, R270, R284: WAITC ends at once, as an acquire, when KDONE has reached its value and no failed command with TRAP is covered,
and parks else; WAITC.fe ends when its granule is full, whose bit stays, as an acquire at .cl or wider where an engine set it full,
parks while it is empty, raises ADDRESS outside the vault window or the allocation and ALIGN-DATA on a misaligned address. A WAITC that ends and covers a failed command with TRAP raises the class of the
lowest-numbered such command, parked at the WAITC with a record that names counter and command; the command's trap is gone. -/
def Obligations.CounterWaitResult : Prop :=
  (∀ (s : State) (g : Group) (x : Split) (w : Wg) (scope : Scope) (k : KReg) (sa : SReg),
      Runs s g x → s.wg? s.cur.wg = some w → s.noLaneMemory g →
      let v := (scalarReg g x sa).toNat
      let after (wide : Bool) : State := (s.emptied wide).jumped (g.newer wide) (x.pc + 4)
      (v ≤ (w.counter k.toNat).completed → (∀ c ∈ w.cmdTraps, ¬ (c.counter = k.toNat ∧ c.num ≤ v)) →
        exec (.waitc scope k sa) s = .next (after (wideScope scope))) ∧
      ((w.counter k.toNat).completed < v →
        ∃ t, exec (.waitc scope k sa) s = .next t ∧ Waits s t g (.counter k.toNat v scope)) ∧
      (windowOf v ≠ .vault ∨ s.vaultTarget s.agent v 1 = none → Traps (.waitcFe scope sa) s g (scalarRecord s x 0x04 0 v 0)) ∧
      (∀ u off, windowOf v = .vault → s.vaultTarget s.agent v 1 = some (u, off) →
        if v % 16 ≠ 0 then Traps (.waitcFe scope sa) s g (scalarRecord s x 0x03 0 v 0)
        else if ((s.wg? u).map fun y => y.full.contains (off / 16)).getD false then
          exec (.waitcFe scope sa) s =
            .next (after (wideScope scope || ((s.wg? u).map fun y => y.engineFull.contains (off / 16)).getD false))
        else ∃ t, exec (.waitcFe scope sa) s = .next t ∧ Waits s t g (.granule u (off / 16) scope))) ∧
  (∀ (s : State) (g : Group) (x : Split) (w : Wg) (scope : Scope) (k : KReg) (sa : SReg) (c : CmdTrap) (cls : TrapClass),
      Runs s g x → s.wg? s.cur.wg = some w → s.noLaneMemory g → (scalarReg g x sa).toNat ≤ (w.counter k.toNat).completed →
      c ∈ w.cmdTraps → c.counter = k.toNat → c.num ≤ (scalarReg g x sa).toNat →
      (∀ d ∈ w.cmdTraps, d.counter = k.toNat → d ≠ c → c.num < d.num) → statusClass c.status c.faultCode = some cls →
      let u := (s.emptied (wideScope scope)).modWg s.cur.wg fun w => { w with cmdTraps := w.cmdTraps.filter (· != c) }
      let p := scalarRecord s x (classCode cls) 0 c.num (c.counter % 16 + c.status % 2 ^ 16 * 16 + c.faultCode % 256 * 2 ^ 20)
      ∃ t, exec (.waitc scope k sa) s = .next t ∧
        TrapTaken u t (g.newer (wideScope scope)) { p with
          origin := .command s.cur.wg s.cur.g s.cur.split
          record := p.record.take 1 ++ [2] ++ p.record.drop 2 })

/-! Handing work to the engines. -/

/-- R278, R293 to R295: CPY and CPYR read their record and either open a collective, a command with the counter's next number, or add
their slice to the open one of their counter; the slice holds group, opcode, start condition, record, completion address (none with
s0), and whether it fails the checks of R296 that are made as it arrives. -/
def Obligations.CopyIssueResult : Prop :=
  ∀ (s v : State) (g g' : Group) (x : Split) (y w : Wg) (reduce : Bool) (k : KReg) (sa sb : SReg) (st : Option StartCond) (r : List Byte),
    Runs s g x → s.noLaneMemory g → s.wg? s.cur.wg = some y →
    s.reads v (scalarReg g x sa).toNat 128 16 r → Runs v g' x → v.wg? s.cur.wg = some w → y.cmds = w.cmds → Drained v →
    recordAligned (scalarReg g x sb).toNat →
    let i : Instr := if reduce then .cpyr k sa sb st else .cpy k sa sb st
    let start := st.map fun c => (c.counter.toNat, (scalarReg g x c.value).toNat)
    let done := namedRecord g x sb
    let bare : Slice := ⟨s.cur.g, reduce, start, r, done, false, false, [], []⟩
    let slice (f : Slice) (n : Nat) : Slice :=
      ⟨s.cur.g, reduce, start, r, done, sliceRejected f bare k.toNat n,
        v.sliceOutside (v.wgAgent s.cur.wg s.cur.g) false (copyRanks [f]) bare, [], []⟩
    (w.openCopy k.toNat = none → s.inFlight s.curCore < 1024 →
      (∀ c ∈ w.cmds, c.counter = k.toNat → c.num ≤ (w.counter k.toNat).issued) →
      let n := (w.counter k.toNat).issued + 1
      ∃ t w', exec i s = .next t ∧ HandedOver v t g' x ∧ t.wg? s.cur.wg = some w' ∧
        w'.cmds = w.cmds ++ [⟨k.toNat, n, .copy [slice bare n] false 0, start, slScope r, slTrap r, w.core, none⟩] ∧
        (w'.counter k.toNat).issued = n) ∧
    (∀ c f xs, w.openCopy k.toNat = some c → c.kind = .copy (f :: xs) false 0 → (∀ y ∈ f :: xs, y.group ≠ s.cur.g) →
      v.cmd? ⟨s.cur.wg, c.counter, c.num⟩ = some c → c.counter = k.toNat →
      ∃ t w', exec i s = .next t ∧ HandedOver v t g' x ∧ t.wg? s.cur.wg = some w' ∧
        w'.cmds = modWhere (fun d => d.counter == c.counter && d.num == c.num)
          (fun d => { d with kind := .copy (d.slices ++ [slice f c.num]) false 0, trap := d.trap || slTrap r }) w.cmds ∧
        w'.counters = w.counters)

/-- R332, R333, R346: BKLOAD, BKRUN and BKFENCE number one command, add it at the end of every member's queue and of no other, and
BKFENCE waits for its completion. The words of a BKLOAD are read one after another, each as a load of 4 bytes. -/
def Obligations.BankIssueResult : Prop :=
  (∀ (s : State) (va : Nat), s.readWords va 0 = .ok (s, [])) ∧
  (∀ (s u v : State) (va n : Nat) (ws : List Nat) (bs : List Byte), s.readWords va n = .ok (u, ws) →
      u.reads v ((va + 4 * n) % 2 ^ 64) 4 1 bs → s.readWords va (n + 1) = .ok (v, ws ++ [natOfBytes bs])) ∧
  ∀ (s v u : State) (g g' : Group) (x : Split) (w : Wg) (kind : BankKind) (sa sb : SReg) (st : Option StartCond) (r : List Byte)
    (words : List Nat),
    Runs s g x → s.noLaneMemory g → s.reads v (scalarReg g x sa).toNat 64 16 r → recordAligned (scalarReg g x sb).toNat →
    v.bankFault kind r = none →
    (if kind = .load ∧ 1 ≤ bkCount r ∧ bkCount r ≤ 256 then v.readWords (bkCode r) (bkCount r) = .ok (u, words)
      else u = v ∧ words = []) →
    Runs u g' x → u.wg? s.cur.wg = some w → Drained u → u.inFlight u.curCore < 1024 →
    let i : Instr := match kind with | .load => .bkload sa sb | .run => .bkrun sa sb st | .fence => .bkfence sa sb
    let start := if kind = .run then st.map fun c => (c.counter.toNat, (scalarReg g x c.value).toNat) else none
    let n := (w.counter (bkCounter r)).issued + 1
    ∃ t c w' h, exec i s = .next t ∧ MemorySame u t ∧ t.bankCmds = u.bankCmds ++ [c] ∧
      c.id = u.nextBank ∧ t.nextBank = u.nextBank + 1 ∧ c.kind = kind ∧ c.wg = s.cur.wg ∧ c.group = s.cur.g ∧ c.num = n ∧
      c.completion = namedRecord g x sb ∧ c.start = start ∧ c.words = words ∧ c.pending.Nodup ∧
      (∀ p, p < 512 → (t.pc p).queue = (u.pc p).queue ++ (if p ∈ c.pending then [c.id] else []) ∧ (t.pc p).run = (u.pc p).run ∧
        (t.pc p).store = (u.pc p).store ∧ (t.pc p).tag = (u.pc p).tag) ∧
      t.wg? s.cur.wg = some w' ∧
      w'.cmds = w.cmds ++ [⟨bkCounter r, n, .bank u.nextBank, start, bkScope r, bkTrap r, w.core, none⟩] ∧
      t.curGroup = some h ∧ RegistersSame g' h ∧
      (if kind = .fence then
        h = g'.modSplit s.cur.split fun y => { y with status := .waiting (.bkfence (bkCounter r) n), stalled := true }
      else StandsAt h s.cur.split x (x.pc + 4))

/-- R272: VIEWB of a legal image writes its 128 bytes to the descriptor and sc := OK; an illegal image or a number above 0xFFFF
writes nothing and sc := REJECTED. -/
def Obligations.ViewBindResult : Prop :=
  ∀ (s v : State) (g g' : Group) (x : Split) (sa sb sc : SReg) (image : List Byte) (rs : List ByteRef),
    Runs s g x → s.noLaneMemory g → s.reads v (scalarReg g x sb).toNat 128 16 image → Runs v g' x →
    let view := (scalarReg g x sa).toNat
    (0xFFFF < view ∨ (parseDesc image).imageOk = false → exec (.viewb sa sb sc) s = .next (v.resulted g' x sc 7)) ∧
    (view ≤ 0xFFFF → (parseDesc image).imageOk = true → windowOf (v.descVa v.curCtx view) = .ordinary →
      v.resolveFlat v.agent (Acc.load 128) (v.descVa v.curCtx view) = .ok rs → rs.length = 128 → (∀ b ∈ rs, v.ownRef b) →
      ∃ t, exec (.viewb sa sb sc) s = .next t ∧ Written v t (storeNibbles rs image) ∧
        t.groupIs ((g'.wrote s.cur.split sc 0).went s.cur.split (x.pc + 4)))

/-- R273, R274: VIEWI writes control word 0 to the descriptor, RMINV makes the map entry UNMAPPED with gen + 1 as one change; each is
one more command on its counter, which holds what still uses the old image or entry; nothing else is written. A view above 0xFFFF is
a REJECTED command. -/
def Obligations.ViewCommandResult : Prop :=
  ∀ (s : State) (g : Group) (x : Split) (w : Wg) (k : KReg) (sa sb sc : SReg), Runs s g x → s.wg? s.cur.wg = some w →
    s.noLaneMemory g → Drained s → s.inFlight s.curCore < 1024 → recordAligned (scalarReg g x sb).toNat →
    let view := (scalarReg g x sa).toNat
    let entry := (scalarReg g x sc).toNat
    let done := namedRecord g x sb
    let issued (t : State) (kind : CmdKind) : Prop :=
      (∃ w', t.wg? s.cur.wg = some w' ∧ w'.cmds = (w.withCommand k.toNat kind none .dev false).cmds ∧
        w'.counters = (w.withCommand k.toNat kind none .dev false).counters) ∧ t.groupIs (g.went s.cur.split (x.pc + 4))
    (0xFFFF < view →
      (∃ t, exec (.viewi k sa sb) s = .next t ∧ Written s t [] ∧ issued t (.viewi done 7 0 view Holders.none)) ∧
      (∃ t, exec (.rminv k sa sb sc) s = .next t ∧ Written s t [] ∧ issued t (.rminv done 7 0 view entry Holders.none))) ∧
    (∀ rs, view ≤ 0xFFFF → windowOf (s.descVa s.curCtx view) = .ordinary →
      s.resolveFlat s.agent (Acc.load 128) (s.descVa s.curCtx view) = .ok rs → rs.length = 128 → (∀ b ∈ rs, s.ownRef b) →
      ∃ t, exec (.viewi k sa sb) s = .next t ∧ Written s t (storeNibbles (rs.take 4) [0, 0, 0, 0]) ∧
        issued t (.viewi done 0 0 view (s.holders s.curCtx (Uses.ofView view)))) ∧
    (∀ d rs, view ≤ 0xFFFF → s.descOf s.agent 0 view = .ok d → d.kind = some .kvmap → entry < d.entryCount →
      s.resolveFlat s.agent (Acc.load 16) ((d.index + 16 * entry) % 2 ^ 64) = .ok rs → rs.length = 16 →
      (∀ b ∈ rs, s.ownRef b) →
      let e := natOfBytes (s.readRefs s.agent true rs)
      ∃ t, exec (.rminv k sa sb sc) s = .next t ∧
        Written s t (storeNibbles rs (bytesOfNat 16 (setFld (setFld e 0 3 3) 8 16 (fld e 8 16 + 1)))) ∧
        issued t (.rminv done 0 0 view entry (s.holders s.curCtx (Uses.ofEntry view entry))))

/-- R307, R308: OCLAIM takes the lowest run of free slots, which are then CLAIMED, empty and the workgroup's, and writes the first
number to sa, or waits when there is no run; OREL of an own claimed slot makes it RELEASING; of any other raises SLOT. -/
def Obligations.SlotClaimResult : Prop :=
  ∀ (s : State) (g : Group) (x : Split) (sa : SReg), Runs s g x → s.curCore < 192 →
    (∀ (c : BitVec 2) first, s.claimWaits s.curCore = [] →
      (∀ i, i ≤ c.toNat → (s.slot s.curCore (first + i)).state = .free) → first + c.toNat < 32 →
      (∀ k, k < first → ∃ i, i ≤ c.toNat ∧ (s.slot s.curCore (k + i)).state ≠ .free) →
      exec (.oclaim c sa) s = .next (State.resulted
        (s.modCore s.curCore fun y => { y with slots := Vector.ofFn fun i =>
          if first ≤ i.val ∧ i.val ≤ first + c.toNat then { Slot.reset with state := .claimed, owner := s.cur.wg } else y.slots[i] })
        g x sa (BitVec.ofNat 64 first))) ∧
    (∀ c : BitVec 2, s.claimWaits s.curCore = [] →
      (∀ k, k + c.toNat < 32 → ∃ i, i ≤ c.toNat ∧ (s.slot s.curCore (k + i)).state ≠ .free) →
      ∃ t, exec (.oclaim c sa) s = .next t ∧ Waits s t g (.oclaim (c.toNat + 1) sa s.stamp)) ∧
    (let n := (scalarReg g x sa).toNat
     if n < 32 ∧ (s.slot s.curCore n).state = .claimed ∧ (s.slot s.curCore n).owner = s.cur.wg then
       exec (.orel sa) s = .next (State.jumped
         (s.modSlot s.curCore n fun y => { y with state := .releasing, released := s.stamp }) g (x.pc + 4))
     else Traps (.orel sa) s g (scalarRecord s x 0x0B 0 0 0))

/-- R309: OPLD of a well-formed tile record into an own claimed slot is one more load of that slot; a data load empties the data
full bit, a segment load the segment's; no other slot changes. A slot not claimed raises SLOT. -/
def Obligations.OperandLoadIssueResult : Prop :=
  ∀ (s v v' w u : State) (g g' : Group) (x : Split) (kind : OpldKind) (fe : Bool) (sa sb : SReg) (r conv : List Byte)
    (rows : List LoadRow) (st : List ByteRef), Runs s g x → s.noLaneMemory g → s.inFlight s.curCore < 1024 →
    let n := (scalarReg g x sa).toNat
    ((scalarReg g x sb).toNat % 16 = 0 → s.holds s.curCore s.cur.wg n = false →
      Traps (.opld kind fe sa sb) s g (scalarRecord s x 0x0B 0 0 0)) ∧
    (s.holds s.curCore s.cur.wg n = true → s.reads v (scalarReg g x sb).toNat 64 16 r → tileMalformed kind r = false →
      (if kind = .conv then v.reads v' (tlConv r) 64 64 conv ∧ convMalformed conv (matBits (tlFmt r) / 8) = false
        else v' = v ∧ conv = []) →
      v'.rowsReady kind r conv = (w, true) → w.loadRows kind fe r conv (tlRows r) = .ok (rows, u) → u.statusArray r = .ok st →
      Runs u g' x → Drained u →
      ∃ t l, exec (.opld kind fe sa sb) s = .next t ∧ HandedOver u t g' x ∧
        l.num = u.stamp ∧ l.kind = kind ∧ l.rows = rows ∧ l.status = st ∧ l.fe = fe ∧ l.wg = s.cur.wg ∧ l.group = s.cur.g ∧
        l.hint = tlHint r ∧ l.granules = (if fe then granulesOf (rows.flatMap LoadRow.refs) else []) ∧
        (∀ m, m < 32 → t.slot u.curCore m =
          let y := u.slot u.curCore m
          if m ≠ n then y
          else if kind = .segr ∨ kind = .segc then
            { y with loads := y.loads ++ [l], lastSeg := u.stamp, d := { y.d with segFull := false } }
          else { y with loads := y.loads ++ [l], lastData := u.stamp, d := { y.d with dataFull := false } }) ∧
        ∀ c m, c ≠ u.curCore → t.slot c m = u.slot c m)

/-- R316, R317: GANG of an accepted value sets the group's gang register and starts its count anew, raises GANG on a refused one,
and stalls while an MMA of the group is latched; an MMA of a group that issues for no gang raises GANG. -/
def Obligations.GangResult : Prop :=
  ∀ (s : State) (g : Group) (x : Split) (w : Wg) (sa : SReg), Runs s g x → s.wg? s.cur.wg = some w →
    let v := scalarReg g x sa
    (gangOk v.toNat w.groups.length s.cur.g = false → Traps (.gang sa) s g (scalarRecord s x 0x0A 0 0 0)) ∧
    (gangOk v.toNat w.groups.length s.cur.g = true →
      if w.seqs.any fun q => q.confluent.isNone && q.arrived.contains s.cur.g then ∃ t, exec (.gang sa) s = .next t ∧ Stalled s t g
      else exec (.gang sa) s =
        .next (s.putGroup (Group.went { g with gang := v, gangCount := 0 } s.cur.split (x.pc + 4)))) ∧
    (∀ t oA oB ac se ca, g.gang = 0 ∨ s.cur.g ∉ gangIssuers g.gang.toNat →
      Traps (.mma t oA oB sa ac se ca) s g (scalarRecord s x 0x0A 0 0 0))

/-- R317: an MMA waits while 16 sequences of its gang have arrivals and are not complete; one whose fields agree with its gang's
latched sequence adds its group to the arrivals, and with the last ISSUE member the sequence is confluent; the first arrival latches
the sequence with its side arrays and the numbers of its slots' last fills; a disagreement raises GANG. -/
def Obligations.MmaArrivalResult : Prop :=
  ∀ (s v : State) (g g' : Group) (x : Split) (w : Wg) (t oA oB : BitVec 5) (sa : SReg) (ac se ca : Bool) (fb : List Byte),
    Runs s g x → g.gang ≠ 0 → s.cur.g ∈ gangIssuers g.gang.toNat → windowOf (scalarReg g x sa).toNat = .vault →
    s.reads v (scalarReg g x sa).toNat 32 32 fb → Runs v g' x → v.wg? s.cur.wg = some w → g'.gang = g.gang →
    let i : Instr := .mma t oA oB sa ac se ca
    let n := g'.gangCount + 1
    let mine := w.seqs.filter fun q => q.gang == g.gang
    let arrives (v : State) (g' : Group) (w : Wg) (q : Seq) : Prop :=
      ∃ u w' h q', exec i s = .next u ∧ MemorySame v u ∧ u.wg? s.cur.wg = some w' ∧
        w'.seqs = (w.seqs.filter fun y => y.firstStamp != q.firstStamp) ++ [q'] ∧
        q' = { q with arrived := q.arrived ++ [s.cur.g], arrivals := q.arrivals ++ [(s.cur.g, v.stamp)]
                      confluent := if ∀ m ∈ gangIssuers g.gang.toNat, m ∈ q.arrived ++ [s.cur.g] then some v.stamp else none } ∧
        u.curGroup = some h ∧ RegistersSame g' h ∧ h.gangCount = n ∧ StandsAt h s.cur.split x (x.pc + 4)
    (16 ≤ mine.length → ∃ u, exec i s = .next u ∧ Stalled v u g') ∧
    (mine.length < 16 →
      (∀ q, mine.find? (fun q => q.seq == n && q.confluent.isNone) = some q →
        if q.fields = ⟨t.toNat, oA.toNat, oB.toNat, ac, se, ca, fb⟩ then arrives v g' w q
        else ∃ u, exec i s = .next u ∧ TrapTaken v u g' (scalarRecord v x 0x0A 0 0 0)) ∧
      (∀ v1 v2 g2 w2 a b, mine.find? (fun q => q.seq == n && q.confluent.isNone) = none →
        v.holds v.curCore s.cur.wg oA.toNat = true → v.holds v.curCore s.cur.wg oB.toNat = true →
        fbOk fb = true → fbFits fb t.toNat se ca = true →
        (if fbVault fb false then v.reads v1 (ownVault (fbSide fb false)) 512 1 a else v1 = v ∧ a = []) →
        (if fbVault fb true then v1.reads v2 (ownVault (fbSide fb true)) 512 1 b else v2 = v1 ∧ b = []) →
        Runs v2 g2 x → v2.wg? s.cur.wg = some w2 →
        arrives v2 g2 w2
          { gang := g.gang, seq := n, tile := t.toNat, oA := oA.toNat, oB := oB.toNat, accumulate := ac, seg := se, causal := ca,
            fmt := fb, sideA := a, sideB := b, arrived := [], arrivals := [], firstStamp := v2.stamp, confluent := none,
            dataA := (v2.slot v2.curCore oA.toNat).lastData, dataB := (v2.slot v2.curCore oB.toNat).lastData,
            segA := (v2.slot v2.curCore oA.toNat).lastSeg, segB := (v2.slot v2.curCore oB.toNat).lastSeg }))

/-- R201 to R204: TQPUSH of a valid item adds it at the end of the reach's queue, sb receives its handle and sc OK; a full queue gives
BUSY and an invalid item REJECTED, and the queue is unchanged. TQPULL removes the item it finds, the eligible one of its context with
the highest priority and, among equals, pushed first, writes its 64 bytes to the buffer and nothing else, and sb and sc receive handle
and OK; with no eligible item it parks. TQJOIN of a handle that names a parent item of its context with joins left takes one join from
it and sc := OK; any other handle gives REJECTED and changes no item. A TQPUSH through a door awaits its owner, who answers with handle
and status. -/
def Obligations.TaskQueueResult : Prop :=
  (∀ (s v : State) (g g' : Group) (x : Split) (sa sb sc : SReg) (r : List Byte), Runs s g x → s.noLaneMemory g →
      s.reads v (scalarReg g x sa).toNat 64 16 r → Runs v g' x → v.curCore < 192 →
      let q := reachOfCore v.curCore
      let gives (g : Group) (handle st : Word) : Group :=
        ((g.wrote s.cur.split sb handle).wrote s.cur.split sc st).went s.cur.split (x.pc + 4)
      let refused (st : Word) : State := v.putGroup (((g'.wrote s.cur.split sc st).wrote s.cur.split sb 0).went s.cur.split (x.pc + 4))
      (v.doorOf (scalarReg g x sa).toNat = none →
        (itemFieldsOk r = false ∨ v.itemFull r = none ∨ v.itemEmpty r = none → exec (.tqpush sa sb sc) s = .next (refused 7)) ∧
        (∀ full empty, itemFieldsOk r = true → v.itemFull r = some full → v.itemEmpty r = some empty →
          (65536 ≤ (v.reach q).items.length → exec (.tqpush sa sb sc) s = .next (refused 9)) ∧
          ((v.reach q).items.length < 65536 → ReplicasCurrent v →
            ∃ t i, exec (.tqpush sa sb sc) s = .next t ∧ MemorySame v t ∧ (t.reach q).items = (v.reach q).items ++ [i] ∧
              i.ctx = v.curCtx ∧ i.order = v.stamp ∧ i.priority = v.priorityOf s.cur.wg ∧ i.join = recNat r 4 4 ∧ i.full = full ∧
              i.empty = empty ∧ i.payload = r ∧ t.curGroup = some (gives g' (BitVec.ofNat 64 (i.slot + i.gen * 2 ^ 16)) 0))))) ∧
  (∀ (s v u : State) (g h : Group) (x y : Split) (sa sb sc : SReg) (r : List Byte) (d a : Nat) (os : Option (List Outcome)),
      Runs s g x → s.noLaneMemory g → s.readRecord (scalarReg g x sa).toNat 64 16 = .ok (v, r) →
      v.doorOf (scalarReg g x sa).toNat = some (d, a) → v.remoteBatch v.issuer v.curCtx engineTask [(d, a, .push r)] = (u, os) →
      Runs u h y → u.cur = s.cur → y.pc = x.pc →
      (os = none → exec (.tqpush sa sb sc) s = .next (u.putGroup (h.modSplit s.cur.split fun z =>
        { z with status := .waiting (.remote 0), stalled := true }))) ∧
      (∀ bs, os = some [.performed bs] → exec (.tqpush sa sb sc) s =
        .next (u.putGroup (((h.wrote s.cur.split sb (BitVec.ofNat 64 (recNat bs 0 8))).wrote s.cur.split sc
          (BitVec.ofNat 64 (recNat bs 8 8))).went s.cur.split (x.pc + 4))))) ∧
  (∀ (s : State) (g : Group) (x : Split) (sa sb sc : SReg) (rs : List ByteRef), Runs s g x → s.noLaneMemory g → s.curCore < 192 →
      let va := (scalarReg g x sa).toNat
      let q := reachOfCore s.curCore
      let able (i : Item) : Prop := i ∈ (s.reach q).items ∧ i.ctx = s.curCtx ∧ (i.join = 0 ∨ i.parent = false) ∧
        (∀ f ∈ i.full, ∃ w, s.wg? f.1 = some w ∧ w.state = .resident ∧ f.2 ∈ w.full) ∧
        (∀ f, i.empty = some f → ∃ w, s.wg? f.1 = some w ∧ w.state = .resident ∧ f.2 ∉ w.full)
      va % 64 = 0 → windowOf va = .vault → s.resolveFlat s.agent (Acc.store 64) va = .ok rs → rs.length = 64 → (∀ b ∈ rs, s.ownRef b) →
      (∀ i, able i → i.payload.length = 64 →
        (∀ j, able j → j ≠ i → j.priority < i.priority ∨ (j.priority = i.priority ∧ i.order < j.order)) →
        ∃ t, exec (.tqpull sa sb sc) s = .next t ∧ Written s t (storeNibbles rs i.payload) ∧
          (t.reach q).items = (s.reach q).items.filter (fun j => !(j.slot == i.slot && j.gen == i.gen)) ∧
          t.groupIs ((((g.newer true).wrote s.cur.split sb (BitVec.ofNat 64 (i.slot + i.gen * 2 ^ 16))).wrote s.cur.split sc 0).went
            s.cur.split (x.pc + 4))) ∧
      ((∀ i, ¬ able i) → ∃ t, exec (.tqpull sa sb sc) s = .next t ∧ Waits s t g (.tqpull va sb sc))) ∧
  (∀ (s : State) (g : Group) (x : Split) (sa sc : SReg), Runs s g x → s.noLaneMemory g → Drained s →
      let q := reachOfCore s.curCore
      let named (i : Item) : Bool := i.ctx == s.curCtx && i.slot + i.gen * 2 ^ 16 == (scalarReg g x sa).toNat
      ((∀ i ∈ (s.reach q).items, named i = true → i.parent = false ∨ i.join = 0) →
        exec (.tqjoin sa sc) s = .next (s.resulted g x sc 7)) ∧
      (∀ i, (s.reach q).items.find? named = some i → i.parent = true → i.join ≠ 0 →
        let less := modWhere (fun z => z.slot == i.slot && z.gen == i.gen) fun (z : Item) => { z with join := z.join - 1 }
        exec (.tqjoin sa sc) s =
          .next (State.resulted (s.modReach q fun y => { y with items := less y.items }) g x sc 0)))

/-- R181: LNCH of a valid record adds one QUEUED launch with its record and completion address at the end of the list, and sc := 0;
with 65,536 launches live it waits for room with the record it has read, and then adds that one; of an invalid one it adds none, writes
its completion record if it has one, and sc := REJECTED. -/
def Obligations.LaunchInstructionResult : Prop :=
  ∀ (s : State) (g : Group) (x : Split) (sa sb sc : SReg), Runs s g x →
    let va := (scalarReg g x sa).toNat
    let done := (scalarReg g x sb).toNat
    let goesOn (v : State) (g' : Group) (r : List Byte) (path : List Region) : Prop :=
      (v.liveLaunches < 65536 → Drained v →
        ∃ t l, exec (.lnch sa sb sc) s = .next t ∧ MemorySame v t ∧ t.launches = v.launches ++ [l] ∧ l.ctx = v.curCtx ∧ l.record = r ∧
          l.recordVa = va ∧ l.completion = done ∧ l.state = .queued ∧ l.accepted = v.stamp ∧
          t.curGroup = some ((g'.wrote s.cur.split sc 0).went s.cur.split (x.pc + 4))) ∧
      (65536 ≤ v.liveLaunches →
        ∃ t, exec (.lnch sa sb sc) s = .next t ∧ MemorySame v t ∧ t.launches = v.launches ∧
          t.curGroup = some (g'.modSplit s.cur.split fun y =>
            { y with lnch := some (r, path), status := .waiting .retry, stalled := true }))
    (∀ r path, x.lnch = some (r, path) → goesOn s g r path) ∧
    (∀ v g' r, x.lnch = none → s.noLaneMemory g → s.reads v va 128 16 r → recordAligned done → Runs v g' x →
      let mine := some (((v.launchOf s.cur.wg).map (·.region)).getD 0)
      (∀ path, v.validateLaunch v.curCtx mine r = some path → goesOn v g' r path) ∧
      (v.validateLaunch v.curCtx mine r = none →
        (done = 0 → exec (.lnch sa sb sc) s = .next (v.resulted g' x sc 7)) ∧
        (∀ u q h, done ≠ 0 → v.local u (Acc.store 16) done q → Runs u h x →
          ∃ t, exec (.lnch sa sb sc) s = .next t ∧ Written u t (storeNibbles q.refs (completionBytes 7 0 0)) ∧
            t.groupIs ((h.wrote s.cur.split sc 7).went s.cur.split (x.pc + 4)))))

/-! Lane instructions on registers. -/

/-- R129 to R133: every integer, logic, shift, bit-field and move instruction delivers its result to its active lanes, integers exact
and then wrapped or under .sat clamped, and retires; nothing else changes. -/
def Obligations.LaneIntegerResult : Prop := LaneResult fun g act i => (intClaim g act i).or (bitClaim g act i)

/-- R132 to R140: compares, selects and mask instructions deliver mask bits, values and counts to their active lanes, m0 is never
written; VSHFL, VPERM, VSTEP and VCOMP deliver another lane's value, or the fill with the status bit set; VSCAN delivers the fold of
the active lanes up to, or before, each lane. -/
def Obligations.LaneMaskAndCrossResult : Prop := LaneResult fun g act i => (maskClaim g act i).or (crossClaim g act i)

/-- R146 to R159: every float lane instruction, the conversions, VPACK, VUNPK, VQMX, VQAQ and VDQ deliver their results and OR their
active lanes' flags. -/
def Obligations.LaneFloatResult : Prop := LaneResult fun g act i => (floatClaim g act i).or (convertClaim g act i)

/-- R56 to R60, R160 to R162: XCLR, XADD, XSUB and XRND on the exact accumulator. -/
def Obligations.ExactAccumulatorResult : Prop := LaneResult exactClaim

/-! Lane instructions on memory. -/

/-- R37, R141 to R145, R228, R254: VLD delivers to every active lane the bytes of its access, and under .st the status word to E;
VST writes every active lane's element in ascending lane order, so that the highest lane's bytes stay, and nothing else; VPREF
changes no register and no byte. A lane whose access meets a condition other than poison traps the instruction with the condition of the lowest
such lane and the mask of all such lanes, and nothing is loaded or stored. -/
def Obligations.LaneLoadStoreResult : Prop :=
  ∀ (s : State) (o : MemOp) (g : Group) (e : LaneEntry) (rest : List LaneEntry) (r : Nat → Resolved), o.fe = false →
    let lanes := memLanes g e.tag o
    let act := activeLanes g e.tag o.guard
    let n := tyBits o.ty / 8
    let regs := operandRegs (tyBits o.ty) o.d ++ (if o.bit6 then operandRegs 32 o.e else []) ++ indexRegs o
    let fails (i : Instr) (write : Bool) : Prop := ∀ (u : State) (g' : Group) (bad : List Nat) (c : Nat → Cond) (l : Nat),
      bad = lanes.filter (bad.contains ·) → bad.head? = some l → (∀ k ∈ bad, (c k).cls ≠ .poison) →
      u.curGroup = some g' → u.hostif.params.tierHot = 0 →
      s.laneLooks lanes (memAcc o write) (laneAddr o g) =
        (u, some (lanes.map fun k => (k, if k ∈ bad then ⟨.error (c k), none⟩ else ⟨.ok (r k), none⟩))) →
      (∀ k ∈ lanes, k ∉ bad → u.ownAccess (memAcc o write) (r k)) →
      ∃ t, exec i s = .next t ∧ LaneTrapTaken u.laneTake t g' (maskOf bad) 0
        (laneRecord u g' e (classCode (c l).cls) ((if write then 16 else 0) + if (c l).malformed then 64 else 0) (c l).addr 0 (maskOf bad) 0)
    (LaneRuns s (.vld o) regs g e rest →
      fails (.vld o) false ∧
      (∀ u, s.lanesLocal u lanes (memAcc o false) (laneAddr o g) r →
        ∃ t, exec (.vld o) s = .next t ∧ HomeSame u t ∧ SideSame u t ∧ Acquired u t o lanes ∧
          Retired (u.cachesOf t) t (.vld o) g rest act
            { elem := fun k l =>
                if o.bit6 = true ∧ k = vectorNo o.e then some (BitVec.ofNat 32 ((r l).kv.1 + (r l).kv.2 * 2 ^ 8))
                else elemResult o.ty (tyBits o.ty) o.d (natOfBytes (u.readRefs (u.laneAgent l) (o.order != .rlx || o.bypass) (r l).refs)) k })) ∧
    (LaneRuns s (.vst o) regs g e rest → Releases s o →
      fails (.vst o) true ∧
      (∀ u, s.lanesLocal u lanes (memAcc o true) (laneAddr o g) r →
        ∃ t, exec (.vst o) s = .next t ∧ SideSame u t ∧ Retired (u.cachesOf t) t (.vst o) g rest act {} ∧
          Written u t (lanes.flatMap fun l => storeNibbles (r l).refs (bytesOfNat n (dElem o g l))))) ∧
    (LaneRuns s (.vpref o) (indexRegs o) g e rest →
      ∃ t, exec (.vpref o) s = .next t ∧ HomeSame s t ∧ SideSame s t ∧ Retired (s.cachesOf t) t (.vpref o) g rest act {})

/-- R213, R257, R258: a .fe load of full granules delivers their data, and under .rel and .ar empties them; a .fe store to empty
granules writes its data and fills them; each lane whose granule is in the other state waits, and FE_LANE_PERFORM performs a
waiting lane once its granule allows it. -/
def Obligations.FullEmptyResult : Prop :=
  ∀ (s : State) (load : Bool) (o : MemOp) (g : Group) (e : LaneEntry) (rest : List LaneEntry) (r : Nat → Resolved)
    (gr : Nat → WgIx × Nat),
    let i : Instr := if load then .vld o else .vst o
    let lanes := memLanes g e.tag o
    LaneRuns s i (operandRegs (tyBits o.ty) o.d ++ indexRegs o) g e rest → o.fe = true → Releases s o →
    g.head.performed = 0 →
    s.lanesOwn lanes (memAcc o (!load)) (laneAddr o g) r → (∀ l ∈ lanes, granuleOf (r l) = some (gr l)) →
    let performs (t : State) : Prop :=
      (∀ w, t.tilesOf w = s.tilesOf w) ∧
      (∀ q, t.granuleFull q = if q ∈ lanes.map gr then !(load && feClears o) else s.granuleFull q) ∧
      (if load then HomeSame s t
       else Written s t (lanes.flatMap fun l => storeNibbles (r l).refs (bytesOfNat (tyBits o.ty / 8) (dElem o g l)))) ∧
      Retired (s.cachesOf t) t i g rest (activeLanes g e.tag o.guard)
        { elem := fun k l =>
            if load then elemResult o.ty (tyBits o.ty) o.d (natOfBytes (s.readRefs (s.laneAgent l) true (r l).refs)) k else none }
    ((lanes.map gr).Nodup → (∀ l ∈ lanes, s.granuleFull (gr l) = load) → ∃ t, exec i s = .next t ∧ performs t) ∧
    (lanes ≠ [] → (∀ l ∈ lanes, s.granuleFull (gr l) = !load) →
      exec i s = .next (s.putGroup { g with head := { g.head with waiting := true } })) ∧
    (∀ l w word ix, lanes = [l] → s.granuleFull (gr l) = load → s.cur.split = 0 → s.cur.pc = 0 → s.wg? s.cur.wg = some w →
      w.state = .resident → w.preempt = false → g.head.waiting = true → e.item = .word word ix → laneInstr? word = some i →
      ∃ t, exec (.feLanePerform s.cur.wg s.cur.g l) s = .next t ∧ performs t)

/-- R242, R260 to R267: VATOM, VCAS and VRED make one read-modify-write per active lane, in ascending order, each in one step at its
home; VATOM and VCAS deliver the old values and VATOM its flags and the .last bits. -/
def Obligations.LaneAtomicResult : Prop :=
  (∀ (s : State) (ag : Agent) (rs : List ByteRef) (f : Nat → Option Nat), (∀ b ∈ rs, s.ownRef b) →
    let old := natOfBytes (s.readRefs ag true rs)
    (s.rmwRefs ag rs f).2 = old ∧
    Written s (s.rmwRefs ag rs f).1 (match f old with | some v => storeNibbles rs (bytesOfNat rs.length v) | none => [])) ∧
  ∀ (s : State) (o : MemOp) (g : Group) (e : LaneEntry) (rest : List LaneEntry) (r : Nat → Resolved),
    let lanes := memLanes g e.tag o
    let w := tyBits o.ty
    let op := opOfE o
    let regs := operandRegs w o.d ++ indexRegs o
    Releases s o → g.head.performed = 0 → g.head.flags = 0 →
    let performs (i : Instr) (f : Nat → Nat → Option Nat) (d : (Nat → Nat) → Delivery) : Prop :=
      ∀ u, s.lanesLocal u lanes { memAcc o true with strict := true, strong := true } (laneAddr o g) r →
        (∀ l ∈ lanes, u.pcieHost (r l).refs = false) →
        let a := u.rmwLanes r f lanes
        ∃ t, exec i s = .next t ∧ HomeSame a.1 t ∧ SideSame u t ∧ Acquired u t o lanes ∧
          Retired (u.cachesOf t) t i g rest (activeLanes g e.tag o.guard) (d fun l => valueIn l a.2)
    (LaneRuns s (.vatom o) regs g e rest →
      performs (.vatom o) (fun l old => some (atomResult o g op l old).1) fun old =>
        { elem := fun k l => elemResult o.ty w o.d (old l) k
          mask := fun m l =>
            if o.bit6 = true ∧ m ≠ 0 ∧ m = lastOfE o then some ((atomResult o g op l (old l)).1 == 0) else none
          flags := lanes.foldl (fun fl l => fl ||| (atomResult o g op l (old l)).2) 0 }) ∧
    (LaneRuns s (.vcas o) (regs ++ operandRegs w o.e) g e rest →
      performs (.vcas o) (fun l old => if old = dElem o g l then some (laneSource g o.ty w o.e l) else none) fun old =>
        { elem := fun k l => elemResult o.ty w o.d (old l) k }) ∧
    (LaneRuns s (.vred o) regs g e rest →
      performs (.vred o) (fun l old => some (atomResult o g op l old).1) fun _ => {})

/-- R59, R163, R164: XST writes the 288-byte image of x at the lowest active lane's address, XLDA adds the image there to x; with no
active lane each retires with no effect; an image added to a zero accumulator gives the accumulator back. -/
def Obligations.AccumulatorImageResult : Prop :=
  (∀ x : XAcc, XAcc.addImage ⟨0, false, false, false, false⟩ x.image = (x, 0)) ∧
  ∀ (s u : State) (o : MemOp) (g : Group) (e : LaneEntry) (rest : List LaneEntry) (l : Nat) (r : Nat → Resolved),
    let act := activeLanes g e.tag o.guard
    let piece (k : Nat) : Nat := (laneAddr o g l + 16 * (k / 64)) % 2 ^ 64
    let resolves (acc : Acc) : Prop := (memLanes g e.tag o).head? = some l ∧ laneAddr o g l % 16 = 0 ∧
      s.lanesLocal u (imagePieces l) acc piece r
    let idle (i : Instr) : Prop := memLanes g e.tag o = [] →
      ∃ t, exec i s = .next t ∧ MemorySame s t ∧ SideSame s t ∧ Retired s t i g rest act {}
    (LaneRuns s (.xst o) (indexRegs o) g e rest → idle (.xst o) ∧
      (resolves (Acc.store 16) →
        ∃ t, exec (.xst o) s = .next t ∧ SideSame u t ∧ Retired (u.cachesOf t) t (.xst o) g rest act {} ∧
          Written u t ((imagePieces l).flatMap fun k => storeNibbles (r k).refs ((g.x.image.drop (16 * (k / 64))).take 16)))) ∧
    (LaneRuns s (.xlda o) (indexRegs o) g e rest → idle (.xlda o) ∧
      (resolves (Acc.load 16) →
        let y := g.x.addImage ((imagePieces l).flatMap fun k => u.readRefs (u.laneAgent k) false (r k).refs)
        ∃ t, exec (.xlda o) s = .next t ∧ HomeSame u t ∧ SideSame u t ∧
          Retired (u.cachesOf t) t (.xlda o) g rest act { x := some y.1, flags := y.2 }))

/-- R29, R320 to R323: ACRD, ACWR, ACSCL, ACMAX and ACEXP, when no MMA they must wait for is outstanding, on tiles of a tag they take and
without error, deliver their lanes' results and leave their new tiles; no other tile and no memory changes. With no active lane they
look at no tile. ACSCL_WAIT_END executes an ACSCL .wait whose token is reached. -/
def Obligations.AccumulatorTileResult : Prop :=
  ∀ (s : State) (i : Instr) (c : TileClaim) (w : Wg) (g : Group) (e : LaneEntry) (rest : List LaneEntry),
    let act (o : LaneOp) : Nat → Bool := activeLanes g e.tag o.guard
    s.wg? s.cur.wg = some w → tileClaim g w act i = some c → LaneRuns s i c.claim.regs g e rest → usesQueue c.claim.op = false →
    let some_ : Prop := ∃ l, l < 64 ∧ act c.claim.op l = true
    let reached : Prop := ∀ k, c.token = some k → tokenReached (c.on.head?.bind w.tile) k = true
    (some_ → (∀ q ∈ w.seqs, q.firstStamp ∉ g.head.awaits.getD (w.accAwaits s.cur.g e.stamp c.on c.token.isSome)) ∧ reached ∧
      (∀ n ∈ c.on, match w.tile n with
        | some y => y.error = none ∧ c.takes y.tag = true
        | none => c.unbound = true) ∧
      (c.fresh = true → s.tileRoom s.cur.wg c.on = true)) →
    let executes (t : State) : Prop := MemorySame s t ∧ Retired s t i g rest (act c.claim.op) c.claim.delivery ∧
      ∃ w', t.wg? s.cur.wg = some w' ∧
        (some_ → ∀ x ∈ c.tiles, ∃ y, w'.tile x.1 = some y ∧ TileIs y x.2.1 x.2.2) ∧
        ∀ n, (some_ → ∀ x ∈ c.tiles, x.1 ≠ n) → w'.tile n = w.tile n
    (∃ t, exec i s = .next t ∧ executes t) ∧
    (s.cur.split = 0 → s.cur.pc = 0 → c.token.isSome = true → reached → e.instr = i → w.state = .resident → w.preempt = false →
      g.head.waiting = true → g.head.stopped = false →
      ∃ t, exec (.acsclWaitEnd s.cur.wg s.cur.g) s = .next t ∧ executes t)

/-- R20, R28, R83, R289, R290: a lane instruction that is no legal form, or that names a register the group has not allocated, and a word
that encodes no lane instruction, raise ILLEGAL; VMOV from or to a closed queue raises QUEUE; none has any other effect. On an
open stream VMOV delivers the next elements, read ahead or read now, zeros past the end, or produces its active lanes' elements, to be
written later, and moves on by W. -/
def Obligations.LaneTrapsAndStreams : Prop :=
  ∀ (s : State) (g : Group) (e : LaneEntry) (rest : List LaneEntry), s.curGroup = some g → g.laneQ = e :: rest →
    let traps (i : Instr) (cls : Nat) : Prop := ∃ t, exec i s = .next t ∧ LaneTrapTaken s t g 0 0 (laneRecord s g e cls 0 0 0 0 0)
    (∀ i c, registerClaim g (fun o => activeLanes g e.tag o.guard) i = some c →
      i.wf = false ∨ (∃ r ∈ c.regs, g.nregs ≤ r) → traps i 0x01) ∧
    (∀ i o, i = .vld o ∨ i = .vst o ∨ i = .vpref o ∨ i = .vatom o ∨ i = .vcas o ∨ i = .vred o ∨ i = .xst o ∨ i = .xlda o →
      i.wf = false ∨ (∃ r ∈ indexRegs o, g.nregs ≤ r) → traps i 0x01) ∧
    traps (.illegalEncoding true) 0x01 ∧
    (∀ o d (q : QReg) p, LaneRuns s (.vmov o) [d.toNat, d.toNat + 1] g e rest → getVec g.q q.toNat none = none →
      (o.d = .v d ∧ o.a = .q q p → traps (.vmov o) 0x09) ∧ (o.d = .q q p ∧ o.a = .v d → traps (.vmov o) 0x09)) ∧
    (∀ o d (q : QReg) peek x (u : State), LaneRuns s (.vmov o) [d.toNat, d.toNat + 1] g e rest →
      getVec g.q q.toNat none = some x →
      x.p < strmTotal x.record → strmWidth x.record = tyBits o.ty →
      let act := activeLanes g e.tag o.guard
      let lanes := (List.range 64).filter fun l => act l && x.p + l < strmTotal x.record
      let n := tyBits o.ty / 8
      let p' := min (x.p + 64) (strmTotal x.record)
      let moved := modVec (fun _ => some { x with p := p', ahead := x.ahead.filter fun a => p' ≤ a.1 }) g.q q.toNat
      (∀ got, o.d = .v d → o.a = .q q peek → strmWrite x.record = false →
        State.pops x (if o.hint = 0 then strmHint x.record else o.hint.toNat) (o.bypass || strmBypass x.record) s lanes got u →
        ∃ t, exec (.vmov o) s = .next t ∧ MemorySame u t ∧ SideSame s t ∧
          Retired (u.cachesOf t) t (.vmov o) g rest act
            { elem := fun k l => elemResult o.ty (tyBits o.ty) o.d (natOfBytes (((got.find? fun y => y.1 == l).map (·.2)).getD [])) k
              q := some (if peek then g.q else moved) }) ∧
      (∀ (r : Nat → Resolved), o.d = .q q false → o.a = .v d → strmWrite x.record = true → x.ahead = [] →
        State.viewsReady (s.streamAgent x) (Acc.store n) s (lanes.map fun l => strmAddr x.record (x.p + l)) u →
        u.hostif.params.tierHot = 0 →
        (∀ l ∈ lanes, u.resolve (s.streamAgent x) (Acc.store n) (strmAddr x.record (x.p + l)) = ⟨.ok (r l), none⟩ ∧
          hasPeer (r l).refs = false) →
        ∃ t, exec (.vmov o) s = .next t ∧ MemorySame u t ∧ SideSame s t ∧ Retired (u.cachesOf t) t (.vmov o) g rest act
          { q := some moved
            produced := lanes.map fun l =>
              { stream := x.id, hint := strmHint x.record, cmd := x.cmd, via := (r l).via, mx := (r l).mx, refs := (r l).refs
                bytes := bytesOfNat n (g.elemNat (tyBits o.ty) d.toNat l) } }))

/-! Queue entries, and waits that end. -/

/-- R30, R116, R117, R285, R286: the entries of SETB, MSET, STRM and QCLR write their broadcast register or mask whole, open their queue at
its first element, with the descriptor that its record names read once, or close it, whatever their tag, and leave the queue; a counted stream that closes so is a command whose stream
has closed. -/
def Obligations.QueueEntryResult : Prop :=
  ∀ (s : State) (g : Group) (item : LaneItem) (tag : LaneMask) (pc : Word) (irb : Option Nat) (stamp : Nat) (rest : List LaneEntry),
    s.curGroup = some g → g.laneQ = ⟨item, tag, pc, irb, stamp⟩ :: rest → (∃ k ∈ splitIxs, (g.split k).isSome) →
    let pops (u : State) (h : Group) : Host.Outcome State Fault Refusal := .next (u.putGroup h.popped)
    let closed (u : State) (q : QReg) : State :=
      match getVec g.q q.toNat none with
      | some ⟨_, _, some (k, n), _, _, _⟩ => u.modCmd ⟨s.cur.wg, k, n⟩ fun c => { c with kind := .stream s.cur.g true }
      | _ => u
    (∀ b v, item = .setb b v → exec .setbEntry s =
      pops s { g with b := modVec (fun _ => v) g.b b.toNat, poison := g.poison.filter (· != .b b.toNat) }) ∧
    (∀ m v, item = .mset m v → m ≠ 0 → exec .msetEntry s =
      pops s { g with m := modVec (fun _ => v) g.m m.toNat, poison := g.poison.filter (· != .m m.toNat) }) ∧
    (∀ q r cmd u, item = .openQ q r cmd →
      let ag := s.groupAgent s.cur.wg s.cur.g
      let ready := if windowOf (strmBase r) = .view then s.viewAsk ag (Acc.load 1) (strmBase r) else (s, true)
      u.curGroup = some g → u.cur = s.cur →
      (ready = (u, true) → exec .openEntry s =
        pops (closed u q) { g with q := modVec (fun _ => some ⟨r, 0, cmd, u.imagesOf ag [strmBase r], stamp, []⟩) g.q q.toNat }) ∧
      (ready = (u, false) → exec .openEntry s = .next (u.putGroup { g with head := { g.head with waiting := true } }))) ∧
    (∀ q, item = .closeQ q → exec .closeEntry s = pops (closed s q) { g with q := modVec (fun _ => none) g.q q.toNat })

/-- R28, R99, R170, R192, R203, R269, R270, R307: each wait ends as its instruction would have ended without it: LX and its kin once the
lane queue has room, BAR once its token is passed, WAITC once KDONE has its value, WAITC.fe once its granule is full, TQPULL once an
item is eligible, OCLAIM once a run of slots is free, and a held split once its hold is over; until then the event does nothing. -/
def Obligations.WaitEndResult : Prop :=
  ∀ (s : State) (g : Group) (x : Split) (w : Wg),
    let c := s.cur
    (∀ es, WaitsFor s g x w (.room es) → exec (.laneQueueRoom c.wg c.g c.split) s =
      .next (if g.laneQ.length + es.length ≤ 64 then
        State.woken (s.tick.putGroup
          (Group.went { g with laneQ := g.laneQ ++ es.map fun e => { e with stamp := s.stamp } } c.split (x.pc + 4)))
      else s)) ∧
    (∀ n, Runs s g x → x.status = .held n → s.wg? c.wg = some w → w.state = .resident → w.preempt = false →
      let ended := n = 0 ∨ ∀ k ∈ splitIxs, ∀ y, k ≠ c.split → g.split k = some y → y.counts = true → x.pc ≤ y.pc
      (ended → exec (.fusionHoldRelease c.wg c.g c.split) s =
        .next (s.putGroup (g.modSplit c.split fun y => { y with status := .ready }))) ∧
      (¬ ended → exec (.fusionHoldRelease c.wg c.g c.split) s = .next s)) ∧
    (∀ (bar : BitVec 4) token cl sb,
      let b := getVec w.barriers bar.toNat Barrier.zero
      let wide := cl || b.engine
      let u := s.emptied wide
      (WaitsFor s g x w (.barrier bar.toNat token cl) →
        (tokenPassed b token → exec (.barrierWake c.wg c.g c.split) s = .next (State.woken (u.jumped (g.newer wide) (x.pc + 4)))) ∧
        (¬ tokenPassed b token → exec (.barrierWake c.wg c.g c.split) s = .next s)) ∧
      (WaitsFor s g x w (.sync bar.toNat token cl sb) →
        (tokenPassed b token → exec (.barrierWake c.wg c.g c.split) s =
          .next (State.woken (u.resulted (g.newer wide) x sb (token.setWidth 64)))) ∧
        (¬ tokenPassed b token → exec (.barrierWake c.wg c.g c.split) s = .next s))) ∧
    (∀ k v scope, WaitsFor s g x w (.counter k v scope) →
      (v ≤ (w.counter k).completed → (∀ d ∈ w.cmdTraps, ¬ (d.counter = k ∧ d.num ≤ v)) →
        exec (.waitcWake c.wg c.g c.split) s =
          .next (State.woken ((s.emptied (wideScope scope)).jumped (g.newer (wideScope scope)) (x.pc + 4)))) ∧
      ((w.counter k).completed < v → exec (.waitcWake c.wg c.g c.split) s = .next s)) ∧
    (∀ u n scope, WaitsFor s g x w (.granule u n scope) → s.granuleFull (u, n) = true →
      let wide := wideScope scope || s.engineSet (u, n)
      exec (.waitcWake c.wg c.g c.split) s = .next (State.woken ((s.emptied wide).jumped (g.newer wide) (x.pc + 4)))) ∧
    (∀ va sb sc i rs, WaitsFor s g x w (.tqpull va sb sc) → s.pullItem (reachOfCore s.curCore) s.curCtx = some i → va % 64 = 0 →
      windowOf va = .vault → s.resolveFlat s.agent (Acc.store 64) va = .ok rs → rs.length = 64 → (∀ b ∈ rs, s.ownRef b) →
      i.payload.length = 64 →
      ∃ t, exec (.tqpullRemove c.wg c.g c.split) s = .next t ∧ Written s t (storeNibbles rs i.payload) ∧
        (t.reach (reachOfCore s.curCore)).items =
          (s.reach (reachOfCore s.curCore)).items.filter (fun j => !(j.slot == i.slot && j.gen == i.gen)) ∧
        t.groupIs (Group.settle ((((g.newer true).wrote c.split sb (BitVec.ofNat 64 (i.slot + i.gen * 2 ^ 16))).wrote c.split sc 0).went
          c.split (x.pc + 4)))) ∧
    (∀ n sa since first, WaitsFor s g x w (.oclaim n sa since) → s.curCore < 192 → 1 ≤ n → n ≤ 4 →
      s.claimWaits s.curCore = [⟨c.wg, c.g, c.split, n, sa, since⟩] →
      (∀ i, i < n → (s.slot s.curCore (first + i)).state = .free) → first + n ≤ 32 →
      (∀ k, k < first → ∃ i, i < n ∧ (s.slot s.curCore (k + i)).state ≠ .free) →
      exec (.oclaimGrant s.curCore) s = .next (State.woken (State.resulted
        (s.modCore s.curCore fun y => { y with slots := Vector.ofFn fun i =>
          if first ≤ i.val ∧ i.val < first + n then { Slot.reset with state := .claimed, owner := c.wg } else y.slots[i] })
        g x sa (BitVec.ofNat 64 first))))

/-! The bank units. -/

/-- R325, R340 to R345, R350, R401: every micro-operation is charged its steps and moves its run on by one word, its pointers, loops,
buffer, results, accumulators and writes as its rule says, or stops it with the status of R343, when its result buffer goes out and
its bytes are counted; past word 255 a run stops with REJECTED. While its bank budgets have no room nothing happens; while the
activity bucket has no grant for it, or a waiting run is granted first, it waits. -/
def Obligations.BankMicroOperations : Prop :=
  ∀ (s : State) (r : Run) (c : BankCmd) (r0 r1 res : Range),
    let x : BankCtx := ⟨r, some c, r0, r1, res, c.vector⟩
    let on (steps : Nat) : Prop := BankRun s r c r0 r1 res ∧ BankAllowed s x steps
    let charged (steps : Nat) : State := if steps = 0 then s else s.bankCharge x steps
    let next (i : Instr) (steps : Nat) (u : State → State) (r' : Run) : Prop :=
      exec i s = .next ((u (charged steps)).runIs { r' with word := r.word + 1, waits := if steps = 0 then r.waits else none })
    let stops (i : Instr) (steps : Nat) (status : Option (Nat × Nat)) : Prop := exec i s = .next ((charged steps).runStops r res status)
    let bounds := some (1, 0)
    let rejected := some (7, 0)
    let bump (lim n : Nat) : Nat := if n < lim then n + 1 else n
    let held (i : Instr) (steps : Nat) : Prop := BankRun s r c r0 r1 res →
      (s.bankRoom x = false → exec i s = .next s) ∧
      (s.bankRoom x = true → s.grants < 4 * steps ∨ s.waitsBefore r = true → exec i s = .next s.bankWaits)
    (on 1 → r.word = 255 → stops .bnop 1 rejected) ∧
    (r.word < 255 → on 1 → next .bnop 1 id r) ∧
    (∀ range inc, r.word < 255 → on 6 →
      let row := if range then r.p1 else r.p0
      if range = true ∧ r1.len = 0 then stops (.bact range inc) 6 rejected
      else if 31 < row then stops (.bact range inc) 6 bounds
      else next (.bact range inc) 6 id
        { r with row := some (range, row), c := 0, p0 := if inc && !range then bump 63 r.p0 else r.p0
                 p1 := if inc && range then bump 63 r.p1 else r.p1 }) ∧
    (r.word < 255 → on 4 → next .bpre 4 id { r with row := none }) ∧
    (∀ j fmt incC incX, r.word < 255 → on 1 →
      let i : Instr := .bmac j fmt incC incX
      match r.row with
      | none => stops i 1 rejected
      | some (range, row) =>
        let rg := if range then r1 else r0
        let o := row * 2 ^ 16 + r.c * 2 ^ 11
        let key := rg.page + o
        if 31 < r.c ∨ 63 < r.x ∨ o < rg.offset ∨ rg.offset + rg.len < o + 2048 then stops i 1 bounds
        else if s.bankPoisoned key 2048 then stops i 1 (some (3, 0x08))
        else
          let col := (charged 1).bankBytes x key 2048
          let acc := mapAcc r.acc j.toNat fun b a => bmacBank fmt (recBytes col (32 * b) 32) (getVec r.buffer r.x []) a
          next i 1 (fun u => if acc.2 then u.modBank r.cmd fun d => { d with movf := true } else u)
            { r with acc := acc.1, c := if incC then bump 63 r.c else r.c, x := if incX then bump 127 r.x else r.x }) ∧
    (∀ mask : BitVec 8, r.word < 255 → on 1 →
      next (.bzero mask) 1 id
        { r with acc := Vector.ofFn fun b => Vector.ofFn fun k => if mask.getLsbD k then 0 else r.acc[b][k] }) ∧
    (∀ j factor, r.word < 255 → on 1 →
      let acc := mapAcc r.acc j.toNat fun _ a => bsclBank factor.toNat a
      next (.bscl j factor) 1 (fun u => if acc.2 then u.modBank r.cmd fun d => { d with movf := true } else u) { r with acc := acc.1 }) ∧
    (∀ j, r.word < 255 → on 8 →
      let out := r.results.length - 7
      if res.len < r.q + 256 then stops (.bwra j) 8 bounds
      else next (.bwra j) 8 (fun u => u.segmentsOut (r.results.take out))
        { r with results := r.results.drop out ++ [(res.page + res.offset + r.q, accBytes r.acc j.toNat)], q := r.q + 256 }) ∧
    (∀ col : BitVec 5, r.word < 255 → on 1 →
      match r.row with
      | some (true, row) =>
        let o := row * 2 ^ 16 + col.toNat * 2 ^ 11
        if o < r1.offset ∨ r1.offset + r1.len < o + 2048 then stops (.bwrb col) 1 bounds
        else next (.bwrb col) 1 (fun u => (u.segmentsOut r.results).bankWrite (r1.page + o) (allAccBytes r.acc))
          { r with results := [], wrote := ((r1.page + o) :: r.wrote).eraseDups }
      | _ => stops (.bwrb col) 1 rejected) ∧
    (∀ n : BitVec 16, r.word < 255 → on 0 →
      if 4 ≤ r.stack.length then stops (.bloop n) 0 rejected
      else next (.bloop n) 0 id { r with stack := (r.word + 1, n.toNat + 1) :: r.stack }) ∧
    (r.word < 255 → on 0 →
      match r.stack with
      | [] => stops .bend 0 rejected
      | (body, n) :: rest =>
        if n ≤ 1 then next .bend 0 id { r with stack := rest }
        else body ≤ 255 → exec .bend s = .next (s.runIs { r with stack := (body, n - 1) :: rest, word := body })) ∧
    (on 1 → stops .bstop 1 none) ∧
    (∀ first chunks1 : BitVec 6, r.word < 255 →
      let n := chunks1.toNat + 1
      let key := c.vector.page + c.vector.offset + r.v
      on n →
      if c.vector.len < r.v + 32 * n then stops (.bxld first chunks1) n bounds
      else if s.bankPoisoned key (32 * n) then stops (.bxld first chunks1) n (some (3, 0x08))
      else next (.bxld first chunks1) n id
        { r with buffer := loadChunks r.buffer first.toNat n ((charged n).bankBytes x key (32 * n)), v := r.v + 32 * n, x := first.toNat }) ∧
    held .bnop 1 ∧ held .bpre 4 ∧ held .bstop 1 ∧ (∀ range inc, held (.bact range inc) 6) ∧ (∀ j, held (.bwra j) 8) ∧
    (∀ col, held (.bwrb col) 1) ∧ (∀ j fmt incC incX, held (.bmac j fmt incC incX) 1) ∧ (∀ mask, held (.bzero mask) 1) ∧
    (∀ j factor, held (.bscl j factor) 1) ∧ (∀ first chunks1 : BitVec 6, held (.bxld first chunks1) (chunks1.toNat + 1))

/-- R253, R324, R325, R333 to R336, R344, R346: in its turn on a member a BKLOAD writes its words and tags the store, a BKRUN starts a run
from fresh state once its start condition holds, and a BKFENCE, once the runs before it have completed, makes the bank units' writes of
that pseudo-channel the values that ordinary reads see, with no line of it left in L2; a command completes with its last member. -/
def Obligations.BankCommandResult : Prop :=
  ∀ (s : State) (p : PcIx) (c : BankCmd), p < 512 →
    let finished (i : Instr) (u : State) : Prop :=
      let v := (u.modPc p fun x => { x with queue := x.queue.filter (· != c.id), run := none }).modBank c.id fun d =>
        { d with pending := d.pending.filter (· != p) }
      exec i s = .next (match v.bankCmd? c.id with
        | some d => if d.pending = [] then v.completeBank d else v
        | none => v)
    (s.bankTurn p .load = some c → s.refusedInTurn c = false →
      finished (.bkloadExecute p) (s.modPc p fun x =>
        { x with tag := some c.ctx
                 store := Vector.ofFn fun k => if c.startWord ≤ k.val then
                   (c.words[k.val - c.startWord]?.map (BitVec.ofNat 32)).getD x.store[k] else x.store[k] })) ∧
    (s.bankTurn p .run = some c → s.startHolds c.wg c.start = false → exec (.bkrunExecute p) s = .next s) ∧
    (∀ m r0 r1 res, s.bankTurn p .run = some c → s.startHolds c.wg c.start = true → s.refusedInTurn c = false →
      c.members.findIdx? (· == p) = some m → c.ranges[m]? = some (r0, r1, res) →
      let fresh : Run :=
        { cmd := c.id, member := m, word := c.entry, p0 := r0.offset / 2 ^ 16 % 32, p1 := r1.offset / 2 ^ 16 % 32, c := 0, x := 0, v := 0
          q := 0, stack := [], row := none, buffer := Vector.replicate 64 [], results := []
          acc := Vector.replicate 64 (Vector.replicate 8 0), wrote := [], waits := none }
      exec (.bkrunExecute p) s = .next (s.modPc p fun x => { x with run := some fresh })) ∧
    (s.bankTurn p .fence = some c → s.runsBefore c = true → exec (.bkfenceAct p) s = .next s) ∧
    (s.bankTurn p .fence = some c → s.runsBefore c = false → ∃ u, finished (.bkfenceAct p) u ∧ u.pcs = s.pcs ∧ u.bankCmds = s.bankCmds ∧
      (∀ q, ∀ x ∈ (u.reach q).l2, ¬ (2 ^ 61 ≤ x.key ∧ (x.key - 2 ^ 61) / 2 ^ 30 % 512 = p)) ∧
      ∀ key, u.hiddenByte key = (if key / 2 ^ 30 % 512 = p then none else s.hiddenByte key) ∧
        u.cc.read key = if key / 2 ^ 30 % 512 = p then (s.hiddenByte key).getD (s.cc.read key) else s.cc.read key) ∧
    (s.bankCmd? c.id = some c → c.far = none →
      (c.pending ≠ [] → exec (.runComplete c.id) s = .next s) ∧
      (c.pending = [] → c.remote = none →
        let status : Nat × Nat :=
          if c.refused then (7, 0)
          else match least (fun a b => a.1 < b.1) c.stops with
            | some x => x.2
            | none => (0, 0)
        exec (.runComplete c.id) s = .next (s.finishBank c status.1 status.2 c.bytes c.movf)))

/-! What the engines do on their own. -/

/-- R273, R274, R278, R279, R288, R308: a completing command, once its records on peer pages are answered, leaves its workgroup's list,
sets the WGERR bit of its status, and KDONE moves past every command that has completed; a counted stream completes once it has closed and its elements are written, VIEWI and RMINV once nothing uses the
old image or entry, and a RELEASING slot is FREE once its MMAs and loads have completed. -/
def Obligations.CommandCompletion : Prop :=
  (∀ (k : Counter) (n : Nat),
    let d := (k.complete n).completed
    k.completed ≤ d ∧ (∀ j, k.completed < j → j ≤ d → j = n ∨ j ∈ k.done) ∧ d + 1 ≠ n ∧ d + 1 ∉ k.done) ∧
  (∀ (s : State) (r : CmdRef) (c : Cmd) (w : Wg) (status fault count : Nat),
    s.cmd? r = some c → c.ending = none → s.wg? r.wg = some w → r.counter < 16 →
    let t := s.finishCmd r status fault count []
    (s.cmdUnanswered r = true → t = s.modCmd r fun d => { d with ending := some (status, fault) }) ∧
    (s.cmdUnanswered r = false → MemorySame s t ∧ ∃ w', t.wg? r.wg = some w' ∧ w'.cmds = w.cmds.filter (fun d => !(d.counter == r.counter && d.num == r.num)) ∧
      w'.counter r.counter = (w.counter r.counter).complete r.num ∧
      w'.wgerr = w.wgerr ||| (match wgerrBit status with | some b => BitVec.ofNat 64 (2 ^ b) | none => 0) ∧
      w'.cmdTraps = w.cmdTraps ++
        (if c.trap = true ∧ (statusClass status fault).isSome = true then [⟨r.counter, r.num, status, fault⟩] else []))) ∧
  (∀ (s : State) (r : CmdRef) (c : Cmd), s.cmd? r = some c → c.ending = none →
    let u := s.release c.core c.scope
    (∀ g, c.kind = .stream g true → exec (.streamComplete r) s =
      .next (if s.streamWritten r then u.endCmd r 0 0 0 [] else s)) ∧
    (∀ g, c.kind = .stream g false → exec (.streamComplete r) s = .next s) ∧
    (∀ va status fault view old, c.kind = .viewi va status fault view old → exec (.viewiComplete r) s =
      .next (if s.released old (Uses.ofView view) then u.endCmd r status fault 0 (va.toList.map fun a => (0, a)) else s)) ∧
    (∀ va status fault view entry old, c.kind = .rminv va status fault view entry old → exec (.rminvComplete r) s =
      .next (if s.released old (Uses.ofEntry view entry) then u.endCmd r status fault 0 (va.toList.map fun a => (0, a)) else s)) ∧
    (ReplicasCurrent s → c.core < 192 → u = s)) ∧
  ∀ (s : State) (core : CoreIx) (n : Nat), (s.slot core n).state = .releasing →
    let used := (s.slot core n).loads ≠ [] ∨ ∃ w q, s.wg? (s.slot core n).owner = some w ∧ q ∈ w.seqs ∧ (q.oA = n ∨ q.oB = n)
    (used → exec (.slotFree core n) s = .next s) ∧
    (¬ used → exec (.slotFree core n) s = .next (s.modSlot core n fun y => { y with state := .free }))

/-- R309, R311, R312, R314: an operand load of local bytes fills its slot's rows with the bytes it reads, zeros where a row is not
resident, leaves the valid mask, and makes its fill FULL if it is the last one issued; no other slot and no memory changes. -/
def Obligations.OperandLoadResult : Prop :=
  ∀ (s : State) (core : CoreIx) (n : Nat) (seg : Bool) (l : Load), core < 192 → n < 32 → ReplicasCurrent s →
    let x := s.slot core n
    x.loads.find? (fun l => isSegment l.kind == seg) = some l → s.wgState l.wg ≠ some .ready →
    (∀ w, s.wg? l.wg = some w → w.readsBefore n l.num = false) → (∀ g ∈ l.granules, s.granuleFull g = true) →
    (∀ row ∈ l.rows, ∀ b ∈ row.refs, s.ownRef b ∧ s.refPoisoned b = false) → l.status = [] →
    let ag := s.wgAgent l.wg l.group
    let bytes (part : List (ByteRef ⊕ Byte)) : List Byte := fillConst part (s.readRefs ag true (partRefs part))
    let byte (row : Option LoadRow) (part : LoadRow → List (ByteRef ⊕ Byte)) (k : Nat) (old : Byte) : Byte :=
      match row with
      | some y => if k < (bytes (part y)).length then (if y.resident then (bytes (part y)).getD k 0 else 0) else old
      | none => old
    ∃ t, exec (.operandLoadComplete core n seg) s = .next t ∧ HomeSame s t ∧
      (∀ c m, (c, m) ≠ (core, n) → t.slot c m = s.slot c m) ∧
      let y := t.slot core n
      y.state = x.state ∧ y.owner = x.owner ∧ y.loads = x.loads.filter (fun m => m.num != l.num) ∧
      (∀ r, r < 64 → y.d.valid.getLsbD r = (l.rows[r]?).any fun row => row.resident) ∧
      (if seg then
        y.d.data = x.d.data ∧ y.d.side = x.d.side ∧ y.d.dataFull = x.d.dataFull ∧ y.d.segFull = (x.d.segFull || l.num == x.lastSeg) ∧
        y.d.poisonSeg = false ∧ y.d.poisonData = x.d.poisonData ∧
        ∀ r row, r < 64 → l.rows[r]? = some row →
          getVec y.d.segId r 0 = BitVec.ofNat 16 (if row.resident then natOfBytes (bytes row.data) else 0) ∧
          getVec y.d.segPos r 0 = BitVec.ofNat 32 (if row.resident then natOfBytes (bytes row.side) else 0)
       else
        y.d.segId = x.d.segId ∧ y.d.segPos = x.d.segPos ∧ y.d.segFull = x.d.segFull ∧
        y.d.dataFull = (x.d.dataFull || l.num == x.lastData) ∧ y.d.poisonData = false ∧ y.d.poisonSeg = x.d.poisonSeg ∧
        ∀ r, r < 64 →
          (∀ k, k < 128 → getVec (getVec y.d.data r (Vector.replicate 128 0)) k 0 =
            byte l.rows[r]? LoadRow.data k (getVec (getVec x.d.data r (Vector.replicate 128 0)) k 0)) ∧
          ∀ k, k < 8 → getVec (getVec y.d.side r (Vector.replicate 8 0)) k 0 =
            byte l.rows[r]? LoadRow.side k (getVec (getVec x.d.side r (Vector.replicate 8 0)) k 0))

/-- R318 to R321: an MMA that is ready replaces every element of its tile by its block rule's value, or leaves it or makes it a constant
where it is masked, advances the tile's phase, ORs its flags into the issuing groups and leaves the latch; a tile, or a half of a pair,
of another tag, or a poisoned fill, puts it into error; no memory changes. One of a workgroup that has completed leaves the latch
once its fills are FULL. -/
def Obligations.MmaExecution : Prop :=
  ∀ (s : State) (w : WgIx) (x : Wg) (n : Nat) (q : Seq), s.wg? w = some x → x.seqs[n]? = some q →
    (x.state = .complete → exec (.mmaExecute w n) s =
      .next (if s.seqFilled x q then s.modWg w fun y => { y with seqs := y.seqs.eraseIdx n } else s)) ∧
    (x.state = .resident →
    let acc := accFmtOf (fbAcc q.fmt)
    let ts := if acc = .fp64 then [q.tile, q.tile + 1] else [q.tile]
    s.seqReady x q ts = true → x.gates q = false → s.tileRoom w ts = true →
    let lo := (x.tile q.tile).getD (Tile.new acc)
    let hi := (x.tile (q.tile + 1)).getD (Tile.new acc)
    let a := matOperand (s.slot x.core q.oA).d q.fmt false q.sideA
    let b := matOperand (s.slot x.core q.oB).d q.fmt true q.sideB
    let old (m k : Nat) : Nat := (lo.elem m k).toNat + if acc = .fp64 then (hi.elem m k).toNat * 2 ^ 32 else 0
    let cell (m k : Nat) : Nat × Nat :=
      if a.valid.getLsbD m = false ∨ b.valid.getLsbD k = false ∨ (q.seg = true ∧ a.seg m ≠ b.seg k) ∨
          (q.causal = true ∧ (a.pos m).toNat < (b.pos k).toNat) then
        if q.seg = true ∨ q.causal = true then ((accFmt acc).infinity true, 0) else if q.accumulate then (old m k, 0) else (0, 0)
      else mmaElement acc (if q.accumulate then old m k else 0) a b m k
    let fl := (List.range 64).foldl (fun fl m => (List.range 64).foldl (fun fl k => fl ||| (cell m k).2) fl) 0
    let foreign := q.accumulate = true ∧ (lo.tag ≠ acc ∨ (acc = .fp64 ∧ hi.tag ≠ acc))
    let bad := foreign ∨ s.seqPoisoned x q = true
    ∃ t w', exec (.mmaExecute w n) s = .next t ∧ MemorySame s t ∧ t.wg? w = some w' ∧
      w'.seqs = x.seqs.filter (fun p => p.firstStamp != q.firstStamp) ∧ (∀ k, k ∉ ts → w'.tile k = x.tile k) ∧
      (∀ k ∈ ts, ∃ y, w'.tile k = some y ∧ y.phase = (if k = q.tile then lo else hi).phase + 1 ∧ y.corrected = false) ∧
      (bad → ∀ k ∈ ts, ∃ y, w'.tile k = some y ∧ y.elems = (if k = q.tile then lo else hi).elems ∧
        (foreign → y.error = some 0x0B) ∧ (¬ foreign → y.error = some 0x08)) ∧
      (¬ bad → ∀ k ∈ ts, ∃ y, w'.tile k = some y ∧ y.tag = acc ∧
        y.error = (if q.accumulate then (if k = q.tile then lo else hi).error else none) ∧
        ∀ m j, m < 64 → j < 64 → y.elem m j = BitVec.ofNat 32 (if k = q.tile then (cell m j).1 else (cell m j).1 / 2 ^ 32)) ∧
      ∀ k g, x.groups[k]? = some g → ∃ h, w'.groups[k]? = some h ∧ h.s = g.s ∧ h.v = g.v ∧ h.m = g.m ∧ h.b = g.b ∧ h.laneQ = g.laneQ ∧
        (k ∈ gangIssuers q.gang.toNat → ¬ bad → h.flags = g.flags ||| BitVec.ofNat 64 fl) ∧
        (k ∉ gangIssuers q.gang.toNat ∨ bad → h.flags = g.flags))

/-- R280, R293 to R303, R373: a collective complete in slices starts once its condition holds, its conv records are read and its views
are there, or completes with the status that refuses it; a running plain copy of local bytes whose offers do not compete writes
every offer's source element, or its fill, to its destination, sets its granules full, and changes nothing else, and completes with
the number of bytes; a cut stops it after some chunks. -/
def Obligations.CopyResult : Prop :=
  ∀ (s : State) (r : CmdRef) (c : Cmd) (xs : List Slice), s.cmd? r = some c → c.ending = none → s.resident r.wg = true →
    (c.kind = .copy xs false 0 → c.lacksSlices = false →
      (copyStatus xs ≠ 0 → exec (.collectiveStart r) s = .next (s.endCmd r (copyStatus xs) 0 0 c.records)) ∧
      (copyStatus xs = 0 → s.startHolds r.wg c.start = false → exec (.collectiveStart r) s = .next s) ∧
      (∀ u ys, copyStatus xs = 0 → s.startHolds r.wg c.start = true → s.readConvs r xs = (u, ys) →
        ((∃ y ∈ ys, y.2 = .wait) → exec (.collectiveStart r) s = .next u) ∧
        (∀ v ready, (∀ y ∈ ys, ∃ bs, y.2 = .bytes bs) →
          let zs := ys.map (·.1)
          (zs.foldl (fun (acc : State × Bool) z =>
            let y := acc.1.sliceReady r (copyRanks zs) z
            (y.1, acc.2 && y.2)) (u, true)) = (v, ready) →
          let ws := v.startSlices r zs
          let t := ws.foldl (fun (s : State) z => s.sliceErrors r.wg z) v
          exec (.collectiveStart r) s = .next (if ready = false then v
            else if copyStatus ws ≠ 0 then t.endCmd r (copyStatus ws) 0 0 c.records
            else t.modCmd r fun d => { d with kind := .copy ws true 0 })))) ∧
    ∀ (first : Nat), c.kind = .copy xs true first → (xs.head?.any fun x => x.reduce) = false → copyRanks xs = [none] →
      let cs := s.chunkDests r xs
      let all := cs.flatten
      let part (b : Nat) : List CopyDest := ((cs.take b).drop first).flatten
      let ran (b : Nat) (u v : State) (got : List (List Byte)) : Prop :=
        Written u v (((part b).zip got).flatMap fun y => storeNibbles y.1.refs y.2) ∧
        (∀ w, (v.wg? w).map Wg.noVault = (u.wg? w).map Wg.noVault) ∧
        ∀ q, v.granuleFull q = (u.granuleFull q ||
          ((granulesOf ((copyWritten xs cs b).filter fun x => !(copyWritten xs cs first).contains x)).contains q &&
            !(destGranules all (cs.drop b).flatten).contains q))
      let clear (b : Nat) : Prop := s.copyOverlaps r all = false ∧ ∀ d ∈ part b, ∃ q, d.look = ⟨.ok q, none⟩ ∧ q.refs.length = d.offer.size ∧
        (∀ y ∈ q.refs, s.ownRef y) ∧ d.wins all = q.refs
      (∀ u got, clear cs.length → State.sources r xs s ((part cs.length).map (·.offer)) got u →
        ∃ v, ran cs.length u v got ∧
          exec (.copyComplete r) s = .next (v.copyEnd r c 0 0 (bytesWritten (all.flatMap (CopyDest.wins all))))) ∧
      ∀ n, let cut := s.wholeCut r cs (first + n)
        (cs.length ≤ cut → exec (.copyCut r n) s = .next s) ∧
        ∀ u got, cut < cs.length → clear cut → State.sources r xs s ((part cut).map (·.offer)) got u →
          ∃ v, ran cut u v got ∧ exec (.copyCut r n) s = .next (v.modCmd r fun d => { d with kind := .copy xs true cut })

/-! What the device does on its own. -/

/-- R361 to R363: a trap record is refused while its queue is full, kills on a malformed header, and else is written with its
sequence into the slot of the write index, which then moves by one, and TRAP is posted; a held record is written so once its queue
has room. -/
def Obligations.TrapRecordWritten : Prop :=
  ∀ (s : State) (p : Pending) (hr : List ByteRef),
    let ag := devAgent p.ctx p.reach
    let h := s.readRefs ag true hr
    let size := recNat h 0 4
    let write := recNat h 8 4
    let used := (write + 2 ^ 32 - recNat h 0x10 4) % 2 ^ 32
    let headerOk := p.queue % 64 = 0 ∧ recNat h 4 4 = 0 ∧ recNat h 0xC 4 = 0 ∧ (∀ b ∈ recBytes h 0x14 44, b = 0) ∧
      16 ≤ size ∧ size ≤ 65536 ∧ (∃ k, size = 2 ^ k) ∧ used ≤ size
    let held (ix : Nat) : Prop := s.pending[ix]? = some p ∧ p.seq = none ∧ ∀ q ∈ s.pending.take ix, q.seq ≠ none ∨ q.reach ≠ p.reach
    s.resolveFlat ag (Acc.load 64) p.queue = .ok hr → hr.length = 64 → (∀ b ∈ hr, s.ownRef b ∧ s.refPoisoned b = false) →
    p.record.length = 64 →
    (¬ headerOk → s.tryRecord p = .bad) ∧
    (headerOk → used = size → s.tryRecord p = .full ∧ ∀ ix, held ix → exec (.heldTrapRecord ix) s = .next s) ∧
    (∀ rr ir, headerOk → used < size → ReplicasCurrent s →
      s.resolveFlat ag (Acc.store 64) ((p.queue + 0x40 + 64 * (write % size)) % 2 ^ 64) = .ok rr → rr.length = 64 →
      (∀ b ∈ rr, s.ownRef b) →
      let r := p.record.take 0x38 ++ bytesOfNat 4 write ++ p.record.drop 0x3C
      (s.writeRefs ag rr r).resolveFlat ag (Acc.store 4) (p.queue + 8) = .ok ir → ir.length = 4 → (∀ b ∈ ir, s.ownRef b) →
      ∃ v, Written s v (storeNibbles rr r ++ storeNibbles ir (bytesOfNat 4 (write + 1))) ∧
        let t := v.postEvent .trap 0 p.ctx.toNat p.queue write
        s.tryRecord p = .done t (BitVec.ofNat 32 write) ∧
        ∀ ix, held ix → exec (.heldTrapRecord ix) s =
          .next { t with pending := modAt (fun q => { q with seq := some (BitVec.ofNat 32 write) }) t.pending ix })

/-- R21, R177, R180, R182 to R184, R372 to R376: PLACEMENT places a unit that fits whole, its groups started as a launch starts them, on
cores of the mask that are in service, or marks for pre-emption those of lower rank; DEP_EVALUATION frees the workgroups whose
needed bits are all set; PREEMPTION of a marked unit whose loads and MMAs have finished, and whose copies await no peer, writes what its
streams have produced and saves it whole, but for elements read ahead. -/
def Obligations.SchedulingEvents : Prop :=
  ∀ (s : State),
    ((∀ ix, s.candidate ix = none) → exec .placement s = .next s) ∧
    (∀ u l, s.topUnit = some u → s.launch? u.launch = some l →
      (∀ cs : List Claim, s.tryPlace u l [] = some cs → u.back = false →
        (∀ c ∈ cs, ∀ y ∈ s.wgs, ¬ (y.launch = c.launch ∧ y.j = c.j)) → (cs.map fun c => (c.launch, c.j)).Nodup →
        ∃ (t : State) (ws : List Wg), exec .placement s = .next t ∧ t.wgs = s.wgs ++ ws ∧ ws.length = cs.length ∧
          (∀ (i : Nat) (c : Claim), cs[i]? = some c → ∃ w, ws[i]? = some w ∧ Started l c w ∧ (pathMask (s.path l.ctx l.region)).getLsbD c.core = true ∧
            (s.core c.core).inService = true ∧ (s.core c.core).withheld = false) ∧
          t.launch? u.launch = some { l with state :=
            if (s.wgs.filter fun w => w.launch == u.launch).length + cs.length < l.count then .active else .running }) ∧
      (∀ ws, s.tryPlace u l [] = none → s.victims u l s.wgs.length s.marked = some ws →
        ∃ t, exec .placement s = .next t ∧ { t with wgs := s.wgs } = s ∧
          ∀ w y, s.wg? w = some y →
            t.wg? w = some { y with preempt := y.preempt || decide (∃ v ∈ ws, w ∈ s.unitWgs v) })) ∧
    (∀ ix l, s.launch? ix = some l → l.dep = true → (l.state = .queued ∨ l.state = .active) →
      let addr (i : Nat) : Nat := (l.depHandle + i / 64 * 8) % 2 ^ 64
      let needs (j i : Nat) : Prop := ∃ k : Nat, k < l.depC ∧ (i : Int) = (l.depA * j : Nat) + l.depB + (k : Int) ∧ i < l.depP
      let read (i : Nat) (bs : List Byte) : Prop := s.devRead (devAgent l.ctx 0) (addr i) 8 = .ok bs
      let isSet (i : Nat) : Prop :=
        addr i ∈ l.skipReads ∨ (addr i ∉ l.heldReads ∧ ∃ bs, read i bs ∧ (natOfBytes bs).testBit (i % 64) = true)
      (∀ j i, j < l.count → needs j i → addr i ∈ l.skipReads ∨ addr i ∈ l.heldReads ∨ ∃ bs, read i bs) →
      ∃ t l', exec (.depEvaluation ix) s = .next t ∧ { t with launches := s.launches } = s ∧ t.launch? ix = some l' ∧
        { l' with left := l.left } = l ∧ ∀ j, j ∈ l'.left ↔ j ∈ l.left ∨ (j < l.count ∧ ∀ i, needs j i → isSet i)) ∧
    (∀ wg, (∀ x, s.wg? wg = some x → x.state ≠ .resident ∨ x.preempt = false) → exec (.preemption wg) s = .next s) ∧
    ∀ wg x, s.wg? wg = some x → x.state = .resident → x.preempt = true → s.drainWork (s.unitWgs wg) = 0 →
      s.unsettled (s.unitWgs wg) = false →
      ∃ t, exec (.preemption wg) s = .next t ∧
        ((∀ w ∈ s.unitWgs wg, ∀ y, s.wg? w = some y → ∀ g ∈ y.groups, g.behind = []) → MemorySame s t) ∧
        ∀ w y, s.wg? w = some y → ∃ z, t.wg? w = some z ∧
        (∀ (n : Nat) (g : Group), y.groups[n]? = some g → ∃ h, z.groups[n]? = some h ∧
          RegistersSame (if w ∈ s.unitWgs wg then g.discardAhead else g) h ∧ (w ∈ s.unitWgs wg → h.behind = []) ∧
          (∀ k, (h.split k).map splitFacts = (g.split k).map splitFacts) ∧
          (w ∈ s.unitWgs wg → ∀ k, h.split k = (g.split k).map Split.cancel)) ∧
        (w ∈ s.unitWgs wg → z.state = .ready ∧ z.preempt = false ∧ z.wasPreempted = true ∧ z.barriers = y.barriers ∧
          z.counters = y.counters ∧ z.wgerr = y.wgerr ∧ z.full = y.full ∧ z.tiles = y.tiles ∧ z.cmds = y.cmds ∧
          (y.core < 192 → ∀ n x, n < 32 → (s.slot y.core n).owner = w → (s.slot y.core n).state ≠ .free →
            ((n, x) ∈ z.savedSlots ↔ x = s.slot y.core n) ∧ (t.slot y.core n).state = .free))

/-- R188, R363, R382 to R384, R399, R400, R434: PERIOD acts once a boundary has come: consumption starts anew, CONFIG values take effect,
limits are read again; BUDGET posts one record for an activity held at 10 boundaries; WATCHDOG, after P without progress, pre-empts a
context all of whose waits are internal and posts one record, or posts QUIESCENT-EXTERNAL once when all are external. -/
def Obligations.PeriodAndWatchdog : Prop :=
  ∀ (s : State),
    (s.now / 100000 ≤ s.lastPeriod → exec .period s = .next s) ∧
    (s.lastPeriod < s.now / 100000 →
      ∃ t : State, exec .period s = .next t ∧ MemorySame s t ∧ t.lastPeriod = s.now / 100000 ∧ t.hostif.newParams = [] ∧
        t.hostif.params = s.hostif.newParams.foldl Params.set s.hostif.params ∧ t.regions.length = s.regions.length ∧
        (∀ (i : Nat) (r : Region), s.regions[i]? = some r → ∃ n : Region, t.regions[i]? = some n ∧ n.rcb = r.rcb ∧ n.ctx = r.ctx ∧ n.own.mask = r.own.mask ∧
          n.issueUsed = 0 ∧ n.hbmUsed = 0 ∧ n.bankUsed = 0 ∧ n.fabricUsed = 0 ∧ n.throttledNow = [] ∧
          n.heldHbm = (if 1 ∈ r.throttledNow then min (r.heldHbm + 1) (max r.heldHbm 10) else 0) ∧
          n.heldFabric = (if 3 ∈ r.throttledNow then min (r.heldFabric + 1) (max r.heldFabric 10) else 0) ∧
          (∀ c, s.devRead (devAgent r.ctx 0) r.rcb 256 = .error c → n.own = r.own) ∧
          ∀ bs c, s.devRead (devAgent r.ctx 0) r.rcb 256 = .ok bs → s.ctx? r.ctx = some c → rcbOk c r.rcb bs = true →
            n.own = { (parseRcb r.ctx r.rcb bs).own with mask := r.own.mask }) ∧
        ∀ w y, s.wg? w = some y → ∃ z, t.wg? w = some z ∧ { z with preempt := y.preempt } = y) ∧
    (∀ ix which r, s.regions[ix]? = some r → 1 ≤ which → which ≤ 3 →
      let held := if which = 1 then r.heldHbm else if which = 2 then r.heldBank else r.heldFabric
      (held ≠ 10 → exec (.budget ix which) s = .next s) ∧
      (held = 10 → exec (.budget ix which) s = .next (State.postDevice
        (s.modRegion r.ctx r.rcb fun x => if which = 1 then { x with heldHbm := 11 } else if which = 2 then { x with heldBank := 11 }
          else { x with heldFabric := 11 }) (.budget r.rcb) r.ctx r.rcb ⟨.budget, 0, false, false, false, r.rcb ||| which⟩))) ∧
    ∀ ctx c, s.ctx? ctx = some c →
      let quiet := s.time - c.lastProgress
      let waits := s.contextWaits ctx ++ s.launchesHeld ctx
      let ready := s.hostif.params.watchdog ≤ quiet ∧ s.contextWgs ctx ≠ [] ∧ c.watchdogHeld = false
      (¬ ready → exec (.watchdog ctx) s = .next s) ∧
      (ready → (∃ a ∈ waits, a = true) → (∃ a ∈ waits, a = false) → exec (.watchdog ctx) s = .next s) ∧
      (ready → (∀ a ∈ waits, a = false) → exec (.watchdog ctx) s = .next (State.postDevice
        ((s.markUnits (s.contextWgs ctx)).modCtx ctx fun c => { c with watchdogHeld := true })
        (.watchdog ctx) ctx c.rootRcb ⟨.watchdog, 0, false, false, false, quiet / 1000⟩)) ∧
      (ready → waits ≠ [] → (∀ a ∈ waits, a = true) → exec (.watchdog ctx) s = .next (if c.quietPosted then s
        else (s.postEvent .quiescentExternal 0 ctx.toNat (quiet / 1000) 0).modCtx ctx fun c => { c with quietPosted := true }))

/-- R16, R385 to R396, R444: a soft error is corrected and logged or poisons its location, and counts as a fault of its unit; at the
count a core leaves service; poison of shared state restarts a group in its region; the patrol, the scan and the eddy queue act when
they are due; a new clock leaves CYCLE where it is. -/
def Obligations.ReliabilityEvents : Prop :=
  ∀ (s : State),
    (∀ unit pa, isHbm pa = true →
      exec (.softError ⟨.hbm pa, true, unit⟩) s = .next ((s.postLog .corrected 3 unit 0 pa 0).countFault 3 unit) ∧
      ∃ u : State, exec (.softError ⟨.hbm pa, false, unit⟩) s = .next (u.countFault 3 unit) ∧ { u with poison := s.poison } = s ∧
        ∀ k, k ∈ u.poison ↔ k = pa / 32 * 32 ∨ k ∈ s.poison) ∧
    (∀ unit w n g r l, s.group? w n = some g → ∃ (u : State) (h : Group), exec (.softError ⟨.vreg w n r l, false, unit⟩) s = .next (u.countFault 1 unit) ∧
      u = s.modGroup w n (fun _ => h) ∧ { h with poison := g.poison } = g ∧ ∀ p, p ∈ h.poison ↔ p = .v r l ∨ p ∈ g.poison) ∧
    (∀ unit core key fixed, exec (.softError ⟨.l1 core key, fixed, unit⟩) s = .next (State.countFault (State.postLog
      (s.modCore core fun c => { c with l1 := c.l1.filter fun x => x.key != key / 32 * 32 }) .corrected 1 unit 0 0 0) 1 unit)) ∧
    (∀ type unit,
      let u := { s with faults := (type, unit, s.time) :: s.faults.filter fun f => s.time < f.2.2 + s.hostif.params.faultWindow }
      let n := (u.faults.filter fun f => f.1 == type && f.2.1 == unit).length
      (n < s.hostif.params.faultCount → s.countFault type unit = u) ∧
      (s.hostif.params.faultCount ≤ n → (type, unit) ∈ (s.countFault type unit).retired ∧
        (type = 1 → unit < 192 → (1, unit) ∉ s.retired → ((s.countFault 1 unit).core unit).inService = false))) ∧
    (∀ wg x, s.wg? wg = some x → x.poisonShared = false → exec (.poisonConsumed wg 0 0) s = .next s) ∧
    (∀ wg x g y r, s.wg? wg = some x → x.state = .resident → x.poisonShared = true → x.groups = [g] → g.split 0 = some y →
      (∀ k, k ≠ 0 → g.split k = none) → g.overflow = [] → g.retired = false → y.region = some r → r.restarts < 3 →
      ∃ (u : State) (z : Wg) (h : Group), exec (.poisonConsumed wg 0 0) s = .next (u.postLog .restart 0 0 (s.ctxOf wg).toNat 0 r.entry.toNat) ∧
        u.wg? wg = some z ∧ z.poisonShared = false ∧ z.barriers = x.barriers ∧ z.counters = x.counters ∧ z.cmds = x.cmds ∧
        z.groups = [h] ∧ RegistersSame { g with laneQ := [] } h ∧ (∀ k, k ≠ 0 → h.split k = none) ∧
        (h.split 0).map splitFacts = some (r.entry, r.mask, y.regs, some { r with restarts := r.restarts + 1 })) ∧
    (∀ core q ix e, (getVec (s.core core).eddy q [])[ix]? = some e →
      let u := s.modCore core fun c => { c with eddy := modVec (fun l => l.eraseIdx ix) c.eddy q }
      let v := (u.postLog .mismatch 1 core 0 0 0).countFault 1 core
      exec (.eddyRecheck core q ix false) s = .next u ∧
      exec (.eddyRecheck core q ix true) s = .next (if v.wgState e.wg = some .resident then
        v.consumePoison e.wg e.g e.irb 1 0 e.index e.pc.toNat 0 0 (poisonTrap 0 false (1, core)) else v)) ∧
    exec .patrol s = .next (if s.time < s.lastPatrol + 24 * 3600 * 10 ^ 9 then s else { s with lastPatrol := s.time }) ∧
    (∀ reach i, reach < 4 → i < 48 →
      let core (j : Nat) : Nat := 48 * reach + ((s.reach reach).nextCore + j) % 48
      let isOpen (c : Nat) : Prop := (s.core c).inService = true ∧ (s.core c).withheld = false
      let due := s.hostif.params.scanInterval ≠ 0 ∧ (s.reach reach).lastScan + s.hostif.params.scanInterval ≤ s.time
      (∀ c, c / 48 = reach → ¬ ((s.core c).inService = true ∧ (s.core c).withheld = true ∧ (s.core c).scanning = none)) →
      (¬ due → exec (.scan reach) s = .next s) ∧
      (due → isOpen (core i) → (∀ j, j < i → ¬ isOpen (core j)) →
        ∃ t, exec (.scan reach) s = .next t ∧ (t.core (core i)).withheld = true ∧ (t.reach reach).lastScan = s.time ∧
          (t.reach reach).nextCore = (core i + 1) % 48 ∧ (∀ c, c ≠ core i → t.core c = s.core c) ∧
          (s.coreWgs (core i) = [] → (t.core (core i)).epoch = (s.core (core i)).epoch + 1 ∧
            (t.core (core i)).scanning = some (s.time, false)) ∧
          ∀ w ∈ s.coreWgs (core i), (s.launchOf w).isSome = true → ∃ y, t.wg? w = some y ∧ y.preempt = true)) ∧
    (∀ core start again, (s.core core).scanning = some (start, again) →
      let c := s.core core
      let suspect := s.postLog .suspect 1 core 0 (c.lastPass % 2 ^ 32 + (c.epoch - 2) % 2 ^ 32 * 2 ^ 32) 0
      let passes (u : State) : State := u.modCore core fun c => { c with withheld := false, scanning := none, lastPass := c.epoch }
      (s.time < start + 2000000 → ∀ passed, exec (.scanResult core passed) s = .next s) ∧
      (start + 2000000 ≤ s.time →
        (again = false → exec (.scanResult core true) s = .next (passes s) ∧ exec (.scanResult core false) s = .next (State.countFault
          (s.modCore core fun c => { c with epoch := c.epoch + 1, scanning := some (s.time, true) }) 1 core)) ∧
        (again = true → exec (.scanResult core true) s = .next (passes suspect) ∧ exec (.scanResult core false) s =
          .next (((suspect.modCore core fun c => { c with scanning := none }).countFault 1 core).retire 1 core)))) ∧
    ∀ core mhz mv, core < 192 → mhz ≤ 1200 → 420 ≤ mv → mv ≤ 600 →
      ∃ t, exec (.junctionTemperatureLimit [⟨core, mhz, mv⟩]) s = .next t ∧ MemorySame s t ∧ (t.core core).mhz = mhz ∧
        t.cycle core = s.cycle core ∧ getVec t.islands core (0, 0) = (mhz, mv) ∧ ∀ c, c ≠ core → t.core c = s.core c

/-- R398, R405, R407 to R410, R417 to R419, R426, R427: what this device does as owner. Requests without a serial are performed, where
the grants allow it, and answered; a serial is performed and cached once, answered from the cache again, answered INDETERMINATE or
BUSY, refused, or dropped; one that names a reserved engine is refused; no byte but the request's own is written. -/
def Obligations.FabricOwnerResult : Prop :=
  ∀ (s : State) (h : ReqHeader),
    let clean (rs : List ByteRef) : Prop := ∀ b ∈ rs, s.ownRef b ∧ s.refPoisoned b = false
    let read (rs : List ByteRef) : List Byte := s.readRefs peerAgent true rs
    let filled (u : State) (rs : List ByteRef) : Prop := ∀ q, u.granuleFull q = (s.granuleFull q || decide (q ∈ granulesOf rs))
    (∀ i k, ownerKind i = some (h, k) → s.arrives h = false → exec i s = .next s) ∧
    (∀ i k, ownerKind i = some (h, k) → s.arrives h = true → reservedEngine h = true →
      exec i s = .next (if k = 0x21 ∨ k = 0x22 then s else s.refuse h k 4)) ∧
    (s.arrives h = true → reservedEngine h = false →
      exec (.fabProbe h) s = .next (s.reply h 0x20 0 false false []) ∧
      (∀ kind, exec (.unknownKind h kind) s =
        .next ((s.postViolation h.addr h.retdev h.reqid.ctx.toNat h.reqid.engine.toNat 4).reply h kind 2 false false [])) ∧
      (∃ t, exec (.fabClose h) s = .next t ∧ { t with fabric := s.fabric } = s ∧
        t.fabric.table = s.fabric.table.filter (fun y => y.reqid != h.reqid) ∧
        t.fabric.orc = s.fabric.orc.filter fun e => e.reqid != h.reqid) ∧
      (∀ low last, s.fabric.table = [⟨h.reqid, low, last⟩] → (h.ack - low).toNat ≤ 4096 →
        ∃ t, exec (.fabAck h) s = .next t ∧ { t with fabric := s.fabric } = s ∧ t.fabric.table = [⟨h.reqid, h.ack, s.time⟩] ∧
          t.fabric.orc = s.fabric.orc.filter fun e => !(e.reqid == h.reqid && decide ((e.serial - low).toNat < (h.ack - low).toNat))) ∧
      (∀ n rs, s.ownerBytes h false h.addr n = .ok rs → clean rs →
        exec (.fabLoad h n) s = .next (s.reply h 0x01 0 false false (read rs))) ∧
      (∀ n c, s.ownerBytes h false h.addr n = .error c → exec (.fabLoad h n) s = .next (s.refuse h 0x01 c)) ∧
      (∀ bs rs, s.ownerBytes h true h.addr bs.length = .ok rs → clean rs →
        ∃ u, Written s u (storeNibbles rs bs) ∧ filled u rs ∧ exec (.fabStore h bs) s = .next (u.reply h 0x02 0 false false [])) ∧
      (∀ elems rss, s.ownerSpans h false (elems.map elemSpan) = .ok rss → clean rss.flatten →
        exec (.fabVload h elems) s = .next (s.reply h 0x06 0 false false ((elems.zip rss).flatMap fun x =>
          if x.1.bits = 4 then bytesOfNat 1 (nibble ((read x.2).headD 0) x.1.high) else read x.2))) ∧
      (∀ elems rss, s.ownerSpans h true (elems.map fun e => elemSpan e.1) = .ok rss → clean rss.flatten →
        ∃ u, filled u rss.flatten ∧ exec (.fabVstore h elems) s = .next (u.reply h 0x07 0 false false []) ∧
          Written s u ((elems.zip rss).flatMap fun x =>
            if x.1.1.bits = 4 then x.2.flatMap fun b => match b with
              | .whole p => [(p, x.1.1.high, x.1.2 % 16)]
              | _ => []
            else storeNibbles x.2 (bytesOfNat ((x.1.1.bits + 7) / 8) x.1.2)))) ∧
    (∀ i k, ownerKind i = some (h, k) → serialKind k = true → s.arrives h = true → reservedEngine h = false →
      (h.inc ≠ s.hostif.incarn.toNat → exec i s = .next (s.reply h k 6 false false [])) ∧
      (h.inc = s.hostif.incarn.toNat → (∀ t ∈ s.fabric.table, t.reqid ≠ h.reqid) → 65536 ≤ s.fabric.table.length →
        exec i s = .next (s.reply h k 9 true false [])) ∧
      ∀ low, Heard s h low →
        (∀ e, s.fabric.orc.find? (fun e => e.reqid == h.reqid && e.serial == h.serial) = some e → (h.serial - low).toNat < 4096 →
          exec i s = .next ((s.heard h).reply h k e.status false true e.result)) ∧
        (1 ≤ (low - h.serial).toNat → (low - h.serial).toNat ≤ 2 ^ 31 → exec i s = .next (s.heard h)) ∧
        (4096 ≤ (h.serial - low).toNat → 2 ^ 31 < (low - h.serial).toNat → exec i s = .next ((s.heard h).refuse h k 5))) ∧
    ∀ low, Heard s h low → (h.serial - low).toNat < 4096 → (∀ e ∈ s.fabric.orc, ¬ (e.reqid = h.reqid ∧ e.serial = h.serial)) →
      let performs (i : Instr) (k : Nat) (data : List Byte) (p : State → Prop) : Prop :=
        ∃ u, exec i s = .next ((u.cacheResult h 0 data).reply h k 0 false false data) ∧ u.fabric = (s.heard h).fabric ∧ p u
      let writes (rs : List ByteRef) (v : Option Nat) (n : Nat) (u : State) : Prop :=
        filled u (if v.isSome then rs else []) ∧ Written s u (match v with | some v => storeNibbles rs (bytesOfNat n v) | none => [])
      (∀ i k, ownerKind i = some (h, k) → serialKind k = true → ∀ n c, ownerSpan i = some n → s.ownerBytes h true h.addr n = .error c →
        exec i s = .next ((s.heard h).refuse h k c)) ∧
      (∀ i k, ownerKind i = some (h, k) → serialKind k = true → ∀ n rs, ownerSpan i = some n → s.ownerBytes h true h.addr n = .ok rs →
        1048576 ≤ s.fabric.orc.length → exec i s = .next ((s.heard h).reply h k 9 true false [])) ∧
      (s.fabric.orc.length < 1048576 →
        (∀ op b rs, s.ownerBytes h true h.addr (rmwWidth op) = .ok rs → clean rs → s.pcieHost rs = false →
          let old := natOfBytes (read rs)
          let new := (rmwApply op old b).1
          performs (.fabAtom h op b) 0x03 (read rs) (writes rs (some new) (rmwWidth op)) ∧
          performs (.fabRed h op b) 0x05 [] (writes rs (some new) (rmwWidth op))) ∧
        (∀ n e b rs, s.ownerBytes h true h.addr n = .ok rs → clean rs →
          performs (.fabCas h n e b) 0x04 (read rs) (writes rs (if natOfBytes (read rs) = e then some b else none) n)) ∧
        (∀ elems op rss, s.ownerSpans h true (elems.map elemSpan) = .ok rss → clean rss.flatten → s.pcieHost rss.flatten = false →
          let x := rss.zipIdx.foldl (fun (a : State × List Byte) r =>
            let y := a.1.rmwRefs peerAgent r.1 (farNew op r.2)
            (y.1, a.2 ++ bytesOfNat r.1.length y.2)) (s, [])
          performs (.fabVatomic h elems op) 0x08 x.2 fun u =>
            HomeSame x.1 u ∧ ∀ r b d, op = .rmw r b d → filled u rss.flatten) ∧
        (∀ bs rs, s.ownerBytes h true h.addr bs.length = .ok rs → clean rs →
          performs (.fabDoor h bs) 0x09 [] fun u => Written s u (storeNibbles rs bs) ∧ filled u rs) ∧
        (∀ item w rs full empty, s.ownerBytes h true h.addr 64 = .ok rs → s.doorWg (fld h.addr 40 8) = some w → s.coreOf w < 192 →
          itemFieldsOk item = true → (s.at w 0 0).itemFull item = some full → (s.at w 0 0).itemEmpty item = some empty →
          let q := reachOfCore (s.coreOf w)
          (s.reach q).items.length < 65536 →
          ∃ (u : State) (j : Item), MemorySame s u ∧ (u.reach q).items = (s.reach q).items ++ [j] ∧ j.ctx = s.ctxOf w ∧
            j.full = full ∧ j.empty = empty ∧ j.payload = item ∧
            let data := bytesOfNat 8 (j.slot + j.gen * 2 ^ 16) ++ bytesOfNat 8 0
            exec (.fabPush h item) s = .next ((u.cacheResult h 0 data).reply h 0x0B 0 false false data)) ∧
        (∀ c x rss, chunkReduce c = some x → s.ownerSpans h true ((chunkTargets c).map fun a => (a, x.bytes)) = .ok rss →
          clean rss.flatten → s.pcieHost rss.flatten = false →
          let old := rss.map read
          let new := chunkResults c x old
          if chunkChecks c x old new then
            performs (.fabRchunk h c) 0x0C [] fun u =>
              Written s u ((rss.zip new).flatMap fun r => storeNibbles r.1 r.2) ∧ filled u rss.flatten
          else exec (.fabRchunk h c) s = .next ((s.heard h).reply h 0x0C 4 false false [])) ∧
        (∀ kind r payload, (s.bankInProgress h = true → exec (.fabBank h kind r payload) s = .next (s.heard h)) ∧
          (s.bankInProgress h = false →
            let (ms, vec) := farPlaces r payload
            let spans := farSpans kind r ms vec
            firstCause s h false spans.1 = none → firstCause s h true spans.2 = none →
            ∃ t c, exec (.fabBank h kind r payload) s = .next t ∧ MemorySame s t ∧ t.bankCmds = s.bankCmds ++ [c] ∧ c.id = s.nextBank ∧
              t.nextBank = s.nextBank + 1 ∧ c.kind = kind ∧ c.ctx = h.reqid.ctx ∧ c.remote = some h ∧ c.pending.Nodup ∧
              t.fabric = (s.heard h).fabric ∧
              ∀ p, p < 512 → (t.pc p).queue = (s.pc p).queue ++ if p ∈ c.pending then [c.id] else [])))

/-- R404, R411, R412, R415, R419, R420 to R424, R437, R446: what this device does as requester: a response ends its operation or, if it
says BUSY, delays it; the timers send copies, give up, acknowledge and free entries when they are due; a lost flit changes nothing; a
replica applies the next ordered write; a page-in ends. -/
def Obligations.FabricRequesterResult : Prop :=
  ∀ (s : State),
    (∀ r, (∀ o, s.op? r.tag = some o → s.fabric.portsUp = false ∨ o.answeredBy r = false) → exec (.response r) s = .next s) ∧
    (∀ r o, s.op? r.tag = some o → s.fabric.portsUp = true → o.answeredBy r = true →
      (∀ t i, s.stream? o.reqid o.owner = some t → t.inc = some i → i = r.inc) →
      let u := s.chargeFabric o.issuer (32 + r.data.length)
      (o.payload = .probe → exec (.response r) s =
        .next (State.pump ((u.modStream o.reqid o.owner fun t => { t with inc := some r.inc }).opDone o.id (.performed [])))) ∧
      (o.payload ≠ .probe →
        let d := if o.busyDelay = 0 then 4000 else min (2 * o.busyDelay) 1000000
        (r.busy = true → exec (.response r) s = .next (u.modOp o.id fun y => { y with state := .waitbusy (s.time + d), busyDelay := d })) ∧
        (∀ p, s.portFor o.owner = some p → r.busy = false → r.status.toNat = 4 → o.checksums < 2 → ∃ t, exec (.response r) s = .next t ∧
          Sends s t p o { o with checksums := o.checksums + 1, onlyBusy := false, state := .sent, lastSent := s.time }) ∧
        (r.busy = false → (r.status.toNat = 4 → 2 ≤ o.checksums) →
          exec (.response r) s = .next (u.opDone o.id (statusOutcome r.status.toNat r.data)).pump))) ∧
    (∀ id o out, s.op? id = some o → o.issuer.untaken = false →
      (∀ w k n d, o.issuer = .command w k n → s.cmd? ⟨w, k, n⟩ = some d → d.ending = none) →
      let t := s.opDone id out
      t.op? id = some { o with state := .done, result := some out } ∧ MemorySame s t ∧
        ∀ w g k h x n, o.issuer = .scalar w g k → s.group? w g = some h → h.split k = some x → x.status = .waiting (.remote n) → k < 4 →
          ∃ h' y, t.group? w g = some h' ∧ RegistersSame h h' ∧ h'.split k = some y ∧ y.status = .ready ∧ splitFacts y = splitFacts x) ∧
    (∀ id o, s.op? id = some o →
      (o.state ≠ .sent ∨ s.time < o.lastSent + 2 ^ min o.copies 5 * (s.hostif.params.lifetimeUs * 1000) →
        exec (.retransmit id) s = .next s) ∧
      (o.state = .sent → o.lastSent + 2 ^ min o.copies 5 * (s.hostif.params.lifetimeUs * 1000) ≤ s.time →
        (s.fabricHeld o.issuer = true → exec (.retransmit id) s = .next (s.noteFabric o.issuer)) ∧
        ∀ p, s.fabricHeld o.issuer = false → s.portFor o.owner = some p →
          ∃ t, exec (.retransmit id) s = .next t ∧ Sends s t p o { o with lastSent := s.time, copies := o.copies + 1 }) ∧
      (∀ due, o.state = .waitbusy due →
        (s.time < due → exec (.waitbusy id) s = .next s) ∧
        (due ≤ s.time → s.fabricHeld o.issuer = true → exec (.waitbusy id) s = .next (s.noteFabric o.issuer)) ∧
        ∀ p, due ≤ s.time → s.fabricHeld o.issuer = false → s.portFor o.owner = some p →
          ∃ t, exec (.waitbusy id) s = .next t ∧ Sends s t p o { o with state := .sent, lastSent := s.time, copies := 1 }) ∧
      (∀ at_, o.state = .saved at_ →
        let due := at_ + s.hostif.params.lifetimeUs * 1000 ≤ s.time ∧ s.opResumed o = true ∧ s.fabric.portsUp = true
        (¬ due → exec (.savedRetransmit id) s = .next s) ∧
        (due → s.fabricHeld o.issuer = true → exec (.savedRetransmit id) s = .next (s.noteFabric o.issuer)) ∧
        ∀ p, due → s.fabricHeld o.issuer = false → s.portFor o.owner = some p → ∃ t, exec (.savedRetransmit id) s = .next t ∧
          Sends s t p o { o with state := .sent, firstSent := s.time, lastSent := s.time, copies := 1 }) ∧
      (s.time < o.firstSent + s.hostif.params.giveUp → exec (.giveUp id) s = .next s) ∧
      (o.firstSent + s.hostif.params.giveUp ≤ s.time → o.payload ≠ .probe →
        (o.state = .sent → exec (.giveUp id) s = .next (s.opDone id (if o.serial = none then .gaveUp else .indeterminate)).pump) ∧
        (∀ due, o.state = .waitbusy due → o.serial ≠ none →
          exec (.giveUp id) s = .next (s.opDone id (if o.onlyBusy then .notPerformed else .indeterminate)).pump))) ∧
    (∀ ix t, s.fabric.streams[ix]? = some t →
      let due := t.ackSent ≠ t.ack ∧ t.lastSent + 100000 ≤ s.time ∧ s.fabric.portsUp = true
      (¬ due → exec (.ackTimer ix) s = .next s) ∧
      (∀ p, due → s.portFor t.owner = some p → ∃ u h, exec (.ackTimer ix) s = .next u ∧ MemorySame s u ∧ h.reqid = t.reqid ∧
        h.ack = t.ack ∧ h.ser = false ∧ Enters s u p (.request t.owner h .ack) ∧
        u.stream? t.reqid t.owner = (s.stream? t.reqid t.owner).map fun y => { y with ackSent := y.ack, lastSent := s.time })) ∧
    (∀ ix t, s.fabric.table[ix]? = some t →
      let free := t.last + 10000000 ≤ s.time ∧ (∀ e ∈ s.fabric.orc, e.reqid ≠ t.reqid) ∧
        ∀ c ∈ s.bankCmds, ∀ g, c.remote = some g → g.reqid ≠ t.reqid
      (free → exec (.streamEntryFree ix) s =
        .next { s with fabric := { s.fabric with table := s.fabric.table.eraseIdx ix } }) ∧
      (¬ free → exec (.streamEntryFree ix) s = .next s)) ∧
    (∀ p ix f life since, (s.fabric.port p)[ix]? = some (f, life, since) → exec (.lifetimeExpiry (18 * ix + p)) s = .next (
      if (s.time - since + 999) / 1000 < life then s
      else { s with fabric := { s.fabric with ports := modVec (fun l => l.eraseIdx ix) s.fabric.ports p } })) ∧
    (∀ port, exec (.crcFailedFlit port) s = .next s) ∧
    (∀ q r, q < 4 → r < 4 →
      let n := getVec (s.reach q).replApplied r 0
      (∀ w, (s.reach q).replLog[n]? = some w → ∃ t, exec (.replicaApply q r) s = .next t ∧
        t.mem = s.mem.writeRun (replicaPa w.pa r) w.bytes ∧ getVec (t.reach q).replApplied r 0 = n + 1 ∧
        (t.reach q).replLog = (s.reach q).replLog ∧
        { t with mem := s.mem, reaches := s.reaches, cores := s.cores, regions := s.regions } = s) ∧
      ((s.reach q).replLog[n]? = none → exec (.replicaApply q r) s = .next s)) ∧
    ∀ q ix p bs eb rs, q < 4 → ix < 64 → (s.reach q).pageIns[ix]? = some p → s.physBytes p.source p.size = some bs →
      let v := (s.modReach q fun r => { r with pageIns := r.pageIns.eraseIdx ix }).fillFrame p bs
      let ag := devAgent p.ctx q
      (v.mem = s.mem.writeRun p.frame bs ∧ (v.reach q).pageIns = (s.reach q).pageIns.eraseIdx ix ∧
        { v with mem := s.mem, poison := s.poison, reaches := s.reaches, regions := s.regions } = s) ∧
      (v.devRead ag p.entryVa 16 = .ok eb → v.resolveFlat ag (Acc.load 16) p.entryVa = .ok rs → rs.length = 16 → (∀ b ∈ rs, v.ownRef b) →
      let e := natOfBytes eb
      let name (gen : Nat) : Nat := gen % 2 ^ 16 + p.entry % 2 ^ 32 * 2 ^ 16 + p.view * 2 ^ 48
      (fld e 0 3 = 2 → fld e 8 16 = p.gen → ReplicasCurrent s →
        ∃ u, Written v u (storeNibbles rs (bytesOfNat 16 (setFld (setFld (setFld e 24 40 (p.frame / 4096)) 0 3 0) 8 16 (p.gen + 1)))) ∧
          exec (.pageInComplete q ix) s = .next (u.postEvent .pagedIn 0 p.ctx.toNat (name (p.gen + 1)) p.frame)) ∧
      (fld e 0 3 ≠ 2 ∨ fld e 8 16 ≠ p.gen →
        exec (.pageInComplete q ix) s = .next (v.postEvent .pageAbandoned 0 p.ctx.toNat (name (fld e 8 16)) p.frame)))

/-! The host. -/

/-- R365, R366: DISPOSE, the return from a trap. CONTINUE and SKIP of a scalar trap make its split run again, at PC + 4 under SKIP and
after TRAP and BRK; of a lane trap, the instruction at the queue head executes again or leaves the queue; of a command's trap, execution
goes on after the WAITC; KILL kills the fault domain. A sequence that names no pending record, or a disposition above 2, is REJECTED. -/
def Obligations.DispositionResult : Prop :=
  ∀ (s : State) (ring : Nat) (c : HostCmd) (x : Ctx), s.hostTurn ring 0x04 = some c → s.ctx? c.ctx = some x →
    let reject := exec (.dispose ring) s = .next (s.cmdDone c 7 0)
    let d := c.op 1
    let named (p : Pending) : Bool := p.ctx == c.ctx && p.seq == some (BitVec.ofNat 32 (c.op 0))
    (2 < d ∨ 2 ^ 32 ≤ c.op 0 ∨ (∀ p ∈ s.pending, named p = false) → reject) ∧
    ∀ ix p, s.pending.findIdx? named = some ix → s.pending[ix]? = some p → c.op 0 < 2 ^ 32 → d ≤ 2 →
      let u := { s with pending := s.pending.eraseIdx ix }.progress c.ctx
      let cls := recNat p.record 0 1
      (∀ w g k h y, p.origin = .scalar w g k ∨ p.origin = .command w g k → s.group? w g = some h → h.split k = some y → k < 4 → d < 2 →
        y.status = .parked → h.head.stopped = false → h.entryRun = false → h.overflow = [] →
        (∀ j a, j ≠ k → h.split j = some a → a.status ≠ .parked ∧ a.held = false) →
        (∀ q ∈ s.pending.eraseIdx ix, q.origin ≠ .scalar w g k ∧ q.origin ≠ .command w g k) →
        ∃ t h' z, exec (.dispose ring) s = .next (t.cmdDone c 0 0) ∧ MemorySame s t ∧ t.pending = s.pending.eraseIdx ix ∧
          t.group? w g = some h' ∧ RegistersSame h h' ∧ h'.split k = some z ∧ z.status ≠ .parked ∧ z.mask = y.mask ∧ z.regs = y.regs ∧
          z.region = y.region ∧
          z.pc = if p.origin = .command w g k ∨ d = 1 ∨ cls = 0x0E ∨ cls = 0x0F then y.pc + 4 else y.pc) ∧
      (∀ w g h e rest, p.origin = .lane w g → s.group? w g = some h → h.laneQ = e :: rest → (∃ k ∈ splitIxs, (h.split k).isSome) → d < 2 →
        ∃ t h', exec (.dispose ring) s = .next (t.cmdDone c 0 0) ∧ MemorySame s t ∧ t.pending = s.pending.eraseIdx ix ∧
          t.group? w g = some h' ∧ h'.head.stopped = false ∧
          RegistersSame { h with
            laneQ := if d = 0 then e :: rest else rest
            seed := if d = 1 ∧ cls ≠ 0x01 ∧ e.isWord = true ∧ roundsSr (laneRnd e.instr) h.flags = true then h.seed + 1
              else h.seed } h' ∧
          (if d = 0 then h'.head.performed = h.head.performed else h'.head = Head.empty)) ∧
      (d = 2 → exec (.dispose ring) s = .next (State.cmdDone
        (match p.origin with
          | .scalar _ _ _ | .lane _ _ | .command _ _ _ => u.killDomain p.ctx (u.domainOf p.ctx (u.originRegion p.ctx p.origin))
          | _ => u.killDomain p.ctx (u.domainOf p.ctx (u.rootOf p.ctx))) c 0 0)) ∧
      (∀ l addr, p.origin = .launchRead l addr → d < 2 → exec (.dispose ring) s = .next (State.cmdDone
        (u.modLaunch l fun y =>
          { y with heldReads := y.heldReads.erase addr, skipReads := if d = 1 then addr :: y.skipReads else y.skipReads }) c 0 0)) ∧
      (∀ ctx, p.origin = .watchdog ctx → d < 2 →
        exec (.dispose ring) s = .next ((u.modCtx ctx fun y => { y with watchdogHeld := false }).cmdDone c 0 0)) ∧
      (∀ r, p.origin = .budget r → d < 2 → exec (.dispose ring) s = .next (u.cmdDone c 0 0))

/-- R272 to R274, R371, R376, R381, R393, R407, R408, R433, R434, R437, R438, R442, R443: what each host command does in its turn, and
the status it completes with; a command that is not in its turn does nothing, one of an unregistered context is REJECTED. -/
def Obligations.HostCommandResult : Prop :=
  (∀ (s : State) (c : HostCmd) (status size : Nat), (∀ y ∈ s.hostif.cmds, y.malformed = false) →
    s.cmdDone c status size = State.postEvent
      { s with hostif := { s.hostif with cmds := s.hostif.cmds.filter fun y => y.ring != c.ring } }
      .commandDone status c.ctxField c.ring size) ∧
  (∀ (s : State) (i : Instr) (ring code : Nat), hostCommand i = some (ring, code) → s.hostTurn ring code = none → exec i s = .next s) ∧
  (∀ (s : State) (i : Instr) (ring code : Nat) (c : HostCmd), hostCommand i = some (ring, code) → s.hostTurn ring code = some c →
    code ∉ [0x01, 0x0B, 0x0C, 0x0E, 0x0F, 0x10] → s.ctx? c.ctx = none → exec i s = .next (s.cmdDone c 7 0)) ∧
  ∀ (s : State) (ring : Nat) (c : HostCmd),
    let turn (code : Nat) : Prop := s.hostTurn ring code = some c ∧ c.started = false
    let reject (i : Instr) : Prop := exec i s = .next (s.cmdDone c 7 0)
    let does (i : Instr) (status size : Nat) (p : State → Prop) : Prop := ∃ t, exec i s = .next (t.cmdDone c status size) ∧ p t
    (turn 0x01 →
      (s.registerCtx (c.op 0) (c.op 1) (c.op 2) = none → reject (.register ring)) ∧
      (∀ r, c.op 1 % 4096 = 0 → isHbm (c.op 1) = true → c.op 2 < 2 ^ 16 → s.rcbImage (c.op 1) (c.op 0) = some r →
        let x := newCtx (BitVec.ofNat 20 (recNat r 0x0C 4)) (c.op 0) (c.op 1) (c.op 2) (recNat r 0x10 8) s.time
        rcbOk x (c.op 0) r = true → s.ctx? x.id = none →
        does (.register ring) 0 0 fun t => MemorySame s t ∧ t.contexts = s.contexts ++ [x] ∧ (t.region? x.id (c.op 0)).isSome)) ∧
    (∀ x, s.ctx? c.ctx = some x →
      (turn 0x02 →
        let u := s.killDomain x.id x.rootRcb
        if u.ctxBusy x.id then exec (.destroy ring) s = .next (u.cmdStart c)
        else does (.destroy ring) 0 0 fun t => t.ctx? x.id = none ∧ (∀ p ∈ t.pending, p.ctx ≠ x.id) ∧ (∀ y ∈ t.fabric.streams, y.reqid.ctx ≠ x.id) ∧
          ∀ l, l ∈ s.domainLaunches x.id x.rootRcb → ∃ y, t.launch? l = some y ∧ y.state = .ended) ∧
      (turn 0x03 → c.op 0 % 16 = 0 → c.op 1 % 16 = 0 → ∀ r, s.devRead (devAgent c.ctx 0) (c.op 0) 128 = .ok r → recNat r 0 8 ≠ 0 →
        (∀ path, s.validateLaunch c.ctx none r = some path → ReplicasCurrent s →
          (65536 ≤ s.liveLaunches → exec (.launch ring) s = .next (s.cmdStart c)) ∧
          (s.liveLaunches < 65536 → does (.launch ring) 0 0 fun t => MemorySame s t ∧ ∃ l, t.launches = s.launches ++ [l] ∧ l.ctx = c.ctx ∧
            l.record = r ∧ l.recordVa = c.op 0 ∧ l.completion = c.op 1 ∧ l.state = .queued ∧ l.accepted = s.stamp)) ∧
        (s.validateLaunch c.ctx none r = none → c.op 1 = 0 → reject (.launch ring))) ∧
      (turn 0x05 → ∃ u d, exec (.invalidate ring) s = .next (if u.cmdClear d then u.cmdDone d 0 0 else u.cmdStart d) ∧ d.ring = ring ∧
        ((∀ w k g, s.group? w k = some g → g.behind = []) → MemorySame s u ∧ ∀ w, u.wg? w = s.wg? w) ∧
        let outside (e : TlbEntry) : Bool := !(e.ctx == c.ctx && rangesMeet (c.op 0) (c.op 1) e.leaf.base e.leaf.size)
        (∀ q, q < 4 → (u.reach q).tlb = (s.reach q).tlb.filter outside) ∧ ∀ k, k < 192 → (u.core k).tlb = (s.core k).tlb.filter outside) ∧
      (turn 0x06 → c.op 0 = 0 ∨ s.isHost (c.op 0) = true →
        let leaves (t : State) : Prop := (∃ y, t.ctx? x.id = some y ∧ y.switchedOut = true) ∧
          ∀ w ∈ s.contextWgs x.id, (s.launchOf w).isSome = true → ∃ y, t.wg? w = some y ∧ y.preempt = true
        (s.contextWgs x.id ≠ [] → ∃ t, exec (.switchOut ring) s = .next (t.cmdStart c) ∧ MemorySame s t ∧ leaves t) ∧
        (s.contextWgs x.id = [] → c.op 0 = 0 → does (.switchOut ring) 0 0 fun t => MemorySame s t ∧ leaves t) ∧
        (s.contextWgs x.id = [] → c.op 0 ≠ 0 → ∃ size, does (.switchOut ring) 0 size fun t =>
          ∃ y, t.ctx? x.id = some y ∧ y.switchedOut = true ∧ y.exported = some (c.op 0))) ∧
      (turn 0x07 → c.op 0 = 0 ∨ x.exported = some (c.op 0) → does (.resume ring) 0 0 fun t =>
        t = s.modCtx x.id fun y => { y with switchedOut := false, lastProgress := s.time }) ∧
      (turn 0x07 → c.op 0 ≠ 0 → x.exported ≠ some (c.op 0) →
        if s.isHost (c.op 0) then exec (.resume ring) s = .refused .foreignImage else reject (.resume ring)) ∧
      (turn 0x08 → ∀ d rs, c.op 0 ≤ 0xFFFF → s.descOf c.agent 0 (c.op 0) = .ok d → d.kind = some .kvmap → c.op 1 < d.entryCount →
        s.resolveFlat c.agent (Acc.load 16) ((d.index + 16 * c.op 1) % 2 ^ 64) = .ok rs → rs.length = 16 → (∀ b ∈ rs, s.ownRef b) →
        ReplicasCurrent s →
        let lo := c.op 2
        let legal := fld lo 0 3 ≤ 4 ∧ fld lo 0 3 ≠ 2 ∧ fld lo 3 1 = 0 ∧ fld lo 5 3 = 0 ∧ c.op 3 < 2 ^ 52 ∧ c.op 3 % 2 = 0
        let gen := fld (natOfBytes (s.readRefs c.agent true rs)) 8 16
        (legal → does (.rmset ring) 0 0 fun t =>
          Written s t (storeNibbles rs (bytesOfNat 16 (setFld lo 8 16 (gen + 1) + c.op 3 * 2 ^ 64)))) ∧
        (¬ legal → reject (.rmset ring))) ∧
      (turn 0x09 → c.op 0 ≤ 0xFFFF → 1 ≤ c.op 1 → c.op 1 ≤ 4096 → ∀ bs, s.physBytes (c.op 2) (8 * c.op 1) = some bs →
        (∀ i, i < c.op 1 → isHbm (recNat bs (8 * i) 8) = true ∧ recNat bs (8 * i) 8 % 4096 = 0) →
        does (.frames ring) 0 0 fun t => MemorySame s t ∧ ∃ y, t.ctx? x.id = some y ∧
          (∀ v, y.pool v = x.pool v ++ if v = c.op 0 then (List.range (c.op 1)).map fun i => recNat bs (8 * i) 8 else []) ∧
          ∀ e, e ∈ y.noFrames ↔ e ∈ x.noFrames ∧ e.1 ≠ c.op 0) ∧
      (turn 0x0A → ∀ image rs, s.physBytes (c.op 1) 128 = some image →
        (0xFFFF < c.op 0 ∨ (parseDesc image).imageOk = false → reject (.viewset ring)) ∧
        (c.op 0 ≤ 0xFFFF → (parseDesc image).imageOk = true → windowOf (s.descVa c.ctx (c.op 0)) = .ordinary →
          s.resolveFlat c.agent (Acc.load 128) (s.descVa c.ctx (c.op 0)) = .ok rs → rs.length = 128 → image.length = 128 →
          (∀ b ∈ rs, s.ownRef b) → does (.viewset ring) 0 0 fun t => Written s t (storeNibbles rs image))) ∧
      (turn 0x11 → ∀ d rs, c.op 0 ≤ 0xFFFF → s.descOf c.agent 0 (c.op 0) = .ok d → d.kind = some .kvmap → c.op 1 < d.entryCount →
        s.resolveFlat c.agent (Acc.load 16) ((d.index + 16 * c.op 1) % 2 ^ 64) = .ok rs → rs.length = 16 → (∀ b ∈ rs, s.ownRef b) →
        let e := natOfBytes (s.readRefs c.agent true rs)
        ∃ u d, exec (.hostRminv ring) s = .next (if u.cmdClear d then u.cmdDone d 0 0 else u.cmdStart d) ∧ d.ring = ring ∧
          Written s u (storeNibbles rs (bytesOfNat 16 (setFld (setFld e 0 3 3) 8 16 (fld e 8 16 + 1))))) ∧
      (turn 0x12 → (0xFFFF < c.op 0 → reject (.hostViewi ring)) ∧
        ∀ rs, c.op 0 ≤ 0xFFFF → windowOf (s.descVa c.ctx (c.op 0)) = .ordinary →
          s.resolveFlat c.agent (Acc.load 128) (s.descVa c.ctx (c.op 0)) = .ok rs → rs.length = 128 → (∀ b ∈ rs, s.ownRef b) →
          ∃ u d, exec (.hostViewi ring) s = .next (if u.cmdClear d then u.cmdDone d 0 0 else u.cmdStart d) ∧ d.ring = ring ∧
            Written s u (storeNibbles (rs.take 4) [0, 0, 0, 0])) ∧
      (turn 0x0D → c.op 0 < 256 →
        (s.doorTarget c.ctx (c.op 1) (c.op 2) = none → reject (.bindDoor ring)) ∧
        ∀ w, s.doorTarget c.ctx (c.op 1) (c.op 2) = some w → does (.bindDoor ring) 0 0 fun t => MemorySame s t ∧
          ∀ n, (t.fabric.doors.find? fun d => d.1 == n) = if n = c.op 0 then some (n, w) else s.fabric.doors.find? fun d => d.1 == n)) ∧
    (∀ g, c.grant? = some g →
      let opens (t : State) (a : Nat) (dev : Nat) (ctx : BitVec 20) (w : Bool) : Prop :=
        ∃ y ∈ t.fabric.grants, y.dev = dev ∧ y.ctx = ctx ∧ y.base ≤ a ∧ a < y.base + y.len ∧ y.w = w
      let within (a dev : Nat) (ctx : BitVec 20) : Prop := g.dev = dev ∧ g.ctx = ctx ∧ g.base ≤ a ∧ a < g.base + g.len
      (turn 0x0B → does (.grant ring) 0 0 fun t => MemorySame s t ∧
        ∀ a dev ctx w, opens t a dev ctx w ↔ opens s a dev ctx w ∨ (within a dev ctx ∧ g.w = w)) ∧
      (turn 0x0C → does (.revoke ring) 0 0 fun t => MemorySame s t ∧
        ∀ a dev ctx w, opens t a dev ctx w ↔ opens s a dev ctx w ∧ ¬ within a dev ctx)) ∧
    (turn 0x0E → (s.configValue (c.op 0) (c.op 1) = none → reject (.config ring)) ∧
      ∀ v, s.configValue (c.op 0) (c.op 1) = some v → does (.config ring) 0 0 fun t => MemorySame s t ∧
        t.hostif.params = s.hostif.params ∧ t.hostif.newParams = s.hostif.newParams ++ [(c.op 0, v)]) ∧
    (turn 0x0F → ∀ nonce, s.physBytes (c.op 0) 64 = some nonce →
      let h := s.hostif
      let body := nonce ++ sha512 h.measurements.flatten ++ bytesOfNat 2 h.devnum.toNat ++ bytesOfNat 2 h.incarn.toNat ++
        bytesOfNat 4 h.secver.toNat ++ List.replicate 376 0
      ∀ t, s.physPut (c.op 1) (body ++ (List.range 512).map (Config.signature body)) = some t →
        exec (.attest ring) s = .next (t.cmdDone c 0 0)) ∧
    (turn 0x10 → s.anyBusy = false → ∃ t, exec (.warmReset ring) s = .next t ∧ t.contexts = [] ∧ t.launches = [] ∧ t.wgs = [] ∧
      t.pending = [] ∧ t.bankCmds = [] ∧ t.hostif.cmds = [] ∧ t.resetAt = s.time ∧ t.hostif.bootstat = s.hostif.bootstat ∧
      t.hostif.incarn = s.hostif.incarn ∧ t.hostif.devnum = s.hostif.devnum ∧ t.fabric.orc = s.fabric.orc ∧
      t.fabric.table = s.fabric.table ∧ ReplicasCurrent t)

/-- R405, R429 to R432, R435, R440, R443: a write of cmdtail makes the device read the new commands, one of evread lets held events out,
one of incarn raises the ports; other register writes store their field or nothing; a host access reaches its bytes; snoops, link
training, held signals, resets and the end of boot. -/
def Obligations.HostPortResult : Prop :=
  ∀ (s : State),
    let h := s.hostif
    let isDown (port : Nat) : Prop := s.portMode port = .down
    (∀ v : BitVec 32,
      let n := (v - h.cmdhead).toNat
      let ready := h.bootstat = 1 ∧ s.hostUp = true ∧ ringSizeOk h.cmdsize.toNat = true ∧ h.cmdbase.toNat % 64 = 0 ∧ n ≤ h.cmdsize.toNat
      let new : List HostCmd := (List.range n).map fun i =>
        let j := (h.cmdhead + BitVec.ofNat 32 i).toNat
        HostCmd.read j (s.host.readRun ((h.cmdbase.toNat + 64 * (j % h.cmdsize.toNat)) % 2 ^ 48) 64)
      (¬ ready → exec (.cmdtail v) s = .next { s with hostif := { h with cmdtail := v } }) ∧
      (ready → (∀ c ∈ h.cmds ++ new, c.malformed = false) →
        exec (.cmdtail v) s = .next { s with hostif := { h with cmdtail := v, cmdhead := v, cmds := h.cmds ++ new } })) ∧
    (∀ v : BitVec 32,
      let u := { s with hostif := { h with evread := v } }
      (h.heldEvents = [] ∨ h.evwrite - v = h.evsize → exec (.evread v) s = .next u) ∧
      (∀ bs, h.heldEvents = [bs] → h.evwrite - v ≠ h.evsize → ∃ t, exec (.evread v) s = .next t ∧ t.hostif.heldEvents = [] ∧
        t.hostif.evwrite = h.evwrite + 1 ∧ t.hostif.evread = v ∧
        t.host = s.host.writeRun ((h.evbase.toNat + 32 * (h.evwrite.toNat % h.evsize.toNat)) % 2 ^ 48) bs)) ∧
    (∀ v : BitVec 16,
      (h.bootstat.toNat ≤ 1 → ∃ t, exec (.incarn v) s = .next t ∧ MemorySame s t ∧ t.hostif = { h with incarn := v } ∧
        t.fabric.portsUp = true) ∧
      (2 ≤ h.bootstat.toNat → exec (.incarn v) s = .next { s with hostif := { h with incarn := v } })) ∧
    (∀ v,
      exec (.registerWrite 0x10 8 v) s = .next { s with hostif := { h with cmdbase := BitVec.ofNat 64 v } } ∧
      exec (.registerWrite 0x18 4 v) s = .next { s with hostif := { h with cmdsize := BitVec.ofNat 32 v } } ∧
      exec (.registerWrite 0x1C 4 v) s = exec (.cmdtail (BitVec.ofNat 32 v)) s ∧
      exec (.registerWrite 0x28 8 v) s = .next { s with hostif := { h with evbase := BitVec.ofNat 64 v } } ∧
      exec (.registerWrite 0x30 4 v) s = .next { s with hostif := { h with evsize := BitVec.ofNat 32 v } } ∧
      exec (.registerWrite 0x38 4 v) s = exec (.evread (BitVec.ofNat 32 v)) s ∧
      exec (.registerWrite 0x3C 2 v) s = exec (.incarn (BitVec.ofNat 16 v)) s ∧
      exec (.registerWrite 0x3E 2 v) s = .next { s with hostif := { h with devnum := BitVec.ofNat 16 v } } ∧
      ∀ o n, o + n ≤ 0x10 ∨ (0x20 ≤ o ∧ o + n ≤ 0x28) ∨ (0x34 ≤ o ∧ o + n ≤ 0x38) ∨ 0x40 ≤ o →
        exec (.registerWrite o n v) s = .next s) ∧
    (∀ port hpa op,
      let u := { s with hostif := { h with lines := h.lines.filter fun l => !rangesMeet l.addr 128 hpa (hostOpSize op) } }
      exec (.hostAccess port (.hostMem hpa) op) s = .next (match hostOpResult op (natOfBytes (s.host.readRun (hpa % 2 ^ 48) (hostOpSize op))) with
        | some bs => { u with host := s.host.writeRun (hpa % 2 ^ 48) bs }
        | none => u)) ∧
    (∀ port target op, (∀ hpa, target ≠ .hostMem hpa) →
      (isDown port ∨ h.bootstat = 0 → exec (.hostAccess port target op) s = .next s) ∧
      (¬ isDown port → 2 ≤ h.bootstat.toNat → exec (.hostAccess port target op) s = .refused .recoveryWindow)) ∧
    (∀ port offset op, ¬ isDown port → h.bootstat = 1 → (∀ i, i < hostOpSize op → isHbm (offset + i) = true) →
      let rs : List ByteRef := (List.range (hostOpSize op)).map fun i => .whole (.hbm (offset + i))
      let new := hostOpResult op (natOfBytes (s.readRefs peerAgent true rs))
      ((∀ i, i < hostOpSize op → Config.deviceReserved (offset + i) = false) →
        (∃ t, exec (.hostAccess port (.bar2 offset) op) s = .next t ∧
          Written s t (match new with | some bs => storeNibbles rs bs | none => [])) ∧
        ∀ b bs, op = .write (b :: bs) → ∃ t a c, exec (.hostAccess port (.bar2Repl offset) op) s = .next t ∧
          (t.reach (offset / 2 ^ 37 % 4)).replLog = (s.reach (offset / 2 ^ 37 % 4)).replLog ++ [⟨offset, b :: bs, a, c⟩]) ∧
      ((∃ i, i < hostOpSize op ∧ Config.deviceReserved (offset + i) = true) → ∃ dev,
        exec (.hostAccess port (.bar2 offset) op) s = .next (s.postViolation offset dev 0 0 4))) ∧
    (∀ port hpa invalidating, ∃ t, exec (.snoop port hpa invalidating) s = .next t ∧ { t with hostif := h } = s ∧
      ∀ l, l ∈ t.hostif.lines ↔ ∃ k ∈ h.lines,
        if k.port = port ∧ k.addr = hpa / 128 * 128 then invalidating = false ∧
          l = { k with state := match k.state with | .m | .o => .o | .e | .s => .s }
        else l = k) ∧
    (∀ port mode,
      (2 ≤ port ∨ mode = .down ∨ (6, port) ∈ s.retired → exec (.linkUp port mode) s = .next s) ∧
      (port < 2 → mode ≠ .down → (6, port) ∉ s.retired →
        ∃ t, exec (.linkUp port mode) s = .next t ∧ MemorySame s t ∧ t.portMode port = mode ∧
          (∀ p, p ≠ port → t.portMode p = s.portMode p) ∧ t.hostif.lines = h.lines.filter fun l => l.port != port)) ∧
    (∀ port vector last, port < 2 → vector < 4 → getVec (getVec h.ports port HostPort.reset).msix vector (none, false) = (some last, true) →
      (isDown port ∨ s.time < last + 2000 → exec (.msiXSignal port vector) s = .next s) ∧
      (¬ isDown port → last + 2000 ≤ s.time → ∃ t, exec (.msiXSignal port vector) s = .next t ∧ MemorySame s t ∧
        let p := getVec t.hostif.ports port HostPort.reset
        getVec p.msix vector (none, false) = (some s.time, false) ∧
          p.signals = (getVec h.ports port HostPort.reset).signals ++ [vector])) ∧
    (∃ t, exec .coldReset s = .next t ∧ t.time = 0 ∧ t.mem = [] ∧ t.cc = [] ∧ t.host = s.host ∧ t.contexts = [] ∧ t.wgs = [] ∧
      t.launches = [] ∧ t.fabric.orc = [] ∧ t.fabric.table = [] ∧ t.retired = [] ∧ t.hostif.bootstat = 0 ∧ t.hostif.secver = h.secver ∧
      t.hostif.stepping = h.stepping ∧ ∀ port, t.portMode port = .down) ∧
    (s.anyBusy = false → ∃ t, exec .functionLevelReset s = .next t ∧ t.contexts = [] ∧ t.launches = [] ∧ t.wgs = [] ∧
      t.pending = [] ∧ t.bankCmds = [] ∧ t.hostif.cmds = [] ∧ t.resetAt = s.time ∧ t.hostif.bootstat = h.bootstat ∧
      t.fabric.orc = s.fabric.orc ∧ t.fabric.table = s.fabric.table) ∧
    ∀ o : BootOutcome,
      (h.bootstat ≠ 0 ∨ o.bootstat = 0 ∨ 4 < o.bootstat.toNat → exec (.boot o) s = .next s) ∧
      (h.bootstat = 0 → o.bootstat = 1 → h.cmdhead = h.cmdtail → h.cmds = [] →
        exec (.boot o) s = .next { s with hostif := { h with bootstat := 1, measurements := o.digests } }) ∧
      (h.bootstat = 0 → 2 ≤ o.bootstat.toNat → o.bootstat.toNat ≤ 4 → exec (.boot o) s =
        .next { s with hostif := { h with bootstat := o.bootstat, measurements := o.digests }, fabric := { s.fabric with portsUp := false } })

/-! Encodings, the step, the reset and the invariant. -/

/-- R65, R66, R71, R90 to R94, R340: words the spec works out, and one of each of the other shapes built from its tables, decode to the instructions
they stand for; the words it gives as unassigned decode to nothing. -/
def Obligations.DecodeSamples : Prop :=
  decodeTableWord 32 0x14100004 = some (.addi 1 0 4) ∧
  decodeTableWord 32 0x14107FFF = some (.addi 1 1 0x3FFF) ∧
  decodeTableWord 32 0x60820000 = some (.br .ne 1 0 0) ∧
  decodeTableWord 32 0x610627FD = some (.br .lt 3 4 0x7FD) ∧
  decodeTableWord 32 0x00000001 = some .exit ∧
  decodeTableWord 32 0x80200040 = some (.lx 2 0x40) ∧
  decodeTableWord 32 0x4820C404 = some (.satom .add .dev false 2 3 4) ∧
  decodeTableWord 32 0x24104020 = some (.shli 1 1 32) ∧
  decodeTableWord 32 0x3C1FD000 = some (.lit 1 0xFD000) ∧
  decodeTableWord 32 (0x10 * 2 ^ 26 + 5 * 2 ^ 20 + 6 * 2 ^ 14 + 2 * 2 ^ 11 + 1 * 2 ^ 9 + 8) = some (.lds .i32 true 5 6 8) ∧
  decodeTableWord 32 (0x29 * 2 ^ 26 + 1 * 2 ^ 20 + 2 * 2 ^ 14 + 3 * 2 ^ 4 + 2) = some (.barSync false 3 1 2) ∧
  decodeTableWord 32 (0x37 * 2 ^ 26 + 1 * 2 ^ 21 + 2 * 2 ^ 16 + 3 * 2 ^ 11 + 4 * 2 ^ 5 + 2 ^ 4) = some (.mma 1 2 3 4 true false false) ∧
  decodeTableWord 96 0x201807540200100400000000 =
    some (.vfadd ⟨.f32, .rne, ⟨⟨false, 3⟩, ⟨true, 5⟩, .and⟩, .v 4, .v 1, .v 2, .v 0, .v 0, 0, false, 0⟩) ∧
  decodeTableWord 96 0x401800000440200C84000000 =
    some (.vld ⟨.f32, .rne, ⟨⟨false, 0⟩, ⟨false, 0⟩, .aOnly⟩, .v 8, some 2, some 6, 2, 0x10, .v 0, 0, false, .grp, .rlx, false, false⟩) ∧
  toOption (decodeBank (0x03 * 2 ^ 27 + 5 * 2 ^ 24 + 1 * 2 ^ 22 + 2 ^ 21)) = some (.bmac 5 .e4m3 true false) ∧
  toOption (decodeBank (0x0B * 2 ^ 27 + 60 * 2 ^ 21 + 3 * 2 ^ 15)) = some (.bxld 60 3) ∧
  [0x4820C494, 0x4820C406, 0x1000000E, 0x00000009, 0x0C000000, 0x63820000].all (fun w => toOption (decodeScalar w) == none) = true ∧
  toOption (decodeLane (0x144 * 2 ^ 86)) = none ∧ toOption (decodeBank (0x0C * 2 ^ 27)) = none ∧
  toOption (decodeBank (0x0B * 2 ^ 27 + 61 * 2 ^ 21 + 3 * 2 ^ 15)) = none

/-- R65 to R82, R90 to R97, R340: encoding a well-formed instruction gives a word of its width that decodes to it, with every operand
at every value, and every word that decodes is the encoding of a well-formed instruction: no bit is dropped and no word has a
second reading. -/
def Obligations.DecodeEncode : Prop :=
  (∀ i w, i.wf = true → encodeScalar i = some w → w < 2 ^ 32 ∧ decodeScalarBytes (bytesOfNat 4 w) = .ok i) ∧
  (∀ i w, i.wf = true → encodeLane i = some w → w < 2 ^ 96 ∧ decodeLaneBytes (bytesOfNat 12 w) = .ok i) ∧
  (∀ i w, i.wf = true → encodeBank i = some w → w < 2 ^ 32 ∧ decodeBankBytes (bytesOfNat 4 w) = .ok i) ∧
  (∀ i w, w < 2 ^ 32 → decodeScalarBytes (bytesOfNat 4 w) = .ok i → i.wf = true ∧ encodeScalar i = some w) ∧
  (∀ i w, w < 2 ^ 96 → decodeLaneBytes (bytesOfNat 12 w) = .ok i → i.wf = true ∧ encodeLane i = some w) ∧
  (∀ i w, w < 2 ^ 32 → decodeBankBytes (bytesOfNat 4 w) = .ok i → i.wf = true ∧ encodeBank i = some w)

/-- R25, R28, R83, R186, R187, R340: when the bytes at the PC of the split that a quarter issues decode to an instruction, the step is
exec of it after the turn's marks, and its group settles; so for the word at the head of a lane queue. A scalar word that
decodes to nothing runs as the ILLEGAL row. The word of a bank run is executed in its pseudo-channel; an event of the agenda runs as
itself. Where a region's bytes would move although an hbm limit on its path is spent, throttle holds the step instead (R399); a step that
charges no region bytes of HBM is held by nothing. The agenda that orders these moves is the model's choice (log 1, 23). -/
def Obligations.StepRunsDecoded : Prop :=
  let after (u : State) (f : State → State) (r : Host.Outcome State Fault Refusal) : Host.Outcome State Fault Refusal :=
    match r with | .next t => .next (u.throttle (f t)) | o => o
  let settled (u : State) := after u State.settleCur
  (∀ (s u v y : State) (c q : Nat) (o : Offer) (bs : List Byte),
    s.nextMove = (u, .issue c q) → c < 192 → q < 4 → u.pickScalar c q = some o → (u.takeTurn o).entryRun = .ok (y, ()) →
    y.codeReady y.agent [(y.curPc.toNat, 4)] = (v, true) → v.codeRead v.agent false v.curPc.toNat 4 = .ok bs →
    (∀ i, decodeScalarBytes bs = .ok i → v.scalarPoisoned i = false ∨ v.trapsFirst i = true → step s = settled u (exec i v)) ∧
    (∀ e, decodeScalarBytes bs = .error e → step s = settled u (exec (.illegalEncoding false) v))) ∧
  (∀ (s u : State) (c q w k : Nat) (g : Group) (e : LaneEntry) (rest : List LaneEntry) (word : Nat) (ix : BitVec 20),
    s.nextMove = (u, .laneIssue c q) → c < 192 → q < 4 → u.pickLane c q = some (w, k) → u.group? w k = some g →
    g.laneQ = e :: rest → e.item = .word word ix →
    (∀ i, decodeLaneBytes (bytesOfNat 12 word) = .ok i → step s = settled u (exec i (u.takeLaneTurn w k g e))) ∧
    (∀ err, decodeLaneBytes (bytesOfNat 12 word) = .error err →
      step s = settled u (exec (.illegalEncoding true) (u.takeLaneTurn w k g e)))) ∧
  (∀ (s u : State) (p : PcIx) (r : Run) (i : Instr), s.nextMove = (u, .bankStep p) → p < 512 → (u.pc p).run = some r →
    decodeBankBytes (bytesOfNat 4 (getVec (u.pc p).store r.word 0).toNat) = .ok i →
    step s = after u id (exec i { u with cur := ⟨0, 0, 0, p⟩ })) ∧
  (∀ (s u : State) (i : Instr), s.nextMove = (u, .event i) → isEvent i = true → step s = after u id (exec i u)) ∧
  ∀ u t : State, (∀ r ∈ u.regions, ∀ y, t.region? r.ctx r.rcb = some y → y.hbmUsed ≤ r.hbmUsed) → u.throttle t = t

/-- R100 with R433, R440: no instruction faults, and one is refused only where the spec gives it nothing to do: a host access to the
recovery window of a failed boot, and a RESUME of an image this device did not export (log 26, 45). -/
def Obligations.ExecAnswers : Prop :=
  ∀ (i : Instr) (s : State),
    (∃ t, exec i s = .next t) ∨
    (exec i s = .refused .recoveryWindow ∧ 2 ≤ s.hostif.bootstat.toNat ∧ ∃ port target op, i = .hostAccess port target op) ∨
    (exec i s = .refused .foreignImage ∧ ∃ ring, i = .resume ring)

/-- R22, R324, R392, R434, R440, R443: right after a cold reset the device verifies its firmware, TIME and every core's EPOCH are 0, no
context, launch or workgroup exists, nothing is out of service, no translation or sector is cached, the islands whose full clock the
spec gives run at it, the CONFIG parameters have their defaults, both host links and all fabric ports are down, and the instruction stores are untagged. The zeros of the memories and
of the registers the spec gives no reset value are the model's choice (log 5, 6). -/
def Obligations.ResetValues : Prop :=
  let s := State.reset
  s.time = 0 ∧ s.now = 0 ∧ s.hostif.bootstat = 0 ∧ s.contexts = [] ∧ s.regions = [] ∧ s.launches = [] ∧ s.wgs = [] ∧
  s.pending = [] ∧ s.retired = [] ∧ s.poison = [] ∧ s.bankCmds = [] ∧ s.fabric.orc = [] ∧ s.fabric.table = [] ∧
  s.fabric.grants = [] ∧ s.fabric.portsUp = false ∧ (∀ port, s.portMode port = .down) ∧
  (∀ c, (s.core c).epoch = 0 ∧ (s.core c).inService = true ∧ (s.core c).l1 = [] ∧ (s.core c).scalarCode = [] ∧
    (s.core c).laneCode = [] ∧ (s.core c).tlb = []) ∧
  (∀ r, (s.reach r).tlb = [] ∧ (s.reach r).l2 = [] ∧ (s.reach r).items = []) ∧ (∀ port, s.fabric.port port = []) ∧
  (∀ n, n < 256 → ∀ f, (Island.of n).fullMhz = some f → (getVec s.islands n (0, 0)).1 = f) ∧ (∀ p, (s.pc p).tag = none ∧ (s.pc p).run = none) ∧
  s.hostif.params.watchdog = 100000000 ∧ s.hostif.params.scanInterval = 20000000 ∧ s.hostif.params.faultCount = 3 ∧
  s.hostif.params.faultWindow = 60000000000 ∧ s.hostif.params.lifetimeUs = 64 ∧ s.hostif.params.giveUp = 1000000000 ∧
  s.hostif.params.tierHot = 0 ∧ s.hostif.params.powerCap = 1800 ∧ s.hostif.params.logRings = none ∧
  s.memoryOk = true

/-- The invariant of the model's memories (log 5): HBM, CC pages, host memory, every vault and every lane-private block list strictly
rising addresses and no byte that an unlisted address reads as, and every step keeps them so. Equal memories are equal data. -/
def Obligations.InvariantStep : Prop :=
  ∀ (s t : State), s.memoryOk = true → step s = .next t → t.memoryOk = true
end

