-- ==== Sys2Proof/Laws/State.lean ====
section
/-! SUPPORT. How the updates of the machine's parts compose, and how the accessors read through them. -/

namespace Sys2Proof.Machine

/-! Lists and vectors changed in one place. -/

@[simp] theorem modAt_modAt {α : Type} (f h : α → α) (l : List α) (n : Nat) :
    modAt h (modAt f l n) n = modAt (fun a => h (f a)) l n := by
  induction l generalizing n with
  | nil => rfl
  | cons a as ih => cases n <;> simp [modAt, ih]

@[simp] theorem modAt_length {α : Type} (f : α → α) (l : List α) (n : Nat) : (modAt f l n).length = l.length := by
  induction l generalizing n with
  | nil => rfl
  | cons a as ih => cases n <;> simp [modAt, ih]

theorem modAt_getElem? {α : Type} (f : α → α) (l : List α) (n k : Nat) :
    (modAt f l n)[k]? = if k = n then (l[k]?).map f else l[k]? := by
  induction l generalizing n k with
  | nil => simp [modAt]
  | cons a as ih => cases n <;> cases k <;> simp [modAt, ih]

@[simp] theorem modAt_getElem?_self {α : Type} (f : α → α) (l : List α) (n : Nat) : (modAt f l n)[n]? = (l[n]?).map f := by
  simp [modAt_getElem?]

theorem modAt_congr {α : Type} (f h : α → α) (l : List α) (n : Nat) (H : ∀ a, l[n]? = some a → f a = h a) :
    modAt f l n = modAt h l n := by
  induction l generalizing n with
  | nil => rfl
  | cons a as ih =>
    cases n with
    | zero => simp [modAt, H a]
    | succ n => simp [modAt, ih n (fun b hb => H b (by simpa using hb))]

theorem modAt_id {α : Type} (f : α → α) (l : List α) (n : Nat) (H : ∀ a, l[n]? = some a → f a = a) : modAt f l n = l := by
  induction l generalizing n with
  | nil => rfl
  | cons a as ih =>
    cases n with
    | zero => simp [modAt, H a]
    | succ n => simp [modAt, ih n (fun b hb => H b (by simpa using hb))]

theorem getVec_modVec {α : Type} {n : Nat} (f : α → α) (v : Vector α n) (i j : Nat) (d : α) :
    getVec (modVec f v i) j d = if j = i ∧ i < n then f (getVec v j d) else getVec v j d := by
  unfold getVec modVec
  by_cases hi : i < n <;> by_cases hj : j < n <;> simp [hi, hj]
  · by_cases h : j = i
    · subst h; simp
    · rw [Vector.getElem_set_ne _ _ (fun e => h e.symm)]; simp [h]
  · intro h; omega

@[simp] theorem modVec_modVec {α : Type} {n : Nat} (f h : α → α) (v : Vector α n) (i : Nat) :
    modVec h (modVec f v i) i = modVec (fun a => h (f a)) v i := by
  unfold modVec; by_cases hi : i < n <;> simp [hi]

/-! What each update of one part of the state does to each field: the one it names changes as said, every other is the
same. -/

@[simp] theorem State.modWg_agenda (s : State) (w : WgIx) (f : Wg → Wg) : (s.modWg w f).agenda = s.agenda := rfl
@[simp] theorem State.modWg_cur (s : State) (w : WgIx) (f : Wg → Wg) : (s.modWg w f).cur = s.cur := rfl
@[simp] theorem State.modWg_free (s : State) (w : WgIx) (f : Wg → Wg) : (s.modWg w f).free = s.free := rfl
@[simp] theorem State.modWg_stamp (s : State) (w : WgIx) (f : Wg → Wg) : (s.modWg w f).stamp = s.stamp := rfl
@[simp] theorem State.modWg_time (s : State) (w : WgIx) (f : Wg → Wg) : (s.modWg w f).time = s.time := rfl
@[simp] theorem State.modWg_resetAt (s : State) (w : WgIx) (f : Wg → Wg) : (s.modWg w f).resetAt = s.resetAt := rfl
@[simp] theorem State.modWg_mem (s : State) (w : WgIx) (f : Wg → Wg) : (s.modWg w f).mem = s.mem := rfl
@[simp] theorem State.modWg_cc (s : State) (w : WgIx) (f : Wg → Wg) : (s.modWg w f).cc = s.cc := rfl
@[simp] theorem State.modWg_host (s : State) (w : WgIx) (f : Wg → Wg) : (s.modWg w f).host = s.host := rfl
@[simp] theorem State.modWg_hidden (s : State) (w : WgIx) (f : Wg → Wg) : (s.modWg w f).hidden = s.hidden := rfl
@[simp] theorem State.modWg_ccOld (s : State) (w : WgIx) (f : Wg → Wg) : (s.modWg w f).ccOld = s.ccOld := rfl
@[simp] theorem State.modWg_poison (s : State) (w : WgIx) (f : Wg → Wg) : (s.modWg w f).poison = s.poison := rfl
@[simp] theorem State.modWg_cores (s : State) (w : WgIx) (f : Wg → Wg) : (s.modWg w f).cores = s.cores := rfl
@[simp] theorem State.modWg_reaches (s : State) (w : WgIx) (f : Wg → Wg) : (s.modWg w f).reaches = s.reaches := rfl
@[simp] theorem State.modWg_pcs (s : State) (w : WgIx) (f : Wg → Wg) : (s.modWg w f).pcs = s.pcs := rfl
@[simp] theorem State.modWg_bankCmds (s : State) (w : WgIx) (f : Wg → Wg) : (s.modWg w f).bankCmds = s.bankCmds := rfl
@[simp] theorem State.modWg_nextBank (s : State) (w : WgIx) (f : Wg → Wg) : (s.modWg w f).nextBank = s.nextBank := rfl
@[simp] theorem State.modWg_contexts (s : State) (w : WgIx) (f : Wg → Wg) : (s.modWg w f).contexts = s.contexts := rfl
@[simp] theorem State.modWg_regions (s : State) (w : WgIx) (f : Wg → Wg) : (s.modWg w f).regions = s.regions := rfl
@[simp] theorem State.modWg_launches (s : State) (w : WgIx) (f : Wg → Wg) : (s.modWg w f).launches = s.launches := rfl
@[simp] theorem State.modWg_wgs (s : State) (w : WgIx) (f : Wg → Wg) : (s.modWg w f).wgs = modAt f s.wgs w := rfl
@[simp] theorem State.modWg_pending (s : State) (w : WgIx) (f : Wg → Wg) : (s.modWg w f).pending = s.pending := rfl
@[simp] theorem State.modWg_kills (s : State) (w : WgIx) (f : Wg → Wg) : (s.modWg w f).kills = s.kills := rfl
@[simp] theorem State.modWg_faults (s : State) (w : WgIx) (f : Wg → Wg) : (s.modWg w f).faults = s.faults := rfl
@[simp] theorem State.modWg_retired (s : State) (w : WgIx) (f : Wg → Wg) : (s.modWg w f).retired = s.retired := rfl
@[simp] theorem State.modWg_fabric (s : State) (w : WgIx) (f : Wg → Wg) : (s.modWg w f).fabric = s.fabric := rfl
@[simp] theorem State.modWg_hostif (s : State) (w : WgIx) (f : Wg → Wg) : (s.modWg w f).hostif = s.hostif := rfl
@[simp] theorem State.modWg_islands (s : State) (w : WgIx) (f : Wg → Wg) : (s.modWg w f).islands = s.islands := rfl
@[simp] theorem State.modWg_lastPeriod (s : State) (w : WgIx) (f : Wg → Wg) : (s.modWg w f).lastPeriod = s.lastPeriod := rfl
@[simp] theorem State.modWg_lastPatrol (s : State) (w : WgIx) (f : Wg → Wg) : (s.modWg w f).lastPatrol = s.lastPatrol := rfl
@[simp] theorem State.modWg_bankGrants (s : State) (w : WgIx) (f : Wg → Wg) : (s.modWg w f).bankGrants = s.bankGrants := rfl

@[simp] theorem State.modGroup_agenda (s : State) (w : WgIx) (n : GroupIx) (f : Group → Group) : (s.modGroup w n f).agenda = s.agenda := rfl
@[simp] theorem State.modGroup_cur (s : State) (w : WgIx) (n : GroupIx) (f : Group → Group) : (s.modGroup w n f).cur = s.cur := rfl
@[simp] theorem State.modGroup_free (s : State) (w : WgIx) (n : GroupIx) (f : Group → Group) : (s.modGroup w n f).free = s.free := rfl
@[simp] theorem State.modGroup_stamp (s : State) (w : WgIx) (n : GroupIx) (f : Group → Group) : (s.modGroup w n f).stamp = s.stamp := rfl
@[simp] theorem State.modGroup_time (s : State) (w : WgIx) (n : GroupIx) (f : Group → Group) : (s.modGroup w n f).time = s.time := rfl
@[simp] theorem State.modGroup_resetAt (s : State) (w : WgIx) (n : GroupIx) (f : Group → Group) : (s.modGroup w n f).resetAt = s.resetAt := rfl
@[simp] theorem State.modGroup_mem (s : State) (w : WgIx) (n : GroupIx) (f : Group → Group) : (s.modGroup w n f).mem = s.mem := rfl
@[simp] theorem State.modGroup_cc (s : State) (w : WgIx) (n : GroupIx) (f : Group → Group) : (s.modGroup w n f).cc = s.cc := rfl
@[simp] theorem State.modGroup_host (s : State) (w : WgIx) (n : GroupIx) (f : Group → Group) : (s.modGroup w n f).host = s.host := rfl
@[simp] theorem State.modGroup_hidden (s : State) (w : WgIx) (n : GroupIx) (f : Group → Group) : (s.modGroup w n f).hidden = s.hidden := rfl
@[simp] theorem State.modGroup_ccOld (s : State) (w : WgIx) (n : GroupIx) (f : Group → Group) : (s.modGroup w n f).ccOld = s.ccOld := rfl
@[simp] theorem State.modGroup_poison (s : State) (w : WgIx) (n : GroupIx) (f : Group → Group) : (s.modGroup w n f).poison = s.poison := rfl
@[simp] theorem State.modGroup_cores (s : State) (w : WgIx) (n : GroupIx) (f : Group → Group) : (s.modGroup w n f).cores = s.cores := rfl
@[simp] theorem State.modGroup_reaches (s : State) (w : WgIx) (n : GroupIx) (f : Group → Group) : (s.modGroup w n f).reaches = s.reaches := rfl
@[simp] theorem State.modGroup_pcs (s : State) (w : WgIx) (n : GroupIx) (f : Group → Group) : (s.modGroup w n f).pcs = s.pcs := rfl
@[simp] theorem State.modGroup_bankCmds (s : State) (w : WgIx) (n : GroupIx) (f : Group → Group) : (s.modGroup w n f).bankCmds = s.bankCmds := rfl
@[simp] theorem State.modGroup_nextBank (s : State) (w : WgIx) (n : GroupIx) (f : Group → Group) : (s.modGroup w n f).nextBank = s.nextBank := rfl
@[simp] theorem State.modGroup_contexts (s : State) (w : WgIx) (n : GroupIx) (f : Group → Group) : (s.modGroup w n f).contexts = s.contexts := rfl
@[simp] theorem State.modGroup_regions (s : State) (w : WgIx) (n : GroupIx) (f : Group → Group) : (s.modGroup w n f).regions = s.regions := rfl
@[simp] theorem State.modGroup_launches (s : State) (w : WgIx) (n : GroupIx) (f : Group → Group) : (s.modGroup w n f).launches = s.launches := rfl
@[simp] theorem State.modGroup_pending (s : State) (w : WgIx) (n : GroupIx) (f : Group → Group) : (s.modGroup w n f).pending = s.pending := rfl
@[simp] theorem State.modGroup_kills (s : State) (w : WgIx) (n : GroupIx) (f : Group → Group) : (s.modGroup w n f).kills = s.kills := rfl
@[simp] theorem State.modGroup_faults (s : State) (w : WgIx) (n : GroupIx) (f : Group → Group) : (s.modGroup w n f).faults = s.faults := rfl
@[simp] theorem State.modGroup_retired (s : State) (w : WgIx) (n : GroupIx) (f : Group → Group) : (s.modGroup w n f).retired = s.retired := rfl
@[simp] theorem State.modGroup_fabric (s : State) (w : WgIx) (n : GroupIx) (f : Group → Group) : (s.modGroup w n f).fabric = s.fabric := rfl
@[simp] theorem State.modGroup_hostif (s : State) (w : WgIx) (n : GroupIx) (f : Group → Group) : (s.modGroup w n f).hostif = s.hostif := rfl
@[simp] theorem State.modGroup_islands (s : State) (w : WgIx) (n : GroupIx) (f : Group → Group) : (s.modGroup w n f).islands = s.islands := rfl
@[simp] theorem State.modGroup_lastPeriod (s : State) (w : WgIx) (n : GroupIx) (f : Group → Group) : (s.modGroup w n f).lastPeriod = s.lastPeriod := rfl
@[simp] theorem State.modGroup_lastPatrol (s : State) (w : WgIx) (n : GroupIx) (f : Group → Group) : (s.modGroup w n f).lastPatrol = s.lastPatrol := rfl
@[simp] theorem State.modGroup_bankGrants (s : State) (w : WgIx) (n : GroupIx) (f : Group → Group) : (s.modGroup w n f).bankGrants = s.bankGrants := rfl

@[simp] theorem State.modSplit_agenda (s : State) (w : WgIx) (n : GroupIx) (k : SplitIx) (f : Split → Split) : (s.modSplit w n k f).agenda = s.agenda := rfl
@[simp] theorem State.modSplit_cur (s : State) (w : WgIx) (n : GroupIx) (k : SplitIx) (f : Split → Split) : (s.modSplit w n k f).cur = s.cur := rfl
@[simp] theorem State.modSplit_free (s : State) (w : WgIx) (n : GroupIx) (k : SplitIx) (f : Split → Split) : (s.modSplit w n k f).free = s.free := rfl
@[simp] theorem State.modSplit_stamp (s : State) (w : WgIx) (n : GroupIx) (k : SplitIx) (f : Split → Split) : (s.modSplit w n k f).stamp = s.stamp := rfl
@[simp] theorem State.modSplit_time (s : State) (w : WgIx) (n : GroupIx) (k : SplitIx) (f : Split → Split) : (s.modSplit w n k f).time = s.time := rfl
@[simp] theorem State.modSplit_resetAt (s : State) (w : WgIx) (n : GroupIx) (k : SplitIx) (f : Split → Split) : (s.modSplit w n k f).resetAt = s.resetAt := rfl
@[simp] theorem State.modSplit_mem (s : State) (w : WgIx) (n : GroupIx) (k : SplitIx) (f : Split → Split) : (s.modSplit w n k f).mem = s.mem := rfl
@[simp] theorem State.modSplit_cc (s : State) (w : WgIx) (n : GroupIx) (k : SplitIx) (f : Split → Split) : (s.modSplit w n k f).cc = s.cc := rfl
@[simp] theorem State.modSplit_host (s : State) (w : WgIx) (n : GroupIx) (k : SplitIx) (f : Split → Split) : (s.modSplit w n k f).host = s.host := rfl
@[simp] theorem State.modSplit_hidden (s : State) (w : WgIx) (n : GroupIx) (k : SplitIx) (f : Split → Split) : (s.modSplit w n k f).hidden = s.hidden := rfl
@[simp] theorem State.modSplit_ccOld (s : State) (w : WgIx) (n : GroupIx) (k : SplitIx) (f : Split → Split) : (s.modSplit w n k f).ccOld = s.ccOld := rfl
@[simp] theorem State.modSplit_poison (s : State) (w : WgIx) (n : GroupIx) (k : SplitIx) (f : Split → Split) : (s.modSplit w n k f).poison = s.poison := rfl
@[simp] theorem State.modSplit_cores (s : State) (w : WgIx) (n : GroupIx) (k : SplitIx) (f : Split → Split) : (s.modSplit w n k f).cores = s.cores := rfl
@[simp] theorem State.modSplit_reaches (s : State) (w : WgIx) (n : GroupIx) (k : SplitIx) (f : Split → Split) : (s.modSplit w n k f).reaches = s.reaches := rfl
@[simp] theorem State.modSplit_pcs (s : State) (w : WgIx) (n : GroupIx) (k : SplitIx) (f : Split → Split) : (s.modSplit w n k f).pcs = s.pcs := rfl
@[simp] theorem State.modSplit_bankCmds (s : State) (w : WgIx) (n : GroupIx) (k : SplitIx) (f : Split → Split) : (s.modSplit w n k f).bankCmds = s.bankCmds := rfl
@[simp] theorem State.modSplit_nextBank (s : State) (w : WgIx) (n : GroupIx) (k : SplitIx) (f : Split → Split) : (s.modSplit w n k f).nextBank = s.nextBank := rfl
@[simp] theorem State.modSplit_contexts (s : State) (w : WgIx) (n : GroupIx) (k : SplitIx) (f : Split → Split) : (s.modSplit w n k f).contexts = s.contexts := rfl
@[simp] theorem State.modSplit_regions (s : State) (w : WgIx) (n : GroupIx) (k : SplitIx) (f : Split → Split) : (s.modSplit w n k f).regions = s.regions := rfl
@[simp] theorem State.modSplit_launches (s : State) (w : WgIx) (n : GroupIx) (k : SplitIx) (f : Split → Split) : (s.modSplit w n k f).launches = s.launches := rfl
@[simp] theorem State.modSplit_pending (s : State) (w : WgIx) (n : GroupIx) (k : SplitIx) (f : Split → Split) : (s.modSplit w n k f).pending = s.pending := rfl
@[simp] theorem State.modSplit_kills (s : State) (w : WgIx) (n : GroupIx) (k : SplitIx) (f : Split → Split) : (s.modSplit w n k f).kills = s.kills := rfl
@[simp] theorem State.modSplit_faults (s : State) (w : WgIx) (n : GroupIx) (k : SplitIx) (f : Split → Split) : (s.modSplit w n k f).faults = s.faults := rfl
@[simp] theorem State.modSplit_retired (s : State) (w : WgIx) (n : GroupIx) (k : SplitIx) (f : Split → Split) : (s.modSplit w n k f).retired = s.retired := rfl
@[simp] theorem State.modSplit_fabric (s : State) (w : WgIx) (n : GroupIx) (k : SplitIx) (f : Split → Split) : (s.modSplit w n k f).fabric = s.fabric := rfl
@[simp] theorem State.modSplit_hostif (s : State) (w : WgIx) (n : GroupIx) (k : SplitIx) (f : Split → Split) : (s.modSplit w n k f).hostif = s.hostif := rfl
@[simp] theorem State.modSplit_islands (s : State) (w : WgIx) (n : GroupIx) (k : SplitIx) (f : Split → Split) : (s.modSplit w n k f).islands = s.islands := rfl
@[simp] theorem State.modSplit_lastPeriod (s : State) (w : WgIx) (n : GroupIx) (k : SplitIx) (f : Split → Split) : (s.modSplit w n k f).lastPeriod = s.lastPeriod := rfl
@[simp] theorem State.modSplit_lastPatrol (s : State) (w : WgIx) (n : GroupIx) (k : SplitIx) (f : Split → Split) : (s.modSplit w n k f).lastPatrol = s.lastPatrol := rfl
@[simp] theorem State.modSplit_bankGrants (s : State) (w : WgIx) (n : GroupIx) (k : SplitIx) (f : Split → Split) : (s.modSplit w n k f).bankGrants = s.bankGrants := rfl

@[simp] theorem State.modCurGroup_agenda (s : State) (f : Group → Group) : (s.modCurGroup f).agenda = s.agenda := rfl
@[simp] theorem State.modCurGroup_free (s : State) (f : Group → Group) : (s.modCurGroup f).free = s.free := rfl
@[simp] theorem State.modCurGroup_stamp (s : State) (f : Group → Group) : (s.modCurGroup f).stamp = s.stamp := rfl
@[simp] theorem State.modCurGroup_time (s : State) (f : Group → Group) : (s.modCurGroup f).time = s.time := rfl
@[simp] theorem State.modCurGroup_resetAt (s : State) (f : Group → Group) : (s.modCurGroup f).resetAt = s.resetAt := rfl
@[simp] theorem State.modCurGroup_mem (s : State) (f : Group → Group) : (s.modCurGroup f).mem = s.mem := rfl
@[simp] theorem State.modCurGroup_cc (s : State) (f : Group → Group) : (s.modCurGroup f).cc = s.cc := rfl
@[simp] theorem State.modCurGroup_host (s : State) (f : Group → Group) : (s.modCurGroup f).host = s.host := rfl
@[simp] theorem State.modCurGroup_hidden (s : State) (f : Group → Group) : (s.modCurGroup f).hidden = s.hidden := rfl
@[simp] theorem State.modCurGroup_ccOld (s : State) (f : Group → Group) : (s.modCurGroup f).ccOld = s.ccOld := rfl
@[simp] theorem State.modCurGroup_poison (s : State) (f : Group → Group) : (s.modCurGroup f).poison = s.poison := rfl
@[simp] theorem State.modCurGroup_cores (s : State) (f : Group → Group) : (s.modCurGroup f).cores = s.cores := rfl
@[simp] theorem State.modCurGroup_reaches (s : State) (f : Group → Group) : (s.modCurGroup f).reaches = s.reaches := rfl
@[simp] theorem State.modCurGroup_pcs (s : State) (f : Group → Group) : (s.modCurGroup f).pcs = s.pcs := rfl
@[simp] theorem State.modCurGroup_bankCmds (s : State) (f : Group → Group) : (s.modCurGroup f).bankCmds = s.bankCmds := rfl
@[simp] theorem State.modCurGroup_nextBank (s : State) (f : Group → Group) : (s.modCurGroup f).nextBank = s.nextBank := rfl
@[simp] theorem State.modCurGroup_contexts (s : State) (f : Group → Group) : (s.modCurGroup f).contexts = s.contexts := rfl
@[simp] theorem State.modCurGroup_regions (s : State) (f : Group → Group) : (s.modCurGroup f).regions = s.regions := rfl
@[simp] theorem State.modCurGroup_launches (s : State) (f : Group → Group) : (s.modCurGroup f).launches = s.launches := rfl
@[simp] theorem State.modCurGroup_pending (s : State) (f : Group → Group) : (s.modCurGroup f).pending = s.pending := rfl
@[simp] theorem State.modCurGroup_kills (s : State) (f : Group → Group) : (s.modCurGroup f).kills = s.kills := rfl
@[simp] theorem State.modCurGroup_faults (s : State) (f : Group → Group) : (s.modCurGroup f).faults = s.faults := rfl
@[simp] theorem State.modCurGroup_retired (s : State) (f : Group → Group) : (s.modCurGroup f).retired = s.retired := rfl
@[simp] theorem State.modCurGroup_fabric (s : State) (f : Group → Group) : (s.modCurGroup f).fabric = s.fabric := rfl
@[simp] theorem State.modCurGroup_hostif (s : State) (f : Group → Group) : (s.modCurGroup f).hostif = s.hostif := rfl
@[simp] theorem State.modCurGroup_islands (s : State) (f : Group → Group) : (s.modCurGroup f).islands = s.islands := rfl
@[simp] theorem State.modCurGroup_lastPeriod (s : State) (f : Group → Group) : (s.modCurGroup f).lastPeriod = s.lastPeriod := rfl
@[simp] theorem State.modCurGroup_lastPatrol (s : State) (f : Group → Group) : (s.modCurGroup f).lastPatrol = s.lastPatrol := rfl
@[simp] theorem State.modCurGroup_bankGrants (s : State) (f : Group → Group) : (s.modCurGroup f).bankGrants = s.bankGrants := rfl

@[simp] theorem State.modCurSplit_agenda (s : State) (f : Split → Split) : (s.modCurSplit f).agenda = s.agenda := rfl
@[simp] theorem State.modCurSplit_cur (s : State) (f : Split → Split) : (s.modCurSplit f).cur = s.cur := rfl
@[simp] theorem State.modCurSplit_free (s : State) (f : Split → Split) : (s.modCurSplit f).free = s.free := rfl
@[simp] theorem State.modCurSplit_stamp (s : State) (f : Split → Split) : (s.modCurSplit f).stamp = s.stamp := rfl
@[simp] theorem State.modCurSplit_time (s : State) (f : Split → Split) : (s.modCurSplit f).time = s.time := rfl
@[simp] theorem State.modCurSplit_resetAt (s : State) (f : Split → Split) : (s.modCurSplit f).resetAt = s.resetAt := rfl
@[simp] theorem State.modCurSplit_mem (s : State) (f : Split → Split) : (s.modCurSplit f).mem = s.mem := rfl
@[simp] theorem State.modCurSplit_cc (s : State) (f : Split → Split) : (s.modCurSplit f).cc = s.cc := rfl
@[simp] theorem State.modCurSplit_host (s : State) (f : Split → Split) : (s.modCurSplit f).host = s.host := rfl
@[simp] theorem State.modCurSplit_hidden (s : State) (f : Split → Split) : (s.modCurSplit f).hidden = s.hidden := rfl
@[simp] theorem State.modCurSplit_ccOld (s : State) (f : Split → Split) : (s.modCurSplit f).ccOld = s.ccOld := rfl
@[simp] theorem State.modCurSplit_poison (s : State) (f : Split → Split) : (s.modCurSplit f).poison = s.poison := rfl
@[simp] theorem State.modCurSplit_cores (s : State) (f : Split → Split) : (s.modCurSplit f).cores = s.cores := rfl
@[simp] theorem State.modCurSplit_reaches (s : State) (f : Split → Split) : (s.modCurSplit f).reaches = s.reaches := rfl
@[simp] theorem State.modCurSplit_pcs (s : State) (f : Split → Split) : (s.modCurSplit f).pcs = s.pcs := rfl
@[simp] theorem State.modCurSplit_bankCmds (s : State) (f : Split → Split) : (s.modCurSplit f).bankCmds = s.bankCmds := rfl
@[simp] theorem State.modCurSplit_nextBank (s : State) (f : Split → Split) : (s.modCurSplit f).nextBank = s.nextBank := rfl
@[simp] theorem State.modCurSplit_contexts (s : State) (f : Split → Split) : (s.modCurSplit f).contexts = s.contexts := rfl
@[simp] theorem State.modCurSplit_regions (s : State) (f : Split → Split) : (s.modCurSplit f).regions = s.regions := rfl
@[simp] theorem State.modCurSplit_launches (s : State) (f : Split → Split) : (s.modCurSplit f).launches = s.launches := rfl
@[simp] theorem State.modCurSplit_pending (s : State) (f : Split → Split) : (s.modCurSplit f).pending = s.pending := rfl
@[simp] theorem State.modCurSplit_kills (s : State) (f : Split → Split) : (s.modCurSplit f).kills = s.kills := rfl
@[simp] theorem State.modCurSplit_faults (s : State) (f : Split → Split) : (s.modCurSplit f).faults = s.faults := rfl
@[simp] theorem State.modCurSplit_retired (s : State) (f : Split → Split) : (s.modCurSplit f).retired = s.retired := rfl
@[simp] theorem State.modCurSplit_fabric (s : State) (f : Split → Split) : (s.modCurSplit f).fabric = s.fabric := rfl
@[simp] theorem State.modCurSplit_hostif (s : State) (f : Split → Split) : (s.modCurSplit f).hostif = s.hostif := rfl
@[simp] theorem State.modCurSplit_islands (s : State) (f : Split → Split) : (s.modCurSplit f).islands = s.islands := rfl
@[simp] theorem State.modCurSplit_lastPeriod (s : State) (f : Split → Split) : (s.modCurSplit f).lastPeriod = s.lastPeriod := rfl
@[simp] theorem State.modCurSplit_lastPatrol (s : State) (f : Split → Split) : (s.modCurSplit f).lastPatrol = s.lastPatrol := rfl
@[simp] theorem State.modCurSplit_bankGrants (s : State) (f : Split → Split) : (s.modCurSplit f).bankGrants = s.bankGrants := rfl

@[simp] theorem State.goto_agenda (s : State) (pc : Word) : (s.goto pc).agenda = s.agenda := rfl
@[simp] theorem State.goto_cur (s : State) (pc : Word) : (s.goto pc).cur = s.cur := rfl
@[simp] theorem State.goto_free (s : State) (pc : Word) : (s.goto pc).free = s.free := rfl
@[simp] theorem State.goto_stamp (s : State) (pc : Word) : (s.goto pc).stamp = s.stamp := rfl
@[simp] theorem State.goto_time (s : State) (pc : Word) : (s.goto pc).time = s.time := rfl
@[simp] theorem State.goto_resetAt (s : State) (pc : Word) : (s.goto pc).resetAt = s.resetAt := rfl
@[simp] theorem State.goto_mem (s : State) (pc : Word) : (s.goto pc).mem = s.mem := rfl
@[simp] theorem State.goto_cc (s : State) (pc : Word) : (s.goto pc).cc = s.cc := rfl
@[simp] theorem State.goto_host (s : State) (pc : Word) : (s.goto pc).host = s.host := rfl
@[simp] theorem State.goto_hidden (s : State) (pc : Word) : (s.goto pc).hidden = s.hidden := rfl
@[simp] theorem State.goto_ccOld (s : State) (pc : Word) : (s.goto pc).ccOld = s.ccOld := rfl
@[simp] theorem State.goto_poison (s : State) (pc : Word) : (s.goto pc).poison = s.poison := rfl
@[simp] theorem State.goto_cores (s : State) (pc : Word) : (s.goto pc).cores = s.cores := rfl
@[simp] theorem State.goto_reaches (s : State) (pc : Word) : (s.goto pc).reaches = s.reaches := rfl
@[simp] theorem State.goto_pcs (s : State) (pc : Word) : (s.goto pc).pcs = s.pcs := rfl
@[simp] theorem State.goto_bankCmds (s : State) (pc : Word) : (s.goto pc).bankCmds = s.bankCmds := rfl
@[simp] theorem State.goto_nextBank (s : State) (pc : Word) : (s.goto pc).nextBank = s.nextBank := rfl
@[simp] theorem State.goto_contexts (s : State) (pc : Word) : (s.goto pc).contexts = s.contexts := rfl
@[simp] theorem State.goto_regions (s : State) (pc : Word) : (s.goto pc).regions = s.regions := rfl
@[simp] theorem State.goto_launches (s : State) (pc : Word) : (s.goto pc).launches = s.launches := rfl
@[simp] theorem State.goto_pending (s : State) (pc : Word) : (s.goto pc).pending = s.pending := rfl
@[simp] theorem State.goto_kills (s : State) (pc : Word) : (s.goto pc).kills = s.kills := rfl
@[simp] theorem State.goto_faults (s : State) (pc : Word) : (s.goto pc).faults = s.faults := rfl
@[simp] theorem State.goto_retired (s : State) (pc : Word) : (s.goto pc).retired = s.retired := rfl
@[simp] theorem State.goto_fabric (s : State) (pc : Word) : (s.goto pc).fabric = s.fabric := rfl
@[simp] theorem State.goto_hostif (s : State) (pc : Word) : (s.goto pc).hostif = s.hostif := rfl
@[simp] theorem State.goto_islands (s : State) (pc : Word) : (s.goto pc).islands = s.islands := rfl
@[simp] theorem State.goto_lastPeriod (s : State) (pc : Word) : (s.goto pc).lastPeriod = s.lastPeriod := rfl
@[simp] theorem State.goto_lastPatrol (s : State) (pc : Word) : (s.goto pc).lastPatrol = s.lastPatrol := rfl
@[simp] theorem State.goto_bankGrants (s : State) (pc : Word) : (s.goto pc).bankGrants = s.bankGrants := rfl

@[simp] theorem State.next4_agenda (s : State) : s.next4.agenda = s.agenda := rfl
@[simp] theorem State.next4_cur (s : State) : s.next4.cur = s.cur := rfl
@[simp] theorem State.next4_free (s : State) : s.next4.free = s.free := rfl
@[simp] theorem State.next4_stamp (s : State) : s.next4.stamp = s.stamp := rfl
@[simp] theorem State.next4_time (s : State) : s.next4.time = s.time := rfl
@[simp] theorem State.next4_resetAt (s : State) : s.next4.resetAt = s.resetAt := rfl
@[simp] theorem State.next4_mem (s : State) : s.next4.mem = s.mem := rfl
@[simp] theorem State.next4_cc (s : State) : s.next4.cc = s.cc := rfl
@[simp] theorem State.next4_host (s : State) : s.next4.host = s.host := rfl
@[simp] theorem State.next4_hidden (s : State) : s.next4.hidden = s.hidden := rfl
@[simp] theorem State.next4_ccOld (s : State) : s.next4.ccOld = s.ccOld := rfl
@[simp] theorem State.next4_poison (s : State) : s.next4.poison = s.poison := rfl
@[simp] theorem State.next4_cores (s : State) : s.next4.cores = s.cores := rfl
@[simp] theorem State.next4_reaches (s : State) : s.next4.reaches = s.reaches := rfl
@[simp] theorem State.next4_pcs (s : State) : s.next4.pcs = s.pcs := rfl
@[simp] theorem State.next4_bankCmds (s : State) : s.next4.bankCmds = s.bankCmds := rfl
@[simp] theorem State.next4_nextBank (s : State) : s.next4.nextBank = s.nextBank := rfl
@[simp] theorem State.next4_contexts (s : State) : s.next4.contexts = s.contexts := rfl
@[simp] theorem State.next4_regions (s : State) : s.next4.regions = s.regions := rfl
@[simp] theorem State.next4_launches (s : State) : s.next4.launches = s.launches := rfl
@[simp] theorem State.next4_pending (s : State) : s.next4.pending = s.pending := rfl
@[simp] theorem State.next4_kills (s : State) : s.next4.kills = s.kills := rfl
@[simp] theorem State.next4_faults (s : State) : s.next4.faults = s.faults := rfl
@[simp] theorem State.next4_retired (s : State) : s.next4.retired = s.retired := rfl
@[simp] theorem State.next4_fabric (s : State) : s.next4.fabric = s.fabric := rfl
@[simp] theorem State.next4_hostif (s : State) : s.next4.hostif = s.hostif := rfl
@[simp] theorem State.next4_islands (s : State) : s.next4.islands = s.islands := rfl
@[simp] theorem State.next4_lastPeriod (s : State) : s.next4.lastPeriod = s.lastPeriod := rfl
@[simp] theorem State.next4_lastPatrol (s : State) : s.next4.lastPatrol = s.lastPatrol := rfl
@[simp] theorem State.next4_bankGrants (s : State) : s.next4.bankGrants = s.bankGrants := rfl

@[simp] theorem State.wait_agenda (s : State) (w : Wait) : (s.wait w).agenda = s.agenda := rfl
@[simp] theorem State.wait_cur (s : State) (w : Wait) : (s.wait w).cur = s.cur := rfl
@[simp] theorem State.wait_free (s : State) (w : Wait) : (s.wait w).free = s.free := rfl
@[simp] theorem State.wait_stamp (s : State) (w : Wait) : (s.wait w).stamp = s.stamp := rfl
@[simp] theorem State.wait_time (s : State) (w : Wait) : (s.wait w).time = s.time := rfl
@[simp] theorem State.wait_resetAt (s : State) (w : Wait) : (s.wait w).resetAt = s.resetAt := rfl
@[simp] theorem State.wait_mem (s : State) (w : Wait) : (s.wait w).mem = s.mem := rfl
@[simp] theorem State.wait_cc (s : State) (w : Wait) : (s.wait w).cc = s.cc := rfl
@[simp] theorem State.wait_host (s : State) (w : Wait) : (s.wait w).host = s.host := rfl
@[simp] theorem State.wait_hidden (s : State) (w : Wait) : (s.wait w).hidden = s.hidden := rfl
@[simp] theorem State.wait_ccOld (s : State) (w : Wait) : (s.wait w).ccOld = s.ccOld := rfl
@[simp] theorem State.wait_poison (s : State) (w : Wait) : (s.wait w).poison = s.poison := rfl
@[simp] theorem State.wait_cores (s : State) (w : Wait) : (s.wait w).cores = s.cores := rfl
@[simp] theorem State.wait_reaches (s : State) (w : Wait) : (s.wait w).reaches = s.reaches := rfl
@[simp] theorem State.wait_pcs (s : State) (w : Wait) : (s.wait w).pcs = s.pcs := rfl
@[simp] theorem State.wait_bankCmds (s : State) (w : Wait) : (s.wait w).bankCmds = s.bankCmds := rfl
@[simp] theorem State.wait_nextBank (s : State) (w : Wait) : (s.wait w).nextBank = s.nextBank := rfl
@[simp] theorem State.wait_contexts (s : State) (w : Wait) : (s.wait w).contexts = s.contexts := rfl
@[simp] theorem State.wait_regions (s : State) (w : Wait) : (s.wait w).regions = s.regions := rfl
@[simp] theorem State.wait_launches (s : State) (w : Wait) : (s.wait w).launches = s.launches := rfl
@[simp] theorem State.wait_pending (s : State) (w : Wait) : (s.wait w).pending = s.pending := rfl
@[simp] theorem State.wait_kills (s : State) (w : Wait) : (s.wait w).kills = s.kills := rfl
@[simp] theorem State.wait_faults (s : State) (w : Wait) : (s.wait w).faults = s.faults := rfl
@[simp] theorem State.wait_retired (s : State) (w : Wait) : (s.wait w).retired = s.retired := rfl
@[simp] theorem State.wait_fabric (s : State) (w : Wait) : (s.wait w).fabric = s.fabric := rfl
@[simp] theorem State.wait_hostif (s : State) (w : Wait) : (s.wait w).hostif = s.hostif := rfl
@[simp] theorem State.wait_islands (s : State) (w : Wait) : (s.wait w).islands = s.islands := rfl
@[simp] theorem State.wait_lastPeriod (s : State) (w : Wait) : (s.wait w).lastPeriod = s.lastPeriod := rfl
@[simp] theorem State.wait_lastPatrol (s : State) (w : Wait) : (s.wait w).lastPatrol = s.lastPatrol := rfl
@[simp] theorem State.wait_bankGrants (s : State) (w : Wait) : (s.wait w).bankGrants = s.bankGrants := rfl

@[simp] theorem State.modCounter_agenda (s : State) (w : WgIx) (k : Nat) (f : Counter → Counter) : (s.modCounter w k f).agenda = s.agenda := rfl
@[simp] theorem State.modCounter_cur (s : State) (w : WgIx) (k : Nat) (f : Counter → Counter) : (s.modCounter w k f).cur = s.cur := rfl
@[simp] theorem State.modCounter_free (s : State) (w : WgIx) (k : Nat) (f : Counter → Counter) : (s.modCounter w k f).free = s.free := rfl
@[simp] theorem State.modCounter_stamp (s : State) (w : WgIx) (k : Nat) (f : Counter → Counter) : (s.modCounter w k f).stamp = s.stamp := rfl
@[simp] theorem State.modCounter_time (s : State) (w : WgIx) (k : Nat) (f : Counter → Counter) : (s.modCounter w k f).time = s.time := rfl
@[simp] theorem State.modCounter_resetAt (s : State) (w : WgIx) (k : Nat) (f : Counter → Counter) : (s.modCounter w k f).resetAt = s.resetAt := rfl
@[simp] theorem State.modCounter_mem (s : State) (w : WgIx) (k : Nat) (f : Counter → Counter) : (s.modCounter w k f).mem = s.mem := rfl
@[simp] theorem State.modCounter_cc (s : State) (w : WgIx) (k : Nat) (f : Counter → Counter) : (s.modCounter w k f).cc = s.cc := rfl
@[simp] theorem State.modCounter_host (s : State) (w : WgIx) (k : Nat) (f : Counter → Counter) : (s.modCounter w k f).host = s.host := rfl
@[simp] theorem State.modCounter_hidden (s : State) (w : WgIx) (k : Nat) (f : Counter → Counter) : (s.modCounter w k f).hidden = s.hidden := rfl
@[simp] theorem State.modCounter_ccOld (s : State) (w : WgIx) (k : Nat) (f : Counter → Counter) : (s.modCounter w k f).ccOld = s.ccOld := rfl
@[simp] theorem State.modCounter_poison (s : State) (w : WgIx) (k : Nat) (f : Counter → Counter) : (s.modCounter w k f).poison = s.poison := rfl
@[simp] theorem State.modCounter_cores (s : State) (w : WgIx) (k : Nat) (f : Counter → Counter) : (s.modCounter w k f).cores = s.cores := rfl
@[simp] theorem State.modCounter_reaches (s : State) (w : WgIx) (k : Nat) (f : Counter → Counter) : (s.modCounter w k f).reaches = s.reaches := rfl
@[simp] theorem State.modCounter_pcs (s : State) (w : WgIx) (k : Nat) (f : Counter → Counter) : (s.modCounter w k f).pcs = s.pcs := rfl
@[simp] theorem State.modCounter_bankCmds (s : State) (w : WgIx) (k : Nat) (f : Counter → Counter) : (s.modCounter w k f).bankCmds = s.bankCmds := rfl
@[simp] theorem State.modCounter_nextBank (s : State) (w : WgIx) (k : Nat) (f : Counter → Counter) : (s.modCounter w k f).nextBank = s.nextBank := rfl
@[simp] theorem State.modCounter_contexts (s : State) (w : WgIx) (k : Nat) (f : Counter → Counter) : (s.modCounter w k f).contexts = s.contexts := rfl
@[simp] theorem State.modCounter_regions (s : State) (w : WgIx) (k : Nat) (f : Counter → Counter) : (s.modCounter w k f).regions = s.regions := rfl
@[simp] theorem State.modCounter_launches (s : State) (w : WgIx) (k : Nat) (f : Counter → Counter) : (s.modCounter w k f).launches = s.launches := rfl
@[simp] theorem State.modCounter_pending (s : State) (w : WgIx) (k : Nat) (f : Counter → Counter) : (s.modCounter w k f).pending = s.pending := rfl
@[simp] theorem State.modCounter_kills (s : State) (w : WgIx) (k : Nat) (f : Counter → Counter) : (s.modCounter w k f).kills = s.kills := rfl
@[simp] theorem State.modCounter_faults (s : State) (w : WgIx) (k : Nat) (f : Counter → Counter) : (s.modCounter w k f).faults = s.faults := rfl
@[simp] theorem State.modCounter_retired (s : State) (w : WgIx) (k : Nat) (f : Counter → Counter) : (s.modCounter w k f).retired = s.retired := rfl
@[simp] theorem State.modCounter_fabric (s : State) (w : WgIx) (k : Nat) (f : Counter → Counter) : (s.modCounter w k f).fabric = s.fabric := rfl
@[simp] theorem State.modCounter_hostif (s : State) (w : WgIx) (k : Nat) (f : Counter → Counter) : (s.modCounter w k f).hostif = s.hostif := rfl
@[simp] theorem State.modCounter_islands (s : State) (w : WgIx) (k : Nat) (f : Counter → Counter) : (s.modCounter w k f).islands = s.islands := rfl
@[simp] theorem State.modCounter_lastPeriod (s : State) (w : WgIx) (k : Nat) (f : Counter → Counter) : (s.modCounter w k f).lastPeriod = s.lastPeriod := rfl
@[simp] theorem State.modCounter_lastPatrol (s : State) (w : WgIx) (k : Nat) (f : Counter → Counter) : (s.modCounter w k f).lastPatrol = s.lastPatrol := rfl
@[simp] theorem State.modCounter_bankGrants (s : State) (w : WgIx) (k : Nat) (f : Counter → Counter) : (s.modCounter w k f).bankGrants = s.bankGrants := rfl

@[simp] theorem State.modCmd_agenda (s : State) (r : CmdRef) (f : Cmd → Cmd) : (s.modCmd r f).agenda = s.agenda := rfl
@[simp] theorem State.modCmd_cur (s : State) (r : CmdRef) (f : Cmd → Cmd) : (s.modCmd r f).cur = s.cur := rfl
@[simp] theorem State.modCmd_free (s : State) (r : CmdRef) (f : Cmd → Cmd) : (s.modCmd r f).free = s.free := rfl
@[simp] theorem State.modCmd_stamp (s : State) (r : CmdRef) (f : Cmd → Cmd) : (s.modCmd r f).stamp = s.stamp := rfl
@[simp] theorem State.modCmd_time (s : State) (r : CmdRef) (f : Cmd → Cmd) : (s.modCmd r f).time = s.time := rfl
@[simp] theorem State.modCmd_resetAt (s : State) (r : CmdRef) (f : Cmd → Cmd) : (s.modCmd r f).resetAt = s.resetAt := rfl
@[simp] theorem State.modCmd_mem (s : State) (r : CmdRef) (f : Cmd → Cmd) : (s.modCmd r f).mem = s.mem := rfl
@[simp] theorem State.modCmd_cc (s : State) (r : CmdRef) (f : Cmd → Cmd) : (s.modCmd r f).cc = s.cc := rfl
@[simp] theorem State.modCmd_host (s : State) (r : CmdRef) (f : Cmd → Cmd) : (s.modCmd r f).host = s.host := rfl
@[simp] theorem State.modCmd_hidden (s : State) (r : CmdRef) (f : Cmd → Cmd) : (s.modCmd r f).hidden = s.hidden := rfl
@[simp] theorem State.modCmd_ccOld (s : State) (r : CmdRef) (f : Cmd → Cmd) : (s.modCmd r f).ccOld = s.ccOld := rfl
@[simp] theorem State.modCmd_poison (s : State) (r : CmdRef) (f : Cmd → Cmd) : (s.modCmd r f).poison = s.poison := rfl
@[simp] theorem State.modCmd_cores (s : State) (r : CmdRef) (f : Cmd → Cmd) : (s.modCmd r f).cores = s.cores := rfl
@[simp] theorem State.modCmd_reaches (s : State) (r : CmdRef) (f : Cmd → Cmd) : (s.modCmd r f).reaches = s.reaches := rfl
@[simp] theorem State.modCmd_pcs (s : State) (r : CmdRef) (f : Cmd → Cmd) : (s.modCmd r f).pcs = s.pcs := rfl
@[simp] theorem State.modCmd_bankCmds (s : State) (r : CmdRef) (f : Cmd → Cmd) : (s.modCmd r f).bankCmds = s.bankCmds := rfl
@[simp] theorem State.modCmd_nextBank (s : State) (r : CmdRef) (f : Cmd → Cmd) : (s.modCmd r f).nextBank = s.nextBank := rfl
@[simp] theorem State.modCmd_contexts (s : State) (r : CmdRef) (f : Cmd → Cmd) : (s.modCmd r f).contexts = s.contexts := rfl
@[simp] theorem State.modCmd_regions (s : State) (r : CmdRef) (f : Cmd → Cmd) : (s.modCmd r f).regions = s.regions := rfl
@[simp] theorem State.modCmd_launches (s : State) (r : CmdRef) (f : Cmd → Cmd) : (s.modCmd r f).launches = s.launches := rfl
@[simp] theorem State.modCmd_pending (s : State) (r : CmdRef) (f : Cmd → Cmd) : (s.modCmd r f).pending = s.pending := rfl
@[simp] theorem State.modCmd_kills (s : State) (r : CmdRef) (f : Cmd → Cmd) : (s.modCmd r f).kills = s.kills := rfl
@[simp] theorem State.modCmd_faults (s : State) (r : CmdRef) (f : Cmd → Cmd) : (s.modCmd r f).faults = s.faults := rfl
@[simp] theorem State.modCmd_retired (s : State) (r : CmdRef) (f : Cmd → Cmd) : (s.modCmd r f).retired = s.retired := rfl
@[simp] theorem State.modCmd_fabric (s : State) (r : CmdRef) (f : Cmd → Cmd) : (s.modCmd r f).fabric = s.fabric := rfl
@[simp] theorem State.modCmd_hostif (s : State) (r : CmdRef) (f : Cmd → Cmd) : (s.modCmd r f).hostif = s.hostif := rfl
@[simp] theorem State.modCmd_islands (s : State) (r : CmdRef) (f : Cmd → Cmd) : (s.modCmd r f).islands = s.islands := rfl
@[simp] theorem State.modCmd_lastPeriod (s : State) (r : CmdRef) (f : Cmd → Cmd) : (s.modCmd r f).lastPeriod = s.lastPeriod := rfl
@[simp] theorem State.modCmd_lastPatrol (s : State) (r : CmdRef) (f : Cmd → Cmd) : (s.modCmd r f).lastPatrol = s.lastPatrol := rfl
@[simp] theorem State.modCmd_bankGrants (s : State) (r : CmdRef) (f : Cmd → Cmd) : (s.modCmd r f).bankGrants = s.bankGrants := rfl

@[simp] theorem State.modCore_agenda (s : State) (c : CoreIx) (f : Core → Core) : (s.modCore c f).agenda = s.agenda := rfl
@[simp] theorem State.modCore_cur (s : State) (c : CoreIx) (f : Core → Core) : (s.modCore c f).cur = s.cur := rfl
@[simp] theorem State.modCore_free (s : State) (c : CoreIx) (f : Core → Core) : (s.modCore c f).free = s.free := rfl
@[simp] theorem State.modCore_stamp (s : State) (c : CoreIx) (f : Core → Core) : (s.modCore c f).stamp = s.stamp := rfl
@[simp] theorem State.modCore_time (s : State) (c : CoreIx) (f : Core → Core) : (s.modCore c f).time = s.time := rfl
@[simp] theorem State.modCore_resetAt (s : State) (c : CoreIx) (f : Core → Core) : (s.modCore c f).resetAt = s.resetAt := rfl
@[simp] theorem State.modCore_mem (s : State) (c : CoreIx) (f : Core → Core) : (s.modCore c f).mem = s.mem := rfl
@[simp] theorem State.modCore_cc (s : State) (c : CoreIx) (f : Core → Core) : (s.modCore c f).cc = s.cc := rfl
@[simp] theorem State.modCore_host (s : State) (c : CoreIx) (f : Core → Core) : (s.modCore c f).host = s.host := rfl
@[simp] theorem State.modCore_hidden (s : State) (c : CoreIx) (f : Core → Core) : (s.modCore c f).hidden = s.hidden := rfl
@[simp] theorem State.modCore_ccOld (s : State) (c : CoreIx) (f : Core → Core) : (s.modCore c f).ccOld = s.ccOld := rfl
@[simp] theorem State.modCore_poison (s : State) (c : CoreIx) (f : Core → Core) : (s.modCore c f).poison = s.poison := rfl
@[simp] theorem State.modCore_cores (s : State) (c : CoreIx) (f : Core → Core) : (s.modCore c f).cores = modVec f s.cores c := rfl
@[simp] theorem State.modCore_reaches (s : State) (c : CoreIx) (f : Core → Core) : (s.modCore c f).reaches = s.reaches := rfl
@[simp] theorem State.modCore_pcs (s : State) (c : CoreIx) (f : Core → Core) : (s.modCore c f).pcs = s.pcs := rfl
@[simp] theorem State.modCore_bankCmds (s : State) (c : CoreIx) (f : Core → Core) : (s.modCore c f).bankCmds = s.bankCmds := rfl
@[simp] theorem State.modCore_nextBank (s : State) (c : CoreIx) (f : Core → Core) : (s.modCore c f).nextBank = s.nextBank := rfl
@[simp] theorem State.modCore_contexts (s : State) (c : CoreIx) (f : Core → Core) : (s.modCore c f).contexts = s.contexts := rfl
@[simp] theorem State.modCore_regions (s : State) (c : CoreIx) (f : Core → Core) : (s.modCore c f).regions = s.regions := rfl
@[simp] theorem State.modCore_launches (s : State) (c : CoreIx) (f : Core → Core) : (s.modCore c f).launches = s.launches := rfl
@[simp] theorem State.modCore_wgs (s : State) (c : CoreIx) (f : Core → Core) : (s.modCore c f).wgs = s.wgs := rfl
@[simp] theorem State.modCore_pending (s : State) (c : CoreIx) (f : Core → Core) : (s.modCore c f).pending = s.pending := rfl
@[simp] theorem State.modCore_kills (s : State) (c : CoreIx) (f : Core → Core) : (s.modCore c f).kills = s.kills := rfl
@[simp] theorem State.modCore_faults (s : State) (c : CoreIx) (f : Core → Core) : (s.modCore c f).faults = s.faults := rfl
@[simp] theorem State.modCore_retired (s : State) (c : CoreIx) (f : Core → Core) : (s.modCore c f).retired = s.retired := rfl
@[simp] theorem State.modCore_fabric (s : State) (c : CoreIx) (f : Core → Core) : (s.modCore c f).fabric = s.fabric := rfl
@[simp] theorem State.modCore_hostif (s : State) (c : CoreIx) (f : Core → Core) : (s.modCore c f).hostif = s.hostif := rfl
@[simp] theorem State.modCore_islands (s : State) (c : CoreIx) (f : Core → Core) : (s.modCore c f).islands = s.islands := rfl
@[simp] theorem State.modCore_lastPeriod (s : State) (c : CoreIx) (f : Core → Core) : (s.modCore c f).lastPeriod = s.lastPeriod := rfl
@[simp] theorem State.modCore_lastPatrol (s : State) (c : CoreIx) (f : Core → Core) : (s.modCore c f).lastPatrol = s.lastPatrol := rfl
@[simp] theorem State.modCore_bankGrants (s : State) (c : CoreIx) (f : Core → Core) : (s.modCore c f).bankGrants = s.bankGrants := rfl

@[simp] theorem State.modSlot_agenda (s : State) (c k : Nat) (f : Slot → Slot) : (s.modSlot c k f).agenda = s.agenda := rfl
@[simp] theorem State.modSlot_cur (s : State) (c k : Nat) (f : Slot → Slot) : (s.modSlot c k f).cur = s.cur := rfl
@[simp] theorem State.modSlot_free (s : State) (c k : Nat) (f : Slot → Slot) : (s.modSlot c k f).free = s.free := rfl
@[simp] theorem State.modSlot_stamp (s : State) (c k : Nat) (f : Slot → Slot) : (s.modSlot c k f).stamp = s.stamp := rfl
@[simp] theorem State.modSlot_time (s : State) (c k : Nat) (f : Slot → Slot) : (s.modSlot c k f).time = s.time := rfl
@[simp] theorem State.modSlot_resetAt (s : State) (c k : Nat) (f : Slot → Slot) : (s.modSlot c k f).resetAt = s.resetAt := rfl
@[simp] theorem State.modSlot_mem (s : State) (c k : Nat) (f : Slot → Slot) : (s.modSlot c k f).mem = s.mem := rfl
@[simp] theorem State.modSlot_cc (s : State) (c k : Nat) (f : Slot → Slot) : (s.modSlot c k f).cc = s.cc := rfl
@[simp] theorem State.modSlot_host (s : State) (c k : Nat) (f : Slot → Slot) : (s.modSlot c k f).host = s.host := rfl
@[simp] theorem State.modSlot_hidden (s : State) (c k : Nat) (f : Slot → Slot) : (s.modSlot c k f).hidden = s.hidden := rfl
@[simp] theorem State.modSlot_ccOld (s : State) (c k : Nat) (f : Slot → Slot) : (s.modSlot c k f).ccOld = s.ccOld := rfl
@[simp] theorem State.modSlot_poison (s : State) (c k : Nat) (f : Slot → Slot) : (s.modSlot c k f).poison = s.poison := rfl
@[simp] theorem State.modSlot_reaches (s : State) (c k : Nat) (f : Slot → Slot) : (s.modSlot c k f).reaches = s.reaches := rfl
@[simp] theorem State.modSlot_pcs (s : State) (c k : Nat) (f : Slot → Slot) : (s.modSlot c k f).pcs = s.pcs := rfl
@[simp] theorem State.modSlot_bankCmds (s : State) (c k : Nat) (f : Slot → Slot) : (s.modSlot c k f).bankCmds = s.bankCmds := rfl
@[simp] theorem State.modSlot_nextBank (s : State) (c k : Nat) (f : Slot → Slot) : (s.modSlot c k f).nextBank = s.nextBank := rfl
@[simp] theorem State.modSlot_contexts (s : State) (c k : Nat) (f : Slot → Slot) : (s.modSlot c k f).contexts = s.contexts := rfl
@[simp] theorem State.modSlot_regions (s : State) (c k : Nat) (f : Slot → Slot) : (s.modSlot c k f).regions = s.regions := rfl
@[simp] theorem State.modSlot_launches (s : State) (c k : Nat) (f : Slot → Slot) : (s.modSlot c k f).launches = s.launches := rfl
@[simp] theorem State.modSlot_wgs (s : State) (c k : Nat) (f : Slot → Slot) : (s.modSlot c k f).wgs = s.wgs := rfl
@[simp] theorem State.modSlot_pending (s : State) (c k : Nat) (f : Slot → Slot) : (s.modSlot c k f).pending = s.pending := rfl
@[simp] theorem State.modSlot_kills (s : State) (c k : Nat) (f : Slot → Slot) : (s.modSlot c k f).kills = s.kills := rfl
@[simp] theorem State.modSlot_faults (s : State) (c k : Nat) (f : Slot → Slot) : (s.modSlot c k f).faults = s.faults := rfl
@[simp] theorem State.modSlot_retired (s : State) (c k : Nat) (f : Slot → Slot) : (s.modSlot c k f).retired = s.retired := rfl
@[simp] theorem State.modSlot_fabric (s : State) (c k : Nat) (f : Slot → Slot) : (s.modSlot c k f).fabric = s.fabric := rfl
@[simp] theorem State.modSlot_hostif (s : State) (c k : Nat) (f : Slot → Slot) : (s.modSlot c k f).hostif = s.hostif := rfl
@[simp] theorem State.modSlot_islands (s : State) (c k : Nat) (f : Slot → Slot) : (s.modSlot c k f).islands = s.islands := rfl
@[simp] theorem State.modSlot_lastPeriod (s : State) (c k : Nat) (f : Slot → Slot) : (s.modSlot c k f).lastPeriod = s.lastPeriod := rfl
@[simp] theorem State.modSlot_lastPatrol (s : State) (c k : Nat) (f : Slot → Slot) : (s.modSlot c k f).lastPatrol = s.lastPatrol := rfl
@[simp] theorem State.modSlot_bankGrants (s : State) (c k : Nat) (f : Slot → Slot) : (s.modSlot c k f).bankGrants = s.bankGrants := rfl

@[simp] theorem State.modReach_agenda (s : State) (r : Nat) (f : Reach → Reach) : (s.modReach r f).agenda = s.agenda := rfl
@[simp] theorem State.modReach_cur (s : State) (r : Nat) (f : Reach → Reach) : (s.modReach r f).cur = s.cur := rfl
@[simp] theorem State.modReach_free (s : State) (r : Nat) (f : Reach → Reach) : (s.modReach r f).free = s.free := rfl
@[simp] theorem State.modReach_stamp (s : State) (r : Nat) (f : Reach → Reach) : (s.modReach r f).stamp = s.stamp := rfl
@[simp] theorem State.modReach_time (s : State) (r : Nat) (f : Reach → Reach) : (s.modReach r f).time = s.time := rfl
@[simp] theorem State.modReach_resetAt (s : State) (r : Nat) (f : Reach → Reach) : (s.modReach r f).resetAt = s.resetAt := rfl
@[simp] theorem State.modReach_mem (s : State) (r : Nat) (f : Reach → Reach) : (s.modReach r f).mem = s.mem := rfl
@[simp] theorem State.modReach_cc (s : State) (r : Nat) (f : Reach → Reach) : (s.modReach r f).cc = s.cc := rfl
@[simp] theorem State.modReach_host (s : State) (r : Nat) (f : Reach → Reach) : (s.modReach r f).host = s.host := rfl
@[simp] theorem State.modReach_hidden (s : State) (r : Nat) (f : Reach → Reach) : (s.modReach r f).hidden = s.hidden := rfl
@[simp] theorem State.modReach_ccOld (s : State) (r : Nat) (f : Reach → Reach) : (s.modReach r f).ccOld = s.ccOld := rfl
@[simp] theorem State.modReach_poison (s : State) (r : Nat) (f : Reach → Reach) : (s.modReach r f).poison = s.poison := rfl
@[simp] theorem State.modReach_cores (s : State) (r : Nat) (f : Reach → Reach) : (s.modReach r f).cores = s.cores := rfl
@[simp] theorem State.modReach_reaches (s : State) (r : Nat) (f : Reach → Reach) : (s.modReach r f).reaches = modVec f s.reaches r := rfl
@[simp] theorem State.modReach_pcs (s : State) (r : Nat) (f : Reach → Reach) : (s.modReach r f).pcs = s.pcs := rfl
@[simp] theorem State.modReach_bankCmds (s : State) (r : Nat) (f : Reach → Reach) : (s.modReach r f).bankCmds = s.bankCmds := rfl
@[simp] theorem State.modReach_nextBank (s : State) (r : Nat) (f : Reach → Reach) : (s.modReach r f).nextBank = s.nextBank := rfl
@[simp] theorem State.modReach_contexts (s : State) (r : Nat) (f : Reach → Reach) : (s.modReach r f).contexts = s.contexts := rfl
@[simp] theorem State.modReach_regions (s : State) (r : Nat) (f : Reach → Reach) : (s.modReach r f).regions = s.regions := rfl
@[simp] theorem State.modReach_launches (s : State) (r : Nat) (f : Reach → Reach) : (s.modReach r f).launches = s.launches := rfl
@[simp] theorem State.modReach_wgs (s : State) (r : Nat) (f : Reach → Reach) : (s.modReach r f).wgs = s.wgs := rfl
@[simp] theorem State.modReach_pending (s : State) (r : Nat) (f : Reach → Reach) : (s.modReach r f).pending = s.pending := rfl
@[simp] theorem State.modReach_kills (s : State) (r : Nat) (f : Reach → Reach) : (s.modReach r f).kills = s.kills := rfl
@[simp] theorem State.modReach_faults (s : State) (r : Nat) (f : Reach → Reach) : (s.modReach r f).faults = s.faults := rfl
@[simp] theorem State.modReach_retired (s : State) (r : Nat) (f : Reach → Reach) : (s.modReach r f).retired = s.retired := rfl
@[simp] theorem State.modReach_fabric (s : State) (r : Nat) (f : Reach → Reach) : (s.modReach r f).fabric = s.fabric := rfl
@[simp] theorem State.modReach_hostif (s : State) (r : Nat) (f : Reach → Reach) : (s.modReach r f).hostif = s.hostif := rfl
@[simp] theorem State.modReach_islands (s : State) (r : Nat) (f : Reach → Reach) : (s.modReach r f).islands = s.islands := rfl
@[simp] theorem State.modReach_lastPeriod (s : State) (r : Nat) (f : Reach → Reach) : (s.modReach r f).lastPeriod = s.lastPeriod := rfl
@[simp] theorem State.modReach_lastPatrol (s : State) (r : Nat) (f : Reach → Reach) : (s.modReach r f).lastPatrol = s.lastPatrol := rfl
@[simp] theorem State.modReach_bankGrants (s : State) (r : Nat) (f : Reach → Reach) : (s.modReach r f).bankGrants = s.bankGrants := rfl

@[simp] theorem State.modPc_agenda (s : State) (p : PcIx) (f : Pc → Pc) : (s.modPc p f).agenda = s.agenda := rfl
@[simp] theorem State.modPc_cur (s : State) (p : PcIx) (f : Pc → Pc) : (s.modPc p f).cur = s.cur := rfl
@[simp] theorem State.modPc_free (s : State) (p : PcIx) (f : Pc → Pc) : (s.modPc p f).free = s.free := rfl
@[simp] theorem State.modPc_stamp (s : State) (p : PcIx) (f : Pc → Pc) : (s.modPc p f).stamp = s.stamp := rfl
@[simp] theorem State.modPc_time (s : State) (p : PcIx) (f : Pc → Pc) : (s.modPc p f).time = s.time := rfl
@[simp] theorem State.modPc_resetAt (s : State) (p : PcIx) (f : Pc → Pc) : (s.modPc p f).resetAt = s.resetAt := rfl
@[simp] theorem State.modPc_mem (s : State) (p : PcIx) (f : Pc → Pc) : (s.modPc p f).mem = s.mem := rfl
@[simp] theorem State.modPc_cc (s : State) (p : PcIx) (f : Pc → Pc) : (s.modPc p f).cc = s.cc := rfl
@[simp] theorem State.modPc_host (s : State) (p : PcIx) (f : Pc → Pc) : (s.modPc p f).host = s.host := rfl
@[simp] theorem State.modPc_hidden (s : State) (p : PcIx) (f : Pc → Pc) : (s.modPc p f).hidden = s.hidden := rfl
@[simp] theorem State.modPc_ccOld (s : State) (p : PcIx) (f : Pc → Pc) : (s.modPc p f).ccOld = s.ccOld := rfl
@[simp] theorem State.modPc_poison (s : State) (p : PcIx) (f : Pc → Pc) : (s.modPc p f).poison = s.poison := rfl
@[simp] theorem State.modPc_cores (s : State) (p : PcIx) (f : Pc → Pc) : (s.modPc p f).cores = s.cores := rfl
@[simp] theorem State.modPc_reaches (s : State) (p : PcIx) (f : Pc → Pc) : (s.modPc p f).reaches = s.reaches := rfl
@[simp] theorem State.modPc_pcs (s : State) (p : PcIx) (f : Pc → Pc) : (s.modPc p f).pcs = modVec f s.pcs p := rfl
@[simp] theorem State.modPc_bankCmds (s : State) (p : PcIx) (f : Pc → Pc) : (s.modPc p f).bankCmds = s.bankCmds := rfl
@[simp] theorem State.modPc_nextBank (s : State) (p : PcIx) (f : Pc → Pc) : (s.modPc p f).nextBank = s.nextBank := rfl
@[simp] theorem State.modPc_contexts (s : State) (p : PcIx) (f : Pc → Pc) : (s.modPc p f).contexts = s.contexts := rfl
@[simp] theorem State.modPc_regions (s : State) (p : PcIx) (f : Pc → Pc) : (s.modPc p f).regions = s.regions := rfl
@[simp] theorem State.modPc_launches (s : State) (p : PcIx) (f : Pc → Pc) : (s.modPc p f).launches = s.launches := rfl
@[simp] theorem State.modPc_wgs (s : State) (p : PcIx) (f : Pc → Pc) : (s.modPc p f).wgs = s.wgs := rfl
@[simp] theorem State.modPc_pending (s : State) (p : PcIx) (f : Pc → Pc) : (s.modPc p f).pending = s.pending := rfl
@[simp] theorem State.modPc_kills (s : State) (p : PcIx) (f : Pc → Pc) : (s.modPc p f).kills = s.kills := rfl
@[simp] theorem State.modPc_faults (s : State) (p : PcIx) (f : Pc → Pc) : (s.modPc p f).faults = s.faults := rfl
@[simp] theorem State.modPc_retired (s : State) (p : PcIx) (f : Pc → Pc) : (s.modPc p f).retired = s.retired := rfl
@[simp] theorem State.modPc_fabric (s : State) (p : PcIx) (f : Pc → Pc) : (s.modPc p f).fabric = s.fabric := rfl
@[simp] theorem State.modPc_hostif (s : State) (p : PcIx) (f : Pc → Pc) : (s.modPc p f).hostif = s.hostif := rfl
@[simp] theorem State.modPc_islands (s : State) (p : PcIx) (f : Pc → Pc) : (s.modPc p f).islands = s.islands := rfl
@[simp] theorem State.modPc_lastPeriod (s : State) (p : PcIx) (f : Pc → Pc) : (s.modPc p f).lastPeriod = s.lastPeriod := rfl
@[simp] theorem State.modPc_lastPatrol (s : State) (p : PcIx) (f : Pc → Pc) : (s.modPc p f).lastPatrol = s.lastPatrol := rfl
@[simp] theorem State.modPc_bankGrants (s : State) (p : PcIx) (f : Pc → Pc) : (s.modPc p f).bankGrants = s.bankGrants := rfl

@[simp] theorem State.modRun_agenda (s : State) (f : Run → Run) : (s.modRun f).agenda = s.agenda := rfl
@[simp] theorem State.modRun_cur (s : State) (f : Run → Run) : (s.modRun f).cur = s.cur := rfl
@[simp] theorem State.modRun_free (s : State) (f : Run → Run) : (s.modRun f).free = s.free := rfl
@[simp] theorem State.modRun_stamp (s : State) (f : Run → Run) : (s.modRun f).stamp = s.stamp := rfl
@[simp] theorem State.modRun_time (s : State) (f : Run → Run) : (s.modRun f).time = s.time := rfl
@[simp] theorem State.modRun_resetAt (s : State) (f : Run → Run) : (s.modRun f).resetAt = s.resetAt := rfl
@[simp] theorem State.modRun_mem (s : State) (f : Run → Run) : (s.modRun f).mem = s.mem := rfl
@[simp] theorem State.modRun_cc (s : State) (f : Run → Run) : (s.modRun f).cc = s.cc := rfl
@[simp] theorem State.modRun_host (s : State) (f : Run → Run) : (s.modRun f).host = s.host := rfl
@[simp] theorem State.modRun_hidden (s : State) (f : Run → Run) : (s.modRun f).hidden = s.hidden := rfl
@[simp] theorem State.modRun_ccOld (s : State) (f : Run → Run) : (s.modRun f).ccOld = s.ccOld := rfl
@[simp] theorem State.modRun_poison (s : State) (f : Run → Run) : (s.modRun f).poison = s.poison := rfl
@[simp] theorem State.modRun_cores (s : State) (f : Run → Run) : (s.modRun f).cores = s.cores := rfl
@[simp] theorem State.modRun_reaches (s : State) (f : Run → Run) : (s.modRun f).reaches = s.reaches := rfl
@[simp] theorem State.modRun_bankCmds (s : State) (f : Run → Run) : (s.modRun f).bankCmds = s.bankCmds := rfl
@[simp] theorem State.modRun_nextBank (s : State) (f : Run → Run) : (s.modRun f).nextBank = s.nextBank := rfl
@[simp] theorem State.modRun_contexts (s : State) (f : Run → Run) : (s.modRun f).contexts = s.contexts := rfl
@[simp] theorem State.modRun_regions (s : State) (f : Run → Run) : (s.modRun f).regions = s.regions := rfl
@[simp] theorem State.modRun_launches (s : State) (f : Run → Run) : (s.modRun f).launches = s.launches := rfl
@[simp] theorem State.modRun_wgs (s : State) (f : Run → Run) : (s.modRun f).wgs = s.wgs := rfl
@[simp] theorem State.modRun_pending (s : State) (f : Run → Run) : (s.modRun f).pending = s.pending := rfl
@[simp] theorem State.modRun_kills (s : State) (f : Run → Run) : (s.modRun f).kills = s.kills := rfl
@[simp] theorem State.modRun_faults (s : State) (f : Run → Run) : (s.modRun f).faults = s.faults := rfl
@[simp] theorem State.modRun_retired (s : State) (f : Run → Run) : (s.modRun f).retired = s.retired := rfl
@[simp] theorem State.modRun_fabric (s : State) (f : Run → Run) : (s.modRun f).fabric = s.fabric := rfl
@[simp] theorem State.modRun_hostif (s : State) (f : Run → Run) : (s.modRun f).hostif = s.hostif := rfl
@[simp] theorem State.modRun_islands (s : State) (f : Run → Run) : (s.modRun f).islands = s.islands := rfl
@[simp] theorem State.modRun_lastPeriod (s : State) (f : Run → Run) : (s.modRun f).lastPeriod = s.lastPeriod := rfl
@[simp] theorem State.modRun_lastPatrol (s : State) (f : Run → Run) : (s.modRun f).lastPatrol = s.lastPatrol := rfl
@[simp] theorem State.modRun_bankGrants (s : State) (f : Run → Run) : (s.modRun f).bankGrants = s.bankGrants := rfl

@[simp] theorem State.modBank_agenda (s : State) (n : Nat) (f : BankCmd → BankCmd) : (s.modBank n f).agenda = s.agenda := rfl
@[simp] theorem State.modBank_cur (s : State) (n : Nat) (f : BankCmd → BankCmd) : (s.modBank n f).cur = s.cur := rfl
@[simp] theorem State.modBank_free (s : State) (n : Nat) (f : BankCmd → BankCmd) : (s.modBank n f).free = s.free := rfl
@[simp] theorem State.modBank_stamp (s : State) (n : Nat) (f : BankCmd → BankCmd) : (s.modBank n f).stamp = s.stamp := rfl
@[simp] theorem State.modBank_time (s : State) (n : Nat) (f : BankCmd → BankCmd) : (s.modBank n f).time = s.time := rfl
@[simp] theorem State.modBank_resetAt (s : State) (n : Nat) (f : BankCmd → BankCmd) : (s.modBank n f).resetAt = s.resetAt := rfl
@[simp] theorem State.modBank_mem (s : State) (n : Nat) (f : BankCmd → BankCmd) : (s.modBank n f).mem = s.mem := rfl
@[simp] theorem State.modBank_cc (s : State) (n : Nat) (f : BankCmd → BankCmd) : (s.modBank n f).cc = s.cc := rfl
@[simp] theorem State.modBank_host (s : State) (n : Nat) (f : BankCmd → BankCmd) : (s.modBank n f).host = s.host := rfl
@[simp] theorem State.modBank_hidden (s : State) (n : Nat) (f : BankCmd → BankCmd) : (s.modBank n f).hidden = s.hidden := rfl
@[simp] theorem State.modBank_ccOld (s : State) (n : Nat) (f : BankCmd → BankCmd) : (s.modBank n f).ccOld = s.ccOld := rfl
@[simp] theorem State.modBank_poison (s : State) (n : Nat) (f : BankCmd → BankCmd) : (s.modBank n f).poison = s.poison := rfl
@[simp] theorem State.modBank_cores (s : State) (n : Nat) (f : BankCmd → BankCmd) : (s.modBank n f).cores = s.cores := rfl
@[simp] theorem State.modBank_reaches (s : State) (n : Nat) (f : BankCmd → BankCmd) : (s.modBank n f).reaches = s.reaches := rfl
@[simp] theorem State.modBank_pcs (s : State) (n : Nat) (f : BankCmd → BankCmd) : (s.modBank n f).pcs = s.pcs := rfl
@[simp] theorem State.modBank_bankCmds (s : State) (n : Nat) (f : BankCmd → BankCmd) : (s.modBank n f).bankCmds = modWhere (fun c => c.id == n) f s.bankCmds := rfl
@[simp] theorem State.modBank_nextBank (s : State) (n : Nat) (f : BankCmd → BankCmd) : (s.modBank n f).nextBank = s.nextBank := rfl
@[simp] theorem State.modBank_contexts (s : State) (n : Nat) (f : BankCmd → BankCmd) : (s.modBank n f).contexts = s.contexts := rfl
@[simp] theorem State.modBank_regions (s : State) (n : Nat) (f : BankCmd → BankCmd) : (s.modBank n f).regions = s.regions := rfl
@[simp] theorem State.modBank_launches (s : State) (n : Nat) (f : BankCmd → BankCmd) : (s.modBank n f).launches = s.launches := rfl
@[simp] theorem State.modBank_wgs (s : State) (n : Nat) (f : BankCmd → BankCmd) : (s.modBank n f).wgs = s.wgs := rfl
@[simp] theorem State.modBank_pending (s : State) (n : Nat) (f : BankCmd → BankCmd) : (s.modBank n f).pending = s.pending := rfl
@[simp] theorem State.modBank_kills (s : State) (n : Nat) (f : BankCmd → BankCmd) : (s.modBank n f).kills = s.kills := rfl
@[simp] theorem State.modBank_faults (s : State) (n : Nat) (f : BankCmd → BankCmd) : (s.modBank n f).faults = s.faults := rfl
@[simp] theorem State.modBank_retired (s : State) (n : Nat) (f : BankCmd → BankCmd) : (s.modBank n f).retired = s.retired := rfl
@[simp] theorem State.modBank_fabric (s : State) (n : Nat) (f : BankCmd → BankCmd) : (s.modBank n f).fabric = s.fabric := rfl
@[simp] theorem State.modBank_hostif (s : State) (n : Nat) (f : BankCmd → BankCmd) : (s.modBank n f).hostif = s.hostif := rfl
@[simp] theorem State.modBank_islands (s : State) (n : Nat) (f : BankCmd → BankCmd) : (s.modBank n f).islands = s.islands := rfl
@[simp] theorem State.modBank_lastPeriod (s : State) (n : Nat) (f : BankCmd → BankCmd) : (s.modBank n f).lastPeriod = s.lastPeriod := rfl
@[simp] theorem State.modBank_lastPatrol (s : State) (n : Nat) (f : BankCmd → BankCmd) : (s.modBank n f).lastPatrol = s.lastPatrol := rfl
@[simp] theorem State.modBank_bankGrants (s : State) (n : Nat) (f : BankCmd → BankCmd) : (s.modBank n f).bankGrants = s.bankGrants := rfl

@[simp] theorem State.modCtx_agenda (s : State) (c : BitVec 20) (f : Ctx → Ctx) : (s.modCtx c f).agenda = s.agenda := rfl
@[simp] theorem State.modCtx_cur (s : State) (c : BitVec 20) (f : Ctx → Ctx) : (s.modCtx c f).cur = s.cur := rfl
@[simp] theorem State.modCtx_free (s : State) (c : BitVec 20) (f : Ctx → Ctx) : (s.modCtx c f).free = s.free := rfl
@[simp] theorem State.modCtx_stamp (s : State) (c : BitVec 20) (f : Ctx → Ctx) : (s.modCtx c f).stamp = s.stamp := rfl
@[simp] theorem State.modCtx_time (s : State) (c : BitVec 20) (f : Ctx → Ctx) : (s.modCtx c f).time = s.time := rfl
@[simp] theorem State.modCtx_resetAt (s : State) (c : BitVec 20) (f : Ctx → Ctx) : (s.modCtx c f).resetAt = s.resetAt := rfl
@[simp] theorem State.modCtx_mem (s : State) (c : BitVec 20) (f : Ctx → Ctx) : (s.modCtx c f).mem = s.mem := rfl
@[simp] theorem State.modCtx_cc (s : State) (c : BitVec 20) (f : Ctx → Ctx) : (s.modCtx c f).cc = s.cc := rfl
@[simp] theorem State.modCtx_host (s : State) (c : BitVec 20) (f : Ctx → Ctx) : (s.modCtx c f).host = s.host := rfl
@[simp] theorem State.modCtx_hidden (s : State) (c : BitVec 20) (f : Ctx → Ctx) : (s.modCtx c f).hidden = s.hidden := rfl
@[simp] theorem State.modCtx_ccOld (s : State) (c : BitVec 20) (f : Ctx → Ctx) : (s.modCtx c f).ccOld = s.ccOld := rfl
@[simp] theorem State.modCtx_poison (s : State) (c : BitVec 20) (f : Ctx → Ctx) : (s.modCtx c f).poison = s.poison := rfl
@[simp] theorem State.modCtx_cores (s : State) (c : BitVec 20) (f : Ctx → Ctx) : (s.modCtx c f).cores = s.cores := rfl
@[simp] theorem State.modCtx_reaches (s : State) (c : BitVec 20) (f : Ctx → Ctx) : (s.modCtx c f).reaches = s.reaches := rfl
@[simp] theorem State.modCtx_pcs (s : State) (c : BitVec 20) (f : Ctx → Ctx) : (s.modCtx c f).pcs = s.pcs := rfl
@[simp] theorem State.modCtx_bankCmds (s : State) (c : BitVec 20) (f : Ctx → Ctx) : (s.modCtx c f).bankCmds = s.bankCmds := rfl
@[simp] theorem State.modCtx_nextBank (s : State) (c : BitVec 20) (f : Ctx → Ctx) : (s.modCtx c f).nextBank = s.nextBank := rfl
@[simp] theorem State.modCtx_contexts (s : State) (c : BitVec 20) (f : Ctx → Ctx) : (s.modCtx c f).contexts = modWhere (fun x => x.id == c) f s.contexts := rfl
@[simp] theorem State.modCtx_regions (s : State) (c : BitVec 20) (f : Ctx → Ctx) : (s.modCtx c f).regions = s.regions := rfl
@[simp] theorem State.modCtx_launches (s : State) (c : BitVec 20) (f : Ctx → Ctx) : (s.modCtx c f).launches = s.launches := rfl
@[simp] theorem State.modCtx_wgs (s : State) (c : BitVec 20) (f : Ctx → Ctx) : (s.modCtx c f).wgs = s.wgs := rfl
@[simp] theorem State.modCtx_pending (s : State) (c : BitVec 20) (f : Ctx → Ctx) : (s.modCtx c f).pending = s.pending := rfl
@[simp] theorem State.modCtx_kills (s : State) (c : BitVec 20) (f : Ctx → Ctx) : (s.modCtx c f).kills = s.kills := rfl
@[simp] theorem State.modCtx_faults (s : State) (c : BitVec 20) (f : Ctx → Ctx) : (s.modCtx c f).faults = s.faults := rfl
@[simp] theorem State.modCtx_retired (s : State) (c : BitVec 20) (f : Ctx → Ctx) : (s.modCtx c f).retired = s.retired := rfl
@[simp] theorem State.modCtx_fabric (s : State) (c : BitVec 20) (f : Ctx → Ctx) : (s.modCtx c f).fabric = s.fabric := rfl
@[simp] theorem State.modCtx_hostif (s : State) (c : BitVec 20) (f : Ctx → Ctx) : (s.modCtx c f).hostif = s.hostif := rfl
@[simp] theorem State.modCtx_islands (s : State) (c : BitVec 20) (f : Ctx → Ctx) : (s.modCtx c f).islands = s.islands := rfl
@[simp] theorem State.modCtx_lastPeriod (s : State) (c : BitVec 20) (f : Ctx → Ctx) : (s.modCtx c f).lastPeriod = s.lastPeriod := rfl
@[simp] theorem State.modCtx_lastPatrol (s : State) (c : BitVec 20) (f : Ctx → Ctx) : (s.modCtx c f).lastPatrol = s.lastPatrol := rfl
@[simp] theorem State.modCtx_bankGrants (s : State) (c : BitVec 20) (f : Ctx → Ctx) : (s.modCtx c f).bankGrants = s.bankGrants := rfl

@[simp] theorem State.modLaunch_agenda (s : State) (l : Nat) (f : Launch → Launch) : (s.modLaunch l f).agenda = s.agenda := rfl
@[simp] theorem State.modLaunch_cur (s : State) (l : Nat) (f : Launch → Launch) : (s.modLaunch l f).cur = s.cur := rfl
@[simp] theorem State.modLaunch_free (s : State) (l : Nat) (f : Launch → Launch) : (s.modLaunch l f).free = s.free := rfl
@[simp] theorem State.modLaunch_stamp (s : State) (l : Nat) (f : Launch → Launch) : (s.modLaunch l f).stamp = s.stamp := rfl
@[simp] theorem State.modLaunch_time (s : State) (l : Nat) (f : Launch → Launch) : (s.modLaunch l f).time = s.time := rfl
@[simp] theorem State.modLaunch_resetAt (s : State) (l : Nat) (f : Launch → Launch) : (s.modLaunch l f).resetAt = s.resetAt := rfl
@[simp] theorem State.modLaunch_mem (s : State) (l : Nat) (f : Launch → Launch) : (s.modLaunch l f).mem = s.mem := rfl
@[simp] theorem State.modLaunch_cc (s : State) (l : Nat) (f : Launch → Launch) : (s.modLaunch l f).cc = s.cc := rfl
@[simp] theorem State.modLaunch_host (s : State) (l : Nat) (f : Launch → Launch) : (s.modLaunch l f).host = s.host := rfl
@[simp] theorem State.modLaunch_hidden (s : State) (l : Nat) (f : Launch → Launch) : (s.modLaunch l f).hidden = s.hidden := rfl
@[simp] theorem State.modLaunch_ccOld (s : State) (l : Nat) (f : Launch → Launch) : (s.modLaunch l f).ccOld = s.ccOld := rfl
@[simp] theorem State.modLaunch_poison (s : State) (l : Nat) (f : Launch → Launch) : (s.modLaunch l f).poison = s.poison := rfl
@[simp] theorem State.modLaunch_cores (s : State) (l : Nat) (f : Launch → Launch) : (s.modLaunch l f).cores = s.cores := rfl
@[simp] theorem State.modLaunch_reaches (s : State) (l : Nat) (f : Launch → Launch) : (s.modLaunch l f).reaches = s.reaches := rfl
@[simp] theorem State.modLaunch_pcs (s : State) (l : Nat) (f : Launch → Launch) : (s.modLaunch l f).pcs = s.pcs := rfl
@[simp] theorem State.modLaunch_bankCmds (s : State) (l : Nat) (f : Launch → Launch) : (s.modLaunch l f).bankCmds = s.bankCmds := rfl
@[simp] theorem State.modLaunch_nextBank (s : State) (l : Nat) (f : Launch → Launch) : (s.modLaunch l f).nextBank = s.nextBank := rfl
@[simp] theorem State.modLaunch_contexts (s : State) (l : Nat) (f : Launch → Launch) : (s.modLaunch l f).contexts = s.contexts := rfl
@[simp] theorem State.modLaunch_regions (s : State) (l : Nat) (f : Launch → Launch) : (s.modLaunch l f).regions = s.regions := rfl
@[simp] theorem State.modLaunch_launches (s : State) (l : Nat) (f : Launch → Launch) : (s.modLaunch l f).launches = modAt f s.launches l := rfl
@[simp] theorem State.modLaunch_wgs (s : State) (l : Nat) (f : Launch → Launch) : (s.modLaunch l f).wgs = s.wgs := rfl
@[simp] theorem State.modLaunch_pending (s : State) (l : Nat) (f : Launch → Launch) : (s.modLaunch l f).pending = s.pending := rfl
@[simp] theorem State.modLaunch_kills (s : State) (l : Nat) (f : Launch → Launch) : (s.modLaunch l f).kills = s.kills := rfl
@[simp] theorem State.modLaunch_faults (s : State) (l : Nat) (f : Launch → Launch) : (s.modLaunch l f).faults = s.faults := rfl
@[simp] theorem State.modLaunch_retired (s : State) (l : Nat) (f : Launch → Launch) : (s.modLaunch l f).retired = s.retired := rfl
@[simp] theorem State.modLaunch_fabric (s : State) (l : Nat) (f : Launch → Launch) : (s.modLaunch l f).fabric = s.fabric := rfl
@[simp] theorem State.modLaunch_hostif (s : State) (l : Nat) (f : Launch → Launch) : (s.modLaunch l f).hostif = s.hostif := rfl
@[simp] theorem State.modLaunch_islands (s : State) (l : Nat) (f : Launch → Launch) : (s.modLaunch l f).islands = s.islands := rfl
@[simp] theorem State.modLaunch_lastPeriod (s : State) (l : Nat) (f : Launch → Launch) : (s.modLaunch l f).lastPeriod = s.lastPeriod := rfl
@[simp] theorem State.modLaunch_lastPatrol (s : State) (l : Nat) (f : Launch → Launch) : (s.modLaunch l f).lastPatrol = s.lastPatrol := rfl
@[simp] theorem State.modLaunch_bankGrants (s : State) (l : Nat) (f : Launch → Launch) : (s.modLaunch l f).bankGrants = s.bankGrants := rfl

@[simp] theorem State.modRegion_agenda (s : State) (c : BitVec 20) (rcb : Nat) (f : Region → Region) : (s.modRegion c rcb f).agenda = s.agenda := rfl
@[simp] theorem State.modRegion_cur (s : State) (c : BitVec 20) (rcb : Nat) (f : Region → Region) : (s.modRegion c rcb f).cur = s.cur := rfl
@[simp] theorem State.modRegion_free (s : State) (c : BitVec 20) (rcb : Nat) (f : Region → Region) : (s.modRegion c rcb f).free = s.free := rfl
@[simp] theorem State.modRegion_stamp (s : State) (c : BitVec 20) (rcb : Nat) (f : Region → Region) : (s.modRegion c rcb f).stamp = s.stamp := rfl
@[simp] theorem State.modRegion_time (s : State) (c : BitVec 20) (rcb : Nat) (f : Region → Region) : (s.modRegion c rcb f).time = s.time := rfl
@[simp] theorem State.modRegion_resetAt (s : State) (c : BitVec 20) (rcb : Nat) (f : Region → Region) : (s.modRegion c rcb f).resetAt = s.resetAt := rfl
@[simp] theorem State.modRegion_mem (s : State) (c : BitVec 20) (rcb : Nat) (f : Region → Region) : (s.modRegion c rcb f).mem = s.mem := rfl
@[simp] theorem State.modRegion_cc (s : State) (c : BitVec 20) (rcb : Nat) (f : Region → Region) : (s.modRegion c rcb f).cc = s.cc := rfl
@[simp] theorem State.modRegion_host (s : State) (c : BitVec 20) (rcb : Nat) (f : Region → Region) : (s.modRegion c rcb f).host = s.host := rfl
@[simp] theorem State.modRegion_hidden (s : State) (c : BitVec 20) (rcb : Nat) (f : Region → Region) : (s.modRegion c rcb f).hidden = s.hidden := rfl
@[simp] theorem State.modRegion_ccOld (s : State) (c : BitVec 20) (rcb : Nat) (f : Region → Region) : (s.modRegion c rcb f).ccOld = s.ccOld := rfl
@[simp] theorem State.modRegion_poison (s : State) (c : BitVec 20) (rcb : Nat) (f : Region → Region) : (s.modRegion c rcb f).poison = s.poison := rfl
@[simp] theorem State.modRegion_cores (s : State) (c : BitVec 20) (rcb : Nat) (f : Region → Region) : (s.modRegion c rcb f).cores = s.cores := rfl
@[simp] theorem State.modRegion_reaches (s : State) (c : BitVec 20) (rcb : Nat) (f : Region → Region) : (s.modRegion c rcb f).reaches = s.reaches := rfl
@[simp] theorem State.modRegion_pcs (s : State) (c : BitVec 20) (rcb : Nat) (f : Region → Region) : (s.modRegion c rcb f).pcs = s.pcs := rfl
@[simp] theorem State.modRegion_bankCmds (s : State) (c : BitVec 20) (rcb : Nat) (f : Region → Region) : (s.modRegion c rcb f).bankCmds = s.bankCmds := rfl
@[simp] theorem State.modRegion_nextBank (s : State) (c : BitVec 20) (rcb : Nat) (f : Region → Region) : (s.modRegion c rcb f).nextBank = s.nextBank := rfl
@[simp] theorem State.modRegion_contexts (s : State) (c : BitVec 20) (rcb : Nat) (f : Region → Region) : (s.modRegion c rcb f).contexts = s.contexts := rfl
@[simp] theorem State.modRegion_regions (s : State) (c : BitVec 20) (rcb : Nat) (f : Region → Region) : (s.modRegion c rcb f).regions = modWhere (fun r => r.ctx == c && r.rcb == rcb) f s.regions := rfl
@[simp] theorem State.modRegion_launches (s : State) (c : BitVec 20) (rcb : Nat) (f : Region → Region) : (s.modRegion c rcb f).launches = s.launches := rfl
@[simp] theorem State.modRegion_wgs (s : State) (c : BitVec 20) (rcb : Nat) (f : Region → Region) : (s.modRegion c rcb f).wgs = s.wgs := rfl
@[simp] theorem State.modRegion_pending (s : State) (c : BitVec 20) (rcb : Nat) (f : Region → Region) : (s.modRegion c rcb f).pending = s.pending := rfl
@[simp] theorem State.modRegion_kills (s : State) (c : BitVec 20) (rcb : Nat) (f : Region → Region) : (s.modRegion c rcb f).kills = s.kills := rfl
@[simp] theorem State.modRegion_faults (s : State) (c : BitVec 20) (rcb : Nat) (f : Region → Region) : (s.modRegion c rcb f).faults = s.faults := rfl
@[simp] theorem State.modRegion_retired (s : State) (c : BitVec 20) (rcb : Nat) (f : Region → Region) : (s.modRegion c rcb f).retired = s.retired := rfl
@[simp] theorem State.modRegion_fabric (s : State) (c : BitVec 20) (rcb : Nat) (f : Region → Region) : (s.modRegion c rcb f).fabric = s.fabric := rfl
@[simp] theorem State.modRegion_hostif (s : State) (c : BitVec 20) (rcb : Nat) (f : Region → Region) : (s.modRegion c rcb f).hostif = s.hostif := rfl
@[simp] theorem State.modRegion_islands (s : State) (c : BitVec 20) (rcb : Nat) (f : Region → Region) : (s.modRegion c rcb f).islands = s.islands := rfl
@[simp] theorem State.modRegion_lastPeriod (s : State) (c : BitVec 20) (rcb : Nat) (f : Region → Region) : (s.modRegion c rcb f).lastPeriod = s.lastPeriod := rfl
@[simp] theorem State.modRegion_lastPatrol (s : State) (c : BitVec 20) (rcb : Nat) (f : Region → Region) : (s.modRegion c rcb f).lastPatrol = s.lastPatrol := rfl
@[simp] theorem State.modRegion_bankGrants (s : State) (c : BitVec 20) (rcb : Nat) (f : Region → Region) : (s.modRegion c rcb f).bankGrants = s.bankGrants := rfl

@[simp] theorem State.modFabric_agenda (s : State) (f : Fabric → Fabric) : (s.modFabric f).agenda = s.agenda := rfl
@[simp] theorem State.modFabric_cur (s : State) (f : Fabric → Fabric) : (s.modFabric f).cur = s.cur := rfl
@[simp] theorem State.modFabric_free (s : State) (f : Fabric → Fabric) : (s.modFabric f).free = s.free := rfl
@[simp] theorem State.modFabric_stamp (s : State) (f : Fabric → Fabric) : (s.modFabric f).stamp = s.stamp := rfl
@[simp] theorem State.modFabric_time (s : State) (f : Fabric → Fabric) : (s.modFabric f).time = s.time := rfl
@[simp] theorem State.modFabric_resetAt (s : State) (f : Fabric → Fabric) : (s.modFabric f).resetAt = s.resetAt := rfl
@[simp] theorem State.modFabric_mem (s : State) (f : Fabric → Fabric) : (s.modFabric f).mem = s.mem := rfl
@[simp] theorem State.modFabric_cc (s : State) (f : Fabric → Fabric) : (s.modFabric f).cc = s.cc := rfl
@[simp] theorem State.modFabric_host (s : State) (f : Fabric → Fabric) : (s.modFabric f).host = s.host := rfl
@[simp] theorem State.modFabric_hidden (s : State) (f : Fabric → Fabric) : (s.modFabric f).hidden = s.hidden := rfl
@[simp] theorem State.modFabric_ccOld (s : State) (f : Fabric → Fabric) : (s.modFabric f).ccOld = s.ccOld := rfl
@[simp] theorem State.modFabric_poison (s : State) (f : Fabric → Fabric) : (s.modFabric f).poison = s.poison := rfl
@[simp] theorem State.modFabric_cores (s : State) (f : Fabric → Fabric) : (s.modFabric f).cores = s.cores := rfl
@[simp] theorem State.modFabric_reaches (s : State) (f : Fabric → Fabric) : (s.modFabric f).reaches = s.reaches := rfl
@[simp] theorem State.modFabric_pcs (s : State) (f : Fabric → Fabric) : (s.modFabric f).pcs = s.pcs := rfl
@[simp] theorem State.modFabric_bankCmds (s : State) (f : Fabric → Fabric) : (s.modFabric f).bankCmds = s.bankCmds := rfl
@[simp] theorem State.modFabric_nextBank (s : State) (f : Fabric → Fabric) : (s.modFabric f).nextBank = s.nextBank := rfl
@[simp] theorem State.modFabric_contexts (s : State) (f : Fabric → Fabric) : (s.modFabric f).contexts = s.contexts := rfl
@[simp] theorem State.modFabric_regions (s : State) (f : Fabric → Fabric) : (s.modFabric f).regions = s.regions := rfl
@[simp] theorem State.modFabric_launches (s : State) (f : Fabric → Fabric) : (s.modFabric f).launches = s.launches := rfl
@[simp] theorem State.modFabric_wgs (s : State) (f : Fabric → Fabric) : (s.modFabric f).wgs = s.wgs := rfl
@[simp] theorem State.modFabric_pending (s : State) (f : Fabric → Fabric) : (s.modFabric f).pending = s.pending := rfl
@[simp] theorem State.modFabric_kills (s : State) (f : Fabric → Fabric) : (s.modFabric f).kills = s.kills := rfl
@[simp] theorem State.modFabric_faults (s : State) (f : Fabric → Fabric) : (s.modFabric f).faults = s.faults := rfl
@[simp] theorem State.modFabric_retired (s : State) (f : Fabric → Fabric) : (s.modFabric f).retired = s.retired := rfl
@[simp] theorem State.modFabric_fabric (s : State) (f : Fabric → Fabric) : (s.modFabric f).fabric = f s.fabric := rfl
@[simp] theorem State.modFabric_hostif (s : State) (f : Fabric → Fabric) : (s.modFabric f).hostif = s.hostif := rfl
@[simp] theorem State.modFabric_islands (s : State) (f : Fabric → Fabric) : (s.modFabric f).islands = s.islands := rfl
@[simp] theorem State.modFabric_lastPeriod (s : State) (f : Fabric → Fabric) : (s.modFabric f).lastPeriod = s.lastPeriod := rfl
@[simp] theorem State.modFabric_lastPatrol (s : State) (f : Fabric → Fabric) : (s.modFabric f).lastPatrol = s.lastPatrol := rfl
@[simp] theorem State.modFabric_bankGrants (s : State) (f : Fabric → Fabric) : (s.modFabric f).bankGrants = s.bankGrants := rfl

@[simp] theorem State.modHost_agenda (s : State) (f : HostIf → HostIf) : (s.modHost f).agenda = s.agenda := rfl
@[simp] theorem State.modHost_cur (s : State) (f : HostIf → HostIf) : (s.modHost f).cur = s.cur := rfl
@[simp] theorem State.modHost_free (s : State) (f : HostIf → HostIf) : (s.modHost f).free = s.free := rfl
@[simp] theorem State.modHost_stamp (s : State) (f : HostIf → HostIf) : (s.modHost f).stamp = s.stamp := rfl
@[simp] theorem State.modHost_time (s : State) (f : HostIf → HostIf) : (s.modHost f).time = s.time := rfl
@[simp] theorem State.modHost_resetAt (s : State) (f : HostIf → HostIf) : (s.modHost f).resetAt = s.resetAt := rfl
@[simp] theorem State.modHost_mem (s : State) (f : HostIf → HostIf) : (s.modHost f).mem = s.mem := rfl
@[simp] theorem State.modHost_cc (s : State) (f : HostIf → HostIf) : (s.modHost f).cc = s.cc := rfl
@[simp] theorem State.modHost_host (s : State) (f : HostIf → HostIf) : (s.modHost f).host = s.host := rfl
@[simp] theorem State.modHost_hidden (s : State) (f : HostIf → HostIf) : (s.modHost f).hidden = s.hidden := rfl
@[simp] theorem State.modHost_ccOld (s : State) (f : HostIf → HostIf) : (s.modHost f).ccOld = s.ccOld := rfl
@[simp] theorem State.modHost_poison (s : State) (f : HostIf → HostIf) : (s.modHost f).poison = s.poison := rfl
@[simp] theorem State.modHost_cores (s : State) (f : HostIf → HostIf) : (s.modHost f).cores = s.cores := rfl
@[simp] theorem State.modHost_reaches (s : State) (f : HostIf → HostIf) : (s.modHost f).reaches = s.reaches := rfl
@[simp] theorem State.modHost_pcs (s : State) (f : HostIf → HostIf) : (s.modHost f).pcs = s.pcs := rfl
@[simp] theorem State.modHost_bankCmds (s : State) (f : HostIf → HostIf) : (s.modHost f).bankCmds = s.bankCmds := rfl
@[simp] theorem State.modHost_nextBank (s : State) (f : HostIf → HostIf) : (s.modHost f).nextBank = s.nextBank := rfl
@[simp] theorem State.modHost_contexts (s : State) (f : HostIf → HostIf) : (s.modHost f).contexts = s.contexts := rfl
@[simp] theorem State.modHost_regions (s : State) (f : HostIf → HostIf) : (s.modHost f).regions = s.regions := rfl
@[simp] theorem State.modHost_launches (s : State) (f : HostIf → HostIf) : (s.modHost f).launches = s.launches := rfl
@[simp] theorem State.modHost_wgs (s : State) (f : HostIf → HostIf) : (s.modHost f).wgs = s.wgs := rfl
@[simp] theorem State.modHost_pending (s : State) (f : HostIf → HostIf) : (s.modHost f).pending = s.pending := rfl
@[simp] theorem State.modHost_kills (s : State) (f : HostIf → HostIf) : (s.modHost f).kills = s.kills := rfl
@[simp] theorem State.modHost_faults (s : State) (f : HostIf → HostIf) : (s.modHost f).faults = s.faults := rfl
@[simp] theorem State.modHost_retired (s : State) (f : HostIf → HostIf) : (s.modHost f).retired = s.retired := rfl
@[simp] theorem State.modHost_fabric (s : State) (f : HostIf → HostIf) : (s.modHost f).fabric = s.fabric := rfl
@[simp] theorem State.modHost_hostif (s : State) (f : HostIf → HostIf) : (s.modHost f).hostif = f s.hostif := rfl
@[simp] theorem State.modHost_islands (s : State) (f : HostIf → HostIf) : (s.modHost f).islands = s.islands := rfl
@[simp] theorem State.modHost_lastPeriod (s : State) (f : HostIf → HostIf) : (s.modHost f).lastPeriod = s.lastPeriod := rfl
@[simp] theorem State.modHost_lastPatrol (s : State) (f : HostIf → HostIf) : (s.modHost f).lastPatrol = s.lastPatrol := rfl
@[simp] theorem State.modHost_bankGrants (s : State) (f : HostIf → HostIf) : (s.modHost f).bankGrants = s.bankGrants := rfl

@[simp] theorem State.ws_agenda (s : State) (r : SReg) (v : Word) : (s.ws r v).agenda = s.agenda := by
  unfold State.ws; split; rfl; split <;> rfl
@[simp] theorem State.ws_cur (s : State) (r : SReg) (v : Word) : (s.ws r v).cur = s.cur := by
  unfold State.ws; split; rfl; split <;> rfl
@[simp] theorem State.ws_free (s : State) (r : SReg) (v : Word) : (s.ws r v).free = s.free := by
  unfold State.ws; split; rfl; split <;> rfl
@[simp] theorem State.ws_stamp (s : State) (r : SReg) (v : Word) : (s.ws r v).stamp = s.stamp := by
  unfold State.ws; split; rfl; split <;> rfl
@[simp] theorem State.ws_time (s : State) (r : SReg) (v : Word) : (s.ws r v).time = s.time := by
  unfold State.ws; split; rfl; split <;> rfl
@[simp] theorem State.ws_resetAt (s : State) (r : SReg) (v : Word) : (s.ws r v).resetAt = s.resetAt := by
  unfold State.ws; split; rfl; split <;> rfl
@[simp] theorem State.ws_mem (s : State) (r : SReg) (v : Word) : (s.ws r v).mem = s.mem := by
  unfold State.ws; split; rfl; split <;> rfl
@[simp] theorem State.ws_cc (s : State) (r : SReg) (v : Word) : (s.ws r v).cc = s.cc := by
  unfold State.ws; split; rfl; split <;> rfl
@[simp] theorem State.ws_host (s : State) (r : SReg) (v : Word) : (s.ws r v).host = s.host := by
  unfold State.ws; split; rfl; split <;> rfl
@[simp] theorem State.ws_hidden (s : State) (r : SReg) (v : Word) : (s.ws r v).hidden = s.hidden := by
  unfold State.ws; split; rfl; split <;> rfl
@[simp] theorem State.ws_ccOld (s : State) (r : SReg) (v : Word) : (s.ws r v).ccOld = s.ccOld := by
  unfold State.ws; split; rfl; split <;> rfl
@[simp] theorem State.ws_poison (s : State) (r : SReg) (v : Word) : (s.ws r v).poison = s.poison := by
  unfold State.ws; split; rfl; split <;> rfl
@[simp] theorem State.ws_cores (s : State) (r : SReg) (v : Word) : (s.ws r v).cores = s.cores := by
  unfold State.ws; split; rfl; split <;> rfl
@[simp] theorem State.ws_reaches (s : State) (r : SReg) (v : Word) : (s.ws r v).reaches = s.reaches := by
  unfold State.ws; split; rfl; split <;> rfl
@[simp] theorem State.ws_pcs (s : State) (r : SReg) (v : Word) : (s.ws r v).pcs = s.pcs := by
  unfold State.ws; split; rfl; split <;> rfl
@[simp] theorem State.ws_bankCmds (s : State) (r : SReg) (v : Word) : (s.ws r v).bankCmds = s.bankCmds := by
  unfold State.ws; split; rfl; split <;> rfl
@[simp] theorem State.ws_nextBank (s : State) (r : SReg) (v : Word) : (s.ws r v).nextBank = s.nextBank := by
  unfold State.ws; split; rfl; split <;> rfl
@[simp] theorem State.ws_contexts (s : State) (r : SReg) (v : Word) : (s.ws r v).contexts = s.contexts := by
  unfold State.ws; split; rfl; split <;> rfl
@[simp] theorem State.ws_regions (s : State) (r : SReg) (v : Word) : (s.ws r v).regions = s.regions := by
  unfold State.ws; split; rfl; split <;> rfl
@[simp] theorem State.ws_launches (s : State) (r : SReg) (v : Word) : (s.ws r v).launches = s.launches := by
  unfold State.ws; split; rfl; split <;> rfl
@[simp] theorem State.ws_pending (s : State) (r : SReg) (v : Word) : (s.ws r v).pending = s.pending := by
  unfold State.ws; split; rfl; split <;> rfl
@[simp] theorem State.ws_kills (s : State) (r : SReg) (v : Word) : (s.ws r v).kills = s.kills := by
  unfold State.ws; split; rfl; split <;> rfl
@[simp] theorem State.ws_faults (s : State) (r : SReg) (v : Word) : (s.ws r v).faults = s.faults := by
  unfold State.ws; split; rfl; split <;> rfl
@[simp] theorem State.ws_retired (s : State) (r : SReg) (v : Word) : (s.ws r v).retired = s.retired := by
  unfold State.ws; split; rfl; split <;> rfl
@[simp] theorem State.ws_fabric (s : State) (r : SReg) (v : Word) : (s.ws r v).fabric = s.fabric := by
  unfold State.ws; split; rfl; split <;> rfl
@[simp] theorem State.ws_hostif (s : State) (r : SReg) (v : Word) : (s.ws r v).hostif = s.hostif := by
  unfold State.ws; split; rfl; split <;> rfl
@[simp] theorem State.ws_islands (s : State) (r : SReg) (v : Word) : (s.ws r v).islands = s.islands := by
  unfold State.ws; split; rfl; split <;> rfl
@[simp] theorem State.ws_lastPeriod (s : State) (r : SReg) (v : Word) : (s.ws r v).lastPeriod = s.lastPeriod := by
  unfold State.ws; split; rfl; split <;> rfl
@[simp] theorem State.ws_lastPatrol (s : State) (r : SReg) (v : Word) : (s.ws r v).lastPatrol = s.lastPatrol := by
  unfold State.ws; split; rfl; split <;> rfl
@[simp] theorem State.ws_bankGrants (s : State) (r : SReg) (v : Word) : (s.ws r v).bankGrants = s.bankGrants := by
  unfold State.ws; split; rfl; split <;> rfl

/-! The executing group and split. -/

@[simp] theorem State.modCurGroup_modCurGroup (s : State) (f h : Group → Group) :
    (s.modCurGroup f).modCurGroup h = s.modCurGroup fun g => h (f g) := by
  simp [State.modCurGroup, State.modGroup, State.modWg]

@[simp] theorem State.modCurGroup_cur (s : State) (f : Group → Group) : (s.modCurGroup f).cur = s.cur := rfl

@[simp] theorem State.curGroup_modCurGroup (s : State) (f : Group → Group) : (s.modCurGroup f).curGroup = s.curGroup.map f := by
  unfold State.curGroup State.modCurGroup State.modGroup State.modWg State.group?
  cases h : s.wgs[s.cur.wg]? <;> simp [h]

/-- Two changes of the executing group that agree on it are one. -/
theorem State.modCurGroup_congr (s : State) (f h : Group → Group) (H : ∀ g, s.curGroup = some g → f g = h g) :
    s.modCurGroup f = s.modCurGroup h := by
  unfold State.modCurGroup State.modGroup State.modWg
  congr 1
  refine modAt_congr _ _ _ _ fun x hx => ?_
  congr 1
  refine modAt_congr _ _ _ _ fun g hg => H g ?_
  simp [State.curGroup, State.group?, hx, hg]

theorem State.modCurGroup_eq_put (s : State) (f : Group → Group) (g : Group) (h : s.curGroup = some g) :
    s.modCurGroup f = s.putGroup (f g) :=
  s.modCurGroup_congr _ _ fun g' h' => by rw [h] at h'; cases h'; rfl

theorem State.modCurGroup_same (s : State) (f : Group → Group) (H : ∀ g, s.curGroup = some g → f g = g) : s.modCurGroup f = s := by
  unfold State.modCurGroup State.modGroup State.modWg
  have : modAt (fun x : Wg => { x with groups := modAt f x.groups s.cur.g }) s.wgs s.cur.wg = s.wgs := by
    refine modAt_id _ _ _ fun x hx => ?_
    have : modAt f x.groups s.cur.g = x.groups := modAt_id _ _ _ fun g hg => H g (by simp [State.curGroup, State.group?, hx, hg])
    simp [this]
  simp [this]

/-! A running split reads its registers as its rules say. -/

theorem Runs.curSplit {s : State} {g : Group} {x : Split} (h : Runs s g x) : s.curSplit = some x := by
  have h1 := h.1
  have h2 := h.2
  unfold State.curGroup at h1
  simp [State.curSplit, State.split?, h1]
  simpa [Group.split] using h2

theorem Runs.rs {s : State} {g : Group} {x : Split} (h : Runs s g x) (r : SReg) : s.rs r = scalarReg g x r := by
  simp [State.rs, scalarReg, h.1, h.curSplit]

theorem Runs.curPc {s : State} {g : Group} {x : Split} (h : Runs s g x) : s.curPc = x.pc := by
  simp [State.curPc, h.curSplit]

theorem Runs.curMask {s : State} {g : Group} {x : Split} (h : Runs s g x) : s.curMask = x.mask := by
  simp [State.curMask, h.curSplit]

theorem State.ws_eq (s : State) (r : SReg) (v : Word) : s.ws r v = s.modCurGroup fun g => g.wrote s.cur.split r v := by
  unfold State.ws Group.wrote
  split
  · exact (s.modCurGroup_same _ fun _ _ => rfl).symm
  · split <;> rfl

theorem State.goto_eq (s : State) (pc : Word) : s.goto pc = s.modCurGroup fun g => g.went s.cur.split pc := rfl

theorem Group.split_modSplit (g : Group) (k j : SplitIx) (f : Split → Split) :
    (g.modSplit k f).split j = if j = k ∧ k < 4 then (g.split j).map f else g.split j := by
  simp only [Group.split, Group.modSplit, getVec_modVec]

/-- The entry that wrote a register is still there, its PC and mask as before. -/
theorem Group.wrote_split (g : Group) (k : SplitIx) (r : SReg) (v : Word) (x : Split) (h : g.split k = some x) :
    ∃ y, (g.wrote k r v).split k = some y ∧ y.pc = x.pc ∧ y.mask = x.mask := by
  unfold Group.wrote
  split
  · exact ⟨x, h, rfl, rfl⟩
  · simp only
    split
    · exact ⟨x, h, rfl, rfl⟩
    · rw [Group.split_modSplit]
      have h' : Group.split { g with poison := g.poison.filter fun p => p != .s r.toNat } k = some x := h
      rw [h']
      split
      · exact ⟨_, rfl, rfl, rfl⟩
      · exact ⟨x, rfl, rfl, rfl⟩

/-- A result in one register and the advance: only the group differs. -/
theorem Runs.resulted {s : State} {g : Group} {x : Split} (h : Runs s g x) (sd : SReg) (v : Word) :
    (s.ws sd v).next4 = s.resulted g x sd v := by
  obtain ⟨y, hy, hpc, -⟩ := g.wrote_split s.cur.split sd v x h.2
  have hc : (s.ws sd v).curPc = x.pc := by
    have hg : (s.ws sd v).curGroup = some (g.wrote s.cur.split sd v) := by rw [State.ws_eq]; simp [h.1]
    have hr : Runs (s.ws sd v) (g.wrote s.cur.split sd v) y := ⟨hg, by rw [State.ws_eq]; exact hy⟩
    rw [hr.curPc, hpc]
  rw [State.next4, hc, State.goto_eq, State.ws_eq, State.modCurGroup_modCurGroup]
  exact s.modCurGroup_eq_put _ g h.1

theorem Runs.jumped {s : State} {g : Group} {x : Split} (h : Runs s g x) (pc : Word) : s.goto pc = s.jumped g pc :=
  s.modCurGroup_eq_put _ g h.1

theorem Runs.next4 {s : State} {g : Group} {x : Split} (h : Runs s g x) : s.next4 = s.jumped g (x.pc + 4) := by
  rw [State.next4, h.curPc, h.jumped]

end Sys2Proof.Machine
end

