-- ==== Sys2Proof/Laws/Memory.lean ====
section
/-! SUPPORT. Memories: what a read gives after a write, that every operation keeps the canonical form, and that memories
in that form with the same bytes are the same list. -/

namespace Sys2Proof.Machine

theorem Memory.read_cons (k : Nat) (b : Byte) (m : Memory) (a : Nat) :
    Memory.read ((k, b) :: m) a = if k = a then b else Memory.read m a := rfl

/-! A read after a write. -/

theorem Memory.read_erase (m : Memory) (a x : Nat) :
    Memory.read (Memory.erase m a) x = if x = a then Memory.unlisted else Memory.read m x := by
  induction m with
  | nil => simp [Memory.erase, Memory.read]
  | cons e m ih =>
    obtain ⟨k, b⟩ := e
    simp only [Memory.erase]
    split
    · rw [ih]; split
      · rfl
      · rw [Memory.read_cons, if_neg]; omega
    · rw [Memory.read_cons, ih, Memory.read_cons]
      split <;> split <;> first | rfl | omega

theorem Memory.read_insert (m : Memory) (a x : Nat) (v : Byte) :
    Memory.read (Memory.insert m a v) x = if x = a then v else Memory.read m x := by
  induction m with
  | nil => simp only [Memory.insert, Memory.read_cons, eq_comm]
  | cons e m ih =>
    obtain ⟨k, b⟩ := e
    simp only [Memory.insert]
    split
    · rw [Memory.read_cons]; simp only [eq_comm]
    · split
      · subst_vars; rw [Memory.read_cons, Memory.read_cons]; split <;> split <;> first | rfl | omega
      · rw [Memory.read_cons, ih, Memory.read_cons]; split <;> split <;> first | rfl | omega

/-- A byte reads as last written; every other byte reads as before. -/
theorem Memory.read_write (m : Memory) (a x : Nat) (v : Byte) :
    Memory.read (Memory.write m a v) x = if x = a then v else Memory.read m x := by
  unfold Memory.write
  split
  · rw [Memory.read_erase]; subst_vars; rfl
  · exact Memory.read_insert m a x v

@[simp] theorem Memory.read_write_self (m : Memory) (a : Nat) (v : Byte) : Memory.read (Memory.write m a v) a = v := by
  simp [Memory.read_write]

theorem Memory.read_write_ne (m : Memory) {a x : Nat} (v : Byte) (h : x ≠ a) :
    Memory.read (Memory.write m a v) x = Memory.read m x := by
  simp [Memory.read_write, h]

/-- Each byte of a run reads as written; every byte outside it reads as before. -/
theorem Memory.read_writeRun (m : Memory) (a x : Nat) (bs : List Byte) :
    Memory.read (Memory.writeRun m a bs) x = if a ≤ x then (bs[x - a]?).getD (Memory.read m x) else Memory.read m x := by
  induction bs generalizing m a with
  | nil => simp [Memory.writeRun]
  | cons b bs ih =>
    rw [Memory.writeRun, ih, Memory.read_write]
    by_cases h : a = x
    · subst h
      have : ¬ a + 1 ≤ a := by omega
      simp [this]
    · by_cases h' : a + 1 ≤ x
      · obtain ⟨n, hn⟩ : ∃ n, x - a = n + 1 := ⟨x - a - 1, by omega⟩
        have hn' : x - (a + 1) = n := by omega
        have : a ≤ x := by omega
        have hx : ¬ x = a := fun e => h e.symm
        simp [h', this, hn, hn', hx]
      · have h1 : ¬ a ≤ x := by omega
        have hx : ¬ x = a := fun e => h e.symm
        simp [h', h1, hx]

@[simp] theorem Memory.readRun_length (m : Memory) (a n : Nat) : (Memory.readRun m a n).length = n := by
  induction n generalizing a with
  | zero => rfl
  | succ n ih => simp [Memory.readRun, ih]

theorem Memory.readRun_getElem? (m : Memory) (a n k : Nat) :
    (Memory.readRun m a n)[k]? = if k < n then some (Memory.read m (a + k)) else none := by
  induction n generalizing a k with
  | zero => simp [Memory.readRun]
  | succ n ih =>
    cases k with
    | zero => simp [Memory.readRun]
    | succ k => simp [Memory.readRun, ih, Nat.add_assoc, Nat.add_comm 1]

/-- A run of bytes reads as written. -/
theorem Memory.readRun_writeRun (m : Memory) (a : Nat) (bs : List Byte) :
    Memory.readRun (Memory.writeRun m a bs) a bs.length = bs := by
  apply List.ext_getElem?
  intro k
  rw [Memory.readRun_getElem?, Memory.read_writeRun]
  by_cases h : k < bs.length <;> simp [h]

/-! The canonical form. -/

theorem Memory.above_cons (lo : Option Nat) (k : Nat) (b : Byte) (m : Memory) :
    Memory.above lo ((k, b) :: m) = true ↔
      (∀ l, lo = some l → l < k) ∧ b ≠ Memory.unlisted ∧ Memory.above (some k) m = true := by
  cases lo <;> simp [Memory.above, and_assoc]

theorem Memory.above_mono (m : Memory) {lo lo' : Option Nat} (h : ∀ l', lo' = some l' → ∃ l, lo = some l ∧ l' ≤ l)
    (H : Memory.above lo m = true) : Memory.above lo' m = true := by
  cases m with
  | nil => rfl
  | cons e m =>
    obtain ⟨k, b⟩ := e
    rw [Memory.above_cons] at H ⊢
    refine ⟨fun l' e => ?_, H.2⟩
    obtain ⟨l, e', hl⟩ := h l' e
    exact Nat.lt_of_le_of_lt hl (H.1 l e')

theorem Memory.above_erase (m : Memory) (lo : Option Nat) (a : Nat) (h : Memory.above lo m = true) :
    Memory.above lo (Memory.erase m a) = true := by
  induction m generalizing lo with
  | nil => rfl
  | cons e m ih =>
    obtain ⟨k, b⟩ := e
    rw [Memory.above_cons] at h
    simp only [Memory.erase]
    split
    · exact ih lo (Memory.above_mono m (lo := some k) (fun l e => ⟨k, rfl, Nat.le_of_lt (h.1 l e)⟩) h.2.2)
    · rw [Memory.above_cons]
      exact ⟨h.1, h.2.1, ih _ h.2.2⟩

theorem Memory.above_insert (m : Memory) (lo : Option Nat) (a : Nat) (v : Byte) (hv : v ≠ Memory.unlisted)
    (hlo : ∀ l, lo = some l → l < a) (h : Memory.above lo m = true) : Memory.above lo (Memory.insert m a v) = true := by
  induction m generalizing lo with
  | nil => exact (Memory.above_cons lo a v []).2 ⟨hlo, hv, rfl⟩
  | cons e m ih =>
    obtain ⟨k, b⟩ := e
    have h' := (Memory.above_cons lo k b m).1 h
    simp only [Memory.insert]
    split
    · exact (Memory.above_cons _ _ _ _).2 ⟨hlo, hv, (Memory.above_cons _ _ _ _).2 ⟨fun l e => by cases e; assumption, h'.2⟩⟩
    · split
      · subst_vars
        exact (Memory.above_cons _ _ _ _).2 ⟨hlo, hv, h'.2.2⟩
      · exact (Memory.above_cons _ _ _ _).2 ⟨h'.1, h'.2.1, ih (some k) (fun l e => by cases e; omega) h'.2.2⟩

/-- A write keeps the canonical form. -/
theorem Memory.wf_write (m : Memory) (a : Nat) (v : Byte) (h : m.wf = true) : (Memory.write m a v).wf = true := by
  unfold Memory.write
  split
  · exact Memory.above_erase m none a h
  · exact Memory.above_insert m none a v ‹_› (fun _ e => nomatch e) h

/-- A write of a run keeps the canonical form. -/
theorem Memory.wf_writeRun (m : Memory) (a : Nat) (bs : List Byte) (h : m.wf = true) : (Memory.writeRun m a bs).wf = true := by
  induction bs generalizing m a with
  | nil => exact h
  | cons b bs ih => exact ih _ _ (Memory.wf_write m a b h)

@[simp] theorem Memory.wf_nil : Memory.wf [] = true := rfl

/-- A folded list of writes keeps the canonical form. -/
theorem Memory.wf_foldl {α : Type} (f : Memory → α → Memory) (H : ∀ m x, m.wf = true → (f m x).wf = true) (l : List α) (m : Memory)
    (h : m.wf = true) : (l.foldl f m).wf = true := by
  induction l generalizing m with
  | nil => exact h
  | cons x l ih => exact ih _ (H m x h)

theorem Memory.read_below (m : Memory) (lo a : Nat) (h : Memory.above (some lo) m = true) (ha : a ≤ lo) :
    Memory.read m a = Memory.unlisted := by
  induction m generalizing lo with
  | nil => rfl
  | cons e m ih =>
    obtain ⟨k, b⟩ := e
    rw [Memory.above_cons] at h
    have := h.1 lo rfl
    rw [Memory.read_cons, if_neg (by omega)]
    exact ih k h.2.2 (by omega)

theorem Memory.ext_above (m n : Memory) (lo : Option Nat) (hm : Memory.above lo m = true) (hn : Memory.above lo n = true)
    (h : ∀ a, (∀ l, lo = some l → l < a) → Memory.read m a = Memory.read n a) : m = n := by
  induction m generalizing n lo with
  | nil =>
    cases n with
    | nil => rfl
    | cons e n =>
      obtain ⟨k, b⟩ := e
      rw [Memory.above_cons] at hn
      have := h k hn.1
      rw [Memory.read_cons, if_pos rfl] at this
      exact absurd this.symm hn.2.1
  | cons e m ih =>
    obtain ⟨k, b⟩ := e
    rw [Memory.above_cons] at hm
    have hk := hm.1
    cases n with
    | nil =>
      have := h k hk
      rw [Memory.read_cons, if_pos rfl] at this
      exact absurd this hm.2.1
    | cons e' n =>
      obtain ⟨k', b'⟩ := e'
      rw [Memory.above_cons] at hn
      have hk' := hn.1
      have hkk : k = k' := by
        rcases Nat.lt_trichotomy k k' with hlt | rfl | hlt
        · have := h k hk
          rw [Memory.read_cons, if_pos rfl, Memory.read_cons, if_neg (by omega), Memory.read_below n k' k hn.2.2 (by omega)] at this
          exact absurd this hm.2.1
        · rfl
        · have := h k' hk'
          rw [Memory.read_cons, if_neg (by omega), Memory.read_cons, if_pos rfl, Memory.read_below m k k' hm.2.2 (by omega)] at this
          exact absurd this.symm hn.2.1
      subst hkk
      have hb := h k hk
      rw [Memory.read_cons, if_pos rfl, Memory.read_cons, if_pos rfl] at hb
      subst hb
      congr 1
      refine ih n (some k) hm.2.2 hn.2.2 fun a ha => ?_
      have hka := ha k rfl
      have := h a fun l e => Nat.lt_trans (hk l e) hka
      rwa [Memory.read_cons, if_neg (by omega), Memory.read_cons, if_neg (by omega)] at this

/-- Canonical memories with the same bytes are the same. -/
theorem Memory.ext {m n : Memory} (hm : m.wf = true) (hn : n.wf = true) (h : ∀ a, Memory.read m a = Memory.read n a) : m = n :=
  Memory.ext_above m n none hm hn fun a _ => h a

end Sys2Proof.Machine
end

