-- ==== Sys2Proof/Laws/Ops.lean ====
section
/-! SUPPORT. What the shared operations do, said once each: which bytes a write at a place changes, which operations leave
every byte of memory alone, how waiting, stalling, going on and enqueuing change the executing group. -/

namespace Sys2Proof.Machine

/-! Bytes at places. -/

/-- A read past L1 takes nothing from it (R247). -/
@[simp] theorem State.l1Hit_fresh (s : State) (ag : Agent) (key : Nat) : s.l1Hit ag true key = none := rfl

/-- What the bytes an agent can read depend on. -/
theorem memorySame_of (s t : State) (hm : t.mem = s.mem) (hc : t.cc = s.cc) (hh : t.host = s.host) (hd : t.hidden = s.hidden)
    (hf : t.free = s.free) (hl : ∀ c key, (t.core c).l1Byte key = (s.core c).l1Byte key)
    (hv : ∀ w, (t.wg? w).map (·.vault) = (s.wg? w).map (·.vault))
    (hp : ∀ w g, (t.group? w g).map (fun x => (x.priv, x.acquired)) = (s.group? w g).map fun x => (x.priv, x.acquired)) :
    MemorySame s t := by
  intro ag fresh p
  have ha : ∀ key, t.l1Hit ag fresh key = s.l1Hit ag fresh key := fun key => by
    have := congrArg (fun o => (o.map Prod.snd).getD false) (hp ag.wg ag.g)
    have e : t.acquired ag = s.acquired ag := by simpa [State.acquired, Option.map_map, Function.comp_def] using this
    simp only [State.l1Hit, e, hl]
  cases p with
  | hbm pa => simp only [State.readPlace, ha, hm]
  | repl pa => simp only [State.readPlace, ha, hm]
  | cc key =>
    have : t.hiddenByte key = s.hiddenByte key := by simp only [State.hiddenByte, hd]
    simp only [State.readPlace, State.homeCc, this, State.freeBool, hf, hc]
    cases s.hiddenByte key <;> rfl
  | host port hpa => simp only [State.readPlace, ha, hh]
  | peer d a => rfl
  | null => rfl
  | vault w off =>
    have := congrArg (fun o => (o.map fun v => Memory.read v off).getD 0) (hv w)
    simpa [State.readPlace, Option.map_map, Function.comp_def] using this
  | priv w g key =>
    have := congrArg (fun o => (o.map fun v => Memory.read v.1 key).getD 0) (hp w g)
    simpa [State.readPlace, Option.map_map, Function.comp_def] using this

theorem MemorySame.refl (s : State) : MemorySame s s := fun _ _ _ => rfl

theorem MemorySame.trans {s t u : State} (h : MemorySame s t) (k : MemorySame t u) : MemorySame s u :=
  fun ag fresh p => (k ag fresh p).trans (h ag fresh p)

theorem State.wg?_modWg (s : State) (w v : WgIx) (f : Wg → Wg) :
    (s.modWg w f).wg? v = if v = w then (s.wg? v).map f else s.wg? v := by
  simp [State.wg?, modAt_getElem?]

theorem State.group?_modWg (s : State) (w v : WgIx) (n : GroupIx) (f : Wg → Wg) :
    (s.modWg w f).group? v n = if v = w then (s.wg? v).bind fun x => (f x).groups[n]? else s.group? v n := by
  simp only [State.group?, State.modWg_wgs, modAt_getElem?]
  split
  · simp only [State.wg?]; cases s.wgs[v]? <;> rfl
  · rfl

theorem State.group?_modGroup (s : State) (w v : WgIx) (n k : GroupIx) (f : Group → Group) :
    (s.modGroup w n f).group? v k = if v = w ∧ k = n then (s.group? v k).map f else s.group? v k := by
  unfold State.modGroup
  rw [State.group?_modWg]
  by_cases hv : v = w
  · simp only [hv, if_true, true_and, modAt_getElem?, State.group?, State.wg?]
    by_cases hk : k = n <;> simp [hk] <;> cases s.wgs[w]? <;> simp
  · simp [hv]

/-- A change of a group that keeps its lane-private block, and whether its reads see their homes, keeps every byte. -/
theorem memorySame_modGroup (s : State) (w : WgIx) (n : GroupIx) (f : Group → Group)
    (h : ∀ g, (f g).priv = g.priv ∧ (f g).acquired = g.acquired) :
    MemorySame s (s.modGroup w n f) := by
  refine memorySame_of _ _ rfl rfl rfl rfl rfl (fun _ _ => rfl) (fun v => ?_) fun v k => ?_
  · unfold State.modGroup; rw [State.wg?_modWg]; split <;> simp [Option.map_map, Function.comp_def]
  · rw [State.group?_modGroup]; split <;> simp [Option.map_map, Function.comp_def, h]

theorem memorySame_modCurGroup (s : State) (f : Group → Group) (h : ∀ g, (f g).priv = g.priv ∧ (f g).acquired = g.acquired) :
    MemorySame s (s.modCurGroup f) :=
  memorySame_modGroup s _ _ f h

@[simp] theorem Group.modSplit_acquired (g : Group) (k : SplitIx) (f : Split → Split) : (g.modSplit k f).acquired = g.acquired := rfl
@[simp] theorem Group.modSplit_priv (g : Group) (k : SplitIx) (f : Split → Split) : (g.modSplit k f).priv = g.priv := rfl

theorem Group.clear_frame (ks : List SplitIx) (g : Group) :
    ∃ sp, ks.foldl (fun (g : Group) k => g.setSplit k none) g = { g with splits := sp } := by
  induction ks generalizing g with
  | nil => exact ⟨g.splits, rfl⟩
  | cons k ks ih =>
    obtain ⟨sp, h⟩ := ih (g.setSplit k none)
    exact ⟨sp, by rw [List.foldl_cons, h]; rfl⟩

/-- A block entry and the refills it makes room for change the split table and the overflow records only (R169 to R171). -/
theorem Group.enter_frame (g : Group) (k : SplitIx) : ∃ sp, g.enter k = { g with splits := sp } := by
  unfold Group.enter
  split
  · exact ⟨g.splits, rfl⟩
  · split
    · exact ⟨_, rfl⟩
    · split
      · split <;> exact ⟨_, rfl⟩
      · dsimp only
        split
        · exact ⟨g.splits, rfl⟩
        · rename_i rest _
          obtain ⟨sp, h⟩ := Group.clear_frame rest g
          exact ⟨_, by rw [h]; rfl⟩

theorem Group.refill_frame (n : Nat) (g : Group) : ∃ sp ov, g.refill n = { g with splits := sp, overflow := ov } := by
  induction n generalizing g with
  | zero => exact ⟨g.splits, g.overflow, rfl⟩
  | succ n ih =>
    unfold Group.refill
    split
    · rename_i o rest k _ _
      obtain ⟨sp, h⟩ := Group.enter_frame (({ g with overflow := rest } : Group).setSplit k (some o.toSplit)) k
      obtain ⟨sp', ov, h'⟩ := ih ((({ g with overflow := rest } : Group).setSplit k (some o.toSplit)).enter k)
      exact ⟨sp', ov, by rw [h', h]; rfl⟩
    · exact ⟨g.splits, g.overflow, rfl⟩

theorem Group.arrive_frame (g : Group) (k : SplitIx) : ∃ sp ov, g.arrive k = { g with splits := sp, overflow := ov } := by
  obtain ⟨sp, h⟩ := g.enter_frame k
  obtain ⟨sp', ov, h'⟩ := Group.refill_frame 64 (g.enter k)
  exact ⟨sp', ov, by unfold Group.arrive; rw [h', h]⟩

@[simp] theorem Group.arrive_priv (g : Group) (k : SplitIx) : (g.arrive k).priv = g.priv := by
  obtain ⟨sp, ov, h⟩ := g.arrive_frame k
  rw [h]

@[simp] theorem Group.arrive_acquired (g : Group) (k : SplitIx) : (g.arrive k).acquired = g.acquired := by
  obtain ⟨sp, ov, h⟩ := g.arrive_frame k
  rw [h]

theorem memorySame_ws (s : State) (r : SReg) (v : Word) : MemorySame s (s.ws r v) := by
  unfold State.ws
  split
  · exact MemorySame.refl s
  · split <;> exact memorySame_modCurGroup s _ fun _ => ⟨rfl, rfl⟩

theorem memorySame_goto (s : State) (pc : Word) : MemorySame s (s.goto pc) :=
  memorySame_modCurGroup s _ fun g => by simp

theorem memorySame_next4 (s : State) : MemorySame s s.next4 := memorySame_goto s _

theorem memorySame_wait (s : State) (w : Wait) : MemorySame s (s.wait w) := memorySame_modCurGroup s _ fun _ => ⟨rfl, rfl⟩

theorem memorySame_modFabric (s : State) (f : Fabric → Fabric) : MemorySame s (s.modFabric f) :=
  memorySame_of _ _ rfl rfl rfl rfl rfl (fun _ _ => rfl) (fun _ => rfl) fun _ _ => rfl

theorem memorySame_modHost (s : State) (f : HostIf → HostIf) : MemorySame s (s.modHost f) :=
  memorySame_of _ _ rfl rfl rfl rfl rfl (fun _ _ => rfl) (fun _ => rfl) fun _ _ => rfl

theorem memorySame_remoteClear (s : State) (i : Issuer) : MemorySame s (s.remoteClear i) := by
  unfold State.remoteClear
  split
  · exact memorySame_modFabric s _
  · exact MemorySame.refl s

theorem memorySame_stall (s : State) : MemorySame s s.stall := (memorySame_wait s _).trans (memorySame_remoteClear _ _)

theorem memorySame_tick (s : State) : MemorySame s s.tick :=
  memorySame_of _ _ rfl rfl rfl rfl rfl (fun _ _ => rfl) (fun _ => rfl) fun _ _ => rfl

theorem memorySame_enqueue (s : State) (es : List LaneEntry) : MemorySame s (s.enqueue es) := by
  unfold State.enqueue
  split
  · refine MemorySame.trans (MemorySame.trans (memorySame_tick s) ?_) (memorySame_next4 _)
    exact memorySame_modCurGroup _ _ fun _ => ⟨rfl, rfl⟩
  · exact memorySame_wait s _

@[simp] theorem sameByte_hbm (a b : Nat) : sameByte (.hbm a) (.hbm b) = decide (a = b) := by
  show (_ == _) = _; rw [Bool.eq_iff_iff]; simp
@[simp] theorem sameByte_cc (a b : Nat) : sameByte (.cc a) (.cc b) = decide (a = b) := by
  show (_ == _) = _; rw [Bool.eq_iff_iff]; simp
@[simp] theorem sameByte_host (p q a b : Nat) : sameByte (.host p a) (.host q b) = decide (a = b) := by
  show (_ == _) = _; rw [Bool.eq_iff_iff]; simp
@[simp] theorem sameByte_vault (w v : WgIx) (a b : Nat) : sameByte (.vault w a) (.vault v b) = decide (w = v ∧ a = b) := by
  show (_ == _) = _; rw [Bool.eq_iff_iff]; simp
@[simp] theorem sameByte_priv (w v : WgIx) (n m : GroupIx) (a b : Nat) :
    sameByte (.priv w n a) (.priv v m b) = decide (w = v ∧ n = m ∧ a = b) := by
  show (_ == _) = _; rw [Bool.eq_iff_iff]; simp

/-- A write at a place of its own changes that byte and no other, past L1. -/
theorem State.readPlace_writePlace (s : State) (ag ag' : Agent) (p q : Place) (b : Byte) (h : s.ownPlace p) (hq : s.ownPlace q) :
    (s.writePlace ag p b).readPlace ag' true q = if sameByte p q then b else s.readPlace ag' true q := by
  cases p with
  | repl pa => exact h.elim
  | peer d a => exact h.elim
  | null => exact h.elim
  | hbm pa =>
    cases q with
    | hbm a =>
      simp only [State.writePlace, State.readPlace, State.l1Hit_fresh, Option.getD_none, State.modCore_mem, Memory.read_write, sameByte_hbm]
      by_cases e : pa = a <;> simp [e, Ne.symm]
    | _ => first | rfl | exact hq.elim
  | host port hpa =>
    cases q with
    | host k a =>
      simp only [State.writePlace, State.readPlace, State.l1Hit_fresh, Option.getD_none, State.modCore_host, Memory.read_write, sameByte_host]
      by_cases e : hpa = a <;> simp [e, Ne.symm]
    | _ => first | rfl | exact hq.elim
  | cc key =>
    have h' : s.hiddenByte key = none := h
    have hw : s.writePlace ag (.cc key) b = { s with cc := s.cc.write key b, ccOld := (key, s.cc.read key) :: s.ccOld } := by
      simp only [State.writePlace, State.writeCc, h']
    rw [hw]
    cases q with
    | cc k =>
      have hk : s.hiddenByte k = none := hq
      have hk' : State.hiddenByte { s with cc := s.cc.write key b, ccOld := (key, s.cc.read key) :: s.ccOld } k = none := hk
      simp only [State.readPlace, State.homeCc, hk, hk', Memory.read_write, sameByte_cc]
      by_cases e : key = k <;> simp [e, Ne.symm]
    | _ => first | rfl | exact hq.elim
  | vault w off =>
    cases q with
    | vault v k =>
      simp only [State.writePlace, State.readPlace, State.wg?_modWg, sameByte_vault]
      by_cases hv : v = w
      · subst hv
        have : (s.wg? v).isSome = true := h
        cases hx : s.wg? v with
        | none => rw [hx] at this; exact absurd this (by simp)
        | some x => by_cases e : off = k <;> simp [Memory.read_write, e, Ne.symm]
      · have : ¬ w = v := fun e => hv e.symm
        simp [hv, this]
    | priv v n k =>
      simp only [State.writePlace, State.readPlace, State.group?_modWg, sameByte]
      split
      · subst_vars; simp [State.group?, State.wg?]
      · simp
    | _ => first | rfl | exact hq.elim
  | priv w n key =>
    cases q with
    | vault v k =>
      simp only [State.writePlace, State.readPlace, State.modGroup, State.wg?_modWg, sameByte]
      split <;> simp [Option.map_map, Function.comp_def]
    | priv v m k =>
      simp only [State.writePlace, State.readPlace, State.group?_modGroup, sameByte_priv]
      by_cases hv : v = w ∧ m = n
      · obtain ⟨rfl, rfl⟩ := hv
        have : (s.group? v m).isSome = true := h
        cases hx : s.group? v m with
        | none => rw [hx] at this; exact absurd this (by simp)
        | some x => by_cases e : key = k <;> simp [Memory.read_write, e, Ne.symm]
      · have : ¬ (w = v ∧ n = m) := fun e => hv ⟨e.1.symm, e.2.symm⟩
        rw [if_neg hv, if_neg]
        simp only [decide_eq_true_eq]
        exact fun e => this ⟨e.1, e.2.1⟩
    | _ => first | rfl | exact hq.elim

/-! The executing split. -/

/-- The executing split waits: its status alone changes, and that it has stalled. -/
theorem Runs.wait {s : State} {g : Group} {x : Split} (h : Runs s g x) (w : Wait) :
    s.wait w = s.putGroup (g.modSplit s.cur.split fun y => { y with status := .waiting w, stalled := true }) :=
  s.modCurGroup_eq_put _ g h.1

@[simp] theorem State.curGroup_putGroup (s : State) (g h : Group) (e : s.curGroup = some g) : (s.putGroup h).curGroup = some h := by
  simp [State.putGroup, e]

theorem State.remoteClear_curGroup (s : State) (i : Issuer) : (s.remoteClear i).curGroup = s.curGroup := by
  unfold State.remoteClear; split <;> rfl

/-- A stall: the executing split waits to look again, and no byte changes (R100). -/
theorem Runs.stall {s : State} {g : Group} {x : Split} (h : Runs s g x) : Stalled s s.stall g := by
  refine ⟨?_, memorySame_stall s⟩
  unfold State.stall
  rw [State.remoteClear_curGroup, h.wait, State.curGroup_putGroup s g _ h.1]

/-- Lane work enters the queue where it has room, in program order from here (R34), and the split goes on (R28). -/
theorem Runs.enqueue {s : State} {g : Group} {x : Split} (h : Runs s g x) (es : List LaneEntry) (hr : g.room es.length = true) :
    s.enqueue es = s.tick.putGroup (Group.went { g with laneQ := g.laneQ ++ es.map fun e => { e with stamp := s.stamp } }
      s.cur.split (x.pc + 4)) := by
  have hr' : ((s.curGroup.map fun g => g.room es.length).getD true) = true := by simp [h.1, hr]
  unfold State.enqueue
  rw [if_pos hr']
  have hx : Runs (s.tick.modCurGroup fun g => { g with laneQ := g.laneQ ++ es.map fun e => { e with stamp := s.stamp } })
      { g with laneQ := g.laneQ ++ es.map fun e => { e with stamp := s.stamp } } x := by
    refine ⟨?_, h.2⟩
    have ht : s.tick.curGroup = some g := h.1
    simp [ht]
  rw [State.next4, hx.curPc, State.goto_eq, State.modCurGroup_modCurGroup]
  exact s.tick.modCurGroup_eq_put _ g h.1

/-- Without room the split waits with its lane work (R28, R115). -/
theorem Runs.enqueue_waits {s : State} {g : Group} {x : Split} (h : Runs s g x) (es : List LaneEntry) (hr : g.room es.length = false) :
    s.enqueue es = s.wait (.room es) := by
  unfold State.enqueue
  rw [if_neg (by simp [h.1, hr])]

end Sys2Proof.Machine
end

