-- ==== Sys2Proof/Laws/Caches.lean ====
section
/-! SUPPORT. What a read leaves behind: sectors and lines of the caches, host lines held, and the bytes charged for them; nothing else of
the machine (R214 to R217, R399, R431). -/

namespace Sys2Proof.Machine

/-- Two reaches that differ in the lines of their L2 alone. -/
def Reach.sameButL2 (r q : Reach) : Prop := { r with l2 := [] } = { q with l2 := [] }

theorem reachesButL2_step (xs : List (Nat × Touch)) (rs : Vector Reach 4) (cs : List Charge) (pick : Nat → Nat) (owner : Option (BitVec 20 × Nat)) :
    ∀ q, ({ getVec (xs.foldl (fun (a : Vector Reach 4 × List Charge) t =>
        let y := l2Touch (getVec a.1 t.1 Reach.reset).l2 (pick t.2.key) owner t.2
        (modVec (fun (r : Reach) => { r with l2 := y.1 }) a.1 t.1, a.2 ++ y.2)) (rs, cs)).1 q Reach.reset with l2 := [] } : Reach) =
      { getVec rs q Reach.reset with l2 := [] } := by
  induction xs generalizing rs cs with
  | nil => exact fun _ => rfl
  | cons x xs ih =>
    intro q
    rw [List.foldl_cons, ih]
    dsimp only
    rw [getVec_modVec]
    split <;> rfl

/-- What the slices do changes their lines and the regions' charges only. -/
theorem State.l2ServeFor_frame (s : State) (owner : Option (BitVec 20 × Nat)) (write : Bool) (hint : Nat) (keys : List Nat) :
    ∃ rs gs, s.l2ServeFor owner write hint keys = { s with reaches := rs, regions := gs } ∧
      ∀ q, Reach.sameButL2 (getVec rs q Reach.reset) (s.reach q) :=
  ⟨_, _, rfl, reachesButL2_step _ _ _ _ _⟩

theorem State.l2Serve_frame (s : State) (w : WgIx) (write : Bool) (hint : Nat) (keys : List Nat) :
    ∃ rs gs, s.l2Serve w write hint keys = { s with reaches := rs, regions := gs } ∧
      ∀ q, Reach.sameButL2 (getVec rs q Reach.reset) (s.reach q) :=
  s.l2ServeFor_frame _ write hint keys

/-- Holding host lines changes the list of lines only. -/
theorem holdLines_frame (xs : List (Nat × Nat)) (f : HostIf → Nat × Nat → HostIf)
    (hf : ∀ h x, ∃ ls, f h x = { h with lines := ls }) (h : HostIf) : ∃ ls, xs.foldl f h = { h with lines := ls } := by
  induction xs generalizing h with
  | nil => exact ⟨h.lines, rfl⟩
  | cons x xs ih =>
    obtain ⟨ls, e⟩ := hf h x
    obtain ⟨ls', e'⟩ := ih { h with lines := ls }
    exact ⟨ls', by rw [List.foldl_cons, e, e']⟩

theorem HostIf.holdLine_frame (h : HostIf) (st : Moesi) (x : Nat × Nat) : ∃ ls, h.holdLine st x = { h with lines := ls } := by
  unfold HostIf.holdLine; split
  · exact ⟨_, rfl⟩
  · exact ⟨h.lines, rfl⟩

theorem State.fetchLines_frame (s : State) (refs : List ByteRef) :
    ∃ ls, s.fetchLines refs = { s with hostif := { s.hostif with lines := ls } } := by
  obtain ⟨ls, e⟩ := holdLines_frame (hostLinesOf refs) (fun h x =>
      if h.lines.any fun l => l.port == x.1 && l.addr == x.2 then h
      else h.holdLine (if s.freeBool x.2 then .e else .s) x) (fun h x => by
    split
    · exact ⟨h.lines, rfl⟩
    · exact h.holdLine_frame _ x) s.hostif
  exact ⟨ls, by unfold State.fetchLines; rw [e]⟩

/-- What a read leaves: the core's L1, lines of the L2 slices, host lines, and charges (R215 to R217, R431). -/
theorem State.served_frame (s : State) (ag : Agent) (hint : Nat) (past : Bool) (refs : List ByteRef) :
    ∃ cs rs gs ls, s.served ag hint past refs = { s with cores := cs, reaches := rs, regions := gs, hostif := { s.hostif with lines := ls } } ∧
      ∀ q, Reach.sameButL2 (getVec rs q Reach.reset) (s.reach q) := by
  unfold State.served
  dsimp only
  obtain ⟨rs, gs, e, hq⟩ := s.l2Serve_frame ag.wg false hint ((readKeys ag refs).filter fun k =>
    !(if past then [] else (s.l1Keys ag refs).filter fun k => (s.l1Hit ag false k).isSome).contains k)
  rw [e]
  obtain ⟨ls, e'⟩ := State.fetchLines_frame { s with reaches := rs, regions := gs } refs
  rw [e']
  split
  · exact ⟨_, rs, gs, ls, rfl, hq⟩
  · split
    · exact ⟨_, rs, gs, ls, rfl, hq⟩
    · exact ⟨s.cores, rs, gs, ls, rfl, hq⟩

/-- A read moves no replica, so that a release after it waits for nothing new (R405). -/
theorem Drained.served {s : State} (h : Drained s) (ag : Agent) (hint : Nat) (past : Bool) (refs : List ByteRef) :
    Drained (s.served ag hint past refs) := by
  obtain ⟨cs, rs, gs, ls, e, hq⟩ := s.served_frame ag hint past refs
  refine ⟨by rw [e]; exact h.1, fun q r hq4 hr => ?_⟩
  have this : ({ getVec rs q Reach.reset with l2 := [] } : Reach) = { s.reach q with l2 := [] } := hq q
  have hl : (getVec rs q Reach.reset).replLog = (s.reach q).replLog := by
    simpa using congrArg Reach.replLog this
  have ha : (getVec rs q Reach.reset).replApplied = (s.reach q).replApplied := by
    simpa using congrArg Reach.replApplied this
  rw [e]
  show (getVec rs q Reach.reset).replLog.length ≤ getVec (getVec rs q Reach.reset).replApplied r 0
  rw [hl, ha]
  exact h.2 q r hq4 hr

/-- The executing group and its split are there after a read, as they were. -/
theorem Runs.served {s : State} {g : Group} {x : Split} (h : Runs s g x) (ag : Agent) (hint : Nat) (past : Bool) (refs : List ByteRef) :
    Runs (s.served ag hint past refs) g x := by
  obtain ⟨cs, rs, gs, ls, e, -⟩ := s.served_frame ag hint past refs
  rw [e]; exact h

@[simp] theorem State.served_wg? (s : State) (ag : Agent) (hint : Nat) (past : Bool) (refs : List ByteRef) (w : WgIx) :
    (s.served ag hint past refs).wg? w = s.wg? w := by
  obtain ⟨cs, rs, gs, ls, e, -⟩ := s.served_frame ag hint past refs
  rw [e]; rfl

/-- References that name no replica and no peer. -/
def plainRefs (rs : List ByteRef) : Bool :=
  !((rs.flatMap ByteRef.places).any fun p => match p with | .repl _ => true | _ => false) && (peerLoads false (peerElems 0 rs)).isEmpty

/-- Reads of such references ask nobody and wait for nothing (R248, R407). -/
theorem State.askPeers_plain (s : State) (ag : Agent) (rs : List (List ByteRef)) (h : rs.all plainRefs = true) : s.askPeers ag rs = (s, true) := by
  have hr : ∀ r ∈ rs, s.replRefresh ag r = s ∧ peerLoads false (peerElems 0 r) = [] := fun r hr => by
    have := List.all_eq_true.1 h r hr
    simp only [plainRefs, Bool.and_eq_true, Bool.not_eq_true', List.isEmpty_iff] at this
    refine ⟨?_, this.2⟩
    unfold State.replRefresh
    split
    · next e => exact Bool.noConfusion (e.symm.trans this.1)
    · rfl
  have hf : rs.foldl (fun (s : State) r => s.replRefresh ag r) s = s := by
    clear h
    induction rs with
    | nil => rfl
    | cons r rs ih => rw [List.foldl_cons, (hr r (by simp)).1]; exact ih fun x hx => hr x (List.mem_cons_of_mem _ hx)
  have hn : (rs.flatMap fun r => peerLoads false (peerElems 0 r)) = [] := List.flatMap_eq_nil_iff.2 fun r h => (hr r h).2
  unfold State.askPeers
  rw [hf, hn]

/-- An access outside the view aperture needs nothing of the view unit (R218). -/
theorem State.viewReady_plain (s : State) (ag : Agent) (acc : Acc) {va : Nat} (h : windowOf va ≠ .view) : s.viewReady ag acc va = (s, true) := by
  unfold State.viewReady
  rw [if_pos (by simpa using h)]

theorem State.prepared_plain {s : State} {acc : Acc} {va : Nat} (h : windowOf va ≠ .view) (hl : s.lookHeld va = none) :
    s.prepared s acc va := ⟨hl, s.viewReady_plain _ acc h⟩

/-- The looks of lanes whose addresses lie outside the view aperture need nothing: each is what its address resolves to. -/
theorem State.laneLooks_plain {s : State} {lanes : List Nat} {acc : Acc} {addr : Nat → Nat} (hl : s.heldLooks = none)
    (h : ∀ l ∈ lanes, windowOf (addr l) ≠ .view) : s.laneLooks lanes acc addr = (s, some (s.laneResolve lanes acc addr)) := by
  have fold : ∀ ls : List Nat, (∀ l ∈ ls, windowOf (addr l) ≠ .view) →
      ls.foldl (fun (a : State × Bool) i =>
        let q := a.1.viewReady (s.laneAgent i) acc (addr i)
        (q.1, a.2 && q.2)) (s, true) = (s, true) := by
    intro ls hv
    induction ls with
    | nil => rfl
    | cons x xs ih =>
      have e := s.viewReady_plain (s.laneAgent x) acc (hv x List.mem_cons_self)
      rw [List.foldl_cons]
      show xs.foldl _ ((s.viewReady (s.laneAgent x) acc (addr x)).1, true && (s.viewReady (s.laneAgent x) acc (addr x)).2) = _
      rw [e]
      exact ih fun l hm => hv l (List.mem_cons_of_mem _ hm)
  unfold State.laneLooks
  rw [hl]
  show ((lanes.foldl _ (s, true)).1, _) = _
  rw [fold lanes h]
  rfl

end Sys2Proof.Machine
end

