-- ==== Sys2Proof/Laws/Canon.lean ====
section
/-! SUPPORT. That every memory stays canonical: after reset, under every update that touches no memory, and under every
operation that writes one. -/

namespace Sys2Proof.Machine

theorem State.memoryOk_reset : State.reset.memoryOk = true := rfl

theorem State.memoryOk_iff (s : State) :
    s.memoryOk = true ↔ s.mem.wf = true ∧ s.cc.wf = true ∧ s.host.wf = true ∧ ∀ x ∈ s.wgs, x.memoryOk = true := by
  simp [State.memoryOk, and_assoc]

/-- Only the memories and the workgroups matter. -/
theorem State.memoryOk_congr {s t : State} (hm : t.mem = s.mem) (hc : t.cc = s.cc) (hh : t.host = s.host) (hw : t.wgs = s.wgs) :
    t.memoryOk = s.memoryOk := by
  simp only [State.memoryOk, hm, hc, hh, hw]

/-! Updates that touch no memory. -/

@[simp] theorem State.memoryOk_modCore (s : State) (c : CoreIx) (f : Core → Core) : (s.modCore c f).memoryOk = s.memoryOk := rfl
@[simp] theorem State.memoryOk_modSlot (s : State) (c k : Nat) (f : Slot → Slot) : (s.modSlot c k f).memoryOk = s.memoryOk := rfl
@[simp] theorem State.memoryOk_modReach (s : State) (r : Nat) (f : Reach → Reach) : (s.modReach r f).memoryOk = s.memoryOk := rfl
@[simp] theorem State.memoryOk_modPc (s : State) (p : PcIx) (f : Pc → Pc) : (s.modPc p f).memoryOk = s.memoryOk := rfl
@[simp] theorem State.memoryOk_modRun (s : State) (f : Run → Run) : (s.modRun f).memoryOk = s.memoryOk := rfl
@[simp] theorem State.memoryOk_modBank (s : State) (n : Nat) (f : BankCmd → BankCmd) : (s.modBank n f).memoryOk = s.memoryOk := rfl
@[simp] theorem State.memoryOk_modCtx (s : State) (c : BitVec 20) (f : Ctx → Ctx) : (s.modCtx c f).memoryOk = s.memoryOk := rfl
@[simp] theorem State.memoryOk_modLaunch (s : State) (l : Nat) (f : Launch → Launch) : (s.modLaunch l f).memoryOk = s.memoryOk := rfl
@[simp] theorem State.memoryOk_modRegion (s : State) (c : BitVec 20) (rcb : Nat) (f : Region → Region) : (s.modRegion c rcb f).memoryOk = s.memoryOk := rfl
@[simp] theorem State.memoryOk_modFabric (s : State) (f : Fabric → Fabric) : (s.modFabric f).memoryOk = s.memoryOk := rfl
@[simp] theorem State.memoryOk_modHost (s : State) (f : HostIf → HostIf) : (s.modHost f).memoryOk = s.memoryOk := rfl
@[simp] theorem State.memoryOk_tick (s : State) : (s.tick).memoryOk = s.memoryOk := rfl
@[simp] theorem State.memoryOk_progress (s : State) (c : BitVec 20) : (s.progress c).memoryOk = s.memoryOk := rfl
@[simp] theorem State.memoryOk_modOp (s : State) (n : Nat) (f : RemoteOp → RemoteOp) : (s.modOp n f).memoryOk = s.memoryOk := rfl
@[simp] theorem State.memoryOk_modStream (s : State) (r : ReqId) (o : Nat) (f : ReqStream → ReqStream) : (s.modStream r o f).memoryOk = s.memoryOk := rfl
@[simp] theorem State.memoryOk_holdLines (s : State) (rs : List ByteRef) : (s.holdLines rs).memoryOk = s.memoryOk := rfl
@[simp] theorem State.memoryOk_l1Invalidate (s : State) (c : CoreIx) : (s.l1Invalidate c).memoryOk = s.memoryOk := rfl
@[simp] theorem State.memoryOk_l1Drop (s : State) (ag : Agent) (rs : List ByteRef) : (s.l1Drop ag rs).memoryOk = s.memoryOk := rfl
@[simp] theorem State.memoryOk_l2Serve (s : State) (w : WgIx) (write : Bool) (hint : Nat) (ks : List Nat) : (s.l2Serve w write hint ks).memoryOk = s.memoryOk := rfl
@[simp] theorem State.memoryOk_l1Fill (s : State) (c : CoreIx) (keep : Bool) (ks : List Nat) : (s.l1Fill c keep ks).memoryOk = s.memoryOk := rfl
@[simp] theorem State.memoryOk_fetchLines (s : State) (rs : List ByteRef) : (s.fetchLines rs).memoryOk = s.memoryOk := rfl
@[simp] theorem State.memoryOk_orphanOps (s : State) (p : Issuer → Bool) : (s.orphanOps p).memoryOk = s.memoryOk := rfl

@[simp] theorem State.memoryOk_emit (s : State) (f : Flit) : (s.emit f).memoryOk = s.memoryOk := by
  unfold State.emit; split <;> rfl

/-- What a read leaves in the caches changes no memory. -/
@[simp] theorem State.memoryOk_served (s : State) (ag : Agent) (hint : Nat) (past : Bool) (rs : List ByteRef) :
    (s.served ag hint past rs).memoryOk = s.memoryOk := by
  unfold State.served; dsimp only; split
  · rw [State.memoryOk_l1Drop, State.memoryOk_fetchLines, State.memoryOk_l2Serve]
  · split
    · rw [State.memoryOk_l1Fill, State.memoryOk_fetchLines, State.memoryOk_l2Serve]
    · rw [State.memoryOk_fetchLines, State.memoryOk_l2Serve]

@[simp] theorem State.memoryOk_remoteClear (s : State) (i : Issuer) : (s.remoteClear i).memoryOk = s.memoryOk := by
  unfold State.remoteClear; split <;> rfl

/-! Updates of workgroups and groups. -/

theorem modAt_mem {α : Type} (f : α → α) (l : List α) (n : Nat) (x : α) (h : x ∈ modAt f l n) : x ∈ l ∨ ∃ y ∈ l, x = f y := by
  induction l generalizing n with
  | nil => exact absurd h (by simp [modAt])
  | cons a as ih =>
    cases n with
    | zero =>
      rcases List.mem_cons.1 h with rfl | h
      · exact .inr ⟨a, by simp, rfl⟩
      · exact .inl (List.mem_cons_of_mem _ h)
    | succ n =>
      rcases List.mem_cons.1 h with rfl | h
      · exact .inl (by simp)
      · rcases ih n h with h | ⟨y, hy, e⟩
        · exact .inl (List.mem_cons_of_mem _ h)
        · exact .inr ⟨y, List.mem_cons_of_mem _ hy, e⟩

theorem modWhere_mem {α : Type} (p : α → Bool) (f : α → α) (l : List α) (x : α) (h : x ∈ modWhere p f l) : x ∈ l ∨ ∃ y ∈ l, x = f y := by
  unfold modWhere at h
  obtain ⟨y, hy, e⟩ := List.mem_map.1 h
  split at e
  · exact .inr ⟨y, hy, e.symm⟩
  · exact .inl (e ▸ hy)

theorem Wg.memoryOk_iff (x : Wg) : x.memoryOk = true ↔ x.vault.wf = true ∧ ∀ g ∈ x.groups, g.priv.wf = true := by
  simp [Wg.memoryOk]

theorem State.memoryOk_modWg (s : State) (w : WgIx) (f : Wg → Wg) (hf : ∀ x, x.memoryOk = true → (f x).memoryOk = true)
    (h : s.memoryOk = true) : (s.modWg w f).memoryOk = true := by
  rw [State.memoryOk_iff] at h ⊢
  refine ⟨h.1, h.2.1, h.2.2.1, fun x hx => ?_⟩
  rcases modAt_mem f s.wgs w x hx with hx | ⟨y, hy, rfl⟩
  · exact h.2.2.2 x hx
  · exact hf y (h.2.2.2 y hy)

/-- A change of a workgroup that keeps its vault and its groups. -/
theorem State.memoryOk_modWg_same (s : State) (w : WgIx) (f : Wg → Wg) (hv : ∀ x, (f x).vault = x.vault)
    (hg : ∀ x, (f x).groups = x.groups) (h : s.memoryOk = true) : (s.modWg w f).memoryOk = true :=
  s.memoryOk_modWg w f (fun x hx => by rw [Wg.memoryOk_iff] at hx ⊢; rwa [hv, hg]) h

theorem State.memoryOk_modGroup (s : State) (w : WgIx) (n : GroupIx) (f : Group → Group)
    (hf : ∀ g, g.priv.wf = true → (f g).priv.wf = true) (h : s.memoryOk = true) : (s.modGroup w n f).memoryOk = true := by
  refine s.memoryOk_modWg w _ (fun x hx => ?_) h
  rw [Wg.memoryOk_iff] at hx ⊢
  refine ⟨hx.1, fun g hg => ?_⟩
  rcases modAt_mem f x.groups n g hg with hg | ⟨y, hy, rfl⟩
  · exact hx.2 g hg
  · exact hf y (hx.2 y hy)

/-- A change of a group that keeps its lane-private block. -/
theorem State.memoryOk_modGroup_same (s : State) (w : WgIx) (n : GroupIx) (f : Group → Group) (hf : ∀ g, (f g).priv = g.priv)
    (h : s.memoryOk = true) : (s.modGroup w n f).memoryOk = true :=
  s.memoryOk_modGroup w n f (fun g hg => by rwa [hf]) h

theorem State.memoryOk_modCurGroup (s : State) (f : Group → Group) (hf : ∀ g, (f g).priv = g.priv) (h : s.memoryOk = true) :
    (s.modCurGroup f).memoryOk = true :=
  s.memoryOk_modGroup_same _ _ f hf h

theorem State.memoryOk_foldl {α : Type} (f : State → α → State) (l : List α) (s : State)
    (hf : ∀ s x, s.memoryOk = true → (f s x).memoryOk = true) (h : s.memoryOk = true) : (l.foldl f s).memoryOk = true := by
  induction l generalizing s with
  | nil => exact h
  | cons x l ih => exact ih _ (hf s x h)

/-! The scalar stream's own operations. -/

theorem State.memoryOk_ws (s : State) (r : SReg) (v : Word) (h : s.memoryOk = true) : (s.ws r v).memoryOk = true := by
  rw [State.ws_eq]
  refine s.memoryOk_modCurGroup _ (fun g => ?_) h
  unfold Group.wrote
  split
  · rfl
  · dsimp only; split <;> rfl

theorem State.memoryOk_goto (s : State) (pc : Word) (h : s.memoryOk = true) : (s.goto pc).memoryOk = true :=
  s.memoryOk_modCurGroup _ (fun g => by simp) h

theorem State.memoryOk_next4 (s : State) (h : s.memoryOk = true) : s.next4.memoryOk = true := s.memoryOk_goto _ h

theorem State.memoryOk_wait (s : State) (w : Wait) (h : s.memoryOk = true) : (s.wait w).memoryOk = true :=
  s.memoryOk_modCurGroup _ (fun _ => rfl) h

theorem State.memoryOk_stall (s : State) (h : s.memoryOk = true) : s.stall.memoryOk = true := by
  unfold State.stall
  rw [State.memoryOk_remoteClear]
  exact s.memoryOk_wait _ h

theorem State.memoryOk_enqueue (s : State) (es : List LaneEntry) (h : s.memoryOk = true) : (s.enqueue es).memoryOk = true := by
  unfold State.enqueue
  split
  · exact State.memoryOk_next4 _ (State.memoryOk_modCurGroup _ _ (fun _ => rfl) h)
  · exact s.memoryOk_wait _ h

/-! Operations that write memory. -/

theorem State.memoryOk_writeMem (s : State) (m : Memory) (hm : m.wf = true) (h : s.memoryOk = true) :
    State.memoryOk { s with mem := m } = true := by
  rw [State.memoryOk_iff] at h ⊢; exact ⟨hm, h.2⟩

theorem State.memoryOk_writeHost (s : State) (m : Memory) (hm : m.wf = true) (h : s.memoryOk = true) :
    State.memoryOk { s with host := m } = true := by
  rw [State.memoryOk_iff] at h ⊢; exact ⟨h.1, h.2.1, hm, h.2.2.2⟩

theorem State.memoryOk_mem {s : State} (h : s.memoryOk = true) : s.mem.wf = true := (s.memoryOk_iff.1 h).1
theorem State.memoryOk_cc {s : State} (h : s.memoryOk = true) : s.cc.wf = true := (s.memoryOk_iff.1 h).2.1
theorem State.memoryOk_host {s : State} (h : s.memoryOk = true) : s.host.wf = true := (s.memoryOk_iff.1 h).2.2.1

theorem State.memoryOk_writeCc (s : State) (key : Nat) (b : Byte) (h : s.memoryOk = true) : (s.writeCc key b).memoryOk = true := by
  have hw := Memory.wf_write s.cc key b (State.memoryOk_cc h)
  rw [State.memoryOk_iff] at h
  unfold State.writeCc
  split
  · rw [State.memoryOk_iff]; exact ⟨h.1, hw, h.2.2⟩
  · split <;> rw [State.memoryOk_iff] <;> exact ⟨h.1, hw, h.2.2⟩

theorem State.memoryOk_replicaApplyOne (s : State) (q r : Nat) (h : s.memoryOk = true) : (s.replicaApplyOne q r).memoryOk = true := by
  unfold State.replicaApplyOne
  dsimp only
  split
  · exact h
  · rename_i w _
    have hw := s.memoryOk_writeMem _ (Memory.wf_writeRun s.mem (replicaPa w.pa r) w.bytes (State.memoryOk_mem h)) h
    rw [State.memoryOk_modReach]
    split
    · rw [State.memoryOk_modCore, State.memoryOk_l2Serve]; exact hw
    · rw [State.memoryOk_l2Serve]; exact hw

theorem State.memoryOk_replicaDrain (s : State) (q r : Nat) (h : s.memoryOk = true) : (s.replicaDrain q r).memoryOk = true :=
  State.memoryOk_foldl _ _ _ (fun s _ h => s.memoryOk_replicaApplyOne q r h) h

theorem State.memoryOk_replicaDrainAll (s : State) (h : s.memoryOk = true) : s.replicaDrainAll.memoryOk = true :=
  State.memoryOk_foldl _ _ _ (fun _ _ h => State.memoryOk_foldl _ _ _ (fun s _ h => s.memoryOk_replicaDrain _ _ h) h) h

theorem State.memoryOk_replicaDrainLocal (s : State) (r : Nat) (h : s.memoryOk = true) : (s.replicaDrainLocal r).memoryOk = true :=
  State.memoryOk_foldl _ _ _ (fun s _ h => s.memoryOk_replicaDrain _ _ h) h

theorem State.memoryOk_replWrite (s : State) (ag : Agent) (pa : Nat) (bs : List Byte) (h : s.memoryOk = true) :
    (s.replWrite ag pa bs).memoryOk = true :=
  State.memoryOk_replicaDrain _ _ _ h

theorem State.memoryOk_writePlace (s : State) (ag : Agent) (p : Place) (b : Byte) (h : s.memoryOk = true) :
    (s.writePlace ag p b).memoryOk = true := by
  cases p with
  | hbm pa => exact s.memoryOk_writeMem _ (Memory.wf_write _ _ _ (State.memoryOk_mem h)) h
  | repl pa => exact s.memoryOk_replWrite ag pa [b] h
  | cc key => exact s.memoryOk_writeCc key b h
  | host port hpa => exact s.memoryOk_writeHost _ (Memory.wf_write _ _ _ (State.memoryOk_host h)) h
  | peer d a => exact h
  | null => exact h
  | vault w off =>
    refine s.memoryOk_modWg w _ (fun x hx => ?_) h
    rw [Wg.memoryOk_iff] at hx ⊢
    exact ⟨Memory.wf_write _ _ _ hx.1, hx.2⟩
  | priv w g key => exact s.memoryOk_modGroup w g _ (fun x hx => Memory.wf_write _ _ _ hx) h

theorem State.memoryOk_writeRef (s : State) (ag : Agent) (r : ByteRef) (b : Byte) (h : s.memoryOk = true) :
    (s.writeRef ag r b).memoryOk = true := by
  cases r with
  | whole p => exact s.memoryOk_writePlace ag p b h
  | nibs lo lh hi hh => exact State.memoryOk_writePlace _ _ _ _ (s.memoryOk_writePlace _ _ _ h)

theorem State.memoryOk_clearPoison (s : State) (rs : List ByteRef) (h : s.memoryOk = true) : (s.clearPoison rs).memoryOk = true := by
  refine State.memoryOk_foldl _ _ _ (fun s g h => s.memoryOk_modWg_same _ _ (fun _ => rfl) (fun _ => rfl) h) ?_
  split <;> exact h

/-- A store of bytes at references. -/
theorem State.memoryOk_writeRefs (s : State) (ag : Agent) (rs : List ByteRef) (bs : List Byte) (h : s.memoryOk = true) :
    (s.writeRefs ag rs bs).memoryOk = true := by
  unfold State.writeRefs State.writeHinted
  rw [State.memoryOk_l2Serve, State.memoryOk_holdLines]
  refine State.memoryOk_clearPoison _ _ ?_
  split
  · exact s.memoryOk_replWrite ag _ bs h
  · exact State.memoryOk_foldl _ _ _ (fun s rb h => s.memoryOk_writeRef ag _ _ h) h

theorem State.memoryOk_hostPut (s : State) (a : Nat) (bs : List Byte) (h : s.memoryOk = true) : (s.hostPut a bs).memoryOk = true :=
  s.memoryOk_writeHost _ (Memory.wf_writeRun _ _ _ (State.memoryOk_host h)) h

theorem State.memoryOk_physPut (s t : State) (pa : Nat) (bs : List Byte) (h : s.memoryOk = true) (e : s.physPut pa bs = some t) :
    t.memoryOk = true := by
  unfold State.physPut at e
  split at e
  · cases e; exact s.memoryOk_writeMem _ (Memory.wf_writeRun _ _ _ (State.memoryOk_mem h)) h
  · split at e
    · cases e; exact s.memoryOk_writeHost _ (Memory.wf_writeRun _ _ _ (State.memoryOk_host h)) h
    · cases e

/-- The end of an exec arm: what it answers is canonical. -/
theorem next_memoryOk {s t : State} (h : s.memoryOk = true) (e : (Host.Outcome.next s : Host.Outcome State Fault Refusal) = .next t) :
    t.memoryOk = true := by
  cases e; exact h

end Sys2Proof.Machine
end

