-- ==== Sys2Proof/Tests/Slice0.lean ====
section
/-! SUPPORT. The model's own tests: ill-formed instructions, words written out from the spec's encoding tables, small checks of
single steps against values worked out by hand or given in the spec, and for every statement with hypotheses concrete states
and operands that meet them. -/

set_option maxRecDepth 100000

namespace Sys2Proof.Tests

open Machine

/-! Instructions as the tests write them. -/

/-- The lanes of m1 that are not in m2. -/
def someLanes : Guard := ⟨⟨false, 1⟩, ⟨true, 2⟩, .and⟩

def form (ty : ElemTy) (rnd : Rnd) (d a b c e : Operand) (mods : BitVec 7) : LaneOp :=
  ⟨ty, rnd, someLanes, d, a, b, c, e, 0, false, mods⟩

def access (ty : ElemTy) (rnd : Rnd) (d : Operand) (base : Option BReg) (index : Option VReg) (scale : BitVec 3) (disp : BitVec 8)
    (e : Operand) (scope : Scope) (order : Order) (fe bit6 : Bool) : MemOp :=
  ⟨ty, rnd, someLanes, d, base, index, scale, disp, e, 0, false, scope, order, fe, bit6⟩

/-- A form with no operands and no modifiers. -/
def bare (ty : ElemTy) : LaneOp := form ty .rne (.v 0) (.v 0) (.v 0) (.v 0) (.v 0) 0

/-! Every check of WellFormed refuses an ill-formed term. -/

/-- Unreadable and unwritable status registers (R22), MSET to m0 (R20), start conditions on s0 (R293, R330), BXLD past its buffer. -/
theorem test_wf_scalar : [Instr.sysr 1 0x16, .sysr 1 0x1F, .sysw 0x0F 1, .mset 0 1, .cpy 0 1 2 (some ⟨0, 0⟩), .cpyr 0 1 2 (some ⟨0, 0⟩),
    .bkrun 1 2 (some ⟨0, 0⟩), .bxld 63 1].all (fun i => !i.wf) = true := by decide

/-- Types, rounding, modifiers, register pairs and unused positions of the integer and bit forms (R69, R74, R80, R129, R131). -/
theorem test_wf_integer : [Instr.vadd (bare .b32), .vsub (form .i32 .rtz (.v 1) (.v 1) (.v 1) (.v 0) (.v 0) 0),
    .vmul (form .i64 .rne (.v 1) (.v 2) (.v 2) (.v 0) (.v 0) 0), .vmulh (form .i32 .rne (.v 1) (.v 1) (.v 1) (.v 0) (.v 0) 1),
    .vdiv (form .i32 .rne (.b 1) (.v 1) (.v 1) (.v 0) (.v 0) 0), .vrem (form .i32 .rne (.v 1) (.m 1) (.v 1) (.v 0) (.v 0) 0),
    .vmin (form .i32 .rne (.v 1) (.v 1) (.v 1) (.v 1) (.v 0) 0), .vmax (form .i32 .rne (.q 0 true) (.v 1) (.v 1) (.v 0) (.v 0) 0),
    .vmad (form .i32 .rne (.v 1) (.v 1) (.v 1) (.a 1) (.v 0) 0), .vabs (form .n32 .rne (.v 1) (.v 1) (.v 0) (.v 0) (.v 0) 0),
    .vneg (form .i32 .rne (.v 1) (.v 1) (.v 1) (.v 0) (.v 0) 0), .vand (form .i32 .rne (.v 1) (.v 1) (.v 1) (.v 0) (.v 0) 0),
    .vor (bare .f32), .vxor (form .b32 .rne (.v 1) (.v 1) (.v 1) (.v 0) (.v 0) 1), .vnot (form .b32 .rne (.v 1) (.v 1) (.v 1) (.v 0) (.v 0) 0),
    .vshl (bare .i32), .vshr (form .b64 .rne (.v 2) (.v 3) (.v 1) (.v 0) (.v 0) 0), .vsra (form .b32 .rne (.v 2) (.v 3) (.m 1) (.v 0) (.v 0) 0),
    .vpopc (bare .n32), .vclz (form .b64 .rne (.v 2) (.v 3) (.v 0) (.v 0) (.v 0) 0), .vbfe (bare .i16), .vbfi (bare .i32),
    .vadd { bare .i32 with hint := 1 }, .vadd { bare .i32 with guard := ⟨⟨false, 0⟩, ⟨false, 1⟩, .aOnly⟩ }].all (fun i => !i.wf) = true := by
  decide

/-- Compares, moves, masks and cross-lane forms (R132 to R140). -/
theorem test_wf_mask : [Instr.vcmp (form .i32 .rne (.m 0) (.v 1) (.v 1) (.v 0) (.v 0) 0), .vcmp (form .i32 .rne (.m 1) (.v 1) (.v 1) (.v 0) (.v 0) 6),
    .vsel (form .b32 .rne (.v 1) (.v 1) (.v 1) (.v 1) (.v 0) 0), .vmov (bare .i32), .vimm ⟨.i32, .rne, someLanes, .v 1, 0, 0, false, 0⟩,
    .vlane (form .n32 .rne (.v 1) (.v 1) (.v 0) (.v 0) (.v 0) 0), .mand (form .i8 .rne (.m 0) (.m 1) (.m 1) (.v 0) (.v 0) 0),
    .mor (form .i16 .rne (.m 1) (.m 1) (.m 1) (.v 0) (.v 0) 0), .mxor (form .i8 .rne (.m 1) (.m 1) (.v 1) (.v 0) (.v 0) 0),
    .mnot (form .i8 .rne (.m 1) (.m 1) (.m 1) (.v 0) (.v 0) 0), .mfirst (form .i8 .rne (.v 1) (.m 1) (.v 0) (.v 0) (.v 0) 0),
    .mpopc (form .i32 .rne (.v 1) (.m 1) (.v 0) (.v 0) (.v 0) 0), .viota (form .n32 .rne (.v 1) (.v 1) (.v 0) (.v 0) (.v 0) 0),
    .vshfl (form .b32 .rne (.v 1) (.v 1) (.v 0) (.v 1) (.v 0) 6), .vperm (form .b32 .rne (.v 1) (.v 1) (.imm 1) (.v 1) (.v 0) 0),
    .vstep (form .i32 .rne (.v 1) (.v 1) (.v 0) (.v 1) (.v 0) 0x38), .vstep (form .i32 .rne (.v 1) (.v 1) (.v 0) (.v 1) (.v 0) 6),
    .vscan (form .i32 .rne (.v 1) (.v 1) (.v 0) (.v 0) (.v 0) 3), .vcomp (form .b32 .rne (.v 1) (.v 1) (.v 1) (.v 1) (.v 0) 0)].all
      (fun i => !i.wf) = true := by decide

/-- Float, conversion and exact forms (R146, R152 to R163). -/
theorem test_wf_float : [Instr.vfadd (bare .i32), .vfsub (form .f64 .rne (.v 1) (.v 2) (.v 2) (.v 0) (.v 0) 0), .vfmul (form .f32 .rne (.v 1) (.v 1) (.v 1) (.v 1) (.v 0) 0),
    .vfdiv (form .f32 .rne (.v 1) (.v 1) (.v 1) (.v 0) (.v 0) 1), .vfma (form .f32 .rne (.v 1) (.v 1) (.v 1) (.m 1) (.v 0) 0),
    .vfmin (form .f32 .rtz (.v 1) (.v 1) (.v 1) (.v 0) (.v 0) 0), .vfmax (bare .b32), .vfabs (form .f32 .rup (.v 1) (.v 1) (.v 0) (.v 0) (.v 0) 0),
    .vfneg (bare .e4m3), .vfex2 (form .f32 .rna (.v 1) (.v 1) (.v 0) (.v 0) (.v 0) 0), .vflg2 (bare .i32), .vfsin (bare .i32), .vfcos (bare .i32),
    .vfsqrt (bare .n32), .vfrcp (form .f32 .rne (.v 1) (.v 1) (.v 1) (.v 0) (.v 0) 0), .vfrsq (bare .aq8), .vfcls (form .f32 .rne (.m 1) (.v 1) (.v 0) (.v 0) (.v 0) 0),
    .vcvt (form .e4m3 .rne (.v 1) (.v 1) (.v 0) (.v 0) (.v 0) 0), .vcvt (form .f32 .rne (.v 1) (.v 1) (.v 0) (.v 0) (.v 0) 31),
    .vpack (form .f16 .rne (.v 1) (.v 1) (.v 0) (.v 0) (.v 0) 13), .vunpk (form .f64 .rne (.v 1) (.v 1) (.v 0) (.v 0) (.v 0) 10),
    .vqmx (form .e4m3 .rne (.v 1) (.v 2) (.v 0) (.v 0) (.v 1) 12), .vqaq (form .f32 .rne (.v 1) (.v 2) (.v 3) (.v 4) (.v 0) 12),
    .vdq (form .f32 .rne (.v 1) (.v 2) (.v 3) (.v 4) (.v 0) 14), .xclr { bare .i8 with d := .x, hint := 1 }, .xadd (form .f32 .rne (.v 1) (.v 1) (.v 0) (.v 0) (.v 0) 0),
    .xsub (form .i32 .rne .x (.v 1) (.v 0) (.v 0) (.v 0) 0), .xrnd (form .f32 .rne .x (.v 1) (.v 0) (.v 0) (.v 0) 0)].all (fun i => !i.wf) = true := by
  decide

/-- Memory and accumulator forms (R77, R78, R254 to R262, R322). -/
theorem test_wf_memory : [Instr.vld (access .f32 .rne (.v 1) none none 0 0 (.v 0) .dev .rel false false),
    .vld (access .f32 .rne (.v 1) none none 1 0 (.v 0) .grp .rlx false false), .vld (access .f32 .rne (.v 1) none none 0 0 (.v 1) .grp .rlx false true),
    .vst (access .f32 .rne (.v 1) none none 0 0 (.v 0) .dev .acq false false), .vst (access .e4m3 .rne (.v 1) none none 0 0 (.v 0) .grp .rlx false false),
    .vpref (access .b32 .rne (.v 1) none none 0 0 (.v 0) .grp .rlx false false), .vatom (access .f32 .rne (.v 1) none none 0 0 (.imm 3) .grp .rlx false false),
    .vatom (access .i32 .rne (.v 1) none none 0 0 (.imm 7) .grp .rlx false false), .vcas (access .f32 .rne (.v 1) none none 0 0 (.v 2) .grp .rlx false false),
    .vred (access .i32 .rne (.v 1) none none 0 0 (.imm 0) .dev .acq false false), .xst (access .f32 .rne .x none none 0 0 (.v 0) .grp .rlx false false),
    .xlda (access .i8 .rne (.v 1) none none 0 0 (.v 0) .grp .rlx false false), .acrd (form .f32 .rne (.v 1) (.a 0) (.imm 64) (.v 0) (.v 0) 0),
    .acwr (form .f64 .rne (.a 1) (.v 2) (.imm 0) (.v 0) (.v 0) 0), .acscl (form .f16 .rne (.a 1) (.v 2) (.v 0) (.v 0) (.v 0) 0),
    .acmax (form .f32 .rne (.v 1) (.a 0) (.v 0) (.v 0) (.v 0) 1), .acexp (form .f32 .rne (.v 1) (.a 0) (.imm 1) (.b 1) (.v 0) 0)].all
      (fun i => !i.wf) = true := by decide

/-! Words written out from the spec's encodings decode to the instructions they stand for, and encode back. -/

/-- Scalar words (R66 to R70, R90 to R93). -/
def scalarWords0 : List (Nat × Instr) :=
  [(0x00000000, .nop),
   (0x00000001, .exit),
   (0x00000002, .yield),
   (0x00000003, .brk),
   (0x00000006, .irb),
   (0x00000007, .ire),
   (0x00203F04, .sysr 2 0x3F),
   (0x0000D305, .sysw 0x13 3),
   (0x00001408, .fence .dev .rel),
   (0x040ABCDE, .trap 0xABCDE),
   (0x087FFFFF, .addpc 7 0xFFFFF),
   (0x13F85200, .add 63 33 18),
   (0x13F85201, .sub 63 33 18),
   (0x13F85202, .and 63 33 18),
   (0x13F85203, .or 63 33 18),
   (0x13F85204, .xor 63 33 18),
   (0x13F85205, .shl 63 33 18),
   (0x13F85206, .shr 63 33 18),
   (0x13F85207, .sra 63 33 18),
   (0x13F85208, .min 63 33 18),
   (0x13F85209, .max 63 33 18),
   (0x13F8520A, .minn 63 33 18),
   (0x13F8520B, .maxn 63 33 18),
   (0x13F8520C, .slt 63 33 18)]

/-- Scalar words (R66 to R70, R90 to R93). -/
def scalarWords1 : List (Nat × Instr) :=
  [(0x13F8520D, .sltn 63 33 18),
   (0x13F85210, .mul 63 33 18),
   (0x13F85211, .mulh 63 33 18),
   (0x13F85212, .mulhn 63 33 18),
   (0x13F85213, .div 63 33 18),
   (0x13F85214, .divn 63 33 18),
   (0x13F85215, .rem 63 33 18),
   (0x13F85216, .remn 63 33 18),
   (0x13F85218, .csel 63 33 18),
   (0x141FA005, .addi 1 62 0x2005),
   (0x181FA005, .andi 1 62 0x2005),
   (0x1C1FA005, .ori 1 62 0x2005),
   (0x201FA005, .xori 1 62 0x2005),
   (0x2492803F, .shli 9 10 63),
   (0x2892803F, .shri 9 10 63),
   (0x2C92803F, .srai 9 10 63),
   (0x3010BFFF, .slti 1 2 0x3FFF),
   (0x3410BFFF, .sltni 1 2 0x3FFF),
   (0x3B080001, .lih 48 0x80001),
   (0x3F080001, .lit 48 0x80001),
   (0x40310100, .lds .i8 false 3 4 256),
   (0x40310B01, .lds .i16 true 3 4 257),
   (0x40311102, .lds .i32 false 3 4 258),
   (0x40311B03, .lds .b64 true 3 4 259)]

/-- Scalar words (R66 to R70, R90 to R93). -/
def scalarWords2 : List (Nat × Instr) :=
  [(0x40312104, .lds .n8 false 3 4 260),
   (0x40312B05, .lds .n16 true 3 4 261),
   (0x40313106, .lds .n32 false 3 4 262),
   (0x443101FF, .sts .i8 false 3 4 0x1FF),
   (0x44310BFF, .sts .i16 true 3 4 0x1FF),
   (0x443111FF, .sts .i32 false 3 4 0x1FF),
   (0x44311BFF, .sts .b64 true 3 4 0x1FF),
   (0x48108300, .satom .add .grp false 1 2 3),
   (0x48108319, .satom .min .wg true 1 2 3),
   (0x48108322, .satom .max .cl false 1 2 3),
   (0x4810833B, .satom .minn .die true 1 2 3),
   (0x48108344, .satom .maxn .dev false 1 2 3),
   (0x4810835D, .satom .and .sys true 1 2 3),
   (0x48108360, .satom .or .grp false 1 2 3),
   (0x48108379, .satom .xor .wg true 1 2 3),
   (0x48108382, .satom .exch .cl false 1 2 3),
   (0x4C10830D, .scas .sys true 1 2 3),
   (0x600A3400, .br .eq 5 6 0x400),
   (0x608A3400, .br .ne 5 6 0x400),
   (0x610A3400, .br .lt 5 6 0x400),
   (0x618A3400, .br .ge 5 6 0x400),
   (0x620A3400, .br .ltn 5 6 0x400),
   (0x628A3400, .br .gen 5 6 0x400),
   (0x67FFFFFF, .j 0x3FFFFFF)]

/-- Scalar words (R66 to R70, R90 to R93). -/
def scalarWords3 : List (Nat × Instr) :=
  [(0x6A000001, .jl 0x2000001),
   (0x6EF24000, .jr 47 9),
   (0x707FFFFE, .brm .any 7 0xFFFFE),
   (0x717FFFFE, .brm .all 7 0xFFFFE),
   (0x727FFFFE, .brm .none 7 0xFFFFE),
   (0x737FFFFE, .brm .div 7 0xFFFFE),
   (0x83FFFFC0, .lx 63 0xFFFC0),
   (0x84108000, .lxr 1 2),
   (0x885000F0, .setb 15 5),
   (0x8C5000E0, .mrd 5 14),
   (0x94500010, .mset 1 5),
   (0x90108300, .vrd false 1 2 3),
   (0x90108301, .vrd true 1 2 3),
   (0xA4108094, .barArrive true 9 1 2),
   (0xA4008091, .barWait false 9 2),
   (0xA4108092, .barSync false 9 1 2),
   (0xA4108397, .barRemote 9 1 2 3),
   (0xA81000F3, .waitc .die 15 1),
   (0xA8100009, .waitcFe .wg 1),
   (0xC0100070, .strm 7 1),
   (0xC4000060, .qclr 6),
   (0xC8108030, .cpy 3 1 2 none),
   (0xCC108435, .cpyr 3 1 2 (some ⟨5, 4⟩)),
   (0xD0100030, .oclaim 3 1)]

/-- Scalar words (R66 to R70, R90 to R93). -/
def scalarWords4 : List (Nat × Instr) :=
  [(0xD4100000, .orel 1),
   (0xD8108000, .opld .plain false 1 2),
   (0xD8108011, .opld .conv true 1 2),
   (0xD8108020, .opld .segr false 1 2),
   (0xD8108031, .opld .segc true 1 2),
   (0xDFE11074, .mma 31 1 2 3 true false true),
   (0xE0100000, .gang 1),
   (0xE4108300, .tqpush 1 2 3),
   (0xE8108300, .tqpull 1 2 3),
   (0xEC100300, .tqjoin 1 3),
   (0xF0108000, .bkload 1 2),
   (0xF010831F, .bkrun 1 2 (some ⟨15, 3⟩)),
   (0xF0108020, .bkfence 1 2),
   (0xF4108300, .viewb 1 2 3),
   (0xF4108014, .viewi 4 1 2),
   (0xF4108324, .rminv 4 1 2 3),
   (0xF8108300, .lnch 1 2 3)]

/-- Micro-operation words (R82, R340). -/
def bankWords : List (Nat × Instr) :=
  [(0x00000000, .bnop),
   (0x0E000000, .bact true true),
   (0x10000000, .bpre),
   (0x1FD00000, .bmac 7 .int8 false true),
   (0x20000081, .bzero 0x81),
   (0x2E003F80, .bscl 6 0x3F80),
   (0x35000000, .bwra 5),
   (0x3800001F, .bwrb 31),
   (0x4000FFFF, .bloop 0xFFFF),
   (0x48000000, .bend),
   (0x50000000, .bstop),
   (0x5FC08000, .bxld 62 1)]

/-- Integer lane words (R71, R94). -/
def intWords : List (Nat × Instr) :=
  [(0x000403240200180400000001, .vadd (form .i32 .rne (.v 4) (.v 1) (.b 2) (.v 0) (.v 0) 1)),
   (0x004E032402002C0E00000000, .vsub (form .n64 .rne (.v 4) (.v 2) (.imm 7) (.v 0) (.v 0) 0)),
   (0x008203240200100200000000, .vmul (form .i16 .rne (.v 4) (.v 1) (.v 1) (.v 0) (.v 0) 0)),
   (0x00CC03240200100400000000, .vmulh (form .n32 .rne (.v 4) (.v 1) (.v 2) (.v 0) (.v 0) 0)),
   (0x010003240200100400C00000, .vmad (form .i8 .rne (.v 4) (.v 1) (.v 2) (.v 3) (.v 0) 0)),
   (0x014603240200200C00000000, .vdiv (form .i64 .rne (.v 4) (.v 2) (.v 6) (.v 0) (.v 0) 0)),
   (0x018803240200100400000000, .vrem (form .n8 .rne (.v 4) (.v 1) (.v 2) (.v 0) (.v 0) 0)),
   (0x01C403240200100400000000, .vmin (form .i32 .rne (.v 4) (.v 1) (.v 2) (.v 0) (.v 0) 0)),
   (0x020A03240200100400000000, .vmax (form .n16 .rne (.v 4) (.v 1) (.v 2) (.v 0) (.v 0) 0)),
   (0x024403240200100000000000, .vabs (form .i32 .rne (.v 4) (.v 1) (.v 0) (.v 0) (.v 0) 0)),
   (0x028603240200200000000001, .vneg (form .i64 .rne (.v 4) (.v 2) (.v 0) (.v 0) (.v 0) 1))]

/-- Logic, bit-field and move lane words. -/
def bitWords : List (Nat × Instr) :=
  [(0x041003240200100400000000, .vand (form .b32 .rne (.v 4) (.v 1) (.v 2) (.v 0) (.v 0) 0)),
   (0x045003240200100400000000, .vor (form .b32 .rne (.v 4) (.v 1) (.v 2) (.v 0) (.v 0) 0)),
   (0x049003240200100400000000, .vxor (form .b32 .rne (.v 4) (.v 1) (.v 2) (.v 0) (.v 0) 0)),
   (0x04D203240200200000000000, .vnot (form .b64 .rne (.v 4) (.v 2) (.v 0) (.v 0) (.v 0) 0)),
   (0x0512032402002C7E00000000, .vshl (form .b64 .rne (.v 4) (.v 2) (.imm 63) (.v 0) (.v 0) 0)),
   (0x0552032402002C7E00000000, .vshr (form .b64 .rne (.v 4) (.v 2) (.imm 63) (.v 0) (.v 0) 0)),
   (0x0592032402002C7E00000000, .vsra (form .b64 .rne (.v 4) (.v 2) (.imm 63) (.v 0) (.v 0) 0)),
   (0x05D203240280200000000000, .vpopc (form .b64 .rne (.v 5) (.v 2) (.v 0) (.v 0) (.v 0) 0)),
   (0x061003240280200000000000, .vclz (form .b32 .rne (.v 5) (.v 2) (.v 0) (.v 0) (.v 0) 0)),
   (0x0644032402802C0782400000, .vbfe (form .i32 .rne (.v 5) (.v 2) (.imm 3) (.imm 9) (.v 0) 0)),
   (0x069003240280200780F04800, .vbfi (form .b32 .rne (.v 5) (.v 2) (.v 3) (.imm 3) (.imm 9) 0)),
   (0x08900324026C800000000000, .vmov (form .b32 .rne (.v 4) (.imm 200) (.v 0) (.v 0) (.v 0) 0)),
   (0x090C03240200000000000000, .vlane (form .n32 .rne (.v 4) (.v 0) (.v 0) (.v 0) (.v 0) 0)),
   (0x08D2032403226AF37BC00000, .vimm ⟨.b64, .rne, someLanes, .v 6, 0x89ABCDEF, 0, false, 0⟩)]

/-- Compare, select and mask lane words. -/
def maskWords : List (Nat × Instr) :=
  [(0x080403278180100400000002, .vcmp (form .i32 .rne (.m 3) (.v 1) (.v 2) (.v 0) (.v 0) 2)),
   (0x0850032402001005C0C00000, .vsel (form .b32 .rne (.v 4) (.v 1) (.v 2) (.m 3) (.v 0) 0)),
   (0x1000032781F01E0400000000, .mand (form .i8 .rne (.m 3) (.m 1) (.m 2) (.v 0) (.v 0) 0)),
   (0x1040032781F01E0400000000, .mor (form .i8 .rne (.m 3) (.m 1) (.m 2) (.v 0) (.v 0) 0)),
   (0x1080032781F01E0400000000, .mxor (form .i8 .rne (.m 3) (.m 1) (.m 2) (.v 0) (.v 0) 0)),
   (0x10C0032781F0100000000000, .mnot (form .i8 .rne (.m 3) (.m 1) (.v 0) (.v 0) (.v 0) 0)),
   (0x1100032781F0100000000000, .mfirst (form .i8 .rne (.m 3) (.m 1) (.v 0) (.v 0) (.v 0) 0)),
   (0x114C03240270100000000000, .mpopc (form .n32 .rne (.v 4) (.m 1) (.v 0) (.v 0) (.v 0) 0))]

/-- Cross-lane words. -/
def crossWords : List (Nat × Instr) :=
  [(0x134C03240270100000000000, .viota (form .n32 .rne (.v 4) (.m 1) (.v 0) (.v 0) (.v 0) 0)),
   (0x121003240200100180782821, .vshfl (form .b32 .rne (.v 4) (.v 1) (.v 0) (.imm 1) (.m 5) 33)),
   (0x125203240200200C02000000, .vperm (form .b64 .rne (.v 4) (.v 2) (.v 6) (.v 8) (.v 0) 0)),
   (0x128403240200100100C0000D, .vstep (form .i32 .rne (.v 4) (.v 1) (.v 0) (.b 3) (.v 0) 13)),
   (0x12D8C3240200100000000004, .vscan (form .f32 .rup (.v 4) (.v 1) (.v 0) (.v 0) (.v 0) 4)),
   (0x1310032402001E0780000000, .vcomp (form .b32 .rne (.v 4) (.v 1) (.m 3) (.imm 0) (.v 0) 0))]

/-- Float lane words. -/
def floatWords : List (Nat × Instr) :=
  [(0x201843240200100400000000, .vfadd (form .f32 .rtz (.v 4) (.v 1) (.v 2) (.v 0) (.v 0) 0)),
   (0x205843240200100400000000, .vfsub (form .f32 .rtz (.v 4) (.v 1) (.v 2) (.v 0) (.v 0) 0)),
   (0x209843240200100400000000, .vfmul (form .f32 .rtz (.v 4) (.v 1) (.v 2) (.v 0) (.v 0) 0)),
   (0x221843240200100400000000, .vfdiv (form .f32 .rtz (.v 4) (.v 1) (.v 2) (.v 0) (.v 0) 0)),
   (0x20DB83240200200C02000000, .vfma (form .f64 .dyn (.v 4) (.v 2) (.v 6) (.v 8) (.v 0) 0)),
   (0x211403240200100400000000, .vfmin (form .f16 .rne (.v 4) (.v 1) (.v 2) (.v 0) (.v 0) 0)),
   (0x215603240200100400000000, .vfmax (form .bf16 .rne (.v 4) (.v 1) (.v 2) (.v 0) (.v 0) 0)),
   (0x219803240200100000000000, .vfabs (form .f32 .rne (.v 4) (.v 1) (.v 0) (.v 0) (.v 0) 0)),
   (0x21D803240200100000000000, .vfneg (form .f32 .rne (.v 4) (.v 1) (.v 0) (.v 0) (.v 0) 0)),
   (0x231803240200100000000000, .vfex2 (form .f32 .rne (.v 4) (.v 1) (.v 0) (.v 0) (.v 0) 0)),
   (0x235803240200100000000000, .vflg2 (form .f32 .rne (.v 4) (.v 1) (.v 0) (.v 0) (.v 0) 0)),
   (0x239803240200100000000000, .vfsin (form .f32 .rne (.v 4) (.v 1) (.v 0) (.v 0) (.v 0) 0)),
   (0x23D803240200100000000000, .vfcos (form .f32 .rne (.v 4) (.v 1) (.v 0) (.v 0) (.v 0) 0)),
   (0x225543240200100000000000, .vfsqrt (form .f16 .sr (.v 4) (.v 1) (.v 0) (.v 0) (.v 0) 0)),
   (0x229543240200100000000000, .vfrcp (form .f16 .sr (.v 4) (.v 1) (.v 0) (.v 0) (.v 0) 0)),
   (0x22D543240200100000000000, .vfrsq (form .f16 .sr (.v 4) (.v 1) (.v 0) (.v 0) (.v 0) 0)),
   (0x241A03240280200000000000, .vfcls (form .f64 .rne (.v 5) (.v 2) (.v 0) (.v 0) (.v 0) 0))]

/-- Conversion lane words. -/
def convertWords : List (Nat × Instr) :=
  [(0x301E0324020010000000002C, .vcvt (form .e5m2 .rne (.v 4) (.v 1) (.v 0) (.v 0) (.v 0) 44)),
   (0x30540324020020000000000C, .vpack (form .f16 .rne (.v 4) (.v 2) (.v 0) (.v 0) (.v 0) 12)),
   (0x309803240200200000000012, .vunpk (form .f32 .rne (.v 4) (.v 2) (.v 0) (.v 0) (.v 0) 18)),
   (0x30DC0324020010000000480C, .vqmx (form .e4m3 .rne (.v 4) (.v 1) (.v 0) (.v 0) (.v 9) 12)),
   (0x312803240200100400C0000B, .vqaq (form .aq8 .rne (.v 4) (.v 1) (.v 2) (.v 3) (.v 0) 11)),
   (0x315803240200100400C00015, .vdq (form .f32 .rne (.v 4) (.v 1) (.v 2) (.v 3) (.v 0) 21))]

/-- Words of the exact accumulator. -/
def exactWords : List (Nat × Instr) :=
  [(0x34000327C000000000000000, .xclr (form .i8 .rne (.x) (.v 0) (.v 0) (.v 0) (.v 0) 0)),
   (0x345A0327C000200000000000, .xadd (form .f64 .rne (.x) (.v 2) (.v 0) (.v 0) (.v 0) 0)),
   (0x34980327C040300000000000, .xsub (form .f32 .rne (.x) (.b 3) (.v 0) (.v 0) (.v 0) 0)),
   (0x34D883240278000000000000, .xrnd (form .f32 .rdn (.v 4) (.x) (.v 0) (.v 0) (.v 0) 0))]

/-- Words on accumulator tiles. -/
def tileWords : List (Nat × Instr) :=
  [(0x501803240275FC7E01603001, .acrd (form .f32 .rne (.v 4) (.a 31) (.imm 63) (.v 5) (.b 6) 1)),
   (0x505A0327AF00280200000000, .acwr (form .f64 .rne (.a 30) (.v 2) (.b 1) (.v 0) (.v 0) 0)),
   (0x50980327A180180400000001, .acscl (form .f32 .rne (.a 3) (.v 1) (.b 2) (.v 0) (.v 0) 1)),
   (0x50D803240274300000000000, .acmax (form .f32 .rne (.v 4) (.a 3) (.v 0) (.v 0) (.v 0) 0)),
   (0x515803240274380201400000, .acexp (form .f32 .rne (.v 4) (.a 3) (.b 1) (.v 5) (.v 0) 0))]

/-- Lane memory words (R77, R78). -/
def memWords : List (Nat × Instr) :=
  [(0x401803240440200C8400484C, .vld (access .f32 .rne (.v 8) (some 2) (some 6) 2 16 (.v 9) .dev .acq false true)),
   (0x404603240460000D3FC00038, .vst (access .i64 .rne (.v 8) none (some 6) 4 255 (.v 0) .grp .ar true false)),
   (0x409003240040FC0020000000, .vpref (access .b32 .rne (.v 0) (some 15) none 0 128 (.v 0) .grp .rlx false false)),
   (0x420403240440100C8031805A, .vatom (access .i32 .rne (.v 8) (some 1) (some 6) 2 0 (.imm 48) .cl .ar false true)),
   (0x424E03240440100CC0002015, .vcas (access .n64 .rne (.v 8) (some 1) (some 6) 3 0 (.v 4) .sys .rel false false)),
   (0x429AC3240440100CC0300011, .vred (access .f64 .rup (.v 8) (some 1) (some 6) 3 0 (.imm 0) .wg .rel false false)),
   (0x35000327C0401C0000000000, .xst (access .i8 .rne (.x) (some 1) none 0 0 (.v 0) .grp .rlx false false)),
   (0x35400327C040100C41000000, .xlda (access .i8 .rne (.x) (some 1) (some 6) 1 4 (.v 0) .grp .rlx false false))]

/-- The words of a list decode as listed, and the encoder gives them back. -/
def decodesAll (nbits : Nat) (ws : List (Nat × Instr)) : Bool :=
  ws.all fun x => decodeTableWord nbits x.1 == some x.2 && encode x.2 == some (nbits, x.1)

theorem test_decode_scalar0 : decodesAll 32 scalarWords0 = true := by decide
theorem test_decode_scalar1 : decodesAll 32 scalarWords1 = true := by decide
theorem test_decode_scalar2 : decodesAll 32 scalarWords2 = true := by decide
theorem test_decode_scalar3 : decodesAll 32 scalarWords3 = true := by decide
theorem test_decode_scalar4 : decodesAll 32 scalarWords4 = true := by decide
theorem test_decode_int : decodesAll 96 intWords = true := by decide
theorem test_decode_bit : decodesAll 96 bitWords = true := by decide
theorem test_decode_mask : decodesAll 96 maskWords = true := by decide
theorem test_decode_cross : decodesAll 96 crossWords = true := by decide
theorem test_decode_float : decodesAll 96 floatWords = true := by decide
theorem test_decode_convert : decodesAll 96 convertWords = true := by decide
theorem test_decode_exact : decodesAll 96 exactWords = true := by decide
theorem test_decode_tile : decodesAll 96 tileWords = true := by decide
theorem test_decode_mem : decodesAll 96 memWords = true := by decide
theorem test_decode_bank :
    bankWords.all (fun x => toOption (decodeBankBytes (bytesOfNat 4 x.1)) == some x.2 && encodeBank x.2 == some x.1) = true := by decide

/-! Small machines: one resident workgroup of context 1 on core 0, its page identity-mapped to the first GiB of HBM. -/

def regs (l : List (Nat × Word)) : Vector Word 48 := l.foldl (fun v x => modVec (fun _ => x.2) v x.1) (Vector.replicate 48 0)

/-- A ready split of all lanes at 0x1004. -/
def x0 : Split :=
  { pc := 0x1004, mask := BitVec.allOnes 64, regs := Vector.replicate 16 0, region := none, status := .ready, lastIssue := 0,
    syncToken := none, stalled := false, yielded := false, looks := [], lnch := none }

/-- A group of that split alone, with some scalar registers. -/
def g0 (l : List (Nat × Word)) : Group := { loadedGroup [] with s := regs l, splits := (Vector.replicate 4 none).set 0 (some x0) }

/-- The machine that runs groups of one workgroup, with bytes in its memory. -/
def on (gs : List Group) (bytes : List (Nat × List Byte) := []) : State :=
  { State.reset.loaded [] (.issue 0 0) with
    agenda := [], wgs := [Wg.start 0 0 0 0x10000 0 gs], mem := bytes.foldl (fun m x => m.writeRun x.1 x.2) [(0x10000, 16)] }

/-- The next state, if there is one. -/
def answer (o : Host.Outcome State Fault Refusal) : Option State :=
  match o with
  | .next t => some t
  | _ => none

/-- A fact of the next state. -/
def leads (i : Instr) (s : State) (p : State → Bool) : Bool := (answer (exec i s)).any p

def inGroup (p : Group → Bool) (t : State) : Bool := t.curGroup.any p

/-- A scalar register after an instruction of split 0. -/
def gives (s : State) (i : Instr) (r : Nat) (v : Word) : Bool := leads i s (inGroup fun g => getVec g.s r 0 == v)

/-! Single steps. -/

/-- R101 with s1 = -7, s2 = 3, by hand. -/
theorem test_alu : [(Instr.add 3 1 2, (-4 : Word)), (.sub 3 1 2, -10), (.and 3 1 2, 1), (.or 3 1 2, -5), (.xor 3 1 2, -6), (.shl 3 1 2, -56),
    (.shr 3 1 2, 0x1FFFFFFFFFFFFFFF), (.sra 3 1 2, -1), (.min 3 1 2, -7), (.max 3 1 2, 3), (.minn 3 1 2, 3), (.maxn 3 1 2, -7), (.slt 3 1 2, 1),
    (.sltn 3 1 2, 0), (.mul 3 1 2, -21), (.mulh 3 1 2, -1), (.mulhn 3 1 2, 2), (.div 3 1 2, -2), (.divn 3 1 2, 6148914691236517203),
    (.rem 3 1 2, -1), (.remn 3 1 2, 0), (.csel 3 1 2, -7), (.csel 4 1 2, 3)].all
      (fun x => gives (on [g0 [(1, -7), (2, 3), (3, 9)]]) x.1 (if x.1 = .csel 4 1 2 then 4 else 3) x.2) = true := by decide

/-- The edges R101 names: division by zero, -2^63 by -1, and shift counts of which only [5:0] count. -/
theorem test_alu_edges : [(Instr.div 3 1 0, (-1 : Word)), (.divn 3 1 0, -1), (.rem 3 1 0, 0x8000000000000000), (.remn 3 1 0, 0x8000000000000000),
    (.div 3 1 2, 0x8000000000000000), (.rem 3 1 2, 0), (.shl 3 2 4, -2), (.shr 3 1 4, 0x4000000000000000), (.sra 3 1 4, 0xC000000000000000)].all
      (fun x => gives (on [g0 [(1, 0x8000000000000000), (2, -1), (4, 65)]]) x.1 3 x.2) = true := by decide

/-- R102, R103: immediates and constants, among them the four instructions of the spec's vault address. -/
theorem test_immediates : [(Instr.addi 3 1 0x3FFF, (0xFE : Word)), (.andi 3 1 0x3FC0, 0xC0), (.ori 3 1 0x1000, 0x10FF), (.xori 3 1 0x3FFF, ~~~0xFF),
    (.shli 3 1 32, 0xFF00000000), (.shri 3 1 4, 0xF), (.srai 3 1 7, 1), (.slti 3 1 0x3FFF, 0), (.sltni 3 1 0x3FFF, 1), (.ori 3 0 0xFF, 0xFF),
    (.lit 1 0xFD000, 0xFD000000000000FF), (.lih 3 0x80001, 0xFFFFFFFF80001000), (.addpc 3 0xFFFFF, 0xFC0), (.add 0 1 1, 0)].all
      (fun x => gives (on [g0 [(1, 0xFF)]]) x.1 (if x.1 = .lit 1 0xFD000 then 1 else if x.1 = .add 0 1 1 then 0 else 3) x.2) = true := by decide

def pcAfter (s : State) (i : Instr) (pc : Word) : Bool := leads i s (inGroup fun g => (g.split 0).any fun x => x.pc == pc)

/-- R109 to R112: offsets count blocks from the block of the PC; the mask branch on m1 = 0. -/
theorem test_branches : [(Instr.nop, (0x1008 : Word)), (.br .eq 1 2 2, 0x1008), (.br .ne 1 2 0x7FF, 0xFC0), (.br .lt 1 2 2, 0x1080),
    (.br .ge 1 2 2, 0x1008), (.br .ltn 1 2 2, 0x1008), (.br .gen 1 2 2, 0x1080), (.j 0x3FFFFFF, 0xFC0), (.jl 1, 0x1040), (.jr 5 3, 0x2040),
    (.jr 5 1, 0x1004), (.brm .any 1 1, 0x1008), (.brm .none 1 1, 0x1040), (.brm .all 0 1, 0x1040)].all
      (fun x => pcAfter (on [g0 [(1, -1), (2, 1), (3, 0x2040)]]) x.1 x.2) = true := by decide

theorem test_links : (gives (on [g0 [(3, 0x2040)]]) (.jl 1) 47 0x1040 && gives (on [g0 [(3, 0x2040)]]) (.jr 5 3) 5 0x1040) = true := by decide

/-- R112, R171: BRM.div on lanes 0 and 1 leaves them at the target in entry 1 and the rest past it in entry 0. -/
theorem test_brm_div : leads (.brm .div 1 1) (on [{ g0 [] with m := modVec (fun _ => 3) (g0 []).m 1 }])
    (inGroup fun g => ((g.split 0).any fun x => x.pc == 0x1008 && x.mask == ~~~3) && (g.split 1).any fun x => x.pc == 0x1040 && x.mask == 3) = true := by
  decide

/-- R22: W, log W, GROUP, the register file of a fresh group; SYSW to SEED and its reading. -/
theorem test_status : (gives (on [g0 []]) (.sysr 3 0x00) 3 64 && gives (on [g0 []]) (.sysr 3 0x01) 3 6 && gives (on [g0 []]) (.sysr 3 0x0B) 3 0 &&
    gives (on [g0 []]) (.sysr 3 0x20) 3 0 && leads (.sysw 0x11 1) (on [g0 [(1, 77)]]) (inGroup fun g => g.seed == 77) &&
    leads (.sysw 0x13 1) (on [g0 [(1, 5)]]) (fun t => (t.wg? 0).any fun w => w.wgerr == 5)) = true := by decide

/-- R33, R120, R122: FENCE with nothing queued advances; YIELD marks; IRB opens a region at PC + 4 and IRE closes it. -/
theorem test_split_control : (pcAfter (on [g0 []]) (.fence .sys .ar) 0x1008 &&
    leads .yield (on [g0 []]) (inGroup fun g => (g.split 0).any (·.yielded)) &&
    leads .irb (on [g0 []]) (inGroup fun g => (g.split 0).any fun x => x.region.any fun r => r.entry == 0x1008) &&
    leads .ire (on [g0 []]) (inGroup fun g => (g.split 0).any fun x => x.region.isNone) &&
    leads .exit (on [g0 [], g0 []]) (fun t => (t.group? 0 0).any (·.retired) && (t.group? 0 1).any fun g => !g.retired)) = true := by decide

/-- R121, R362, R363: TRAP 5 writes its record into slot 0 of the queue at 0x10000: class 0x0E, PC, detail; the write index moves. -/
theorem test_trap : leads (.trap 5) (on [g0 []]) (fun t =>
    t.mem.read 0x10040 == 0x0E && t.mem.readRun 0x10048 8 != [] && t.mem.read 0x10008 == 1 && t.pending.length == 1 &&
    inGroup (fun g => (g.split 0).any fun x => x.status == .parked && x.pc == 0x1004) t) = true := by decide

theorem test_brk : leads .brk (on [g0 []]) (fun t => t.mem.read 0x10040 == 0x0F) = true := by decide

theorem test_illegal : leads (.illegalEncoding false) (on [g0 []]) (fun t => t.mem.read 0x10040 == 0x01) = true := by decide

/-- R104, R105: sizes and extension; bytes F0 FF 80 7F 01 02 03 84 at 0x2000. -/
theorem test_loads : [(Instr.lds .i8 false 3 1 0, (-16 : Word)), (.lds .n8 false 3 1 0, 0xF0), (.lds .i16 false 3 1 1, 0xFFFFFFFFFFFF80FF),
    (.lds .n16 false 3 1 2, 0x7F80), (.lds .i32 true 3 1 4, 0xFFFFFFFF84030201), (.lds .n32 false 3 1 4, 0x84030201),
    (.lds .b64 false 3 1 0, 0x840302017F80FFF0)].all (fun x => gives (on [g0 [(1, 0x2000)]]
      [(0x2000, [0xF0, 0xFF, 0x80, 0x7F, 1, 2, 3, 0x84])]) x.1 3 x.2) = true := by decide

def bytesAfter (s : State) (i : Instr) (a n : Nat) (bs : List Byte) : Bool := leads i s fun t => t.mem.readRun a n == bs

theorem test_stores : bytesAfter (on [g0 [(1, 0x2000), (2, 0x1122334455667788)]]) (.sts .i16 false 2 1 0x1FF) 0x1FFE 4 [0, 0x88, 0x77, 0] = true ∧
    bytesAfter (on [g0 [(1, 0x2000), (2, 0x1122334455667788)]]) (.sts .b64 true 2 1 0) 0x2000 8 [0x88, 0x77, 0x66, 0x55, 0x44, 0x33, 0x22, 0x11] =
      true := by decide

/-- R106, R107: the old value goes to sc. -/
theorem test_atomics : [(Instr.satom .add .dev false 1 2 3, (10 : Word)), (.satom .min .dev false 1 2 3, 3), (.satom .maxn .dev true 1 2 3, 7),
    (.satom .xor .dev false 1 2 3, 4), (.satom .exch .dev false 1 2 3, 3), (.scas .dev false 1 2 4, 7)].all
      (fun x => let s := on [g0 [(1, 0x2000), (2, 3)]] [(0x2000, [7])]
        bytesAfter s x.1 0x2000 1 [BitVec.ofNat 8 x.2.toNat] && gives s x.1 (if x.1 = .scas .dev false 1 2 4 then 4 else 3) 7) = true := by decide

/-- A lane word at the head of a queue, tagged with all lanes. -/
def headEntry : LaneEntry := { item := .word 0 7, tag := BitVec.allOnes 64, pc := 0x1000, irb := none, stamp := 0 }

/-- A group whose lane 0 holds values in v1, v2, ..., with someLanes = lane 0, about to execute a lane instruction. -/
def laneGroup (vs : List Elem) : Group :=
  { g0 [] with
    laneQ := [headEntry]
    m := modVec (fun _ => 1) (g0 []).m 1
    v := vs.zipIdx.foldl (fun v x => modVec (fun r => modVec (fun _ => x.1) r 0) v (x.2 + 1)) (g0 []).v }

/-- Registers of lane 0 after a lane instruction. -/
def laneGives (vs : List Elem) (i : Instr) (out : List (Nat × Elem)) : Bool :=
  leads i (on [laneGroup vs]) (inGroup fun g => g.laneQ.isEmpty && out.all fun x => g.elem x.1 0 == x.2)

/-- An unguarded-source form: D = v9, sources v1, v2, v3. -/
def f3 (ty : ElemTy) (mods : BitVec 7 := 0) : LaneOp := form ty .rne (.v 9) (.v 1) (.v 2) (.v 3) (.v 0) mods
def f2 (ty : ElemTy) (mods : BitVec 7 := 0) : LaneOp := form ty .rne (.v 9) (.v 1) (.v 2) (.v 0) (.v 0) mods
def f1 (ty : ElemTy) (mods : BitVec 7 := 0) : LaneOp := form ty .rne (.v 9) (.v 1) (.v 0) (.v 0) (.v 0) mods

/-- R130, among them the spec's VMAD example. -/
theorem test_lane_integer : [(Instr.vadd (f2 .i32 1), ([0x7FFFFFFF, 1] : List Elem), (0x7FFFFFFF : Elem)), (.vadd (f2 .i32), [0x7FFFFFFF, 1], 0x80000000),
    (.vsub (f2 .n32 1), [3, 5], 0), (.vmul (f2 .i16), [0x7FFF, 2], 0xFFFFFFFE), (.vmulh (f2 .n32), [0xFFFFFFFF, 0xFFFFFFFF], 0xFFFFFFFE),
    (.vmad (f3 .i16 1), [300, 200, 0xFC18], 0x7FFF), (.vmad (f3 .i16), [300, 200, 0xFC18], 0xFFFFE678), (.vdiv (f2 .i32), [0xFFFFFFF9, 2], 0xFFFFFFFD),
    (.vdiv (f2 .i32), [5, 0], 0xFFFFFFFF), (.vrem (f2 .i32), [0xFFFFFFF9, 2], 0xFFFFFFFF), (.vrem (f2 .n8), [7, 0], 7), (.vmin (f2 .i32), [0xFFFFFFFF, 1], 0xFFFFFFFF),
    (.vmax (f2 .n32), [0xFFFFFFFF, 1], 0xFFFFFFFF), (.vabs (f1 .i8 1), [0x80], 0x7F), (.vneg (f1 .i32), [0x80000000], 0x80000000)].all
      (fun x => laneGives x.2.1 x.1 [(9, x.2.2)]) = true := by decide

/-- R131, R133, among them the spec's VBFE example. -/
theorem test_lane_bits : [(Instr.vand (f2 .b32), ([0xFF0, 0xF0F] : List Elem), (0xF00 : Elem)), (.vor (f2 .b32), [0xFF0, 0xF0F], 0xFFF), (.vxor (f2 .b32), [0xFF0, 0xF0F], 0xFF),
    (.vnot (f1 .b32), [0xFF], 0xFFFFFF00), (.vshl (f2 .b32), [1, 33], 2), (.vshr (f2 .b32), [0x80000000, 31], 1), (.vsra (f2 .b32), [0x80000000, 31], 0xFFFFFFFF),
    (.vpopc (f1 .b32), [0xF0F0], 8), (.vclz (f1 .b32), [1], 31), (.vbfe (f3 .i32), [0xA50, 8, 4], 0xFFFFFFFA), (.vbfe (f3 .n32), [0xA50, 8, 4], 0xA),
    (.vbfi (form .b32 .rne (.v 9) (.v 1) (.v 2) (.v 3) (.v 4) 0), [0xFFFFFFFF, 5, 4, 8], 0xFFFFF05F), (.vmov (form .b32 .rne (.v 9) (.imm 200) (.v 0) (.v 0) (.v 0) 0), [], 0xFFFFFFC8),
    (.vsel (form .b32 .rne (.v 9) (.v 1) (.v 2) (.m 1) (.v 0) 0), [3, 4], 3), (.vimm ⟨.b32, .rne, someLanes, .v 9, 0x89ABCDEF, 0, false, 0⟩, [], 0x89ABCDEF),
    (.vlane (form .n32 .rne (.v 9) (.v 0) (.v 0) (.v 0) (.v 0) 0), [], 0), (.mpopc (form .n32 .rne (.v 9) (.m 1) (.v 0) (.v 0) (.v 0) 0), [], 1),
    (.viota (form .n32 .rne (.v 9) (.m 1) (.v 0) (.v 0) (.v 0) 0), [], 0)].all (fun x => laneGives x.2.1 x.1 [(9, x.2.2)]) = true := by decide

/-- A 64-bit destination takes its pair: -1 * 2 under .i64, and VIMM.b64 sign-extends. -/
theorem test_lane_pairs : (laneGives [0, 0xFFFFFFFF, 0xFFFFFFFF, 2] (.vmul (form .i64 .rne (.v 10) (.v 2) (.v 4) (.v 0) (.v 0) 0)) [(10, 0xFFFFFFFE), (11, 0xFFFFFFFF)] &&
    laneGives [] (.vimm ⟨.b64, .rne, someLanes, .v 10, 0x80000000, 0, false, 0⟩) [(10, 0x80000000), (11, 0xFFFFFFFF)]) = true := by decide

def maskGives (vs : List Elem) (i : Instr) (m : Nat) (v : LaneMask) : Bool :=
  leads i (on [laneGroup vs]) (inGroup fun g => getVec g.m m 0 == v)

/-- R132, R134: only the active lane's bit is written. -/
theorem test_lane_masks : [(Instr.vcmp (form .i32 .rne (.m 3) (.v 1) (.v 2) (.v 0) (.v 0) 2), (1 : LaneMask)), (.vcmp (form .n32 .rne (.m 3) (.v 1) (.v 2) (.v 0) (.v 0) 2), 0),
    (.mand (form .i8 .rne (.m 3) (.m 1) (.m 0) (.v 0) (.v 0) 0), 1), (.mor (form .i8 .rne (.m 3) (.m 2) (.m 2) (.v 0) (.v 0) 0), 0),
    (.mxor (form .i8 .rne (.m 3) (.m 1) (.m 2) (.v 0) (.v 0) 0), 1), (.mnot (form .i8 .rne (.m 3) (.m 2) (.v 0) (.v 0) (.v 0) 0), 1),
    (.mfirst (form .i8 .rne (.m 3) (.m 0) (.v 0) (.v 0) (.v 0) 0), 1)].all (fun x => maskGives [0xFFFFFFFF, 1] x.1 3 x.2) = true := by decide

/-- A group whose lanes i hold i + 1 in v1, lanes 0 to 39 launched and active, as in the spec's reduction over a partial group. -/
def partialGroup : Group :=
  let lanes : LaneMask := 0xFFFFFFFFFF
  { g0 [] with
    laneQ := [{ headEntry with tag := lanes }]
    m := modVec (fun _ => lanes) (modVec (fun _ => lanes) (g0 []).m 0) 1
    v := modVec (fun _ => Vector.ofFn fun l => BitVec.ofNat 32 (l.val + 1)) (g0 []).v 1 }

def crossGives (i : Instr) (out : List (Nat × Elem)) : Bool := leads i (on [partialGroup]) (inGroup fun g => out.all fun x => g.elem 9 x.1 == x.2)

/-- R135 to R140; VSTEP is the spec's first butterfly step. -/
theorem test_lane_cross : (crossGives (.vstep (form .n32 .rne (.v 9) (.v 1) (.v 0) (.imm 0) (.m 4) 0)) [(0, 34), (7, 48), (8, 9), (31, 32), (32, 34), (39, 48), (40, 0)] &&
    leads (.vstep (form .n32 .rne (.v 9) (.v 1) (.v 0) (.imm 0) (.m 4) 0)) (on [partialGroup]) (inGroup fun g => getVec g.m 4 0 == 0xFFFFFF00) &&
    crossGives (.vshfl (form .b32 .rne (.v 9) (.v 1) (.v 0) (.imm 77) (.v 0) 0x18)) [(0, 2), (38, 40), (39, 77)] &&
    crossGives (.vperm (form .b32 .rne (.v 9) (.v 1) (.v 1) (.imm 77) (.v 0) 0)) [(0, 2), (39, 77)] &&
    crossGives (.vscan (form .n32 .rne (.v 9) (.v 1) (.v 0) (.v 0) (.v 0) 0)) [(0, 1), (39, 820)] &&
    crossGives (.vscan (form .n32 .rne (.v 9) (.v 1) (.v 0) (.v 0) (.v 0) 4)) [(0, 0), (39, 780)] &&
    crossGives (.vcomp (form .b32 .rne (.v 9) (.v 1) (.m 1) (.imm 77) (.v 0) 0)) [(0, 1), (39, 40)]) = true := by decide

/-- R146 to R151 on exact or well-known values of FP32. -/
theorem test_lane_float : [(Instr.vfadd (f2 .f32), ([0x3FC00000, 0x40100000] : List Elem), (0x40700000 : Elem)), (.vfsub (f2 .f32), [0x3FC00000, 0x3F800000], 0x3F000000),
    (.vfmul (f2 .f32), [0x3FC00000, 0xC0000000], 0xC0400000), (.vfma (f3 .f32), [0x40000000, 0x40400000, 0x3F800000], 0x40E00000),
    (.vfdiv (f2 .f32), [0x3F800000, 0x40400000], 0x3EAAAAAB), (.vfsqrt (f1 .f32), [0x40000000], 0x3FB504F3), (.vfrcp (f1 .f32), [0x40800000], 0x3E800000),
    (.vfrsq (f1 .f32), [0x40800000], 0x3F000000), (.vfmin (f2 .f32), [0x7FC00000, 0xBF800000], 0xBF800000), (.vfmax (f2 .f32), [0x3F800000, 0x40000000], 0x40000000),
    (.vfabs (f1 .f32), [0xC0400000], 0x40400000), (.vfneg (f1 .f32), [0x40400000], 0xC0400000), (.vfcls (f1 .f32), [0x80000001], 0x10),
    (.vfcls (f1 .f32), [0x7FA00000], 1), (.vfadd (f2 .f32), [0x7F800000, 0xFF800000], 0x7FC00000)].all (fun x => laneGives x.2.1 x.1 [(9, x.2.2)]) = true := by decide

/-- R154 to R159: conversions, and the spec's VPACK example with its flags OVF and INX. -/
theorem test_lane_convert : [(Instr.vcvt (f1 .i32 12), ([0x40200000] : List Elem), ([(9, 2)] : List (Nat × Elem))), (.vcvt (f1 .f32 2), [0xFFFFFFFD], [(9, 0xC0400000)]),
    (.vpack (f1 .e4m3 12), [0x43E00000, 0xBF000000, 0x43FA0000, 0x3C000000], [(9, 0x047EB07E)]), (.vunpk (f1 .i32 0), [0x7F80FF01], [(9, 1), (10, 0xFFFFFFFF), (11, 0xFFFFFF80), (12, 0x7F)]),
    (.vqaq (f3 .aq4 12), [0x40A00000, 0x3C00, 3], [(9, 8)]), (.vdq (f3 .f32 20), [7, 0x4000, 3], [(9, 0x41000000)]), (.vdq (f2 .f32 14), [0x38, 128], [(9, 0x40000000)])].all
      (fun x => laneGives x.2.1 x.1 x.2.2) = true := by decide

/-- The digest of the three bytes "abc", from FIPS 180-4's own example. -/
theorem test_sha512 : (sha512 [0x61, 0x62, 0x63]).take 8 = [0xDD, 0xAF, 0x35, 0xA1, 0x93, 0x61, 0x7A, 0xBA] := by decide +kernel

theorem test_pack_word : decodeTableWord 96 0x305C0000040040000000000C =
    some (.vpack ⟨.e4m3, .rne, ⟨⟨false, 0⟩, ⟨false, 0⟩, .aOnly⟩, .v 8, .v 4, .v 0, .v 0, .v 0, 0, false, 12⟩) := by decide

/-- R56 to R60, R160 to R162: 1.0 added to x = 0 leaves N = 2^1074; XRND gives 1.0 back. -/
theorem test_exact : leads (.xadd (form .f32 .rne .x (.v 1) (.v 0) (.v 0) (.v 0) 0)) (on [laneGroup [0x3F800000]]) (inGroup fun g => g.x.n == 2 ^ 1074) = true ∧
    leads (.xsub (form .f32 .rne .x (.v 1) (.v 0) (.v 0) (.v 0) 0)) (on [laneGroup [0x3F800000]]) (inGroup fun g => g.x.n == -(2 ^ 1074)) = true ∧
    leads (.xrnd (form .f64 .rne (.v 10) .x (.v 0) (.v 0) (.v 0) 0)) (on [{ laneGroup [] with x := ⟨2 ^ 1074, false, false, false, false⟩ }])
      (inGroup fun g => g.elem 11 0 == 0x3FF00000 && g.elem 10 0 == 0) = true ∧
    leads (.xclr (form .i8 .rne .x (.v 0) (.v 0) (.v 0) (.v 0) 0)) (on [{ laneGroup [] with x := ⟨5, true, false, false, false⟩ }])
      (inGroup fun g => g.x == XAcc.zero) = true := by decide

/-! Witnesses. For every statement with hypotheses: states and operands that meet them together, one for each clause, at the edges of
its ranges. -/

theorem on_runs (g : Group) (rest : List Group) (m : List (Nat × List Byte)) (x : Split) (h : g.split 0 = some x) : Runs (on (g :: rest) m) g x :=
  ⟨rfl, h⟩

/-- The machine of g0 with registers. -/
abbrev ex (l : List (Nat × Word)) (m : List (Nat × List Byte) := []) : State := on [g0 l] m

theorem ex_runs (l : List (Nat × Word)) (m : List (Nat × List Byte) := []) : Runs (ex l m) (g0 l) x0 := on_runs _ _ _ _ rfl

/-- Its workgroup. -/
abbrev w0 (gs : List Group) : Wg := Wg.start 0 0 0 0x10000 0 gs

theorem on_wg (gs : List Group) (m : List (Nat × List Byte)) : (on gs m).wg? (on gs m).cur.wg = some (w0 gs) := rfl

theorem on_replicas (gs : List Group) (m : List (Nat × List Byte)) : ReplicasCurrent (on gs m) := by
  intro q r hq hr
  rcases q with _ | _ | _ | _ | q
  · exact Nat.zero_le _
  · exact Nat.zero_le _
  · exact Nat.zero_le _
  · exact Nat.zero_le _
  · omega

/-- Every replica of a machine is up to date, and its executing core exists. -/
def drainedB (s : State) : Bool :=
  decide (s.curCore < Config.cores) && (List.range 4).all fun q => (List.range 4).all fun r =>
    decide ((s.reach q).replLog.length ≤ getVec (s.reach q).replApplied r 0)

theorem drained_intro {s : State} (h : drainedB s = true) : Drained s := by
  simp only [drainedB, Bool.and_eq_true, decide_eq_true_eq, List.all_eq_true, List.mem_range] at h
  exact ⟨h.1, fun q r hq hr => h.2 q hq r hr⟩

theorem on_drained (g : Group) (rest : List Group) (m : List (Nat × List Byte)) : Drained (on (g :: rest) m) :=
  ⟨by show 0 < 192; decide, on_replicas _ _⟩

/-- A reference to a byte of HBM, of a vault or to nothing. -/
def plainRef (s : State) : ByteRef → Bool
  | .whole (.hbm _) => true
  | .whole (.vault w _) => (s.wg? w).isSome
  | .whole .null => true
  | _ => false

theorem plainRef_own {s : State} {b : ByteRef} (h : plainRef s b = true) : s.ownRef b := by
  unfold plainRef at h
  split at h
  · exact .inl trivial
  · exact .inl h
  · exact .inr rfl
  · cases h

/-- What an agent's access resolves to. -/
def resolvedBy (s : State) (ag : Agent) (acc : Acc) (va : Nat) : Resolved :=
  match s.resolve ag acc va with
  | ⟨.ok r, _⟩ => r
  | _ => ⟨[], [], (0, 0), none, none, 0, [], []⟩

/-- An agent's access resolves to its own unpoisoned bytes. -/
def isOwn (s : State) (ag : Agent) (acc : Acc) (va : Nat) : Bool :=
  match s.resolve ag acc va with
  | ⟨.ok r, none⟩ => r.refs.length == acc.n && r.refs.all fun b => plainRef s b && !s.refPoisoned b
  | _ => false

theorem isOwn_spec {s : State} {ag : Agent} {acc : Acc} {va : Nat} (h : isOwn s ag acc va = true) :
    s.resolve ag acc va = ⟨.ok (resolvedBy s ag acc va), none⟩ ∧ (resolvedBy s ag acc va).refs.length = acc.n ∧
      ∀ b ∈ (resolvedBy s ag acc va).refs, s.ownRef b ∧ s.refPoisoned b = false := by
  unfold isOwn at h
  unfold resolvedBy
  split at h
  · next r e =>
    simp only [Bool.and_eq_true, beq_iff_eq, List.all_eq_true, Bool.not_eq_true'] at h
    rw [e]
    exact ⟨rfl, h.1, fun b hb => ⟨plainRef_own (h.2 b hb).1, (h.2 b hb).2⟩⟩
  · cases h

theorem local_intro {s : State} {acc : Acc} {va : Nat} (h : isOwn s s.agent acc va = true) (ht : s.hostif.params.tierHot = 0)
    (hw : windowOf va ≠ .view := by decide) (hl : s.lookHeld va = none := by rfl) : s.local s acc va (resolvedBy s s.agent acc va) :=
  ⟨State.prepared_plain hw hl, (isOwn_spec h).1, (isOwn_spec h).2.1, (isOwn_spec h).2.2, ht⟩

/-- The condition that an access meets. -/
def failOf (s : State) (ag : Agent) (acc : Acc) (va : Nat) : Option Cond :=
  match s.resolve ag acc va with
  | ⟨.error c, none⟩ => some c
  | _ => none

theorem failOf_spec {s : State} {ag : Agent} {acc : Acc} {va : Nat} {c : Cond} (h : failOf s ag acc va = some c) :
    s.resolve ag acc va = ⟨.error c, none⟩ := by
  unfold failOf at h
  split at h
  · next e => cases h; exact e
  · cases h

theorem meets_intro {s : State} {acc : Acc} {va : Nat} {c : Cond} (h : failOf s s.agent acc va = some c) (hc : c.cls ≠ .poison := by decide)
    (hw : windowOf va ≠ .view := by decide) (hl : s.lookHeld va = none := by rfl) : s.meets s acc va c :=
  ⟨State.prepared_plain hw hl, failOf_spec h, hc⟩

/-- The state after a read of an operand record. -/
def afterRead (s : State) (va n : Nat) : State := s.served s.agent 0 false (resolvedBy s s.agent (Acc.load n) va).refs

/-- The record an operand address names. -/
def recordOf (s : State) (va n : Nat) : List Byte := s.readRefs s.agent false (resolvedBy s s.agent (Acc.load n) va).refs

theorem reads_intro {s : State} {va n align : Nat} (h : isOwn s s.agent (Acc.load n) va = true) (ht : s.hostif.params.tierHot = 0)
    (ha : va % align = 0) (hw : windowOf va ≠ .view := by decide) (hl : s.lookHeld va = none := by rfl) :
    s.reads (afterRead s va n) va n align (recordOf s va n) :=
  ⟨ha, s, _, local_intro h ht hw hl, rfl, rfl⟩

/-! Scalar instructions. -/

theorem witness_ScalarArithmeticResult : Runs (ex [(1, -7), (2, 3)]) (g0 [(1, -7), (2, 3)]) x0 ∧
    [Instr.addpc 1 2, .add 1 1 2, .sub 1 1 2, .and 1 1 2, .or 1 1 2, .xor 1 1 2, .shl 1 1 2, .shr 1 1 2, .sra 1 1 2, .min 1 1 2, .max 1 1 2,
      .minn 1 1 2, .maxn 1 1 2, .slt 1 1 2, .sltn 1 1 2, .mul 1 1 2, .mulh 1 1 2, .mulhn 1 1 2, .div 1 1 0, .divn 1 1 2, .rem 1 1 2, .remn 1 1 2,
      .csel 1 1 2, .addi 1 1 2, .andi 1 1 2, .ori 1 1 2, .xori 1 1 2, .shli 1 1 63, .shri 1 1 2, .srai 1 1 2, .slti 1 1 2, .sltni 1 1 2, .lih 0 2,
      .lit 63 2].all (fun i => (scalarResult (scalarReg (g0 [(1, -7), (2, 3)]) x0) x0.pc i).isSome) = true := ⟨ex_runs _, by decide⟩

theorem witness_BranchResult : Runs (ex [(3, 0x2040)]) (g0 [(3, 0x2040)]) x0 ∧ (scalarReg (g0 [(3, 0x2040)]) x0 3).toNat % 64 = 0 :=
  ⟨ex_runs _, by decide⟩

/-- A misaligned target, the least refused values of FLAGS (13 bits, rounding code 6) and of WGERR. -/
theorem witness_TrappingInstructions : let l : List (Nat × Word) := [(1, 0x2001), (2, 0x2000), (3, 0xC00), (4, 0x100)]
    Runs (ex l) (g0 l) x0 ∧ (scalarReg (g0 l) x0 1).toNat % 64 ≠ 0 ∧ 2 ^ 13 ≤ (scalarReg (g0 l) x0 2).toNat ∧
      6 ≤ fld (scalarReg (g0 l) x0 3).toNat 9 3 ∧ 2 ^ 8 ≤ (scalarReg (g0 l) x0 4).toNat := ⟨ex_runs _, by decide⟩

/-- A group with queue entries. -/
def queued (items : List LaneItem) : Group := { g0 [] with laneQ := items.map fun i => { headEntry with item := i } }

/-- A VLD (words and a VADD): lane memory work, and lane work that is none. -/
def vldWord : Nat := 0x401800000440200C84000000
def vfaddWord : Nat := 0x201807540200100400000000

theorem witness_MaskBranchResult : Runs (ex []) (g0 []) x0 ∧ (g0 []).laneQ.any (fun e => e.writesMask 3) = false ∧
    Runs (on [queued [.mset 3 1]]) (queued [.mset 3 1]) x0 ∧ (queued [.mset 3 1]).laneQ.any (fun e => e.writesMask 3) = true :=
  ⟨ex_runs _, by decide, on_runs _ _ _ _ rfl, by decide⟩

theorem witness_StatusReadResult : Runs (ex []) (g0 []) x0 ∧ (ex []).wg? (ex []).cur.wg = some (w0 [g0 []]) ∧
    (ex []).launch? (w0 [g0 []]).launch = some loadedLaunch ∧ (∀ n ∈ [(0 : BitVec 6), 0x15, 0x20, 0x3F], n.toNat ≤ 0x15 ∨ 0x20 ≤ n.toNat) ∧
    (g0 []).noLaneWork ∧ ∀ e ∈ (g0 []).laneQ, e.writesSeed (g0 []).flags = false :=
  ⟨ex_runs _, rfl, rfl, by decide, by unfold Group.noLaneWork; decide, by decide⟩

theorem witness_StatusWriteResult : let l : List (Nat × Word) := [(1, 0x1BFF), (2, 0xFF)]
    Runs (ex l) (g0 l) x0 ∧ (g0 l).noLaneWork ∧ (scalarReg (g0 l) x0 1).toNat < 2 ^ 13 ∧ fld (scalarReg (g0 l) x0 1).toNat 9 3 < 6 ∧
      (scalarReg (g0 l) x0 2).toNat < 2 ^ 8 ∧ Runs (on [queued [.word vfaddWord 0]]) (queued [.word vfaddWord 0]) x0 ∧
      ¬ (queued [.word vfaddWord 0]).noLaneWork := by
  refine ⟨ex_runs _, ?_, by decide, by decide, by decide, on_runs _ _ _ _ rfl, ?_⟩ <;> · unfold Group.noLaneWork; decide

/-- EXIT of one of two splits leaves the group live. -/
theorem witness_SplitControlResult : let two : Group := (g0 []).setSplit 1 (some x0)
    Runs (ex []) (g0 []) x0 ∧ (g0 []).noLaneWork ∧ Runs (on [queued [.word vfaddWord 0]]) (queued [.word vfaddWord 0]) x0 ∧
      ¬ (queued [.word vfaddWord 0]).noLaneWork ∧ Runs (on [two]) two x0 ∧ ((two.setSplit 0 none).refill 64).drained = false := by
  refine ⟨ex_runs _, ?_, on_runs _ _ _ _ rfl, ?_, on_runs _ _ _ _ rfl, by decide⟩ <;> · unfold Group.noLaneWork; decide

theorem witness_ExitRetiresGroup : Runs (on [g0 [], g0 []]) (g0 []) x0 ∧ (on [g0 [], g0 []]).wg? 0 = some (w0 [g0 [], g0 []]) ∧ (g0 []).retired = false ∧
    (((g0 []).setSplit 0 none).refill 64).drained = true ∧ (1 ≠ (on [g0 [], g0 []]).cur.g ∧ (w0 [g0 [], g0 []]).groups[1]? = some (g0 []) ∧ (g0 []).retired = false) :=
  ⟨on_runs _ _ _ _ rfl, rfl, rfl, by decide, by decide, rfl, rfl⟩

theorem witness_FenceResult : Runs (ex []) (g0 []) x0 ∧ (ex []).noLaneMemory (g0 []) ∧ Drained (ex []) ∧
    Runs (on [queued [.word vldWord 0]]) (queued [.word vldWord 0]) x0 ∧ ¬ (on [queued [.word vldWord 0]]).noLaneMemory (queued [.word vldWord 0]) ∧
    (Scope.dev = .dev ∨ Scope.dev = .sys) := by
  refine ⟨ex_runs _, ?_, on_drained _ _ _, on_runs _ _ _ _ rfl, ?_, .inl rfl⟩ <;> · unfold State.noLaneMemory; decide

/-- The end of the mapped page, and the first address past it, which no entry maps: PAGE. -/
theorem witness_ScalarLoadResult : let l : List (Nat × Word) := [(1, 0x3FFFFFF8), (2, 0x40000000)]
    let acc : Acc := { Acc.load 8 with strict := true }
    Runs (ex l) (g0 l) x0 ∧ (ex l).local (ex l) acc 0x3FFFFFF8 (resolvedBy (ex l) (ex l).agent acc 0x3FFFFFF8) ∧
      (scalarReg (g0 l) x0 1).toNat = 0x3FFFFFF8 ∧ (∃ c, (ex l).meets (ex l) (Acc.load 8) 0x40000000 c) ∧ windowOf 0x3FFFFFF8 ≠ .view ∧
      ReplicasCurrent (ex l) :=
  ⟨ex_runs _, local_intro (by decide) rfl, by decide, ⟨⟨.page, 0x40000000, false⟩, meets_intro (by decide)⟩, by decide, on_replicas _ _⟩

theorem witness_ScalarStoreResult : let l : List (Nat × Word) := [(1, 0x3FFFFFF8), (2, 0x2001)]
    let acc : Acc := { Acc.store 8 with strict := true }
    Runs (ex l) (g0 l) x0 ∧ (ex l).noLaneMemory (g0 l) ∧ Drained (ex l) ∧
      (ex l).local (ex l) acc 0x3FFFFFF8 (resolvedBy (ex l) (ex l).agent acc 0x3FFFFFF8) ∧ ∃ c, (ex l).meets (ex l) acc 0x2001 c :=
  ⟨ex_runs _, by unfold State.noLaneMemory; decide, on_drained _ _ _, local_intro (by decide) rfl, ⟨.alignData, 0x2001, false⟩,
    meets_intro (by decide)⟩

theorem witness_ScalarAtomicResult : let l : List (Nat × Word) := [(1, 0x2000)]
    let s := ex l
    let acc : Acc := { Acc.store 8 with strict := true }
    Runs s (g0 l) x0 ∧ s.noLaneMemory (g0 l) ∧ Drained s ∧ s.local s acc (scalarReg (g0 l) x0 1).toNat (resolvedBy s s.agent acc 0x2000) ∧
      s.pcieHost (resolvedBy s s.agent acc 0x2000).refs = false ∧ ∃ c, s.meets s acc 0x2001 c :=
  ⟨ex_runs _, by unfold State.noLaneMemory; decide, on_drained _ _ _, local_intro (by decide) rfl, by decide, ⟨.alignData, 0x2001, false⟩,
    meets_intro (by decide)⟩

/-! Handing work to the lane stream. -/

/-- The bytes of code at an address. -/
def codeAt (s : State) (lane : Bool) (va n : Nat) : Option (List Byte) :=
  match s.codeRead s.agent lane va n with
  | .ok bs => some bs
  | .error _ => none

theorem codeAt_spec {s : State} {lane : Bool} {va n : Nat} {bs : List Byte} (h : codeAt s lane va n = some bs) :
    s.codeRead s.agent lane va n = .ok bs := by
  unfold codeAt at h
  split at h
  · next e => cases h; exact e
  · cases h

/-- A full queue. -/
def full : Group := queued (List.replicate 64 (.closeQ 0))

/-- Lane code starts at 0x1000. LX of the last index, and LXR of one instruction there; a queue with room and a full one. -/
theorem witness_LaneEnqueueResult : let l : List (Nat × Word) := [(1, 0xFFFFF), (2, 1)]
    let none12 : List (List Byte) := [List.replicate 12 0]
    Runs (ex l) (g0 l) x0 ∧ (g0 l).laneQ.length + 1 ≤ 64 ∧ ((ex l).launchOf 0).map Launch.lcb = some 0x1000 ∧
      (ex l).wordsReady (ex l).agent 0x1000 0xFFFFF 1 = (ex l, true) ∧
      (∀ j b, none12[j]? = some b → (ex l).codeRead (ex l).agent true ((0x1000 + 12 * (0xFFFFF + j)) % 2 ^ 64) 12 = .ok b) ∧
      (0xFFFFF : BitVec 20).toNat + (0 : BitVec 6).toNat < 2 ^ 20 ∧ none12.length = (0 : BitVec 6).toNat + 1 ∧
      none12.length = (scalarReg (g0 l) x0 2).toNat ∧ (scalarReg (g0 l) x0 1).toNat + none12.length ≤ 2 ^ 20 ∧
      Runs (on [full]) full x0 ∧ ¬ full.laneQ.length + 1 ≤ 64 := by
  refine ⟨ex_runs _, by decide, rfl, ?_, ?_, by decide, rfl, by decide, by decide, on_runs _ _ _ _ rfl, by decide⟩
  · unfold State.wordsReady State.codeReady
    exact State.askPeers_plain _ _ _ (by decide)
  · intro j b h
    match j with
    | 0 => cases h; exact codeAt_spec (by decide)
    | j + 1 => cases h

/-- Masks read at once and behind a queued writer; the last lane and register, an even pair; and every form that traps, at its least
operand. -/
theorem witness_LaneReadBackResult : let l : List (Nat × Word) := [(1, 63), (2, 254), (3, 64), (4, 256), (5, 255), (6, 65), (7, 0x100000)]
    Runs (ex l) (g0 l) x0 ∧ (∀ e ∈ (g0 l).laneQ, e.writesMask 3 = false) ∧ Runs (on [queued [.mset 3 1]]) (queued [.mset 3 1]) x0 ∧
      (∃ e ∈ (queued [.mset 3 1]).laneQ, e.writesMask 3 = true) ∧ (scalarReg (g0 l) x0 1).toNat < 64 ∧ (scalarReg (g0 l) x0 2).toNat < (g0 l).nregs ∧
      (scalarReg (g0 l) x0 2).toNat % 2 = 0 ∧ (∀ e ∈ (g0 l).laneQ, e.writesReg 254 = false ∧ e.writesReg 255 = false) ∧
      2 ^ 20 ≤ (0xFFFFF : BitVec 20).toNat + (1 : BitVec 6).toNat ∧ (scalarReg (g0 l) x0 0).toNat = 0 ∧ 64 < (scalarReg (g0 l) x0 6).toNat ∧
      2 ^ 20 < (scalarReg (g0 l) x0 7).toNat + (scalarReg (g0 l) x0 1).toNat ∧ 64 ≤ (scalarReg (g0 l) x0 3).toNat ∧
      (g0 l).nregs ≤ (scalarReg (g0 l) x0 4).toNat ∧ (scalarReg (g0 l) x0 5).toNat % 2 = 1 :=
  ⟨ex_runs _, by decide, on_runs _ _ _ _ rfl, by decide, by decide, by decide, by decide, by decide, by decide, by decide, by decide, by decide, by decide,
    by decide, by decide⟩

/-- Fields of a record at an address: offset, size, value. -/
def fields (at_ : Nat) (l : List (Nat × Nat × Nat)) : List (Nat × List Byte) := l.map fun x => (at_ + x.1, bytesOfNat x.2.1 x.2.2)

/-- A stream record of 64 f32 elements at 0x8000, plain or counted on k3 at .dev. -/
def streamRecord (at_ : Nat) (counted : Bool) : List (Nat × List Byte) :=
  fields at_ [(0, 8, 0x8000), (8, 4, 12 + if counted then 2 ^ 11 + 3 * 2 ^ 12 + 4 * 2 ^ 16 else 0), (0x10, 4, 64), (0x14, 4, 1), (0x18, 4, 1), (0x1C, 4, 1), (0x20, 4, 4)]

theorem witness_StreamOpenResult : let l : List (Nat × Word) := [(1, 0x2000), (2, 0x3000), (3, 0x4000)]
    let s := ex l (streamRecord 0x2000 false ++ streamRecord 0x3000 true)
    let v := afterRead s 0x3000 64
    Runs s (g0 l) x0 ∧ s.noLaneMemory (g0 l) ∧
      s.reads (afterRead s 0x2000 64) (scalarReg (g0 l) x0 1).toNat 64 16 (recordOf s 0x2000 64) ∧ strmMalformed (recordOf s 0x2000 64) = false ∧
      strmCounted (recordOf s 0x2000 64) = false ∧
      s.reads v (scalarReg (g0 l) x0 2).toNat 64 16 (recordOf s 0x3000 64) ∧ strmMalformed (recordOf s 0x3000 64) = false ∧
      strmCounted (recordOf s 0x3000 64) = true ∧ Runs v (g0 l) x0 ∧ v.wg? s.cur.wg = some (w0 [g0 l]) ∧ Drained v ∧
      v.inFlight v.curCore < 1024 ∧ (g0 l).laneQ.length < 64 ∧
      s.reads (afterRead s 0x4000 64) (scalarReg (g0 l) x0 3).toNat 64 16 (recordOf s 0x4000 64) ∧ strmMalformed (recordOf s 0x4000 64) = true := by
  refine ⟨ex_runs _ _, by unfold State.noLaneMemory; decide, ?_, by decide, by decide, ?_, by decide, by decide, Runs.served (ex_runs _ _) _ _ _ _,
    State.served_wg? _ _ _ _ _ _, Drained.served (on_drained _ _ _) _ _ _ _, by decide, by decide, ?_, by decide⟩
  · exact reads_intro (by decide) rfl (by decide)
  · exact reads_intro (by decide) rfl (by decide)
  · exact reads_intro (by decide) rfl (by decide)

/-! Barriers and waits. -/

/-- A workgroup of g0 with registers, changed. -/
def wgWith (l : List (Nat × Word)) (f : Wg → Wg) : Wg := f (w0 [g0 l])

/-- The machine with given workgroups. -/
def onWgs (ws : List Wg) (bytes : List (Nat × List Byte) := []) : State := { on [] bytes with wgs := ws }

theorem onWgs_replicas (ws : List Wg) (m : List (Nat × List Byte)) : ReplicasCurrent (onWgs ws m) := on_replicas [] m

/-- Counts 1 and 1,023; a word in its second phase, whose old token is passed and whose current one is not; counts 0 and 1,024; rank 0
and rank 1 of a cluster of one. -/
theorem witness_BarrierResult : let l : List (Nat × Word) := [(1, 1), (2, 1023), (3, 1024), (4, 7)]
    let w := wgWith l fun w => { w with barriers := modVec (fun _ => ⟨8, 2, 1, false⟩) w.barriers 5 }
    let s := onWgs [w]
    let held (k : BitVec 32) : Split := { x0 with syncToken := some k }
    let h (k : BitVec 32) : Group := (g0 l).setSplit 0 (some (held k))
    Runs s (g0 l) x0 ∧ s.wg? s.cur.wg = some w ∧ tokenPassed ⟨8, 2, 1, false⟩ 7 ∧ ¬ tokenPassed ⟨8, 2, 1, false⟩ 8 ∧
      (∀ k, Runs (onWgs [{ w with groups := [h k] }]) (h k) (held k) ∧ (held k).syncToken = some k) ∧
      (1 ≤ (scalarReg (g0 l) x0 1).toNat ∧ (scalarReg (g0 l) x0 2).toNat ≤ 1023) ∧
      s.noLaneMemory (g0 l) ∧ Drained s ∧ x0.syncToken = none ∧ (Barrier.arrived1 ⟨8, 2, 1, false⟩ 2).phase ≠ 8 ∧ (Barrier.arrived1 ⟨8, 2, 0, false⟩ 2).phase = 8 ∧
      s.rankWg s.cur.wg (scalarReg (g0 l) x0 0).toNat = some 0 ∧ (scalarReg (g0 l) x0 0).toNat < (s.clusterOf s.cur.wg).2 ∧ w.state = .resident ∧
      (scalarReg (g0 l) x0 0).toNat = 0 ∧ 1023 < (scalarReg (g0 l) x0 3).toNat ∧ (s.clusterOf s.cur.wg).2 ≤ (scalarReg (g0 l) x0 1).toNat := by
  refine ⟨⟨rfl, rfl⟩, rfl, by unfold tokenPassed; decide, by unfold tokenPassed; decide, fun _ => ⟨⟨rfl, rfl⟩, rfl⟩, by decide,
    by unfold State.noLaneMemory; decide, drained_intro (by decide), rfl, by decide, by decide, by decide, by decide, rfl, by decide, by decide, by decide⟩

/-- KDONE 5 of k2 against 5 and 6, with and without a failed command of number 5; granule 1 of the own vault full and granule 2 empty, a
misaligned address, and one outside the window. -/
theorem witness_CounterWaitResult : let l : List (Nat × Word) := [(1, 5), (2, 6), (3, 0xFD0000FF00000010), (4, 0xFD0000FF00000020), (5, 0xFD0000FF00000011), (6, 0xFC00000000000000)]
    let w := wgWith l fun w => { w with counters := modVec (fun _ => ⟨6, 5, []⟩) w.counters 2, full := [1] }
    let c : CmdTrap := ⟨2, 5, 1, 0⟩
    let v : Wg := { w with cmdTraps := [c] }
    let s := onWgs [w]
    Runs s (g0 l) x0 ∧ s.wg? s.cur.wg = some w ∧ s.noLaneMemory (g0 l) ∧ (scalarReg (g0 l) x0 1).toNat ≤ (w.counter 2).completed ∧
      (∀ c ∈ w.cmdTraps, ¬ (c.counter = 2 ∧ c.num ≤ 5)) ∧ (w.counter 2).completed < (scalarReg (g0 l) x0 2).toNat ∧ windowOf (scalarReg (g0 l) x0 6).toNat ≠ .vault ∧
      (windowOf (scalarReg (g0 l) x0 3).toNat = .vault ∧ s.vaultTarget s.agent (scalarReg (g0 l) x0 3).toNat 1 = some (0, 16) ∧ w.full.contains 1 = true) ∧
      (s.vaultTarget s.agent (scalarReg (g0 l) x0 4).toNat 1 = some (0, 32) ∧ w.full.contains 2 = false) ∧ (scalarReg (g0 l) x0 5).toNat % 16 ≠ 0 ∧
      Runs (onWgs [v]) (g0 l) x0 ∧ (onWgs [v]).wg? 0 = some v ∧ (onWgs [v]).noLaneMemory (g0 l) ∧ c ∈ v.cmdTraps ∧ (∀ d ∈ v.cmdTraps, d.counter = 2 → d ≠ c → c.num < d.num) ∧
      statusClass c.status c.faultCode = some .address := by
  refine ⟨⟨rfl, rfl⟩, rfl, by unfold State.noLaneMemory; decide, by decide, by decide, by decide, by decide, by decide, by decide, by decide, ⟨rfl, rfl⟩, rfl,
    by unfold State.noLaneMemory; decide, by decide, by decide, by decide⟩

/-! Handing work to the engines. -/

/-- No collective is open on k1; on k2 the slice of another group waits for this one. -/
theorem witness_CopyIssueResult : let l : List (Nat × Word) := [(1, 0x2000), (2, 0x3000)]
    let c : Cmd := ⟨2, 1, .copy [⟨1, false, none, bytesOfNat 128 (2 ^ (8 * 0x10 + 7)), none, false, false, [], []⟩] false 0, none, .grp, false, 0, none⟩
    let w := wgWith l fun w => { w with cmds := [c], counters := modVec (fun _ => ⟨1, 0, []⟩) w.counters 2 }
    let s := onWgs [w]
    let v := afterRead s 0x2000 128
    Runs s (g0 l) x0 ∧ s.noLaneMemory (g0 l) ∧ s.wg? s.cur.wg = some w ∧ s.reads v (scalarReg (g0 l) x0 1).toNat 128 16 (recordOf s 0x2000 128) ∧
      Runs v (g0 l) x0 ∧ v.wg? s.cur.wg = some w ∧ Drained v ∧ v.cmd? ⟨0, 2, 1⟩ = some c ∧ recordAligned (scalarReg (g0 l) x0 2).toNat ∧ w.openCopy 1 = none ∧ s.inFlight s.curCore < 1024 ∧ (∀ c ∈ w.cmds, c.counter = 1 → c.num ≤ (w.counter 1).issued) ∧
      w.openCopy 2 = some c ∧ ∀ y ∈ c.slices, y.group ≠ s.cur.g := by
  refine ⟨⟨rfl, rfl⟩, by unfold State.noLaneMemory; decide, rfl, reads_intro (by decide) rfl (by decide), Runs.served ⟨rfl, rfl⟩ _ _ _ _,
    State.served_wg? _ _ _ _ _ _, Drained.served (drained_intro (by decide)) _ _ _ _, rfl, by unfold recordAligned; decide, by decide, by decide,
    by decide, by decide, by decide⟩

/-- A machine whose reach also maps a CC page of pseudo-channel 0 at 0x40000000. -/
def withCc (s : State) : State :=
  { s with reaches := modVec (fun r => { r with tlb := [loadedPage, ⟨1, ⟨0x40000000, 2 ^ 21, .cc, 0, true, true, false⟩⟩] }) s.reaches 0 }

/-- The words of a BKLOAD, and the state after their reads. -/
def wordsOf (s : State) (va n : Nat) : State × List Nat :=
  match s.readWords va n with
  | .ok x => x
  | .error _ => (s, [])

def hasWords (s : State) (va n : Nat) : Bool :=
  match s.readWords va n with
  | .ok _ => true
  | .error _ => false

theorem hasWords_spec {s : State} {va n : Nat} (h : hasWords s va n = true) : s.readWords va n = .ok ((wordsOf s va n).1, (wordsOf s va n).2) := by
  unfold hasWords at h
  unfold wordsOf
  split at h
  · next e => rw [e]
  · cases h

/-- A BKFENCE of the page's pseudo-channel; a BKRUN of no vector; a BKLOAD of one word at 0x5000. -/
theorem witness_BankIssueResult : let l : List (Nat × Word) := [(1, 0x2000), (2, 0x3000), (3, 0x4000), (4, 0x6000)]
    let s := withCc (ex l (fields 0x2000 [(0, 8, 0x40000000)] ++ fields 0x3000 [(0, 8, 0x40000000), (0x14, 4, 32)] ++
      fields 0x4000 [(0, 8, 0x40000000), (0x18, 8, 0x5000), (0x20, 4, 1)]))
    let f := afterRead s 0x2000 64
    let r := afterRead s 0x3000 64
    let v := afterRead s 0x4000 64
    let u := (wordsOf v 0x5000 1).1
    Runs s (g0 l) x0 ∧ s.noLaneMemory (g0 l) ∧ recordAligned (scalarReg (g0 l) x0 4).toNat ∧
      (s.reads f (scalarReg (g0 l) x0 1).toNat 64 16 (recordOf s 0x2000 64) ∧ f.bankFault .fence (recordOf s 0x2000 64) = none ∧ Runs f (g0 l) x0 ∧
        f.wg? s.cur.wg = some (w0 [g0 l]) ∧ Drained f ∧ f.inFlight f.curCore < 1024) ∧
      (s.reads r (scalarReg (g0 l) x0 2).toNat 64 16 (recordOf s 0x3000 64) ∧ r.bankFault .run (recordOf s 0x3000 64) = none) ∧
      (s.reads v (scalarReg (g0 l) x0 3).toNat 64 16 (recordOf s 0x4000 64) ∧ v.bankFault .load (recordOf s 0x4000 64) = none ∧
        bkCount (recordOf s 0x4000 64) = 1 ∧ bkCode (recordOf s 0x4000 64) = 0x5000 ∧ v.readWords 0x5000 1 = .ok (u, (wordsOf v 0x5000 1).2) ∧
        Runs u (g0 l) x0 ∧ Drained u ∧ u.inFlight u.curCore < 1024) ∧
      s.readWords 0x5000 0 = .ok (s, []) ∧ s.reads (afterRead s 0x5000 4) ((0x5000 + 4 * 0) % 2 ^ 64) 4 1 (recordOf s 0x5000 4) := by
  refine ⟨⟨rfl, rfl⟩, by unfold State.noLaneMemory; decide, by unfold recordAligned; decide,
    ⟨reads_intro (by decide) rfl (by decide), by decide, Runs.served ⟨rfl, rfl⟩ _ _ _ _, State.served_wg? _ _ _ _ _ _,
      Drained.served (drained_intro (by decide)) _ _ _ _, by decide⟩,
    ⟨reads_intro (by decide) rfl (by decide), by decide⟩,
    ⟨reads_intro (by decide) rfl (by decide), by decide, by decide, by decide, hasWords_spec (by decide), ⟨by decide +kernel, by decide +kernel⟩,
      drained_intro (by decide), by decide⟩, rfl, reads_intro (by decide) rfl (by decide)⟩

/-- What an operation that may fail answers. -/
def okOf {ε α : Type} (r : Except ε α) : Option α :=
  match r with
  | .ok a => some a
  | .error _ => none

theorem okOf_spec {ε α : Type} {r : Except ε α} {a : α} (h : okOf r = some a) : r = .ok a := by
  cases r <;> simp_all [okOf]

/-- The places of a run of HBM bytes. -/
def hbmRun (pa n : Nat) : List ByteRef := (List.range n).map fun i => .whole (.hbm (pa + i))

theorem hbmRun_own (s : State) (pa n : Nat) : ∀ b ∈ hbmRun pa n, s.ownRef b := by
  intro b hb
  simp only [hbmRun, List.mem_map] at hb
  obtain ⟨i, -, rfl⟩ := hb
  exact .inl trivial

/-- The last view number and the first illegal one; an INVALID image, which is legal, and one of no kind. The view table is at 0x40000. -/
theorem witness_ViewBindResult : let l : List (Nat × Word) := [(1, 0xFFFF), (2, 0x10000), (3, 0x2000), (4, 0x3000)]
    let s := ex l [(0x3000, [15])]
    let v := afterRead s 0x2000 128
    Runs s (g0 l) x0 ∧ s.noLaneMemory (g0 l) ∧ s.reads v (scalarReg (g0 l) x0 3).toNat 128 16 (recordOf s 0x2000 128) ∧ Runs v (g0 l) x0 ∧
      s.reads (afterRead s 0x3000 128) (scalarReg (g0 l) x0 4).toNat 128 16 (recordOf s 0x3000 128) ∧ 0xFFFF < (scalarReg (g0 l) x0 2).toNat ∧ (scalarReg (g0 l) x0 1).toNat ≤ 0xFFFF ∧
      (parseDesc (recordOf s 0x2000 128)).imageOk = true ∧ (parseDesc (recordOf s 0x3000 128)).imageOk = false ∧ windowOf (v.descVa v.curCtx 0xFFFF) = .ordinary ∧
      v.resolveFlat v.agent (Acc.load 128) (v.descVa v.curCtx 0xFFFF) = .ok (hbmRun 0x83FF80 128) ∧ (hbmRun 0x83FF80 128).length = 128 ∧
      ∀ b ∈ hbmRun 0x83FF80 128, v.ownRef b := by
  refine ⟨ex_runs _ _, by unfold State.noLaneMemory; decide, reads_intro (by decide) rfl (by decide), Runs.served (ex_runs _ _) _ _ _ _,
    reads_intro (by decide) rfl (by decide), by decide, by decide, by decide,
    by decide, by decide, okOf_spec (by decide), by decide, hbmRun_own _ _ _⟩

/-- A KVMAP descriptor: 2 heads of 3 sequences of 8 positions a page of 2^3, entries at 0x7000. -/
def kvmapDesc (at_ : Nat) : List (Nat × List Byte) :=
  fields at_ [(0, 4, 3 + 3 * 16 + 4 * 128), (8, 8, 0x100000), (0x10, 4, 16), (0x14, 4, 8), (0x18, 4, 2), (0x1C, 4, 3), (0x28, 4, 0x3210), (0x60, 8, 0x7000), (0x68, 4, 64),
    (0x6C, 1, 3)]

/-- Its content. -/
def kvDesc : Desc := parseDesc (recordOf (ex [] (kvmapDesc 0x2000)) 0x2000 128)

theorem kvDesc_spec : (ex [(1, 0x10000), (2, 0x6000), (3, 5)] (kvmapDesc 0x40280)).descOf (ex [(1, 0x10000), (2, 0x6000), (3, 5)] (kvmapDesc 0x40280)).agent 0 5 = .ok kvDesc :=
  okOf_spec (by decide +kernel)

/-- View 5 is such a map of 6 entries; entry 5, the last. -/
theorem witness_ViewCommandResult : let l : List (Nat × Word) := [(1, 0x10000), (2, 0x6000), (3, 5)]
    let s := ex l (kvmapDesc 0x40280)
    Runs s (g0 l) x0 ∧ s.wg? s.cur.wg = some (w0 [g0 l]) ∧ s.noLaneMemory (g0 l) ∧ Drained s ∧ s.inFlight s.curCore < 1024 ∧ recordAligned (scalarReg (g0 l) x0 2).toNat ∧
      0xFFFF < (scalarReg (g0 l) x0 1).toNat ∧ (scalarReg (g0 l) x0 3).toNat ≤ 0xFFFF ∧ windowOf (s.descVa s.curCtx 5) = .ordinary ∧
      s.resolveFlat s.agent (Acc.load 128) (s.descVa s.curCtx 5) = .ok (hbmRun 0x40280 128) ∧ (∀ b ∈ hbmRun 0x40280 128, s.ownRef b) ∧
      (∃ d, s.descOf s.agent 0 5 = .ok d ∧ d.kind = some .kvmap ∧ (scalarReg (g0 l) x0 3).toNat < d.entryCount ∧
        s.resolveFlat s.agent (Acc.load 16) ((d.index + 16 * (scalarReg (g0 l) x0 3).toNat) % 2 ^ 64) = .ok (hbmRun 0x7050 16)) ∧
      ∀ b ∈ hbmRun 0x7050 16, s.ownRef b := by
  refine ⟨ex_runs _ _, rfl, by unfold State.noLaneMemory; decide, on_drained _ _ _, by decide, by unfold recordAligned; decide, by decide, by decide, by decide, okOf_spec (by decide),
    hbmRun_own _ _ _, ⟨kvDesc, kvDesc_spec, by decide, by decide, okOf_spec (by decide)⟩, hbmRun_own _ _ _⟩

/-- A machine with slots of core 0 changed. -/
def withSlots (s : State) (f : Nat → Slot → Slot) : State :=
  { s with cores := modVec (fun c => { c with slots := Vector.ofFn fun i => f i.val c.slots[i] }) s.cores 0 }

def claimed (x : Slot) : Slot := { x with state := .claimed }

/-- A run of 4 at the end of the slots, none, an own slot, and one that is not. -/
theorem witness_SlotClaimResult : let l : List (Nat × Word) := [(1, 3), (2, 31)]
    let s := withSlots (ex l) fun i x => if i < 28 then claimed x else x
    let t := withSlots (ex l) fun i x => if i % 4 = 0 then claimed x else x
    Runs s (g0 l) x0 ∧ s.curCore < 192 ∧ s.claimWaits s.curCore = [] ∧ (∀ i, i ≤ 3 → (s.slot s.curCore (28 + i)).state = .free) ∧ 28 + (3 : BitVec 2).toNat < 32 ∧
      (∀ k, k < 28 → ∃ i, i ≤ 3 ∧ (s.slot s.curCore (k + i)).state ≠ .free) ∧ Runs t (g0 l) x0 ∧ t.claimWaits t.curCore = [] ∧
      (∀ k, k + 3 < 32 → ∃ i, i ≤ 3 ∧ (t.slot t.curCore (k + i)).state ≠ .free) ∧
      ((scalarReg (g0 l) x0 1).toNat < 32 ∧ (s.slot s.curCore 3).state = .claimed ∧ (s.slot s.curCore 3).owner = s.cur.wg) ∧ (s.slot s.curCore 31).state ≠ .claimed := by
  refine ⟨⟨rfl, rfl⟩, by decide, by decide, ?_, by decide, fun k hk => ⟨0, by omega, ?_⟩, ⟨rfl, rfl⟩, by decide, fun k hk => ⟨(4 - k % 4) % 4, by omega, ?_⟩, by decide, by decide⟩
  · intro i hi
    have : i = 0 ∨ i = 1 ∨ i = 2 ∨ i = 3 := by omega
    rcases this with rfl | rfl | rfl | rfl <;> decide
  · revert hk; revert k; decide
  · have : ∀ k, k < 29 → ((withSlots (ex [(1, 3), (2, 31)]) fun i x => if i % 4 = 0 then claimed x else x).slot 0 (k + (4 - k % 4) % 4)).state ≠ .free := by decide
    exact this k (by omega)

/-- The rows of a load. -/
def rowsOf (s : State) (kind : OpldKind) (r conv : List Byte) : List LoadRow :=
  match s.loadRows kind false r conv (tlRows r) with
  | .ok (rows, _) => rows
  | .error _ => []

/-- Slot 3 is the workgroup's and slot 31 is free; a plain record of one row of BF16 at 0x8000, rows of 128 bytes. -/
theorem witness_OperandLoadIssueResult : let l : List (Nat × Word) := [(1, 3), (2, 0x2000), (3, 31)]
    let s := withSlots (ex l (fields 0x2000 [(0, 8, 0x8000), (8, 8, 128), (0x10, 4, 2)])) fun i x => if i = 3 then claimed x else x
    let r := recordOf s 0x2000 64
    let v := afterRead s 0x2000 64
    Runs s (g0 l) x0 ∧ s.noLaneMemory (g0 l) ∧ s.inFlight s.curCore < 1024 ∧ s.holds s.curCore s.cur.wg (scalarReg (g0 l) x0 3).toNat = false ∧
      (scalarReg (g0 l) x0 2).toNat % 16 = 0 ∧ s.holds s.curCore s.cur.wg (scalarReg (g0 l) x0 1).toNat = true ∧ s.reads v (scalarReg (g0 l) x0 2).toNat 64 16 r ∧
      tileMalformed .plain r = false ∧ v.rowsReady .plain r [] = (v, true) ∧ v.loadRows .plain false r [] (tlRows r) = .ok (rowsOf v .plain r [], v) ∧
      v.statusArray r = .ok [] ∧ Runs v (g0 l) x0 ∧ Drained v := by
  refine ⟨⟨rfl, rfl⟩, by unfold State.noLaneMemory; decide, by decide, by decide, by decide, by decide, reads_intro (by decide) rfl (by decide), by decide, rfl, rfl,
    okOf_spec (by decide), Runs.served ⟨rfl, rfl⟩ _ _ _ _, Drained.served (drained_intro (by decide)) _ _ _ _⟩

/-- Groups 0 and 1 as a gang in which both issue, and the least value refused. -/
def gang2 : Word := BitVec.ofNat 64 (0 + 1 * 32 + 2 * 2 ^ 30)

def seqOf (gang : Word) (seq : Nat) (arrived : List Nat) (fmt : List Byte) (confluent : Option Nat) : Seq :=
  { gang := gang, seq := seq, tile := 4, oA := 3, oB := 5, accumulate := true, seg := false, causal := false, fmt := fmt, sideA := [], sideB := [], arrived := arrived,
    arrivals := arrived.map fun g => (g, 0), firstStamp := 0, confluent := confluent, dataA := 0, dataB := 0, segA := 0, segB := 0 }

theorem witness_GangResult : let l : List (Nat × Word) := [(1, gang2), (2, 1)]
    let w : Wg := w0 [g0 l, g0 l]
    let v : Wg := { w with seqs := [seqOf gang2 1 [0] [] none] }
    Runs (onWgs [w]) (g0 l) x0 ∧ (onWgs [w]).wg? 0 = some w ∧ gangOk (scalarReg (g0 l) x0 2).toNat w.groups.length 0 = false ∧
      gangOk (scalarReg (g0 l) x0 1).toNat w.groups.length 0 = true ∧ (w.seqs.any fun q => q.confluent.isNone && q.arrived.contains 0) = false ∧
      Runs (onWgs [v]) (g0 l) x0 ∧ (v.seqs.any fun q => q.confluent.isNone && q.arrived.contains 0) = true ∧ (g0 l).gang = 0 :=
  ⟨⟨rfl, rfl⟩, rfl, by decide, by decide, by decide, ⟨rfl, rfl⟩, by decide, rfl⟩

/-- The first arrival of a gang, and the second of two at a sequence that agrees with it; a gang with sixteen sequences open. The format block is zeros, BF16, in the vault. -/
theorem witness_MmaArrivalResult : let g : Group := { g0 [(1, 0xFD0000FF00000100)] with gang := gang2 }
    let fb : List Byte := bytesOfNat 32 (2 + 2 * 256)
    let w : Wg := { w0 [g, g] with vault := Memory.writeRun [] 0x100 fb }
    let q := seqOf gang2 1 [1] fb none
    let mk (qs : List Seq) : State := withSlots (onWgs [{ w with seqs := qs }]) fun i x => if i = 3 ∨ i = 5 then claimed x else x
    let all := (List.range 16).map fun k => seqOf gang2 (k + 1) [1] fb none
    let go (s : State) (qs : List Seq) := Runs s g x0 ∧ s.reads (afterRead s 0xFD0000FF00000100 32) (scalarReg g x0 1).toNat 32 32 fb ∧
      Runs (afterRead s 0xFD0000FF00000100 32) g x0 ∧ (afterRead s 0xFD0000FF00000100 32).wg? 0 = some { w with seqs := qs }
    go (mk []) [] ∧ go (mk [q]) [q] ∧ go (mk all) all ∧ g.gang ≠ 0 ∧ 0 ∈ gangIssuers g.gang.toNat ∧ windowOf (scalarReg g x0 1).toNat = .vault ∧
      (afterRead (mk []) 0xFD0000FF00000100 32).holds 0 0 3 = true ∧ (afterRead (mk []) 0xFD0000FF00000100 32).holds 0 0 5 = true ∧
      fbOk fb = true ∧ fbFits fb 4 false false = true ∧ fbVault fb false = false ∧ fbVault fb true = false ∧
      [q].find? (fun q => q.seq == g.gangCount + 1 && q.confluent.isNone) = some q ∧ [q].filter (fun q => q.gang == g.gang) = [q] ∧
      (all.filter fun q => q.gang == g.gang).length = 16 ∧ q.fields = ⟨4, 3, 5, true, false, false, fb⟩ ∧ q.fields ≠ ⟨5, 3, 5, true, false, false, fb⟩ := by
  intro g fb w q mk all go
  have rd (qs : List Seq) (h : isOwn (mk qs) (mk qs).agent (Acc.load 32) 0xFD0000FF00000100 = true) (hr : recordOf (mk qs) 0xFD0000FF00000100 32 = fb) : go (mk qs) qs :=
    ⟨⟨rfl, rfl⟩, hr ▸ reads_intro h rfl (by decide), Runs.served ⟨rfl, rfl⟩ _ _ _ _, by unfold afterRead; rw [State.served_wg?]; rfl⟩
  refine ⟨rd _ (by decide) (by decide), rd _ (by decide) (by decide), rd _ (by decide) (by decide), by decide, by decide, by decide, by decide, by decide, by decide, by decide,
    by decide, by decide, by decide, by decide, by decide, by decide, by decide⟩

/-- A peer's door at 0x40000000, as the reach has translated it. -/
def doorLeaf : TlbEntry := ⟨1, ⟨0x40000000, 0x10000, .peer 5 true, 0xD000000000000, true, false, false⟩⟩

/-- An operation that has its outcome, or is sent. -/
def sentOp (k : Nat) (iss : Issuer) (r : RemoteReq) (out : Option Outcome) : RemoteOp :=
  { id := k, issuer := iss, owner := r.1, reqid := ⟨0, 1, 3⟩, payload := r.2.2, addr := r.2.1, serial := some (BitVec.ofNat 32 k), state := if out.isSome then .done else .sent
    firstSent := 0, lastSent := 0, copies := 1, onlyBusy := false, busyDelay := 0, checksums := 0, result := out }

def withOps (s : State) (os : List RemoteOp) : State :=
  { s with reaches := modVec (fun r => { r with tlb := [doorLeaf] }) s.reaches 0, fabric := { s.fabric with ops := os, nextOp := 100 } }

/-- The state in which an access goes on. -/
def goesOn {α : Type} (r : Early α) : State :=
  match r with
  | .ok x => x.1
  | .error s => s

def valueOf {α : Type} (d : α) (r : Early α) : α :=
  match r with
  | .ok x => x.2
  | .error _ => d

theorem early_ok {α : Type} {d b : α} {r : Early α} (h : r.toBool = true ∧ valueOf d r = b) : r = .ok (goesOn r, b) := by
  rcases r with t | x
  · exact absurd h.1 (by simp [Except.toBool])
  · exact congrArg Except.ok (Prod.ext rfl h.2)

/-- An item of the queue. -/
def itemOf (slot priority order join : Nat) (parent : Bool) (full : List (WgIx × Nat)) (empty : Option (WgIx × Nat)) : Item :=
  { slot := slot, gen := 3, ctx := 1, priority := priority, order := order, join := join, parent := parent, full := full, empty := empty, payload := List.replicate 64 7 }

def withItems (s : State) (is : List Item) : State := { s with reaches := modVec (fun r => { r with items := is }) s.reaches 0 }

/-- A push of an item of zeros, into a queue with room and into a full one, of a malformed one and of items with a full and an empty granule
outside the vault window. -/
theorem witness_TaskQueueResult : let l : List (Nat × Word) := [(1, 0x2000)]
    let go (s : State) := Runs s (g0 l) x0 ∧ s.noLaneMemory (g0 l) ∧ s.reads (afterRead s 0x2000 64) (scalarReg (g0 l) x0 1).toNat 64 16 (recordOf s 0x2000 64) ∧
      Runs (afterRead s 0x2000 64) (g0 l) x0 ∧ (afterRead s 0x2000 64).curCore < 192 ∧ (afterRead s 0x2000 64).doorOf (scalarReg (g0 l) x0 1).toNat = none
    let s := ex l
    let f := withItems (ex l) (List.replicate 65536 (itemOf 7 2 1 1 true [] none))
    let m := ex l [(0x2000, [0x10])]
    let a := ex l [(0x2000, [1]), (0x2008, [1])]
    let b := ex l [(0x2000, [4]), (0x2018, [1])]
    go s ∧ go f ∧ go m ∧ go a ∧ go b ∧ itemFieldsOk (recordOf s 0x2000 64) = true ∧ itemFieldsOk (recordOf m 0x2000 64) = false ∧
      (afterRead s 0x2000 64).itemFull (recordOf s 0x2000 64) = some [] ∧ (afterRead s 0x2000 64).itemEmpty (recordOf s 0x2000 64) = some none ∧
      (afterRead a 0x2000 64).itemFull (recordOf a 0x2000 64) = none ∧ itemFieldsOk (recordOf a 0x2000 64) = true ∧
      (afterRead b 0x2000 64).itemEmpty (recordOf b 0x2000 64) = none ∧ itemFieldsOk (recordOf b 0x2000 64) = true ∧
      ((afterRead s 0x2000 64).reach 0).items.length < 65536 ∧ ReplicasCurrent (afterRead s 0x2000 64) ∧
      65536 ≤ ((afterRead f 0x2000 64).reach 0).items.length ∧ itemFieldsOk (recordOf f 0x2000 64) = true ∧
      (afterRead f 0x2000 64).itemFull (recordOf f 0x2000 64) = some [] ∧ (afterRead f 0x2000 64).itemEmpty (recordOf f 0x2000 64) = some none := by
  refine ⟨⟨⟨rfl, rfl⟩, by unfold State.noLaneMemory; decide, reads_intro (by decide) rfl (by decide), Runs.served ⟨rfl, rfl⟩ _ _ _ _, by decide, by decide⟩,
    ⟨⟨rfl, rfl⟩, by unfold State.noLaneMemory; decide, reads_intro (by decide) rfl (by decide), Runs.served ⟨rfl, rfl⟩ _ _ _ _, by decide, by decide⟩,
    ⟨⟨rfl, rfl⟩, by unfold State.noLaneMemory; decide, reads_intro (by decide) rfl (by decide), Runs.served ⟨rfl, rfl⟩ _ _ _ _, by decide, by decide⟩,
    ⟨⟨rfl, rfl⟩, by unfold State.noLaneMemory; decide, reads_intro (by decide) rfl (by decide), Runs.served ⟨rfl, rfl⟩ _ _ _ _, by decide, by decide⟩,
    ⟨⟨rfl, rfl⟩, by unfold State.noLaneMemory; decide, reads_intro (by decide) rfl (by decide), Runs.served ⟨rfl, rfl⟩ _ _ _ _, by decide, by decide⟩,
    by decide, by decide, by decide, by decide, by decide, by decide, by decide, by decide, by decide, (Drained.served (drained_intro (by decide)) _ _ _ _).2, ?_, by decide, by decide, by decide⟩
  exact Nat.le_of_eq List.length_replicate.symm

/-- An item in a door: its record is read, and the owner is asked, or has answered with handle 0x30005 and OK. -/
theorem witness_TaskQueueResult2 : let l : List (Nat × Word) := [(1, 0x40000100)]
    let g := g0 l
    let red : RemoteOp := sentOp 7 (.scalar 0 0 0) (5, 0xD000000000100, .load 64) (some (.performed (List.replicate 64 0)))
    let push (out : Option Outcome) := sentOp 8 (.scalar 0 0 0) (5, 0xD000000000100, .push (List.replicate 64 0)) out
    let s (out : Option Outcome) := withOps (ex l) [red, push out]
    let v (out : Option Outcome) := goesOn ((s out).readRecord 0x40000100 64 16)
    let u (out : Option Outcome) := (v out).remoteBatch (v out).issuer (v out).curCtx engineTask [(5, 0xD000000000100, .push (List.replicate 64 0))]
    let ans : List Byte := [5, 0, 3, 0, 0, 0, 0, 0] ++ List.replicate 8 0
    (∀ out ∈ [none, some (.performed ans)], Runs (s out) g x0 ∧ (s out).noLaneMemory g ∧ (s out).readRecord (scalarReg g x0 1).toNat 64 16 = .ok (v out, List.replicate 64 0) ∧
      (v out).doorOf (scalarReg g x0 1).toNat = some (5, 0xD000000000100) ∧ Runs (u out).1 g x0 ∧ (u out).1.cur = (s out).cur) ∧
      (u none).2 = none ∧ (u (some (.performed ans))).2 = some [.performed ans] := by
  refine ⟨fun out h => ?_, by decide, by decide⟩
  simp only [List.mem_cons, List.not_mem_nil, or_false] at h
  rcases h with rfl | rfl <;> exact ⟨⟨rfl, rfl⟩, by unfold State.noLaneMemory; decide, early_ok (d := []) (by decide), by decide, ⟨rfl, rfl⟩, by decide⟩

/-- A pull that takes the second of two of one priority, whose granules 1 full and 2 empty are so, because the first is later; a queue with
no eligible item; a join of the last child, of a handle of no item, of an item that is no parent and of a parent with no join left. -/
theorem witness_TaskQueueResult3 : let l : List (Nat × Word) := [(3, 0xFD0000FF00000040), (4, 0x30007), (5, 0x30006), (6, 0x30009)]
    let w := wgWith l fun w => { w with full := [1] }
    let a := itemOf 5 2 9 0 false [] none
    let b := itemOf 6 2 8 0 false [(0, 1)] (some (0, 2))
    let c := itemOf 7 2 1 1 true [] none
    let s := withItems (onWgs [w]) [a, b, c, itemOf 9 1 1 0 true [] none]
    let t := withItems (onWgs [w]) [c, itemOf 8 9 0 0 false [(0, 2)] none, itemOf 9 9 0 0 false [] (some (0, 1))]
    let able (s : State) (i : Item) : Prop := i ∈ (s.reach 0).items ∧ i.ctx = s.curCtx ∧ (i.join = 0 ∨ i.parent = false) ∧
      (∀ f ∈ i.full, ∃ w, s.wg? f.1 = some w ∧ w.state = .resident ∧ f.2 ∈ w.full) ∧
      (∀ f, i.empty = some f → ∃ w, s.wg? f.1 = some w ∧ w.state = .resident ∧ f.2 ∉ w.full)
    let go (s : State) := Runs s (g0 l) x0 ∧ s.noLaneMemory (g0 l) ∧ s.curCore < 192 ∧ ∃ rs, s.resolveFlat s.agent (Acc.store 64) (scalarReg (g0 l) x0 3).toNat = .ok rs ∧ rs.length = 64 ∧ ∀ b ∈ rs, s.ownRef b
    let named (r : SReg) (i : Item) : Bool := i.ctx == s.curCtx && i.slot + i.gen * 2 ^ 16 == (scalarReg (g0 l) x0 r).toNat
    go s ∧ go t ∧ (scalarReg (g0 l) x0 3).toNat % 64 = 0 ∧ windowOf (scalarReg (g0 l) x0 3).toNat = .vault ∧
      able s b ∧ b.payload.length = 64 ∧ (∀ j, able s j → j ≠ b → j.priority < b.priority ∨ (j.priority = b.priority ∧ b.order < j.order)) ∧ (∀ i, ¬ able t i) ∧
      Drained s ∧ ((s.reach 0).items.find? (named 4) = some c ∧ c.parent = true ∧ c.join ≠ 0) ∧
      (∀ i ∈ (s.reach 0).items, named 0 i = false) ∧ (∀ i ∈ (s.reach 0).items, named 5 i = true → i.parent = false ∨ i.join = 0) ∧
      (∀ i ∈ (s.reach 0).items, named 6 i = true → i.parent = false ∨ i.join = 0) := by
  intro l w a b c s t able go named
  have own (b : ByteRef) (hb : b ∈ (List.range 64).map fun i => ByteRef.whole (.vault 0 (0x40 + i))) : (∃ i, b = .whole (.vault 0 i)) := by
    obtain ⟨i, -, rfl⟩ := List.mem_map.1 hb
    exact ⟨_, rfl⟩
  refine ⟨⟨⟨rfl, rfl⟩, by unfold State.noLaneMemory; decide, by decide, (List.range 64).map fun i => .whole (.vault 0 (0x40 + i)), okOf_spec (by decide), by decide, fun b hb => ?_⟩,
    ⟨⟨rfl, rfl⟩, by unfold State.noLaneMemory; decide, by decide, (List.range 64).map fun i => .whole (.vault 0 (0x40 + i)), okOf_spec (by decide), by decide, fun b hb => ?_⟩, by decide, by decide, ?_, by decide, ?_, ?_,
    drained_intro (by decide), by decide, by decide, by decide, by decide⟩
  · obtain ⟨i, rfl⟩ := own b hb; exact .inl rfl
  · obtain ⟨i, rfl⟩ := own b hb; exact .inl rfl
  · refine ⟨by decide, by decide, by decide, fun f hf => ?_, fun f hf => ?_⟩
    · obtain rfl : f = (0, 1) := by simpa [b, itemOf] using hf
      exact ⟨w, rfl, rfl, by decide⟩
    · obtain rfl : f = (0, 2) := by simpa [b, itemOf, eq_comm] using hf
      exact ⟨w, rfl, rfl, by decide⟩
  · intro j ⟨hj, _, hp, _⟩ hne
    have : j ∈ [a, b, c, itemOf 9 1 1 0 true [] none] := hj
    simp only [List.mem_cons, List.not_mem_nil, or_false] at this
    rcases this with rfl | rfl | rfl | rfl
    · decide
    · exact absurd rfl hne
    · exact absurd hp (by decide)
    · decide
  · intro i ⟨hi, _, hp, hf, he⟩
    have : i ∈ [c, itemOf 8 9 0 0 false [(0, 2)] none, itemOf 9 9 0 0 false [] (some (0, 1))] := hi
    simp only [List.mem_cons, List.not_mem_nil, or_false] at this
    rcases this with rfl | rfl | rfl
    · exact absurd hp (by decide)
    · obtain ⟨w', hw, -, h⟩ := hf (0, 2) (by decide)
      obtain rfl : w = w' := Option.some.inj hw
      exact absurd h (by decide)
    · obtain ⟨w', hw, -, h⟩ := he (0, 1) rfl
      obtain rfl : w = w' := Option.some.inj hw
      exact absurd h (by decide)

/-- The root RCB of context 1 at 0x20000: no limits, the trap queue at 0x10000, every core. -/
def rootRcb : List (Nat × List Byte) := fields 0x20000 [(0x0C, 4, 1), (0x10, 8, 0x30000), (0x18, 8, 0x10000), (0x38, 4, 0x3F), (0x40, 24, 2 ^ 192 - 1)]

/-- A valid launch record of one workgroup of one group of 16 registers, and one of no group. -/
def launchFields (at_ groups : Nat) : List (Nat × List Byte) := fields at_ [(0x08, 4, 1), (0x0C, 4, 1), (0x10, 4, 1), (0x14, 1, groups), (0x16, 2, 16)]

/-- A valid record; one held by a split that waited for room, with room and with 65,536 launches live; an invalid record without and
with a completion record. -/
theorem witness_LaunchInstructionResult : let l : List (Nat × Word) := [(1, 0x2000), (2, 0x6000), (3, 0x3000)]
    let s := ex l (rootRcb ++ launchFields 0x2000 1 ++ launchFields 0x3000 0)
    let mine (v : State) := some (((v.launchOf s.cur.wg).map (·.region)).getD 0)
    let y : Split := { x0 with lnch := some ([], []) }
    let h : Group := { g0 l with splits := (Vector.replicate 4 none).set 0 (some y) }
    let go (s : State) (r : SReg) (va : Nat) := Runs s (g0 l) x0 ∧ x0.lnch = none ∧ s.noLaneMemory (g0 l) ∧ (scalarReg (g0 l) x0 r).toNat = va ∧
      s.reads (afterRead s va 128) va 128 16 (recordOf s va 128) ∧ Runs (afterRead s va 128) (g0 l) x0
    go s 1 0x2000 ∧ go s 3 0x3000 ∧
      ((afterRead s 0x2000 128).validateLaunch (afterRead s 0x2000 128).curCtx (mine (afterRead s 0x2000 128)) (recordOf s 0x2000 128)).isSome = true ∧
      (afterRead s 0x2000 128).validateLaunch (afterRead s 0x2000 128).curCtx (mine (afterRead s 0x2000 128)) (recordOf s 0x3000 128) = none ∧
      recordAligned (scalarReg (g0 l) x0 2).toNat ∧ recordAligned (scalarReg (g0 l) x0 0).toNat ∧ (scalarReg (g0 l) x0 0).toNat = 0 ∧ (scalarReg (g0 l) x0 2).toNat ≠ 0 ∧
      (afterRead s 0x3000 128).local (afterRead s 0x3000 128) (Acc.store 16) 0x6000 (resolvedBy (afterRead s 0x3000 128) (afterRead s 0x3000 128).agent (Acc.store 16) 0x6000) ∧
      (afterRead s 0x2000 128).liveLaunches < 65536 ∧ Drained (afterRead s 0x2000 128) ∧
      (Runs (on [h]) h y ∧ (on [h]).liveLaunches < 65536 ∧ Drained (on [h])) ∧ (65536 ≤ ({ on [h] with launches := List.replicate 65536 loadedLaunch } : State).liveLaunches) := by
  have live (s : State) (e : s.launches = List.replicate 65536 loadedLaunch) : 65536 ≤ s.liveLaunches := by
    unfold State.liveLaunches
    rw [e, List.filter_replicate_of_pos (by decide)]
    exact Nat.le_of_eq List.length_replicate.symm
  refine ⟨⟨ex_runs _ _, rfl, by unfold State.noLaneMemory; decide, rfl, reads_intro (by decide) rfl (by decide), Runs.served ⟨rfl, rfl⟩ _ _ _ _⟩,
    ⟨ex_runs _ _, rfl, by unfold State.noLaneMemory; decide, rfl, reads_intro (by decide) rfl (by decide), Runs.served ⟨rfl, rfl⟩ _ _ _ _⟩,
    by decide, by decide, by unfold recordAligned; decide, by unfold recordAligned; decide, by decide, by decide, local_intro (by decide) rfl, by decide,
    Drained.served (drained_intro (by decide)) _ _ _ _, ⟨⟨rfl, rfl⟩, by decide, drained_intro (by decide)⟩, live _ rfl⟩

/-! Lane instructions: the group of the step tests, its queue of one word, and every word of the decode tests. -/

abbrev gl : Group := laneGroup [1, 2, 3]

theorem lane_runs (g : Group) (bytes : List (Nat × List Byte)) (i : Instr) (regs : List Nat) (e : LaneEntry) (rest : List LaneEntry)
    (h : (i.wf && regs.all (fun r => decide (r < g.nregs)) && (splitIxs.any fun k => (g.split k).isSome)) = true) (hq : g.laneQ = e :: rest) (hp : g.poison = []) :
    LaneRuns (on [g] bytes) i regs g e rest := by
  simp only [Bool.and_eq_true, List.all_eq_true, decide_eq_true_eq, List.any_eq_true] at h
  exact ⟨rfl, hq, h.1.1, h.1.2, hp, h.2⟩

/-- A family makes a claim of an instruction on that group, and its hypotheses hold. -/
def claimMeets (family : Group → (LaneOp → Nat → Bool) → Instr → Option LaneClaim) (i : Instr) : Bool :=
  (family gl (fun o => activeLanes gl headEntry.tag o.guard) i).any fun c => i.wf && c.regs.all (fun r => decide (r < gl.nregs)) && !usesQueue c.op

theorem claimMeets_spec {family : Group → (LaneOp → Nat → Bool) → Instr → Option LaneClaim} {ws : List (Nat × Instr)}
    (h : (ws.all fun x => claimMeets family x.2) = true) : ∀ x ∈ ws, ∃ c, family gl (fun o => activeLanes gl headEntry.tag o.guard) x.2 = some c ∧
      LaneRuns (on [gl]) x.2 c.regs gl headEntry [] ∧ usesQueue c.op = false := by
  intro x hx
  have hx := List.all_eq_true.mp h x hx
  simp only [claimMeets, Option.any_eq_true, Bool.and_eq_true, Bool.not_eq_true'] at hx
  obtain ⟨c, hc, ⟨hw, hr⟩, hq⟩ := hx
  exact ⟨c, hc, lane_runs gl [] _ _ _ _ (by rw [hw, hr]; decide) rfl rfl, hq⟩

theorem witness_LaneIntegerResult : ∀ x ∈ intWords ++ bitWords, ∃ c,
    (intClaim gl (fun o => activeLanes gl headEntry.tag o.guard) x.2).or (bitClaim gl (fun o => activeLanes gl headEntry.tag o.guard) x.2) = some c ∧
      LaneRuns (on [gl]) x.2 c.regs gl headEntry [] ∧ usesQueue c.op = false :=
  claimMeets_spec (family := fun g act i => (intClaim g act i).or (bitClaim g act i)) (by decide)

theorem witness_LaneMaskAndCrossResult : ∀ x ∈ maskWords ++ crossWords, ∃ c,
    (maskClaim gl (fun o => activeLanes gl headEntry.tag o.guard) x.2).or (crossClaim gl (fun o => activeLanes gl headEntry.tag o.guard) x.2) = some c ∧
      LaneRuns (on [gl]) x.2 c.regs gl headEntry [] ∧ usesQueue c.op = false :=
  claimMeets_spec (family := fun g act i => (maskClaim g act i).or (crossClaim g act i)) (by decide)

theorem witness_LaneFloatResult : ∀ x ∈ floatWords ++ convertWords, ∃ c,
    (floatClaim gl (fun o => activeLanes gl headEntry.tag o.guard) x.2).or (convertClaim gl (fun o => activeLanes gl headEntry.tag o.guard) x.2) = some c ∧
      LaneRuns (on [gl]) x.2 c.regs gl headEntry [] ∧ usesQueue c.op = false :=
  claimMeets_spec (family := fun g act i => (floatClaim g act i).or (convertClaim g act i)) (by decide)

theorem witness_ExactAccumulatorResult : ∀ x ∈ exactWords, ∃ c, exactClaim gl (fun o => activeLanes gl headEntry.tag o.guard) x.2 = some c ∧
    LaneRuns (on [gl]) x.2 c.regs gl headEntry [] ∧ usesQueue c.op = false := claimMeets_spec (by decide)


/-- Every lane of the group reaches its own bytes, outside the view aperture. -/
def lanesOwn (s : State) (lanes : List Nat) (acc : Acc) (addr : Nat → Nat) : Bool :=
  lanes.all fun l => windowOf (addr l) != .view && isOwn s (s.laneAgent l) acc (addr l)

def lanesTo (s : State) (acc : Acc) (addr : Nat → Nat) (l : Nat) : Resolved := resolvedBy s (s.laneAgent l) acc (addr l)

theorem lanesOwn_access {s : State} {lanes : List Nat} {acc : Acc} {addr : Nat → Nat} (h : lanesOwn s lanes acc addr = true) :
    s.lanesOwn lanes acc addr (lanesTo s acc addr) := by
  intro l hl
  have h := List.all_eq_true.mp h l hl
  simp only [Bool.and_eq_true] at h
  exact ⟨(isOwn_spec h.2).1, (isOwn_spec h.2).2⟩

theorem lanesOwn_spec {s : State} {lanes : List Nat} {acc : Acc} {addr : Nat → Nat} (h : lanesOwn s lanes acc addr = true) (ht : s.hostif.params.tierHot = 0)
    (hl : s.heldLooks = none := by rfl) : s.lanesLocal s lanes acc addr (lanesTo s acc addr) := by
  have own := lanesOwn_access h
  refine ⟨ht, ?_, fun l hm => (own l hm).2⟩
  rw [State.laneLooks_plain hl fun l hm => ?_]
  · refine congrArg (fun x => (s, some x)) (List.map_congr_left fun l hm => ?_)
    rw [(own l hm).1]
  · have := List.all_eq_true.mp h l hm
    simp only [Bool.and_eq_true, bne_iff_ne] at this
    exact this.1

/-- Some lanes meet a condition, the others reach their own bytes. -/
def lanesFail (s : State) (lanes bad : List Nat) (acc : Acc) (addr : Nat → Nat) : Bool :=
  lanes.all fun l => windowOf (addr l) != .view &&
    if bad.contains l then (failOf s (s.laneAgent l) acc (addr l)).any (fun c => c.cls != .poison) else isOwn s (s.laneAgent l) acc (addr l)

def condOf (s : State) (acc : Acc) (addr : Nat → Nat) (l : Nat) : Cond := (failOf s (s.laneAgent l) acc (addr l)).getD ⟨.illegal, 0, false⟩

theorem lanesFail_spec {s : State} {lanes bad : List Nat} {acc : Acc} {addr : Nat → Nat} (h : lanesFail s lanes bad acc addr = true)
    (hb : ∀ k ∈ bad, k ∈ lanes) (hl : s.heldLooks = none := by rfl) :
    (∀ k ∈ bad, (condOf s acc addr k).cls ≠ .poison) ∧
      s.laneLooks lanes acc addr = (s, some (lanes.map fun k => (k, if k ∈ bad then ⟨.error (condOf s acc addr k), none⟩ else ⟨.ok (lanesTo s acc addr k), none⟩))) ∧
      ∀ k ∈ lanes, k ∉ bad → s.ownAccess acc (lanesTo s acc addr k) := by
  have each : ∀ l ∈ lanes, windowOf (addr l) ≠ .view ∧
      if l ∈ bad then s.resolve (s.laneAgent l) acc (addr l) = ⟨.error (condOf s acc addr l), none⟩ ∧ (condOf s acc addr l).cls ≠ .poison
      else s.resolve (s.laneAgent l) acc (addr l) = ⟨.ok (lanesTo s acc addr l), none⟩ ∧ s.ownAccess acc (lanesTo s acc addr l) := by
    intro l hm
    have := List.all_eq_true.mp h l hm
    simp only [Bool.and_eq_true, bne_iff_ne] at this
    refine ⟨this.1, ?_⟩
    have h2 := this.2
    by_cases hk : l ∈ bad
    · rw [if_pos hk]
      rw [if_pos (by simpa using hk)] at h2
      simp only [Option.any_eq_true, bne_iff_ne] at h2
      obtain ⟨c, hc, hp⟩ := h2
      have e : condOf s acc addr l = c := by unfold condOf; rw [hc]; rfl
      rw [e]
      exact ⟨failOf_spec hc, hp⟩
    · rw [if_neg hk]
      rw [if_neg (by simpa using hk)] at h2
      exact ⟨(isOwn_spec h2).1, (isOwn_spec h2).2⟩
  refine ⟨fun k hk => ?_, ?_, fun k hk hn => ?_⟩
  · have := (each k (hb k hk)).2
    rw [if_pos hk] at this
    exact this.2
  · rw [State.laneLooks_plain hl fun l hm => (each l hm).1]
    refine congrArg (fun x => (s, some x)) (List.map_congr_left fun l hm => ?_)
    have := (each l hm).2
    by_cases hk : l ∈ bad
    · rw [if_pos hk] at this ⊢
      rw [this.1]
    · rw [if_neg hk] at this ⊢
      rw [this.1]
  · have := (each k hk).2
    rw [if_neg hn] at this
    exact this.2

/-- A group whose lanes 0 to 3 are active, with b1 = 0x2000, b2 near the end of its page, b3 = its vault, and v6 the lane number. -/
def gm : Group :=
  { g0 [] with
    laneQ := [headEntry]
    m := modVec (fun _ => 15) (g0 []).m 1
    b := modVec (fun _ => 0xFD00000000000000) (modVec (fun _ => 0x3FFFFFF8) (modVec (fun _ => 0x2000) (g0 []).b 1) 2) 3
    v := modVec (fun _ => Vector.ofFn fun l => BitVec.ofNat 32 l.val) (g0 []).v 6 }

def mem4 (d : Operand) (base : BReg) (scale : BitVec 3) (order : Order) (fe : Bool) (e : Operand := .v 0) (scope : Scope := .grp) : MemOp :=
  access .i32 .rne d (some base) (some 6) scale 0 e scope order fe false

/-- Lanes at 0x2000 + 4l; a load of which lanes 2 and 3 pass the end of the page; a store of which lane 1 is misaligned in every scope; VPREF. -/
theorem witness_LaneLoadStoreResult : let s := on [gm]
    let o := mem4 (.v 8) 1 2 .rlx false
    let far := mem4 (.v 8) 2 2 .rlx false
    let odd := mem4 (.v 8) 1 0 .rel false
    let bad (o : MemOp) (write : Bool) (ks : List Nat) := (∀ k ∈ ks, (condOf s (memAcc o write) (laneAddr o gm) k).cls ≠ .poison) ∧
      s.laneLooks [0, 1, 2, 3] (memAcc o write) (laneAddr o gm) = (s, some ([0, 1, 2, 3].map fun k =>
        (k, if k ∈ ks then ⟨.error (condOf s (memAcc o write) (laneAddr o gm) k), none⟩ else ⟨.ok (lanesTo s (memAcc o write) (laneAddr o gm) k), none⟩))) ∧
      ∀ k ∈ [0, 1, 2, 3], k ∉ ks → s.ownAccess (memAcc o write) (lanesTo s (memAcc o write) (laneAddr o gm) k)
    (memLanes gm headEntry.tag o = [0, 1, 2, 3] ∧ memLanes gm headEntry.tag far = [0, 1, 2, 3] ∧ memLanes gm headEntry.tag odd = [0, 1, 2, 3]) ∧ s.curGroup = some gm ∧
    LaneRuns s (.vld o) [8, 6] gm headEntry [] ∧ s.lanesLocal s [0, 1, 2, 3] (memAcc o false) (laneAddr o gm) (lanesTo s (memAcc o false) (laneAddr o gm)) ∧
    LaneRuns s (.vst o) [8, 6] gm headEntry [] ∧ s.lanesLocal s [0, 1, 2, 3] (memAcc o true) (laneAddr o gm) (lanesTo s (memAcc o true) (laneAddr o gm)) ∧ Releases s o ∧
    LaneRuns s (.vld far) [8, 6] gm headEntry [] ∧ bad far false [2, 3] ∧ LaneRuns s (.vst odd) [8, 6] gm headEntry [] ∧ Releases s odd ∧ bad odd true [1, 2, 3] ∧
    LaneRuns s (.vpref (access .b32 .rne (.v 0) (some 15) none 0 128 (.v 0) .grp .rlx false false)) [] gm headEntry [] :=
  ⟨by decide, rfl, lane_runs _ _ _ _ _ _ (by decide) rfl rfl, lanesOwn_spec (by decide) rfl, lane_runs _ _ _ _ _ _ (by decide) rfl rfl, lanesOwn_spec (by decide) rfl, fun _ => on_drained _ _ _,
    lane_runs _ _ _ _ _ _ (by decide) rfl rfl, lanesFail_spec (by decide) (by decide), lane_runs _ _ _ _ _ _ (by decide) rfl rfl, fun _ => on_drained _ _ _, lanesFail_spec (by decide) (by decide),
    lane_runs _ _ _ _ _ _ (by decide) rfl rfl⟩

/-- The machine of one group in a changed workgroup. -/
theorem wg_runs (g : Group) (w : Wg) (bytes : List (Nat × List Byte)) (i : Instr) (regs : List Nat) (e : LaneEntry) (rest : List LaneEntry)
    (h : (i.wf && regs.all (fun r => decide (r < g.nregs)) && (splitIxs.any fun k => (g.split k).isSome)) = true) (hq : g.laneQ = e :: rest) (hp : g.poison = [])
    (hw : w.groups[0]? = some g) : LaneRuns (onWgs [w] bytes) i regs g e rest := by
  simp only [Bool.and_eq_true, List.all_eq_true, decide_eq_true_eq, List.any_eq_true] at h
  exact ⟨hw, hq, h.1.1, h.1.2, hp, h.2⟩

/-- The word of a lane instruction. -/
def laneWord (i : Instr) : Nat := (encodeLane i).getD 0

/-- A group with that word at its head, of which only lane 3 is active and waits. -/
def gw (i : Instr) : Group :=
  { gm with laneQ := [{ headEntry with item := .word (laneWord i) 7 }], m := modVec (fun _ => 8) gm.m 1, head := { Head.empty with waiting := true } }

/-- Lanes 0 to 3 at granules 0 to 3 of the vault, all full or all empty; and lane 3 alone, waiting. -/
theorem witness_FullEmptyResult : let o := mem4 (.v 8) 3 4 .ar true
    let st (g : Group) (full : List Nat) : State := onWgs [{ w0 [g] with full := full }]
    let at_ (s : State) (load : Bool) (l : Nat) : Resolved := lanesTo s (memAcc o (!load)) (laneAddr o gm) l
    (∀ load full, (load = true ∧ full = [0, 1, 2, 3]) ∨ (load = false ∧ full = []) →
      LaneRuns (st gm full) (if load then .vld o else .vst o) [8, 6] gm headEntry [] ∧ memLanes gm headEntry.tag o = [0, 1, 2, 3] ∧
      (st gm full).lanesOwn [0, 1, 2, 3] (memAcc o (!load)) (laneAddr o gm) (at_ (st gm full) load) ∧
      (∀ l ∈ [0, 1, 2, 3], granuleOf (at_ (st gm full) load l) = some (0, l) ∧ (st gm full).granuleFull (0, l) = load)) ∧
    Releases (st gm []) o ∧ Releases (st gm [0, 1, 2, 3]) o ∧ o.fe = true ∧ gm.head.performed = 0 ∧ [0, 1, 2, 3].Nodup ∧
    ((st gm []).lanesOwn [0, 1, 2, 3] (memAcc o false) (laneAddr o gm) (at_ (st gm []) true) ∧ ∀ l ∈ [0, 1, 2, 3], granuleOf (at_ (st gm []) true l) = some (0, l) ∧ (st gm []).granuleFull (0, l) = !true) ∧
    (let g := gw (.vld o)
     memLanes g headEntry.tag o = [3] ∧ (st g [3]).lanesOwn [3] (memAcc o false) (laneAddr o g) (lanesTo (st g [3]) (memAcc o false) (laneAddr o g)) ∧
     (st g [3]).granuleFull (0, 3) = true ∧ granuleOf (lanesTo (st g [3]) (memAcc o false) (laneAddr o g) 3) = some (0, 3) ∧ g.head.waiting = true ∧ g.head.performed = 0 ∧
     laneInstr? (laneWord (.vld o)) = some (.vld o) ∧ LaneRuns (st g [3]) (.vld o) [8, 6] g { headEntry with item := .word (laneWord (.vld o)) 7 } []) := by
  refine ⟨?_, fun _ => ⟨by show 0 < 192; decide, onWgs_replicas _ _⟩, fun _ => ⟨by show 0 < 192; decide, onWgs_replicas _ _⟩, rfl, rfl, by decide, ⟨lanesOwn_access (by decide), by decide⟩,
    by decide, lanesOwn_access (by decide), by decide, by decide, rfl, rfl, by decide +kernel, wg_runs _ _ _ _ _ _ _ (by decide) rfl rfl rfl⟩
  rintro load full (⟨rfl, rfl⟩ | ⟨rfl, rfl⟩)
  · exact ⟨wg_runs _ _ _ _ _ _ _ (by decide) rfl rfl rfl, by decide, lanesOwn_access (by decide), by decide⟩
  · exact ⟨wg_runs _ _ _ _ _ _ _ (by decide) rfl rfl rfl, by decide, lanesOwn_access (by decide), by decide⟩

/-- The three words of the decode tests, their lanes in memory. -/
theorem witness_LaneAtomicResult : let s := on [gm]
    let a := access .i32 .rne (.v 8) (some 1) (some 6) 2 0 (.imm 48) .cl .ar false true
    let c := access .n64 .rne (.v 8) (some 1) (some 6) 3 0 (.v 4) .sys .rel false false
    let r := access .f64 .rup (.v 8) (some 1) (some 6) 3 0 (.imm 0) .wg .rel false false
    LaneRuns s (.vatom a) [8, 6] gm headEntry [] ∧ LaneRuns s (.vcas c) [8, 9, 6, 4, 5] gm headEntry [] ∧ LaneRuns s (.vred r) [8, 9, 6] gm headEntry [] ∧
    operandRegs (tyBits c.ty) c.d ++ indexRegs c ++ operandRegs (tyBits c.ty) c.e = [8, 9, 6, 4, 5] ∧ gm.head.performed = 0 ∧ gm.head.flags = 0 ∧
    (∀ o ∈ [a, c, r], Releases s o ∧ memLanes gm headEntry.tag o = [0, 1, 2, 3] ∧
      s.lanesLocal s [0, 1, 2, 3] { memAcc o true with strict := true, strong := true } (laneAddr o gm)
        (lanesTo s { memAcc o true with strict := true, strong := true } (laneAddr o gm)) ∧
      ∀ l ∈ [0, 1, 2, 3], s.pcieHost (lanesTo s { memAcc o true with strict := true, strong := true } (laneAddr o gm) l).refs = false) ∧
    ∀ b ∈ hbmRun 0x8000 4, s.ownRef b := by
  refine ⟨lane_runs _ _ _ _ _ _ (by decide) rfl rfl, lane_runs _ _ _ _ _ _ (by decide) rfl rfl, lane_runs _ _ _ _ _ _ (by decide) rfl rfl, by decide, rfl, rfl, ?_, hbmRun_own _ _ _⟩
  intro o ho
  simp only [List.mem_cons, List.not_mem_nil, or_false] at ho
  rcases ho with rfl | rfl | rfl
  · exact ⟨fun _ => on_drained _ _ _, by decide, lanesOwn_spec (by decide) rfl, by decide⟩
  · exact ⟨fun _ => on_drained _ _ _, by decide, lanesOwn_spec (by decide) rfl, by decide⟩
  · exact ⟨fun _ => on_drained _ _ _, by decide, lanesOwn_spec (by decide) rfl, by decide⟩

/-- The image at 0x2000; and no active lane. -/
theorem witness_AccumulatorImageResult : let s := on [gm]
    let o := access .i8 .rne .x (some 1) none 0 0 (.v 0) .grp .rlx false false
    let piece (k : Nat) : Nat := (laneAddr o gm 0 + 16 * (k / 64)) % 2 ^ 64
    let n : Group := { gm with m := modVec (fun _ => 0) gm.m 1 }
    (memLanes gm headEntry.tag o).head? = some 0 ∧ laneAddr o gm 0 % 16 = 0 ∧ LaneRuns s (.xst o) [] gm headEntry [] ∧ LaneRuns s (.xlda o) [] gm headEntry [] ∧ indexRegs o = [] ∧
    s.lanesLocal s (imagePieces 0) (Acc.store 16) piece (lanesTo s (Acc.store 16) piece) ∧ s.lanesLocal s (imagePieces 0) (Acc.load 16) piece (lanesTo s (Acc.load 16) piece) ∧
    LaneRuns (on [n]) (.xst o) [] n headEntry [] ∧ LaneRuns (on [n]) (.xlda o) [] n headEntry [] ∧ memLanes n headEntry.tag o = [] :=
  ⟨by decide, by decide, lane_runs _ _ _ _ _ _ (by decide) rfl rfl, lane_runs _ _ _ _ _ _ (by decide) rfl rfl, rfl, lanesOwn_spec (by decide) rfl, lanesOwn_spec (by decide) rfl,
    lane_runs _ _ _ _ _ _ (by decide) rfl rfl, lane_runs _ _ _ _ _ _ (by decide) rfl rfl, by decide⟩

/-- The group's workgroup with the tile a3 of FP32 at phase 5. -/
def wt (g : Group) : Wg := { w0 [g] with tiles := [(3, { Tile.new .fp32 with phase := 5 })] }

/-- The hypotheses but for those on the group, the workgroup and the instruction, which hold of gl. -/
def tileMeets (w : Wg) (s : State) (i : Instr) : Bool :=
  (tileClaim gl w (fun o => activeLanes gl headEntry.tag o.guard) i).any fun c =>
    i.wf && c.claim.regs.all (fun r => decide (r < gl.nregs)) && !usesQueue c.claim.op &&
      (w.seqs.all fun q => !(gl.head.awaits.getD (w.accAwaits 0 0 c.on c.token.isSome)).contains q.firstStamp) &&
      c.token.all (fun k => tokenReached (c.on.head?.bind w.tile) k) &&
      (c.on.all fun n => match w.tile n with
        | some y => y.error.isNone && c.takes y.tag
        | none => c.unbound) && (!c.fresh || s.tileRoom 0 c.on)

/-- The five words of the decode tests; tokens 5 and 2 below the phase; a waiting ACSCL at the queue head. -/
theorem witness_AccumulatorTileResult : (∀ x ∈ tileWords, tileMeets (wt gl) (onWgs [wt gl]) x.2 = true) ∧ (onWgs [wt gl]).wg? 0 = some (wt gl) ∧
    (let i : Instr := .acscl (form .f32 .rne (.a 3) (.v 1) (.imm 5) (.v 0) (.v 0) 1)
     let g := { gw i with laneQ := [{ headEntry with item := .word (laneWord i) 7 }] }
     { headEntry with item := .word (laneWord i) 7 }.instr = i ∧ g.head.waiting = true ∧ g.head.stopped = false ∧
     LaneRuns (onWgs [wt g]) i [1] g { headEntry with item := .word (laneWord i) 7 } [] ∧
     (tileClaim g (wt g) (fun o => activeLanes g headEntry.tag o.guard) i).any (fun c => c.token == some 5) = true ∧
     tokenReached ((wt g).tile 3) 5 = true) := by
  refine ⟨by decide, rfl, by decide, rfl, rfl, wg_runs _ _ _ _ _ _ _ (by decide) rfl rfl rfl, by decide, by decide⟩

/-- A group with 8 vector registers; ill-formed instructions of each kind, and legal ones that name v8. -/
theorem witness_LaneTrapsAndStreams : let g8 : Group := { gl with nregs := 8 }
    let claims (i : Instr) : Option LaneClaim := registerClaim g8 (fun o => activeLanes g8 headEntry.tag o.guard) i
    (∀ i ∈ [Instr.vadd (bare .b32), .vand (bare .f32), .mand (bare .i8), .vscan (bare .b32), .vfadd (bare .i32), .vcvt (form .f32 .rne (.v 1) (.v 1) (.v 0) (.v 0) (.v 0) 31),
      .xadd (bare .f32)], (claims i).isSome = true ∧ i.wf = false) ∧
    (∀ i ∈ [Instr.vadd (form .i32 .rne (.v 8) (.v 1) (.v 1) (.v 0) (.v 0) 0), .vfadd (form .f64 .rne (.v 2) (.v 8) (.v 4) (.v 0) (.v 0) 0)],
      (claims i).any (fun c => c.regs.any fun r => decide (g8.nregs ≤ r)) = true ∧ i.wf = true) ∧
    (Instr.vld (mem4 (.v 8) 1 2 .rel false)).wf = false ∧ (∃ r ∈ indexRegs (access .i32 .rne (.v 1) (some 1) (some 8) 0 0 (.v 0) .grp .rlx false false), g8.nregs ≤ r) ∧
    (on [g8]).curGroup = some g8 ∧ g8.laneQ = [headEntry] ∧
    LaneRuns (on [gl]) (.vmov (form .b32 .rne (.v 9) (.q 7 true) (.v 0) (.v 0) (.v 0) 0)) [9, 10] gl headEntry [] ∧
    LaneRuns (on [gl]) (.vmov (form .b32 .rne (.q 7 false) (.v 9) (.v 0) (.v 0) (.v 0) 0)) [9, 10] gl headEntry [] ∧ getVec gl.q 7 none = none := by
  refine ⟨by decide, by decide, by decide, by decide, rfl, rfl, lane_runs _ _ _ _ _ _ (by decide) rfl rfl, lane_runs _ _ _ _ _ _ (by decide) rfl rfl, rfl⟩

/-- A record of 64 elements of 4 bytes at 0x8000, to read or to write. -/
def elements (write : Bool) (base : Nat := 0x8000) : List Byte :=
  bytesOfNat 64 (base + (12 + if write then 32 else 0) * 2 ^ 64 + 64 * 2 ^ 128 + 2 ^ 160 + 2 ^ 192 + 2 ^ 224 + 4 * 2 ^ 256)

/-- Lanes 0 to 3 are active and two elements are left; a read stream has the second of them already. -/
theorem witness_LaneTrapsAndStreams2 : let x (w : Bool) : Stream := ⟨elements w, 62, none, [], 0, if w then [] else [(63, [1, 2, 3, 4])]⟩
    let g (w : Bool) : Group := { gm with q := modVec (fun _ => some (x w)) gm.q 7 }
    let s (w : Bool) : State := on [g w]
    let o (w : Bool) : LaneOp := if w then form .b32 .rne (.q 7 false) (.v 9) (.v 0) (.v 0) (.v 0) 0 else form .b32 .rne (.v 9) (.q 7 true) (.v 0) (.v 0) (.v 0) 0
    let r (w : Bool) (l : Nat) : Resolved := resolvedBy (s w) ((s w).streamAgent (x w)) (Acc.store 4) (strmAddr (x w).record (62 + l))
    (∀ w, LaneRuns (s w) (.vmov (o w)) [9, 10] (g w) headEntry [] ∧ getVec (g w).q 7 none = some (x w) ∧ (x w).p < strmTotal (x w).record ∧
      strmWidth (x w).record = 32 ∧ strmWrite (x w).record = w ∧
      ((List.range 64).filter fun l => activeLanes (g w) headEntry.tag (o w).guard l && (x w).p + l < strmTotal (x w).record) = [0, 1]) ∧
    (∃ u got, State.pops (x false) 0 false (s false) [0, 1] got u) ∧
    (x true).ahead = [] ∧ (s true).hostif.params.tierHot = 0 ∧ State.viewsReady ((s true).streamAgent (x true)) (Acc.store 4) (s true) ([0, 1].map fun l => strmAddr (x true).record (62 + l)) (s true) ∧
    ∀ l ∈ [0, 1], (s true).resolve ((s true).streamAgent (x true)) (Acc.store 4) (strmAddr (x true).record (62 + l)) = ⟨.ok (r true l), none⟩ ∧ hasPeer (r true l).refs = false := by
  intro x g s o r
  refine ⟨fun w => ?_, ?_, rfl, rfl, ⟨_, State.viewReady_plain _ _ _ (by decide), _, State.viewReady_plain _ _ _ (by decide), rfl⟩, ?_⟩
  · cases w <;> exact ⟨lane_runs _ _ _ _ _ _ (by decide) rfl rfl, by decide, by decide, by decide, by decide, by decide⟩
  · have h := isOwn_spec (s := s false) (ag := (s false).streamAgent (x false)) (acc := Acc.load (strmWidth (x false).record / 8)) (va := strmAddr (x false).record ((x false).p + 0)) (by decide)
    exact ⟨_, _, _, _, rfl, _, _, State.viewReady_plain _ _ _ (by decide), h.1, h.2.1, h.2.2, rfl, rfl, _, _, rfl, rfl, rfl, rfl⟩
  · intro l hl
    simp only [List.mem_cons, List.not_mem_nil, or_false] at hl
    rcases hl with rfl | rfl
    · exact ⟨(isOwn_spec (by decide)).1, by decide⟩
    · exact ⟨(isOwn_spec (by decide)).1, by decide⟩

/-! Queue entries, and waits that end. -/

/-- The page of context 1's view table on a peer. -/
def awayTable (s : State) : State :=
  { s with reaches := modVec (fun r => { r with tlb := [⟨1, ⟨0x40000, 0x10000, .peer 5 false, 0, true, false, false⟩⟩] }) s.reaches 0
           contexts := s.contexts.map fun c => { c with viewTable := 0x40000 } }

/-- Each item at the head, among them the opening of the last queue while it is open for a counted command; a queue opened on a view whose
descriptor is with a peer. -/
theorem witness_QueueEntryResult : let items : List LaneItem := [.setb 15 1, .mset 1 3, .openQ 7 (elements false) none, .openQ 7 (elements false 0xFE00030000000000) none, .closeQ 7]
    let gq (i : LaneItem) : Group := { queued [i] with q := modVec (fun _ => some ⟨elements false, 5, some (2, 1), [], 0, []⟩) (g0 []).q 7 }
    let v := awayTable (on [gq (.openQ 7 (elements false 0xFE00030000000000) none)])
    let u := (v.viewAsk (v.groupAgent 0 0) (Acc.load 1) 0xFE00030000000000).1
    (∀ i ∈ items, ∀ s ∈ [on [gq i], awayTable (on [gq i])], s.curGroup = some (gq i) ∧ (gq i).laneQ = ⟨i, headEntry.tag, headEntry.pc, headEntry.irb, headEntry.stamp⟩ :: [] ∧
      (∃ k ∈ splitIxs, ((gq i).split k).isSome) ∧ (∀ m v, i = .mset m v → m ≠ 0)) ∧
    windowOf (strmBase (elements false)) ≠ .view ∧ windowOf (strmBase (elements false 0xFE00030000000000)) = .view ∧
    (v.viewAsk (v.groupAgent 0 0) (Acc.load 1) (strmBase (elements false 0xFE00030000000000))) = (u, false) ∧
    u.curGroup = some (gq (.openQ 7 (elements false 0xFE00030000000000) none)) ∧ u.cur = v.cur := by
  intro items gq v u
  refine ⟨?_, by decide, by decide, Prod.ext (by rw [show strmBase (elements false 0xFE00030000000000) = 0xFE00030000000000 by decide]) (by decide), by decide +kernel, by decide⟩
  intro i hi s hs
  simp only [List.mem_cons, List.not_mem_nil, or_false] at hs
  rcases hs with rfl | rfl
  all_goals
    refine ⟨rfl, rfl, ⟨0, by decide, rfl⟩, ?_⟩
    simp only [items, List.mem_cons, List.not_mem_nil, or_false] at hi
    rcases hi with rfl | rfl | rfl | rfl | rfl <;> intro m v h <;> cases h
    decide

/-- A group whose split has a status. -/
def gs (l : List (Nat × Word)) (t : SplitStatus) : Group := { g0 l with splits := (Vector.replicate 4 none).set 0 (some { x0 with status := t }) }

theorem witness_WaitEndResult : let e := headEntry
    let full64 : Wg → Wg := fun w => { w with groups := [{ gs [] (.waiting (.room [e])) with laneQ := List.replicate 64 e }] }
    let bars : Wg → Wg := fun w => { w with barriers := modVec (fun _ => ⟨8, 2, 1, true⟩) w.barriers 5 }
    let kdone : Wg → Wg := fun w => { w with counters := modVec (fun _ => ⟨6, 5, []⟩) w.counters 2, full := [1], engineFull := [1] }
    (WaitsFor (onWgs [w0 [gs [] (.waiting (.room [e]))]]) (gs [] (.waiting (.room [e]))) { x0 with status := .waiting (.room [e]) } (w0 [gs [] (.waiting (.room [e]))]) (.room [e]) ∧
      (gs [] (.waiting (.room [e]))).laneQ.length + [e].length ≤ 64) ∧
    (let g : Group := { gs [] (.waiting (.room [e])) with laneQ := List.replicate 64 e }
     WaitsFor (onWgs [full64 (w0 [g0 []])]) g { x0 with status := .waiting (.room [e]) } (full64 (w0 [g0 []])) (.room [e]) ∧ ¬ g.laneQ.length + [e].length ≤ 64) ∧
    (let g : Group := (gs [] (.held 3)).setSplit 1 (some { x0 with pc := 0x1000 })
     Runs (on [g]) g { x0 with status := .held 3 } ∧ (on [g]).wg? 0 = some (w0 [g]) ∧ ¬ (3 = 0 ∨ ∀ k ∈ splitIxs, ∀ y, k ≠ 0 → g.split k = some y → y.counts = true → x0.pc ≤ y.pc)) ∧
    (let g := gs [] (.held 0)
     Runs (on [g]) g { x0 with status := .held 0 } ∧ (on [g]).wg? 0 = some (w0 [g]) ∧ (w0 [g]).state = .resident ∧ (w0 [g]).preempt = false) ∧
    (∀ t : BitVec 32, WaitsFor (onWgs [bars (w0 [gs [] (.waiting (.barrier 5 t true))])]) (gs [] (.waiting (.barrier 5 t true))) { x0 with status := .waiting (.barrier 5 t true) }
      (bars (w0 [gs [] (.waiting (.barrier 5 t true))])) (.barrier 5 t true)) ∧ tokenPassed ⟨8, 2, 1, true⟩ 7 ∧ ¬ tokenPassed ⟨8, 2, 1, true⟩ 8 ∧
    (∀ t : BitVec 32, WaitsFor (onWgs [bars (w0 [gs [] (.waiting (.sync 5 t false 1))])]) (gs [] (.waiting (.sync 5 t false 1))) { x0 with status := .waiting (.sync 5 t false 1) }
      (bars (w0 [gs [] (.waiting (.sync 5 t false 1))])) (.sync 5 t false 1)) ∧
    (∀ v, WaitsFor (onWgs [kdone (w0 [gs [] (.waiting (.counter 2 v .dev))])]) (gs [] (.waiting (.counter 2 v .dev))) { x0 with status := .waiting (.counter 2 v .dev) }
      (kdone (w0 [gs [] (.waiting (.counter 2 v .dev))])) (.counter 2 v .dev)) ∧ 5 ≤ ((kdone (w0 [g0 []])).counter 2).completed ∧ ((kdone (w0 [g0 []])).counter 2).completed < 6 ∧
      (kdone (w0 [g0 []])).cmdTraps = [] ∧
    (WaitsFor (onWgs [kdone (w0 [gs [] (.waiting (.granule 0 1 .wg))])]) (gs [] (.waiting (.granule 0 1 .wg))) { x0 with status := .waiting (.granule 0 1 .wg) }
      (kdone (w0 [gs [] (.waiting (.granule 0 1 .wg))])) (.granule 0 1 .wg) ∧ (onWgs [kdone (w0 [gs [] (.waiting (.granule 0 1 .wg))])]).granuleFull (0, 1) = true) := by
  refine ⟨⟨⟨⟨rfl, rfl⟩, rfl, rfl, rfl, rfl, rfl⟩, by decide⟩, ⟨⟨⟨rfl, rfl⟩, rfl, rfl, rfl, rfl, rfl⟩, by decide⟩, ⟨⟨rfl, rfl⟩, rfl, ?_⟩, ⟨⟨rfl, rfl⟩, rfl, rfl, rfl⟩, fun t => ⟨⟨rfl, rfl⟩, rfl, rfl, rfl, rfl, rfl⟩,
    by unfold tokenPassed; decide, by unfold tokenPassed; decide, fun t => ⟨⟨rfl, rfl⟩, rfl, rfl, rfl, rfl, rfl⟩, fun v => ⟨⟨rfl, rfl⟩, rfl, rfl, rfl, rfl, rfl⟩, by decide, by decide, rfl,
    ⟨⟨rfl, rfl⟩, rfl, rfl, rfl, rfl, rfl⟩, by decide⟩
  rintro (h | h)
  · exact absurd h (by decide)
  · exact absurd (h 1 (by decide) { x0 with pc := 0x1000 } (by decide) rfl rfl) (by decide)

/-- A TQPULL into the vault whose item is there, and an OCLAIM of the last four slots. -/
theorem witness_WaitEndResult2 : let pull : Wait := .tqpull 0xFD00000000000040 1 2
    let s := withItems (onWgs [w0 [gs [] (.waiting pull)]]) [itemOf 5 2 9 0 false [] none]
    let claim : Wait := .oclaim 4 1 7
    let t := withSlots (onWgs [w0 [gs [] (.waiting claim)]]) fun i x => if i < 28 then claimed x else x
    WaitsFor s (gs [] (.waiting pull)) { x0 with status := .waiting pull } (w0 [gs [] (.waiting pull)]) pull ∧
      s.pullItem (reachOfCore s.curCore) s.curCtx = some (itemOf 5 2 9 0 false [] none) ∧ 0xFD00000000000040 % 64 = 0 ∧ windowOf 0xFD00000000000040 = .vault ∧
      (∃ rs, s.resolveFlat s.agent (Acc.store 64) 0xFD00000000000040 = .ok rs ∧ rs.length = 64 ∧ ∀ b ∈ rs, s.ownRef b) ∧ (itemOf 5 2 9 0 false [] none).payload.length = 64 ∧
    WaitsFor t (gs [] (.waiting claim)) { x0 with status := .waiting claim } (w0 [gs [] (.waiting claim)]) claim ∧ t.curCore < 192 ∧
      t.claimWaits t.curCore = [⟨0, 0, 0, 4, 1, 7⟩] ∧ (∀ i, i < 4 → (t.slot t.curCore (28 + i)).state = .free) ∧ 28 + 4 ≤ 32 ∧
      ∀ k, k < 28 → ∃ i, i < 4 ∧ (t.slot t.curCore (k + i)).state ≠ .free := by
  refine ⟨⟨⟨rfl, rfl⟩, rfl, rfl, rfl, rfl, rfl⟩, by decide, by decide, by decide, ⟨(List.range 64).map fun i => .whole (.vault 0 (0x40 + i)), okOf_spec (by decide), by decide, ?_⟩, by decide,
    ⟨⟨rfl, rfl⟩, rfl, rfl, rfl, rfl, rfl⟩, by decide, by decide, ?_, by decide, fun k hk => ⟨0, by decide, ?_⟩⟩
  · intro b hb
    simp only [List.mem_map] at hb
    obtain ⟨i, -, rfl⟩ := hb
    exact .inl rfl
  · intro i hi
    have : i = 0 ∨ i = 1 ∨ i = 2 ∨ i = 3 := by omega
    rcases this with rfl | rfl | rfl | rfl <;> decide
  · revert hk; revert k; decide

/-! The bank units. -/

/-- A run of command 7 at its last word but one, its pointers at their ends. -/
def run0 : Run :=
  { cmd := 7, member := 0, word := 254, p0 := 31, p1 := 31, c := 31, x := 63, v := 0, q := 0, stack := [], row := none, buffer := Vector.replicate 64 [], results := []
    acc := Vector.replicate 64 (Vector.replicate 8 0), wrote := [], waits := none }

/-- The command: 32 rows, 32 rows, a result of 256 bytes, and a vector of 64 bytes. -/
def bank0 : BankCmd :=
  { id := 7, kind := .run, wg := 0, group := 0, ctx := 1, counter := 1, num := 1, completion := some 0x6000, trap := false, scope := .grp, rel := false, start := none
    refused := false, members := [0], pending := [0], words := [], startWord := 0, vector := ⟨0, 0, 64⟩, entry := 0
    ranges := [(⟨0, 0, 0x200000⟩, ⟨0x200000, 0, 0x200000⟩, ⟨0x400000, 0, 256⟩)], stops := [], bytes := 0, movf := false, remote := none, far := none, vas := [] }

/-- The machine with that command and a run on pseudo-channel 0. -/
def onBank (r : Option Run) (c : BankCmd) : State :=
  { on [g0 []] with
    pcs := modVec (fun (p : Pc) => { p with run := r, queue := [7], tag := some 1 }) State.reset.pcs 0
    bankCmds := [c], bankGrants := (500000, 0) }

theorem bank_runs (r : Run) (hc : r.cmd = 7) (hm : r.member = 0) :
    BankRun (onBank (some r) bank0) r bank0 ⟨0, 0, 0x200000⟩ ⟨0x200000, 0, 0x200000⟩ ⟨0x400000, 0, 256⟩ := ⟨rfl, by rw [hc]; rfl, by rw [hm]; rfl⟩

/-- What a run of command 7 has to do with. -/
def ctx0 (r : Run) : BankCtx := ⟨r, some bank0, ⟨0, 0, 0x200000⟩, ⟨0x200000, 0, 0x200000⟩, ⟨0x400000, 0, 256⟩, bank0.vector⟩

theorem bank_allowed (r : Run) (steps : Nat) (h : steps ≤ 64) : BankAllowed (onBank (some r) bank0) (ctx0 r) steps := by
  refine .inr ⟨rfl, ?_, ?_⟩
  · show 4 * steps ≤ min 500000 (500000 + 125 * (0 - 0))
    omega
  · refine List.any_eq_false.2 fun p hp => ?_
    obtain ⟨i, hi, rfl⟩ := Vector.mem_iff_getElem.1 (Vector.mem_toList_iff.1 hp)
    have e : (onBank (some r) bank0).pcs[i] = if i = 0 then { Pc.reset with run := some r, queue := [7], tag := some 1 } else Pc.reset := by
      have h := getVec_modVec (fun (p : Pc) => { p with run := some r, queue := [7], tag := some 1 }) State.reset.pcs 0 i Pc.reset
      have g : getVec State.reset.pcs i Pc.reset = Pc.reset := by
        unfold getVec
        split
        · exact Vector.getElem_replicate _
        · contradiction
      rw [g] at h
      unfold getVec at h
      rw [dif_pos hi] at h
      exact h.trans (by by_cases h0 : i = 0 <;> simp [h0])
    rw [e]
    by_cases h0 : i = 0
    · rw [if_pos h0]
      dsimp only
      split <;> simp [ctx0]
    · rw [if_neg h0]
      exact Bool.false_ne_true

/-- Words 254 and 255; a range of no bytes, rows 31 and 32; BMAC with no row, at column 31 and chunk 63, and one past each; BWRA of the last
256 bytes and past them; BWRB of range 1 and of range 0; four loops open; BEND of the last pass, of another, and outside a loop; BXLD of
the last 64 bytes; a bucket short of one step, and a run of a lower rank behind one that waits. -/
theorem witness_BankMicroOperations : let u : Option (Bool × Nat) := some (true, 31)
    (∀ (r : Run), r.cmd = 7 → r.member = 0 → ∀ steps, steps ≤ 64 →
      BankRun (onBank (some r) bank0) r bank0 ⟨0, 0, 0x200000⟩ ⟨0x200000, 0, 0x200000⟩ ⟨0x400000, 0, 256⟩ ∧ BankAllowed (onBank (some r) bank0) (ctx0 r) steps) ∧
    run0.word < 255 ∧ ({ run0 with word := 255 } : Run).word = 255 ∧ ¬ 31 < run0.p0 ∧ 31 < ({ run0 with p1 := 32 } : Run).p1 ∧ run0.row = none ∧
    (let r : Run := { run0 with row := u }
     ¬ (31 < r.c ∨ 63 < r.x ∨ 31 * 2 ^ 16 + r.c * 2 ^ 11 < 0 ∨ 0 + 0x200000 < 31 * 2 ^ 16 + r.c * 2 ^ 11 + 2048) ∧
       (onBank (some r) bank0).bankPoisoned (0x200000 + (31 * 2 ^ 16 + r.c * 2 ^ 11)) 2048 = false) ∧
    31 < ({ run0 with row := u, c := 32 } : Run).c ∧ 63 < ({ run0 with row := u, x := 64 } : Run).x ∧ ¬ 256 < run0.q + 256 ∧ 256 < ({ run0 with q := 1 } : Run).q + 256 ∧
    ¬ (31 * 2 ^ 16 + (31 : BitVec 5).toNat * 2 ^ 11 < 0 ∨ 0 + 0x200000 < 31 * 2 ^ 16 + (31 : BitVec 5).toNat * 2 ^ 11 + 2048) ∧
    4 ≤ ({ run0 with stack := List.replicate 4 (1, 2) } : Run).stack.length ∧ (1 ≤ 1 ∧ ¬ 2 ≤ 1 ∧ 1 ≤ 255) ∧
    ¬ 64 < run0.v + 32 * ((1 : BitVec 6).toNat + 1) ∧ (onBank (some run0) bank0).bankPoisoned (0 + 0 + run0.v) 64 = false ∧
    (let s : State := { onBank (some run0) bank0 with bankGrants := (15, 0) }
     BankRun s run0 bank0 ⟨0, 0, 0x200000⟩ ⟨0x200000, 0, 0x200000⟩ ⟨0x400000, 0, 256⟩ ∧ s.bankRoom (ctx0 run0) = true ∧ s.grants < 4 * 4) ∧
    (let s : State := { onBank (some run0) bank0 with regions := State.reset.regions ++ (onBank none bank0).regions.map fun r => { r with own := { r.own with bank := some 0 }, bankUsed := 0 } }
     BankRun s run0 bank0 ⟨0, 0, 0x200000⟩ ⟨0x200000, 0, 0x200000⟩ ⟨0x400000, 0, 256⟩ ∧ s.bankRoom (ctx0 run0) = false) ∧
    (let s : State := { onBank (some run0) bank0 with
       pcs := modVec (fun (p : Pc) => { p with run := some { run0 with member := 1, waits := some 0 } }) (onBank (some run0) bank0).pcs 1, stamp := 5 }
     BankRun s run0 bank0 ⟨0, 0, 0x200000⟩ ⟨0x200000, 0, 0x200000⟩ ⟨0x400000, 0, 256⟩ ∧ s.bankRoom (ctx0 run0) = true ∧ s.waitsBefore run0 = true) := by
  refine ⟨fun r hc hm steps h => ⟨bank_runs r hc hm, bank_allowed r steps h⟩, by decide, rfl, by decide, by decide, rfl, by decide +kernel, by decide, by decide, by decide, by decide, by decide, by decide,
    by decide, by decide, by decide, ⟨⟨rfl, rfl, rfl⟩, rfl, by decide⟩, ⟨⟨rfl, rfl, rfl⟩, by decide⟩, ⟨⟨rfl, rfl, rfl⟩, rfl, by decide⟩⟩

/-- A command of each kind in its turn; a run that waits for counter 2; a fence behind a run and free of it; and commands with and without
members left. -/
theorem witness_BankCommandResult : let load : BankCmd := { bank0 with kind := .load, words := [5], startWord := 255 }
    let waits : BankCmd := { bank0 with start := some (2, 1) }
    let fence : BankCmd := { bank0 with kind := .fence }
    let behind : State := { onBank none fence with bankCmds := [{ bank0 with id := 6 }, fence] }
    let done : BankCmd := { bank0 with pending := [] }
    (onBank none load).bankTurn 0 .load = some load ∧ (onBank none load).refusedInTurn load = false ∧ (onBank none waits).bankTurn 0 .run = some waits ∧
      (onBank none waits).startHolds waits.wg waits.start = false ∧ (onBank none bank0).bankTurn 0 .run = some bank0 ∧ (onBank none bank0).startHolds 0 none = true ∧
      (onBank none bank0).refusedInTurn bank0 = false ∧ bank0.members.findIdx? (· == 0) = some 0 ∧
      (onBank none fence).bankTurn 0 .fence = some fence ∧ (onBank none fence).runsBefore fence = false ∧ behind.bankTurn 0 .fence = some fence ∧ behind.runsBefore fence = true ∧
      (onBank none bank0).bankCmd? bank0.id = some bank0 ∧ bank0.pending ≠ [] ∧
      (onBank none done).bankCmd? done.id = some done ∧ done.far = none ∧ done.remote = none ∧ done.refused = false ∧ bank0.ranges[0]? = some (⟨0, 0, 0x200000⟩, ⟨0x200000, 0, 0x200000⟩, ⟨0x400000, 0, 256⟩) := by
  refine ⟨by decide, by decide, by decide, by decide, by decide, by decide, by decide, by decide, by decide, by decide, by decide, by decide, by decide, by decide, by decide, by decide, by decide, by decide, rfl⟩

/-! Engines. -/

theorem withSlots_replicas {s : State} (f : Nat → Slot → Slot) (h : ReplicasCurrent s) : ReplicasCurrent (withSlots s f) := h

/-- Stream, VIEWI and RMINV commands of k2, one whose record on a peer page is still to be answered; a RELEASING slot in use and not. -/
theorem witness_CommandCompletion : let c (k : CmdKind) : Cmd := ⟨2, 1, k, none, .grp, true, 0, none⟩
    let w (k : CmdKind) : Wg := wgWith [] fun w => { w with cmds := [c k], counters := modVec (fun _ => ⟨1, 0, []⟩) w.counters 2 }
    let s (k : CmdKind) : State := withSlots (onWgs [w k]) fun i x => if i = 3 then { x with state := .releasing } else x
    let v (q : List Seq) : State := withSlots (onWgs [{ w0 [g0 []] with seqs := q }]) fun i x => if i = 3 then { x with state := .releasing } else x
    let none_ : Holders := ⟨[], [], [], [], []⟩
    (∀ k ∈ [CmdKind.stream 0 true, .stream 0 false, .viewi (some 0x6000) 0 0 3 none_, .rminv none 0 0 3 1 none_], (s k).cmd? ⟨0, 2, 1⟩ = some (c k) ∧ (s k).wg? 0 = some (w k) ∧
      (s k).cmdUnanswered ⟨0, 2, 1⟩ = false ∧ (withOps (s k) [sentOp 7 (.command 0 2 1) (5, 0x6000, .store [1]) none]).cmd? ⟨0, 2, 1⟩ = some (c k) ∧
      (withOps (s k) [sentOp 7 (.command 0 2 1) (5, 0x6000, .store [1]) none]).cmdUnanswered ⟨0, 2, 1⟩ = true) ∧
      (∀ k, ReplicasCurrent (s k)) ∧ ((v []).slot 0 3).state = .releasing ∧ ((v []).slot 0 3).loads = [] ∧
      (v [seqOf gang2 1 [1] [] none]).wg? ((v [seqOf gang2 1 [1] [] none]).slot 0 3).owner = some { w0 [g0 []] with seqs := [seqOf gang2 1 [1] [] none] } ∧
      (seqOf gang2 1 [1] [] none).oA = 3 := by
  refine ⟨?_, fun k => ?_, by decide, by decide, rfl, by decide⟩
  · intro k hk
    simp only [List.mem_cons, List.not_mem_nil, or_false] at hk
    rcases hk with rfl | rfl | rfl | rfl <;> exact ⟨by decide, rfl, rfl, by decide, rfl⟩
  · exact withSlots_replicas _ (onWgs_replicas _ _)

/-- A data fill of one row at 0x8000 and one absent row, and a segment fill, into slot 3. -/
theorem witness_OperandLoadResult : let data : LoadRow := ⟨true, 0, false, [], [], [.inl (.whole (.hbm 0x8000)), .inr 7], [.inr 1], []⟩
    let absent : LoadRow := { data with resident := false }
    let l (kind : OpldKind) : Load := ⟨4, kind, 0, [data, absent], [], [], true, [(0, 1)], .grp, 0, 0, []⟩
    let s (kind : OpldKind) : State := withSlots (onWgs [wgWith [] fun w => { w with full := [1] }]) fun i x =>
      if i = 3 then { claimed x with loads := [l kind], lastData := 4, lastSeg := 4 } else x
    ∀ kind seg, (kind = .plain ∧ seg = false) ∨ (kind = .segr ∧ seg = true) →
      ((s kind).slot 0 3).loads.find? (fun l => isSegment l.kind == seg) = some (l kind) ∧ (s kind).wgState (l kind).wg ≠ some .ready ∧ ReplicasCurrent (s kind) ∧
      (∀ w, (s kind).wg? 0 = some w → w.readsBefore 3 4 = false) ∧ (∀ g ∈ (l kind).granules, (s kind).granuleFull g = true) ∧ (l kind).status = [] ∧
      ∀ row ∈ (l kind).rows, ∀ b ∈ row.refs, (s kind).ownRef b ∧ (s kind).refPoisoned b = false := by
  intro data absent l s kind seg h
  have own (row : LoadRow) (hr : row ∈ [data, absent]) : ∀ b ∈ row.refs, (s kind).ownRef b ∧ (s kind).refPoisoned b = false := by
    intro b hb
    have : b = .whole (.hbm 0x8000) := by
      simp only [List.mem_cons, List.not_mem_nil, or_false] at hr
      rcases hr with rfl | rfl <;> (revert hb; decide +revert)
    subst this
    exact ⟨.inl trivial, rfl⟩
  rcases h with ⟨rfl, rfl⟩ | ⟨rfl, rfl⟩
  · exact ⟨by decide, by decide, withSlots_replicas _ (onWgs_replicas _ _), fun w hw => by cases hw; rfl, by decide, rfl, own⟩
  · exact ⟨by decide, by decide, withSlots_replicas _ (onWgs_replicas _ _), fun w hw => by cases hw; rfl, by decide, rfl, own⟩

/-- An MMA on tile 4 with its operands filled: on a fresh tile, on a tile of its tag, on a tile of another tag, and on a poisoned fill; and one
of a workgroup that has completed. -/
theorem witness_MmaExecution : let fb : List Byte := bytesOfNat 32 (2 + 2 * 256)
    let q : Seq := { seqOf gang2 1 [0, 1] fb (some 9) with dataA := 4, dataB := 4 }
    let w (t : List (Nat × Tile)) : Wg := { w0 [g0 []] with seqs := [q], tiles := t }
    let s (t : List (Nat × Tile)) (bad : Bool) : State := withSlots (onWgs [w t]) fun _ x => { claimed x with d := { x.d with poisonData := bad } }
    let acc := accFmtOf (fbAcc q.fmt)
    (∀ t ∈ [[], [(4, Tile.new .fp32)], [(4, Tile.new .fp16)]], ∀ bad, (s t bad).wg? 0 = some (w t) ∧ (w t).seqs[0]? = some q ∧ (w t).state = .resident ∧ acc = .fp32 ∧
      (s t bad).seqReady (w t) q [q.tile] = true ∧ (w t).gates q = false ∧ (s t bad).tileRoom 0 [q.tile] = true ∧
      (s t bad).seqPoisoned (w t) q = bad ∧ (q.accumulate = true ∧ (((w t).tile q.tile).getD (Tile.new acc)).tag ≠ acc ↔ t = [(4, Tile.new .fp16)])) ∧
      (onWgs [{ w [] with state := .complete }]).wg? 0 = some { w [] with state := .complete } := by
  intro fb q w s acc
  refine ⟨fun t ht bad => ?_, rfl⟩
  simp only [List.mem_cons, List.not_mem_nil, or_false] at ht
  rcases ht with rfl | rfl | rfl
  all_goals
    cases bad
    · refine ⟨rfl, rfl, rfl, by decide, by decide, by decide, by decide, by decide, ?_⟩
      constructor <;> intro h <;> revert h <;> decide +kernel
    · refine ⟨rfl, rfl, rfl, by decide, by decide, by decide, by decide, by decide, ?_⟩
      constructor <;> intro h <;> revert h <;> decide +kernel

/-- A slice of elements of 8 bytes. -/
def slice0 (r : List Byte) (rejected : Bool) : Slice := ⟨0, false, none, r, some 0x6000, rejected, false, [], []⟩

/-- Two slices of 8-byte elements: one element from 0x8000, and a pad of 7 with one element behind it from 0x8100. -/
def slices2 (bad : Bool) : List Slice :=
  [slice0 (bytesOfNat 128 (0x8000 + 0x9000 * 2 ^ 64 + 224 * 2 ^ 128 + 2 ^ 320 + 2 ^ 480 + 2 ^ 640)) false,
   slice0 (bytesOfNat 128 (0x8100 + 0x9100 * 2 ^ 64 + 224 * 2 ^ 128 + 7 * 2 ^ 256 + 2 ^ 320 + 2 ^ 480 + 2 ^ 640 + 2 ^ 800)) bad]

/-- A slice whose conv record is at an address, and one whose source is. -/
def sliceConv (va : Nat) : Slice := slice0 (bytesOfNat 128 (0x8000 + 0x9000 * 2 ^ 64 + (96 + 2 ^ 21) * 2 ^ 128 + 2 ^ 320 + 2 ^ 480 + 2 ^ 640 + va * 2 ^ 960)) false
def sliceFrom (va : Nat) : Slice := slice0 (bytesOfNat 128 (va + 0x9000 * 2 ^ 64 + 96 * 2 ^ 128 + 2 ^ 320 + 2 ^ 480 + 2 ^ 640)) false

/-- A collective as command 1 of k2. -/
def copyCmd (xs : List Slice) (running : Bool) (start : Option (Nat × Nat)) : Cmd := ⟨2, 1, .copy xs running 0, start, .grp, false, 0, none⟩

def onCopy (c : Cmd) : State := onWgs [wgWith [] fun w => { w with cmds := [c], counters := modVec (fun _ => ⟨1, 0, []⟩) w.counters 2 }]

/-- The sources of offers that lie in own memory, outside the view aperture. -/
def sourcesOf (r : CmdRef) (xs : List Slice) : State → List CopyOffer → Option (List (List Byte) × State)
  | s, [] => some ([], s)
  | s, o :: os =>
    match o.src with
    | none => (sourcesOf r xs s os).map fun y => (bytesOfNat (slEsize (sliceRecord xs o.slice)) (slFill (sliceRecord xs o.slice)) :: y.1, y.2)
    | some va =>
      let ag := s.copyAgent r o.group
      let acc := Acc.load (slEsize (sliceRecord xs o.slice))
      let q := resolvedBy s ag acc va
      if windowOf va != .view && isOwn s ag acc va && s.hostif.params.tierHot == 0 then
        (sourcesOf r xs (s.served ag (slHint (sliceRecord xs o.slice)) true q.refs) os).map fun y => (s.readRefs ag true q.refs :: y.1, y.2)
      else none

theorem sourcesOf_spec {r : CmdRef} {xs : List Slice} {os : List CopyOffer} : ∀ {s u : State} {got : List (List Byte)},
    sourcesOf r xs s os = some (got, u) → State.sources r xs s os got u := by
  induction os with
  | nil => intro s u got h; cases h; exact ⟨rfl, rfl⟩
  | cons o os ih =>
    intro s u got h
    unfold sourcesOf at h
    split at h
    · next e =>
      obtain ⟨y, hy, e'⟩ := Option.map_eq_some_iff.1 h
      cases e'
      refine ⟨_, _, rfl, ?_⟩
      rw [e]
      exact ⟨rfl, ih hy⟩
    · next va e =>
      dsimp only at h
      split at h
      · next c =>
        simp only [Bool.and_eq_true, bne_iff_ne, beq_iff_eq] at c
        obtain ⟨y, hy, e'⟩ := Option.map_eq_some_iff.1 h
        cases e'
        refine ⟨_, _, rfl, ?_⟩
        rw [e]
        exact ⟨s, _, State.viewReady_plain _ _ _ c.1.1, (isOwn_spec c.1.2).1, (isOwn_spec c.1.2).2.1, (isOwn_spec c.1.2).2.2, c.2, rfl, ih hy⟩
      · cases h

/-- A destination of own bytes that it wins whole. -/
def destOk (s : State) (all : List CopyDest) (d : CopyDest) : Bool :=
  match d.look with
  | ⟨.ok q, none⟩ => q.refs.length == d.offer.size && q.refs.all (plainRef s) && decide (d.wins all = q.refs)
  | _ => false

theorem destOk_spec {s : State} {all : List CopyDest} {d : CopyDest} (h : destOk s all d = true) :
    ∃ q, d.look = ⟨.ok q, none⟩ ∧ q.refs.length = d.offer.size ∧ (∀ y ∈ q.refs, s.ownRef y) ∧ d.wins all = q.refs := by
  unfold destOk at h
  split at h
  · next q e =>
    simp only [Bool.and_eq_true, beq_iff_eq, List.all_eq_true, decide_eq_true_eq] at h
    exact ⟨q, e, h.1.1, fun y hy => plainRef_own (h.1.2 y hy), h.2⟩
  · cases h

/-- The checks that a starting collective makes of its slices' views. -/
def slicesReady (s : State) (r : CmdRef) (zs : List Slice) : State × Bool :=
  zs.foldl (fun (acc : State × Bool) z =>
    let y := acc.1.sliceReady r (copyRanks zs) z
    (y.1, acc.2 && y.2)) (s, true)

/-- Two chunks: refused, held by its start condition, about to start, with a conv record or a view descriptor that a peer holds, or out of the
vault's bounds; and running, whole and cut after its first chunk. -/
theorem witness_CopyResult : let r : CmdRef := ⟨0, 2, 1⟩
    let c (xs : List Slice) (running : Bool) (start : Option (Nat × Nat)) : Cmd := copyCmd xs running start
    let conv := sliceConv 0x40000
    let view := sliceFrom 0xFE00030000000000
    let out := sliceFrom 0xFD0000FF00010000
    let away (xs : List Slice) := awayTable (onCopy (c xs false none))
    (∀ xs ∈ [slices2 false, slices2 true, [out]], ∀ start, (onCopy (c xs false start)).cmd? r = some (c xs false start) ∧ (c xs false start).ending = none ∧
      (onCopy (c xs false start)).resident 0 = true ∧ (c xs false start).lacksSlices = false) ∧
    copyStatus (slices2 true) = 7 ∧ copyStatus (slices2 false) = 0 ∧ (onCopy (c (slices2 false) false (some (3, 1)))).startHolds 0 (some (3, 1)) = false ∧
    (onCopy (c (slices2 false) false none)).startHolds 0 none = true ∧
    (((onCopy (c (slices2 false) false none)).readConvs r (slices2 false)).2.all fun y => match y.2 with | .bytes _ => true | _ => false) = true ∧
    (slicesReady ((onCopy (c (slices2 false) false none)).readConvs r (slices2 false)).1 r (slices2 false)).2 = true ∧
    copyStatus ((onCopy (c (slices2 false) false none)).startSlices r (slices2 false)) = 0 ∧
    copyStatus [out] = 0 ∧ copyStatus ((onCopy (c [out] false none)).startSlices r [out]) = 1 ∧
    ((away [conv]).cmd? r = some (c [conv] false none) ∧ (away [conv]).resident 0 = true ∧ (c [conv] false none).lacksSlices = false ∧ copyStatus [conv] = 0 ∧
      (((away [conv]).readConvs r [conv]).2.any fun y => match y.2 with | .wait => true | _ => false) = true) ∧
    ((away [view]).cmd? r = some (c [view] false none) ∧ (away [view]).resident 0 = true ∧ (c [view] false none).lacksSlices = false ∧ copyStatus [view] = 0 ∧
      (slicesReady (away [view]) r [view]).2 = false) ∧
    (let s := onCopy (c (slices2 false) true none)
     let cs := s.chunkDests r (slices2 false)
     s.cmd? r = some (c (slices2 false) true none) ∧ s.resident 0 = true ∧ ((slices2 false).head?.any fun x => x.reduce) = false ∧ copyRanks (slices2 false) = [none] ∧
       cs.length = 2 ∧ s.wholeCut r cs 1 = 1 ∧ s.wholeCut r cs 2 = 2 ∧ s.copyOverlaps r cs.flatten = false ∧
       (∀ d ∈ cs.flatten, ∃ q, d.look = ⟨.ok q, none⟩ ∧ q.refs.length = d.offer.size ∧ (∀ y ∈ q.refs, s.ownRef y) ∧ d.wins cs.flatten = q.refs) ∧
       (∃ u got, State.sources r (slices2 false) s (cs.flatten.map (·.offer)) got u) ∧ ∃ u got, State.sources r (slices2 false) s ((cs.take 1).flatten.map (·.offer)) got u) := by
  have src (xs : List Slice) (s : State) (os : List CopyOffer) (h : (sourcesOf ⟨0, 2, 1⟩ xs s os).isSome = true) : ∃ u got, State.sources ⟨0, 2, 1⟩ xs s os got u := by
    obtain ⟨y, hy⟩ := Option.isSome_iff_exists.1 h
    exact ⟨y.2, y.1, sourcesOf_spec hy⟩
  have dst (s : State) (all ds : List CopyDest) (h : (ds.all (destOk s all)) = true) :
      ∀ d ∈ ds, ∃ q, d.look = ⟨.ok q, none⟩ ∧ q.refs.length = d.offer.size ∧ (∀ y ∈ q.refs, s.ownRef y) ∧ d.wins all = q.refs :=
    fun d hd => destOk_spec (List.all_eq_true.1 h d hd)
  refine ⟨fun xs hx start => ?_, by decide, by decide, by decide, by decide, by decide, by decide, by decide, by decide, by decide, ⟨rfl, rfl, by decide, by decide, by decide⟩,
    ⟨rfl, rfl, by decide, by decide, by decide⟩, rfl, rfl, by decide, by decide, by decide, by decide, by decide, by decide, dst _ _ _ (by decide), src _ _ _ (by decide), src _ _ _ (by decide)⟩
  simp only [List.mem_cons, List.not_mem_nil, or_false] at hx
  rcases hx with rfl | rfl | rfl <;> exact ⟨rfl, rfl, rfl, rfl⟩

/-! What the device does on its own. -/

/-- A record for the queue at 0x10000. -/
def pend0 : Pending := { origin := .scalar 0 0 0, ctx := 1, queue := 0x10000, reach := 0, record := List.replicate 64 3, seq := none }

/-- A queue of 16 with room for one, a full one, and a header with a bit in its last byte. -/
theorem witness_TrapRecordWritten : let s (bytes : List (Nat × List Byte)) : State := { on [g0 []] bytes with pending := [pend0] }
    let room := s (fields 0x10000 [(0, 4, 16), (8, 4, 20), (0x10, 4, 5)])
    let filled := s (fields 0x10000 [(0, 4, 16), (8, 4, 16)])
    let bad := s (fields 0x10000 [(0, 4, 16), (0x3F, 1, 128)])
    let h (s : State) : List Byte := s.readRefs (devAgent 1 0) true (hbmRun 0x10000 64)
    (∀ x ∈ [room, filled, bad], x.resolveFlat (devAgent 1 0) (Acc.load 64) 0x10000 = .ok (hbmRun 0x10000 64) ∧ ∀ b ∈ hbmRun 0x10000 64, x.ownRef b ∧ x.refPoisoned b = false) ∧
    pend0.record.length = 64 ∧ (h bad).getD 63 0 ≠ 0 ∧
    (∀ x ∈ [room, filled], recNat (h x) 0 4 = 2 ^ 4 ∧ recNat (h x) 4 4 = 0 ∧ recNat (h x) 0xC 4 = 0 ∧ ∀ b ∈ recBytes (h x) 0x14 44, b = 0) ∧
    recNat (h filled) 8 4 - recNat (h filled) 0x10 4 = 16 ∧ recNat (h room) 8 4 - recNat (h room) 0x10 4 = 15 ∧ ReplicasCurrent room ∧
    room.pending[0]? = some pend0 ∧ filled.pending[0]? = some pend0 ∧
    room.resolveFlat (devAgent 1 0) (Acc.store 64) 0x10140 = .ok (hbmRun 0x10140 64) ∧ (0x10000 + 0x40 + 64 * (20 % 16)) % 2 ^ 64 = 0x10140 ∧
    (room.writeRefs (devAgent 1 0) (hbmRun 0x10140 64) (pend0.record.take 0x38 ++ bytesOfNat 4 20 ++ pend0.record.drop 0x3C)).resolveFlat (devAgent 1 0) (Acc.store 4) 0x10008 =
      .ok (hbmRun 0x10008 4) := by
  refine ⟨?_, by decide, by decide, by decide, by decide, by decide, on_replicas [g0 []] [], rfl, rfl, okOf_spec (by decide), by decide, okOf_spec (by decide)⟩
  intro x hx
  simp only [List.mem_cons, List.not_mem_nil, or_false] at hx
  rcases hx with rfl | rfl | rfl <;> exact ⟨okOf_spec (by decide), fun b hb => ⟨hbmRun_own _ _ _ b hb, by revert b; decide⟩⟩
theorem failed {ε α : Type} {r : Except ε α} (h : okOf r = none) : ∃ c, r = .error c := by
  cases r with
  | error c => exact ⟨c, rfl⟩
  | ok a => cases h

/-- A launch of one workgroup in a region. -/
def launchIn (region groups flags : Nat) (st : LaunchState) : Launch :=
  { loadedLaunch with
    region := region, state := st
    record := bytesOfNat 128 (region + 2 ^ 64 + 2 ^ 96 + 2 ^ 128 + groups * 2 ^ 160 + 16 * 2 ^ 176 + flags * 2 ^ 224 + 0x5000 * 2 ^ 576 + 65 * 2 ^ 640 + 2 * 2 ^ 704 + 66 * 2 ^ 736) }

/-- A machine with launches and regions. -/
def onLaunches (ls : List Launch) (ws : List Wg) (bytes : List (Nat × List Byte) := []) : State :=
  { onWgs ws bytes with
    launches := ls
    regions := [loadedRegion, { loadedRegion with rcb := 0x21000, parent := 0x20000, own := { loadedRegion.own with priority := 1, mask := 1 } }] }

/-- What stands between a unit and its cores: nothing; a resident workgroup of lower rank on the only core of the mask; a launch whose
workgroup needs bits 0 and 1 of a bitmap, bit 1 past a producer of 66 included; a marked workgroup, drained, and one that is not marked. -/
theorem witness_SchedulingEvents : let free := onLaunches [launchIn 0x20000 1 0 .queued] []
    let full := onLaunches [launchIn 0x20000 32 0 .running, launchIn 0x21000 1 0 .queued] [w0 (List.replicate 32 (g0 []))]
    let dep := onLaunches [launchIn 0x20000 1 16 .queued] [] (fields 0x5000 [(0, 8, 3)])
    let marked : Wg := { w0 [g0 []] with preempt := true }
    (∀ ix, (on [g0 []]).candidate ix = none) ∧
    (free.topUnit = some ⟨0, [0], false, 64, 0⟩ ∧ free.launch? 0 = some (launchIn 0x20000 1 0 .queued) ∧ free.wgs = [] ∧ (∃ cs, free.tryPlace ⟨0, [0], false, 64, 0⟩ (launchIn 0x20000 1 0 .queued) [] = some cs ∧
      (cs.map fun c => (c.launch, c.j)) = [(0, 0)] ∧ (cs.map fun c => (c.launch, c.j)).Nodup)) ∧
    (full.topUnit = some ⟨1, [0], false, 65, 0⟩ ∧ full.tryPlace ⟨1, [0], false, 65, 0⟩ (launchIn 0x21000 1 0 .queued) [] = none ∧
      full.victims ⟨1, [0], false, 65, 0⟩ (launchIn 0x21000 1 0 .queued) full.wgs.length full.marked = some [0]) ∧
    (dep.launch? 0 = some (launchIn 0x20000 1 16 .queued) ∧ (launchIn 0x20000 1 16 .queued).dep = true ∧ (launchIn 0x20000 1 16 .queued).count = 1 ∧
      ((launchIn 0x20000 1 16 .queued).depA, (launchIn 0x20000 1 16 .queued).depB, (launchIn 0x20000 1 16 .queued).depC, (launchIn 0x20000 1 16 .queued).depP) = (65, 0, 2, 66) ∧
      dep.devRead (devAgent 1 0) 0x5000 8 = .ok [3, 0, 0, 0, 0, 0, 0, 0]) ∧
    ((onWgs [marked]).wg? 0 = some marked ∧ marked.state = .resident ∧ marked.preempt = true ∧ (onWgs [marked]).drainWork ((onWgs [marked]).unitWgs 0) = 0 ∧ (onWgs [marked]).unsettled ((onWgs [marked]).unitWgs 0) = false) ∧
    (w0 [g0 []]).preempt = false := by
  refine ⟨fun ix => ?_, ⟨by decide +kernel, rfl, rfl, ?_⟩, ⟨by decide +kernel, by decide +kernel, by decide +kernel⟩, ⟨rfl, by decide +kernel, by decide +kernel, by decide +kernel, okOf_spec (by decide +kernel)⟩, ⟨rfl, rfl, rfl, by decide +kernel, by decide +kernel⟩, rfl⟩
  · match ix with
    | 0 => decide
    | ix + 1 => rfl
  · match h : (onLaunches [launchIn 0x20000 1 0 .queued] []).tryPlace ⟨0, [0], false, 64, 0⟩ (launchIn 0x20000 1 0 .queued) [] with
    | some cs =>
      have : ((onLaunches [launchIn 0x20000 1 0 .queued] []).tryPlace ⟨0, [0], false, 64, 0⟩ (launchIn 0x20000 1 0 .queued) []).map (·.map fun c => (c.launch, c.j)) = some [(0, 0)] := by decide +kernel
      rw [h] at this
      have : cs.map (fun c => (c.launch, c.j)) = [(0, 0)] := Option.some.inj this
      exact ⟨cs, rfl, this, by rw [this]; decide⟩
    | none => exact absurd h (by decide +kernel)

/-- One nanosecond before a boundary and at it, with the root RCB in memory; the tenth boundary of each activity and the ninth; a context that
has not moved for P, its waits internal, external, mixed; and one nanosecond earlier. -/
theorem witness_PeriodAndWatchdog : let at_ (t : Nat) (ts : List SplitStatus) : State :=
      { on [{ g0 [] with splits := Vector.ofFn fun i => (ts[i.val]?).map fun y => { x0 with status := y } }] rootRcb with time := t }
    let held (n : Nat) : Region := { loadedRegion with heldHbm := n, heldBank := n, heldFabric := n }
    let inside : SplitStatus := .waiting (.barrier 5 1 false)
    let p := (at_ 0 []).hostif.params.watchdog
    (at_ 99999 []).now / 100000 ≤ (at_ 99999 []).lastPeriod ∧ (at_ 100000 []).lastPeriod < (at_ 100000 []).now / 100000 ∧
    (∃ bs, (at_ 100000 []).devRead (devAgent 1 0) 0x20000 256 = .ok bs ∧ rcbOk loadedCtx 0x20000 bs = true) ∧ (at_ 100000 []).ctx? 1 = some loadedCtx ∧
    (∃ c, ({ at_ 100000 [] with reaches := State.reset.reaches } : State).devRead (devAgent 1 0) 0x20000 256 = .error c) ∧
    (∀ n ∈ [9, 10], ({ on [] with regions := [held n] } : State).regions[0]? = some (held n) ∧ ((held n).heldHbm, (held n).heldBank, (held n).heldFabric) = (n, n, n)) ∧
    p = 100000000 ∧ (∀ ts, (at_ p ts).contextWgs 1 = [0]) ∧ (∀ ts, (at_ p ts).launchesHeld 1 = []) ∧ loadedCtx.watchdogHeld = false ∧ loadedCtx.lastProgress = 0 ∧
    (at_ p [inside]).contextWaits 1 = [false] ∧ (at_ p [.parked]).contextWaits 1 = [true] ∧ (at_ p [.parked, inside]).contextWaits 1 = [true, false] ∧
    ¬ p ≤ (at_ (p - 1) [inside]).time - 0 := by
  refine ⟨by decide +kernel, by decide +kernel, ?_, rfl, ?_, ?_, by decide +kernel, fun ts => rfl, fun ts => rfl, rfl, rfl, by decide +kernel, by decide +kernel, by decide +kernel, by decide +kernel⟩
  · exact ⟨_, okOf_spec (a := recBytes ((on [g0 []] rootRcb).readRefs (devAgent 1 0) true (hbmRun 0x20000 256)) 0 256) (by decide +kernel), by decide +kernel⟩
  · exact failed (by decide +kernel)
  · intro n hn
    simp only [List.mem_cons, List.not_mem_nil, or_false] at hn
    rcases hn with rfl | rfl <;> exact ⟨rfl, rfl⟩
/-- A group in a restartable region that has been restarted twice. -/
def restartable : Group := { g0 [] with splits := (Vector.replicate 4 none).set 0 (some { x0 with region := some ⟨0x1000, 15, 2, 7⟩ }) }

/-- The last HBM byte, lane 63 of v255; the third fault of a core in its window; poisoned shared state; an eddy entry; one nanosecond before
a scan's end and at it; core 47 as the next to scan; and the two ends of the island range. -/
theorem witness_ReliabilityEvents : let w : Wg := { w0 [restartable] with poisonShared := true }
    let x : Region := loadedRegion
    let e : Eddy := ⟨0, 0, vfaddWord, 0, 0x1000, 1, 0, 0, none⟩
    let s := withSlots { onWgs [w] with faults := [(1, 0, 0), (1, 0, 0)], time := 2000000 } fun _ y => y
    let c (again : Bool) : State := { s with cores := modVec (fun c => { c with scanning := some (0, again), eddy := modVec (fun _ => [e]) c.eddy 3 }) s.cores 0 }
    let r : State := { s with reaches := modVec (fun r => { r with nextCore := 47 }) s.reaches 0, time := s.hostif.params.scanInterval }
    x.rcb = 0x20000 ∧ isHbm (2 ^ 39 - 1) = true ∧ (on [restartable]).group? 0 0 = some restartable ∧
    (((1, 0, s.time) :: s.faults.filter fun f => s.time < f.2.2 + s.hostif.params.faultWindow).filter fun f => f.1 == 1 && f.2.1 == 0).length = s.hostif.params.faultCount ∧
    (1, 0) ∉ s.retired ∧ s.wg? 0 = some w ∧ w.state = .resident ∧ w.poisonShared = true ∧ w.groups = [restartable] ∧
      restartable.split 0 = some { x0 with region := some ⟨0x1000, 15, 2, 7⟩ } ∧ (∀ k, k ≠ 0 → restartable.split k = none) ∧ restartable.overflow = [] ∧ restartable.retired = false ∧
    (w0 [restartable]).poisonShared = false ∧ (getVec ((c false).core 0).eddy 3 [])[0]? = some e ∧ (∀ again, ((c again).core 0).scanning = some (0, again)) ∧ 0 + 2000000 ≤ s.time ∧
    (r.hostif.params.scanInterval ≠ 0 ∧ (r.reach 0).lastScan + r.hostif.params.scanInterval ≤ r.time) ∧ 48 * 0 + ((r.reach 0).nextCore + 0) % 48 = 47 ∧
      (∀ c : Nat, c / 48 = 0 → ¬ ((r.core c).inService = true ∧ (r.core c).withheld = true ∧ (r.core c).scanning = none)) ∧ (r.core 47).inService = true ∧ (r.core 47).withheld = false ∧
    (420 ≤ 420 ∧ 600 ≤ 600) := by
  refine ⟨rfl, by decide, rfl, by decide, by decide, rfl, rfl, rfl, rfl, rfl, fun k hk => ?_, rfl, rfl, rfl, by decide +kernel, fun again => rfl, by decide, by decide, by decide, fun c hc => ?_, by decide, by decide,
    by decide⟩
  · match k with
    | 0 => exact absurd rfl hk
    | 1 => rfl
    | 2 => rfl
    | 3 => rfl
    | k + 4 => rfl
  · have h : c < 48 := by omega
    clear hc; revert c
    decide +kernel

/-- A stream of device 2, context 1, engine 3, acknowledged up to 5. -/
def rid : ReqId := ⟨2, 1, 3⟩
def hdr (addr : Nat) (serial ack : BitVec 32) : ReqHeader := ⟨true, 64, 2, 0, rid, serial, ack, addr, 9⟩

/-- The owner: grants of HBM and of the door 1 of workgroup 0. -/
def owner (orc : List OrcEntry) : State :=
  { onWgs [w0 [g0 []]] with
    fabric := { Fabric.reset with
      portsUp := true, grants := [⟨2, 1, 0x8000, 0x1000, true⟩, ⟨2, 1, 0x9000, 0x1000, false⟩, ⟨2, 1, 0xD010000000000, 0x1000, true⟩], doors := [(1, 0)]
      table := [⟨rid, 5, 0⟩], orc := orc } }

theorem clean_hbm (s : State) (pa n : Nat) (hp : s.poison = []) : ∀ b ∈ hbmRun pa n, s.ownRef b ∧ s.refPoisoned b = false := by
  intro b hb
  refine ⟨hbmRun_own _ _ _ b hb, ?_⟩
  simp only [hbmRun, List.mem_map] at hb
  obtain ⟨i, -, rfl⟩ := hb
  simp only [State.refPoisoned, State.placePoisoned, hp]
  rfl

/-- A fresh serial and its window's last; a cached one; an old one; one past the window; another incarnation; an unknown stream; a refused write
of a read-only range and of no range; a run of HBM bytes, two view elements of 4 and 16 bits, a chunk, a push, a bank run of no bytes. -/
theorem witness_FabricOwnerResult : let s := owner []
    let cached : OrcEntry := ⟨rid, 6, 0, [1]⟩
    let h := hdr 0x8000 5 5
    let elems : List FarElem := [⟨0x8000, true, 4⟩, ⟨0x8002, false, 16⟩]
    let c : RChunk := ⟨0, 12, 0, false, false, [(0x8000, 0x3F800000), (0x8004, 0x40000000)], none⟩
    s.arrives h = true ∧ ({ s with fabric := { s.fabric with portsUp := false } } : State).arrives h = false ∧ h.inc = s.hostif.incarn.toNat ∧
    s.fabric.table = [⟨h.reqid, 5, 0⟩] ∧ Heard s h 5 ∧ Heard s (hdr 0x8000 4100 5) 5 ∧ ((4100 : BitVec 32) - 5).toNat < 4096 ∧ 4096 ≤ ((4101 : BitVec 32) - 5).toNat ∧
      2 ^ 31 < ((5 : BitVec 32) - 4101).toNat ∧ (1 ≤ ((5 : BitVec 32) - 4).toNat ∧ ((5 : BitVec 32) - 4).toNat ≤ 2 ^ 31) ∧
      (owner [cached]).fabric.orc.find? (fun e => e.reqid == rid && e.serial == 6) = some cached ∧ (∀ e ∈ s.fabric.orc, ¬ (e.reqid = h.reqid ∧ e.serial = h.serial)) ∧
      (((4101 : BitVec 32) - 5).toNat ≤ 4096) ∧ ({ h with inc := 1 } : ReqHeader).inc ≠ s.hostif.incarn.toNat ∧ s.fabric.orc.length < 1048576 ∧
    s.ownerBytes h true 0x8000 64 = .ok (hbmRun 0x8000 64) ∧ s.ownerBytes h false 0x9000 4 = .ok (hbmRun 0x9000 4) ∧ s.ownerBytes h true 0x9000 4 = .error 3 ∧
      s.ownerBytes h true 0xA000 4 = .error 2 ∧ (∀ b ∈ hbmRun 0x8000 64, s.ownRef b ∧ s.refPoisoned b = false) ∧ s.pcieHost (hbmRun 0x8000 64) = false ∧
    s.ownerSpans h true (elems.map elemSpan) = .ok [hbmRun 0x8000 1, hbmRun 0x8002 2] ∧
    (∃ x, chunkReduce c = some x ∧ s.ownerSpans h true ((chunkTargets c).map fun a => (a, x.bytes)) = .ok [hbmRun 0x8000 4, hbmRun 0x8004 4]) ∧
    (s.ownerBytes h true 0xD010000000000 64 = .ok ((List.range 64).map fun i => .whole (.vault 0 i)) ∧ s.doorWg (fld 0xD010000000000 40 8) = some 0 ∧ s.coreOf 0 < 192 ∧
      itemFieldsOk (List.replicate 64 0) = true ∧ (s.at 0 0 0).itemFull (List.replicate 64 0) = some [] ∧ (s.at 0 0 0).itemEmpty (List.replicate 64 0) = some none ∧
      (s.reach 0).items.length < 65536) ∧
    (s.bankInProgress h = false ∧ farSpans .run (List.replicate 64 0) (farPlaces (List.replicate 64 0) (List.replicate 32 0)).1 (farPlaces (List.replicate 64 0) (List.replicate 32 0)).2 = ([], []) ∧
      firstCause s h true [] = none) := by
  refine ⟨by decide, by decide, by decide, rfl, ⟨by decide, by decide, by decide, ⟨0, by decide⟩, rfl⟩, ⟨by decide, by decide, by decide, ⟨0, by decide⟩, rfl⟩, by decide, by decide, by decide, by decide, by decide, by decide, by decide,
    by decide, by decide, okOf_spec (by decide), okOf_spec (by decide), ?_, ?_, clean_hbm _ _ _ rfl, by decide, okOf_spec (by decide), ⟨_, rfl, okOf_spec (by decide)⟩,
    ⟨okOf_spec (by decide), by decide, by decide, by decide, by decide, by decide, by decide⟩, by decide, by decide, by decide⟩
  · rfl
  · rfl


/-- A reserved engine; a table and a cache that are full; a bank command in progress. -/
theorem witness_FabricOwnerResult2 : let h := hdr 0x8000 5 5
    let other : ReqId := ⟨3, 1, 3⟩
    let full (s : State) : State := { s with fabric := { s.fabric with table := List.replicate 65536 ⟨other, 5, 0⟩ } }
    let orc (s : State) : State := { s with fabric := { s.fabric with orc := List.replicate 1048576 ⟨other, 6, 0, []⟩ } }
    let busy : State := { owner [] with bankCmds := [{ bank0 with remote := some h }] }
    ((owner []).arrives { h with reqid := ⟨2, 1, 7⟩ } = true ∧ reservedEngine { h with reqid := ⟨2, 1, 7⟩ } = true ∧ reservedEngine { h with reqid := ⟨2, 1, 6⟩ } = false) ∧
    ((full (owner [])).arrives h = true ∧ h.inc = (full (owner [])).hostif.incarn.toNat ∧ (∀ t ∈ (full (owner [])).fabric.table, t.reqid ≠ h.reqid) ∧ 65536 ≤ (full (owner [])).fabric.table.length) ∧
    (Heard (orc (owner [])) h 5 ∧ (∀ e ∈ (orc (owner [])).fabric.orc, ¬ (e.reqid = h.reqid ∧ e.serial = h.serial)) ∧ 1048576 ≤ (orc (owner [])).fabric.orc.length ∧
      (orc (owner [])).ownerBytes h true 0x8000 4 = .ok (hbmRun 0x8000 4)) ∧
    (Heard busy h 5 ∧ busy.bankInProgress h = true) := by
  refine ⟨⟨by decide, by decide, by decide⟩, ⟨rfl, rfl, fun t ht => ?_, ?_⟩, ⟨⟨rfl, by decide, rfl, ⟨0, rfl⟩, rfl⟩, fun e he => ?_, ?_, okOf_spec (by decide)⟩,
    ⟨by decide, by decide, by decide, ⟨0, by decide⟩, rfl⟩, by decide⟩
  · rw [List.eq_of_mem_replicate ht]; decide
  · exact Nat.le_of_eq (List.length_replicate).symm
  · rw [List.eq_of_mem_replicate he]; decide
  · exact Nat.le_of_eq (List.length_replicate).symm

/-- An operation of split 0 on its stream to device 3. -/
def op0 (st : OpState) (p : Payload) : RemoteOp :=
  { id := 9, issuer := .scalar 0 0 0, owner := 3, reqid := ⟨0, 1, 3⟩, payload := p, addr := 0x8000, serial := some 5, state := st, firstSent := 0, lastSent := 0, copies := 1
    onlyBusy := true, busyDelay := 4000, checksums := 1, result := none }

def reply0 (kind : Nat) (status : BitVec 16) (busy : Bool) : Response := ⟨kind, status, 7, ⟨0, 1, 3⟩, 5, busy, false, [1, 2, 3, 4], 9⟩

/-- The requester, at a time, with the operation, its stream and its split waiting for it. -/
def requester (t : Nat) (o : RemoteOp) : State :=
  { onWgs [w0 [gs [] (.waiting (.remote 9))]] with
    time := t
    fabric := { Fabric.reset with
      portsUp := true, ops := [o], nextOp := 10, streams := [⟨⟨0, 1, 3⟩, 3, some 7, 6, 4, [], 0, 3⟩], table := [⟨rid, 5, 0⟩], ports := modVec (fun _ => [(.request 3 (hdr 0x8000 5 4) .ack, 64, 0)]) Fabric.reset.ports 17 } }

/-- A response that answers and one that does not; BUSY, checksum and final ones; each timer one nanosecond early and on time. -/
theorem witness_FabricRequesterResult : let s (t : Nat) (st : OpState) : State := requester t (op0 st (.store [1]))
    let life := 2 ^ 1 * (64 * 1000)
    let give := 1000000000
    (∀ t st, (s t st).op? 9 = some (op0 st (.store [1])) ∧ (s t st).fabric.portsUp = true ∧ (s t st).hostif.params.lifetimeUs = 64 ∧ (s t st).hostif.params.giveUp = give) ∧
    (op0 .sent (.store [1])).answeredBy (reply0 0x82 0 false) = true ∧ (op0 .sent (.store [1])).answeredBy (reply0 0x81 0 false) = false ∧
      (op0 .sent .probe).answeredBy (reply0 0xA0 0 false) = true ∧ (s 0 .sent).stream? ⟨0, 1, 3⟩ 3 = some ⟨⟨0, 1, 3⟩, 3, some 7, 6, 4, [], 0, 3⟩ ∧
      ((reply0 0x82 0 true).busy = true ∧ (reply0 0x82 4 false).status.toNat = 4 ∧ (op0 .sent (.store [1])).checksums < 2) ∧
    (op0 .sent (.store [1])).issuer ≠ .device ∧ (s 0 .sent).group? 0 0 = some (gs [] (.waiting (.remote 9))) ∧
      (gs [] (.waiting (.remote 9))).split 0 = some { x0 with status := .waiting (.remote 9) } ∧
    ((s (life - 1) .sent).time < 0 + life ∧ 0 + life ≤ (s life .sent).time) ∧ ((s 99 (.waitbusy 100)).time < 100 ∧ 100 ≤ (s 100 (.waitbusy 100)).time) ∧
      (0 + 64 * 1000 ≤ (s 64000 (.saved 0)).time ∧ (s 64000 (.saved 0)).opResumed (op0 (.saved 0) (.store [1])) = true ∧ ¬ 0 + 64 * 1000 ≤ (s 63999 (.saved 0)).time) ∧
      ((s (give - 1) .sent).time < 0 + give ∧ 0 + give ≤ (s give .sent).time ∧ (op0 .sent (.store [1])).payload ≠ .probe ∧ (op0 .sent (.store [1])).serial ≠ none) ∧
    ((s 0 .sent).fabric.streams[0]? = some ⟨⟨0, 1, 3⟩, 3, some 7, 6, 4, [], 0, 3⟩ ∧ (3 : BitVec 32) ≠ 4 ∧ 0 + 100000 ≤ (s 100000 .sent).time) ∧
    ((s 0 .sent).fabric.table[0]? = some ⟨rid, 5, 0⟩ ∧ (s 0 .sent).fabric.orc = [] ∧ (s 0 .sent).bankCmds = []) ∧
    (((s 0 .sent).fabric.port 17)[0]? = some (.request 3 (hdr 0x8000 5 4) .ack, 64, 0) ∧ ((63000 - 0 + 999) / 1000 < 64 ∧ ¬ (63001 - 0 + 999) / 1000 < 64)) :=
  ⟨fun _ _ => ⟨rfl, rfl, rfl, rfl⟩, by decide, by decide, by decide, rfl, by decide, by decide, rfl, rfl, by decide, by decide, by decide, by decide, by decide, by decide, by decide⟩

/-- A write that reach 3's replica has still to apply; a page-in whose entry is as it left it, and one whose entry has moved on. -/
theorem witness_FabricRequesterResult2 : let w : ReplWrite := ⟨0x9000, [1], (0, 0), 0⟩
    let p : PageIn := ⟨1, 5, 2, 0x7020, 6, 0x100000, 0x200000, 64, none⟩
    let s (gen : Nat) : State := { on [] (fields 0x7020 [(0, 16, 2 + gen * 2 ^ 8)]) with
      reaches := modVec (fun r => { r with replLog := [w], pageIns := [p] }) (on []).reaches 0 }
    (∀ gen, (s gen).reach 0 = { (on []).reach 0 with replLog := [w], pageIns := [p] } ∧ getVec ((s gen).reach 0).replApplied 3 0 = 0 ∧ ((s gen).reach 0).replLog[0]? = some w ∧
      ((s gen).reach 0).replLog[1]? = none ∧ ((s gen).reach 0).pageIns[0]? = some p) ∧
    ∀ gen ∈ [6, 7], (s gen).physBytes p.source p.size = some (List.replicate 64 0) ∧
      let v := ((s gen).modReach 0 fun r => { r with pageIns := r.pageIns.eraseIdx 0 }).fillFrame p (List.replicate 64 0)
      v.devRead (devAgent 1 0) p.entryVa 16 = .ok (bytesOfNat 16 (2 + gen * 2 ^ 8)) ∧ v.resolveFlat (devAgent 1 0) (Acc.load 16) p.entryVa = .ok (hbmRun 0x7020 16) ∧
      fld (2 + gen * 2 ^ 8) 0 3 = 2 ∧ (fld (2 + gen * 2 ^ 8) 8 16 = p.gen ↔ gen = 6) := by
  refine ⟨fun gen => ⟨rfl, rfl, rfl, rfl, rfl⟩, ?_⟩
  intro gen hg
  simp only [List.mem_cons, List.not_mem_nil, or_false] at hg
  rcases hg with rfl | rfl
  · exact ⟨by decide, okOf_spec (by decide), okOf_spec (by decide), by decide, by decide⟩
  · exact ⟨by decide, okOf_spec (by decide), okOf_spec (by decide), by decide, by decide⟩

/-- Whichever it is, some port takes a flit while one is in service. -/
theorem port_found (s : State) (dev : Nat) (h : s.retired = []) : ∃ p, s.portFor dev = some p := by
  unfold State.portFor
  have e : (List.range Config.fabricPorts).filter s.portOpen = List.range Config.fabricPorts := by
    refine List.filter_eq_self.2 fun p hp => ?_
    unfold State.portOpen
    rw [h]
    simpa using List.mem_range.1 hp
  dsimp only
  rw [e, List.length_range]
  exact ⟨_, List.getElem?_eq_getElem (by rw [List.length_range]; exact Nat.mod_lt _ (by decide))⟩

/-- A port for the requester's flits; a region whose fabric budget is spent, and one with room; a response of the stream's incarnation. -/
theorem witness_FabricRequesterResult3 : let s (t : Nat) (st : OpState) : State := requester t (op0 st (.store [1]))
    let spent (s : State) : State := { s with regions := s.regions.map fun r => { r with own := { r.own with fabric := some 0 } } }
    (∀ t st, ∃ p, (s t st).portFor 3 = some p) ∧ (∀ st, (op0 st (.store [1])).issuer.untaken = false) ∧ (∀ t st, (s t st).fabricHeld (.scalar 0 0 0) = false) ∧
    (∀ t ∈ [0, 64000], ∀ st ∈ [OpState.sent, .waitbusy 100, .saved 0], (spent (s t st)).fabricHeld (.scalar 0 0 0) = true ∧ (spent (s t st)).op? 9 = some (op0 st (.store [1]))) ∧
    (reply0 0x82 0 false).inc = 7 ∧ (s 0 .sent).fabric.port 3 = [] ∧ (hbmRun 0x7020 16).length = 16 ∧ ∀ v : State, ∀ b ∈ hbmRun 0x7020 16, v.ownRef b :=
  ⟨fun _ _ => port_found _ _ rfl, fun _ => rfl, fun _ _ => rfl, by decide, rfl, by decide, by decide, fun _ => hbmRun_own _ _ _⟩

/-! The host. -/

/-- The command of ring index 5 with a code, a context and operands. -/
def hostCmd (code ctx : Nat) (ops : List Nat) : HostCmd :=
  HostCmd.read 5 (bytesOfNat 2 code ++ bytesOfNat 2 0 ++ bytesOfNat 4 ctx ++ (List.range 7).flatMap fun i => bytesOfNat 8 (ops.getD i 0))

/-- The machine that has read that command. -/
def onHost (s : State) (c : HostCmd) : State := { s with hostif := { s.hostif with bootstat := 1, cmds := [c] } }

/-- A pending record of sequence 5 and DISPOSE: d is the disposition. -/
def disposed (gs : List Group) (o : Origin) (d : Nat) : State := { onHost (on gs) (hostCmd 0x04 1 [5, d]) with pending := [{ pend0 with origin := o, seq := some 5 }] }

/-- Dispositions 0 to 3, a sequence that names nothing and one of 33 bits; every origin. -/
theorem witness_DispositionResult : let parked := gs [] .parked
    let stopped := { gs [] .parked with laneQ := [headEntry], head := { Head.empty with stopped := true } }
    let at_ (o : Origin) (d : Nat) : Prop := (disposed [parked] o d).hostTurn 5 0x04 = some (hostCmd 0x04 1 [5, d]) ∧ (disposed [parked] o d).ctx? 1 = some loadedCtx ∧
      (hostCmd 0x04 1 [5, d]).ctx = 1 ∧ (hostCmd 0x04 1 [5, d]).op 0 = 5 ∧ (hostCmd 0x04 1 [5, d]).op 1 = d ∧
      (disposed [parked] o d).pending.findIdx? (fun p => p.ctx == (1 : BitVec 20) && p.seq == some (BitVec.ofNat 32 5)) = some 0
    (∀ o d, d ≤ 3 → at_ o d) ∧ 2 < (hostCmd 0x04 1 [5, 3]).op 1 ∧ 2 ^ 32 ≤ (hostCmd 0x04 1 [2 ^ 32 + 5, 0]).op 0 ∧
    (∀ p ∈ (disposed [parked] (.watchdog 1) 0).pending, (p.ctx == (1 : BitVec 20) && p.seq == some (BitVec.ofNat 32 6)) = false) ∧
    (∀ o d, (disposed [parked] o d).group? 0 0 = some parked) ∧ parked.split 0 = some { x0 with status := .parked } ∧ parked.head.stopped = false ∧ parked.entryRun = false ∧
      parked.overflow = [] ∧ (∀ j a, j ≠ 0 → parked.split j = some a → a.status ≠ .parked ∧ a.held = false) ∧
    (disposed [stopped] (.lane 0 0) 1).group? 0 0 = some stopped ∧ stopped.laneQ = headEntry :: [] ∧ ∃ k ∈ splitIxs, (stopped.split k).isSome := by
  refine ⟨fun o d hd => ?_, by decide, by decide, by decide, fun _ _ => rfl, rfl, rfl, rfl, rfl, fun j a hj h => ?_, rfl, rfl, ⟨0, by decide, rfl⟩⟩
  · have : d = 0 ∨ d = 1 ∨ d = 2 ∨ d = 3 := by omega
    rcases this with rfl | rfl | rfl | rfl <;> exact ⟨rfl, rfl, rfl, by decide, by decide, rfl⟩
  · match j with
    | 0 => exact absurd rfl hj
    | 1 => cases h
    | 2 => cases h
    | 3 => cases h
    | j + 4 => cases h

/-- A page tree at 0x30000 that maps the first GiB to itself. -/
def tree : List (Nat × List Byte) := fields 0x30000 [(0, 8, 0x31001), (0x1000, 8, 0x32001), (0x2000, 8, 15)]

/-- Each command in its turn; one of a code that is not; one of an unregistered context; REGISTER of a valid root RCB and of a misaligned root. -/
theorem witness_HostCommandResult : let t (code ctx : Nat) (ops : List Nat) : State := onHost (on [g0 []]) (hostCmd code ctx ops)
    (∀ code, 1 ≤ code → code ≤ 0x12 → (t code 1 []).hostTurn 5 code = some (hostCmd code 1 []) ∧ (hostCmd code 1 []).started = false ∧ (hostCmd code 1 []).ctx = 1 ∧
      (hostCmd code 1 []).malformed = false) ∧ (t 2 1 []).ctx? 1 = some loadedCtx ∧ (t 2 1 []).hostTurn 5 3 = none ∧ (t 2 1 []).hostTurn 6 2 = none ∧
    (2 ∉ [0x01, 0x0B, 0x0C, 0x0E, 0x0F, 0x10] ∧ (t 2 2 []).ctx? 2 = none ∧ (t 2 2 []).hostTurn 5 2 = some (hostCmd 2 2 [])) ∧
    (t 1 0 [0x20000, 0x30001, 0]).registerCtx 0x20000 0x30001 0 = none ∧
    (let s : State := { onHost (on [] (rootRcb ++ tree)) (hostCmd 1 0 [0x20000, 0x30000, 65535]) with contexts := [], launches := [], wgs := [] }
     (s.rcbImage 0x30000 0x20000).any (fun r => rcbOk (newCtx (BitVec.ofNat 20 (recNat r 0x0C 4)) 0x20000 0x30000 65535 (recNat r 0x10 8) s.time) 0x20000 r &&
        BitVec.ofNat 20 (recNat r 0x0C 4) == (1 : BitVec 20)) = true ∧ s.ctx? 1 = none ∧ 65535 < 2 ^ 16) := by
  refine ⟨fun code h1 h2 => ?_, rfl, by decide, by decide, by decide, by decide, by decide +kernel, rfl, by decide⟩
  have : ∀ code < 19, 1 ≤ code → (onHost (on [g0 []]) (hostCmd code 1 [])).hostTurn 5 code = some (hostCmd code 1 []) ∧ (hostCmd code 1 []).started = false ∧ (hostCmd code 1 []).ctx = 1 ∧
      (hostCmd code 1 []).malformed = false := by decide +kernel
  exact this code (by omega) h1

/-- The host's registers of a booted device with port 0 up, a command ring of 16 at 0x1000 and an event ring of 16 at 0x2000. -/
def booted (f : HostIf → HostIf) : State :=
  let h : HostIf := HostIf.reset
  let p : HostPort := { mode := .cxl, msix := modVec (fun _ => (some 0, true)) HostPort.reset.msix 3, signals := [] }
  { on [g0 []] with
    host := Memory.writeRun [] 0x1040 (hostCmd 0x05 1 [0, 4096]).entry
    hostif := f { h with bootstat := 1, cmdbase := 0x1000, cmdsize := 16, cmdhead := 1, evbase := 0x2000, evsize := 16, ports := modVec (fun _ => p) h.ports 0 } }

/-- A launch record that names the root and one of no groups; a switch-out of a context with and without workgroups; the last view of a KVMAP's
last entry, values that RMSET may install and may not; one frame; an INVALID image and an illegal one; a door and none. -/
theorem witness_HostCommandResult2 : let s := { on [g0 []] (rootRcb ++ kvmapDesc 0x40280 ++ fields 0x2000 [(0, 8, 0x20000), (0x08, 4, 1), (0x0C, 4, 1), (0x10, 4, 1), (0x14, 1, 1), (0x16, 2, 16)] ++
      fields 0x3000 [(0, 8, 0x20000), (0x08, 4, 1)] ++ fields 0x4000 [(0, 8, 0x500000)] ++ fields 0x5000 [(0, 1, 15)]) with fabric := { Fabric.reset with doors := [(255, 0)] } }
    let rec_ (va n : Nat) : List Byte := s.readRefs (devAgent 1 0) true (hbmRun va n)
    (s.devRead (devAgent 1 0) 0x2000 128 = .ok (rec_ 0x2000 128) ∧ recNat (rec_ 0x2000 128) 0 8 ≠ 0 ∧ (s.validateLaunch 1 none (rec_ 0x2000 128)).isSome = true ∧ s.liveLaunches < 65536 ∧
      ReplicasCurrent s) ∧ (s.validateLaunch 1 none (rec_ 0x3000 128) = none ∧ recNat (rec_ 0x3000 128) 0 8 ≠ 0) ∧
    s.contextWgs 1 ≠ [] ∧ (on []).contextWgs 1 = [0] ∧ (onWgs []).contextWgs 1 = [] ∧
    (s.descOf (devAgent 1 0) 0 5 = .ok kvDesc ∧ kvDesc.kind = some .kvmap ∧ 5 < kvDesc.entryCount ∧
      s.resolveFlat (devAgent 1 0) (Acc.load 16) ((kvDesc.index + 16 * 5) % 2 ^ 64) = .ok (hbmRun 0x7050 16) ∧ ∀ b ∈ hbmRun 0x7050 16, s.ownRef b) ∧
    (fld 4 0 3 ≤ 4 ∧ fld 4 0 3 ≠ 2 ∧ fld 4 3 1 = 0 ∧ fld 4 5 3 = 0) ∧ ¬ fld 5 0 3 ≤ 4 ∧ fld 2 0 3 = 2 ∧
    (s.physBytes 0x4000 8 = some (bytesOfNat 8 0x500000) ∧ isHbm 0x500000 = true ∧ 0x500000 % 4096 = 0) ∧
    (s.physBytes 0x6000 128 = some (List.replicate 128 0) ∧ (parseDesc (List.replicate 128 0)).imageOk = true ∧ (s.physBytes 0x5000 128).any (fun b => !(parseDesc b).imageOk) = true ∧
      windowOf (s.descVa 1 0xFFFF) = .ordinary ∧ s.resolveFlat (devAgent 1 0) (Acc.load 128) (s.descVa 1 0xFFFF) = .ok (hbmRun 0x83FF80 128)) ∧
    (s.doorTarget 1 0 0 = some 0 ∧ s.doorTarget 1 0 1 = none) ∧
    ({ s with hostif := (booted id).hostif } : State).isHost 0x2000000001000 = true ∧ s.isHost 0x2000000001000 = false ∧ loadedCtx.exported ≠ some 0x2000000001000 ∧
      ({ loadedCtx with exported := some 0x2000000001000 } : Ctx).exported = some 0x2000000001000 := by
  refine ⟨⟨okOf_spec (by decide +kernel), by decide +kernel, by decide +kernel, by decide, ?_⟩, ⟨by decide +kernel, by decide +kernel⟩, by decide, by decide, by decide,
    ⟨okOf_spec (by decide +kernel), by decide, by decide, okOf_spec (by decide +kernel), hbmRun_own _ _ _⟩, by decide, by decide, by decide, ⟨by decide, by decide, by decide⟩,
    ⟨by decide +kernel, by decide, by decide +kernel, by decide, okOf_spec (by decide +kernel)⟩, ⟨by decide, by decide⟩, by decide, by decide, by decide, rfl⟩
  exact on_replicas [g0 []] []

theorem physPut_fits (s : State) (pa : Nat) (bs : List Byte) (h : pa + bs.length ≤ 2 ^ 39) (hp : pa < 2 ^ 39) : ∃ t, s.physPut pa bs = some t := by
  have h1 : isHbm pa = true := by simp [isHbm]; omega
  have h2 : isHbm (pa + bs.length - 1) = true := by simp [isHbm]; omega
  exact ⟨_, by simp only [State.physPut, h1, h2, Bool.and_self, if_true]; rfl⟩

/-- GRANT, CONFIG at the least legal value and below it, ATTEST with a report at 0x4000, WARM-RESET with nothing in progress. -/
theorem witness_HostCommandResult3 : let s := on [g0 []]
    (hostCmd 0x0B 0 [65535, 2 ^ 20 - 1, 0x8000, 2 ^ 52 - 0x8000, 1]).grant? = some ⟨65535, 0xFFFFF, 0x8000, 2 ^ 52 - 0x8000, true⟩ ∧ s.configValue 1 1000 = some 1000000 ∧
    s.configValue 1 999 = none ∧ s.anyBusy = false ∧ s.physBytes 0x2000 64 = some (List.replicate 64 0) ∧
    ∃ t, s.physPut 0x4000 ((List.replicate 64 0 ++ sha512 s.hostif.measurements.flatten ++ bytesOfNat 2 s.hostif.devnum.toNat ++ bytesOfNat 2 s.hostif.incarn.toNat ++
      bytesOfNat 4 s.hostif.secver.toNat ++ List.replicate 376 0) ++ (List.range 512).map (Config.signature (List.replicate 64 0 ++ sha512 s.hostif.measurements.flatten ++
      bytesOfNat 2 s.hostif.devnum.toNat ++ bytesOfNat 2 s.hostif.incarn.toNat ++ bytesOfNat 4 s.hostif.secver.toNat ++ List.replicate 376 0))) = some t := by
  refine ⟨by decide, by decide, by decide, by decide, by decide, physPut_fits _ _ _ ?_ (by decide)⟩
  have h : (sha512 (on [g0 []]).hostif.measurements.flatten).length = 64 := by decide +kernel
  have b (n v : Nat) : (bytesOfNat n v).length = n := by
    induction n generalizing v with
    | zero => rfl
    | succ n ih => simp [bytesOfNat, ih]
  simp only [List.length_append, List.length_map, List.length_range, List.length_replicate, h, b]
  decide
/-- One new command; a tail too far; a held event and a full ring; a port and a link down; a vector held 2 us and less; the last reserved byte of
BAR2, if any, is not assumed; boot codes 0 to 5. -/
theorem witness_HostPortResult : let s := booted id
    let held := booted fun h => { h with heldEvents := [List.replicate 32 1], evwrite := 16 }
    let line : HostLine := ⟨0, 0x80, .m⟩
    (s.hostif.bootstat = 1 ∧ s.hostUp = true ∧ ringSizeOk s.hostif.cmdsize.toNat = true ∧ s.hostif.cmdbase.toNat % 64 = 0 ∧ ((2 : BitVec 32) - s.hostif.cmdhead).toNat = 1 ∧
      (HostCmd.read 1 (s.host.readRun ((s.hostif.cmdbase.toNat + 64 * (1 % s.hostif.cmdsize.toNat)) % 2 ^ 48) 64)).malformed = false) ∧
      16 < ((18 : BitVec 32) - s.hostif.cmdhead).toNat ∧ ((17 : BitVec 32) - s.hostif.cmdhead).toNat ≤ 16 ∧
    (s.hostif.heldEvents = [] ∧ held.hostif.heldEvents = [List.replicate 32 1] ∧ held.hostif.evwrite - 1 ≠ held.hostif.evsize ∧ held.hostif.evwrite - 0 = held.hostif.evsize) ∧
    (State.reset.hostif.bootstat.toNat ≤ 1 ∧ s.hostif.bootstat.toNat ≤ 1 ∧ 2 ≤ (booted fun h => { h with bootstat := 2 }).hostif.bootstat.toNat) ∧
    (s.portMode 0 ≠ .down ∧ s.portMode 1 = .down ∧ State.reset.portMode 0 = .down) ∧ (∀ hpa, HostTarget.bar2 8 ≠ .hostMem hpa) ∧
    (∀ i, i < hostOpSize (.write [1, 2]) → isHbm (2 ^ 39 - 2 + i) = true) ∧
    (line ∈ (booted fun h => { h with lines := [line] }).hostif.lines ∧ line.addr = 0xFF / 128 * 128) ∧
    ((6, 1) ∉ s.retired ∧ PortMode.pcie ≠ .down) ∧
    (getVec (getVec s.hostif.ports 0 HostPort.reset).msix 3 (none, false) = (some 0, true) ∧ s.time < 0 + 2000 ∧ 0 + 2000 ≤ ({ s with time := 2000 } : State).time) ∧ s.anyBusy = false ∧
    (State.reset.hostif.bootstat = 0 ∧ State.reset.hostif.cmdhead = State.reset.hostif.cmdtail ∧ State.reset.hostif.cmds = []) ∧ 4 < (5 : BitVec 32).toNat ∧ (2 ≤ (4 : BitVec 32).toNat) := by
  refine ⟨⟨rfl, by decide, by decide, by decide, by decide, by decide +kernel⟩, by decide, by decide, by decide, by decide, by decide, ?_, ?_, by decide, by decide, by decide, by decide, by decide,
    by decide, by decide⟩
  · intro hpa h
    cases h
  · intro i h
    have h : i < 2 := h
    have : i = 0 ∨ i = 1 := by omega
    rcases this with rfl | rfl <;> decide

/-! Encodings, the step, and the invariant. -/

/-- Every word of the decode tests is below its width and decodes to a well-formed instruction that encodes to it. -/
theorem witness_DecodeEncode : (∀ x ∈ intWords ++ maskWords ++ memWords, x.2.wf = true ∧ encodeLane x.2 = some x.1 ∧ x.1 < 2 ^ 96 ∧ laneInstr? x.1 = some x.2) ∧
    (∀ x ∈ scalarWords0 ++ scalarWords4, x.2.wf = true ∧ encodeScalar x.2 = some x.1 ∧ x.1 < 2 ^ 32) ∧
    ∀ x ∈ bankWords, x.2.wf = true ∧ encodeBank x.2 = some x.1 ∧ x.1 < 2 ^ 32 := by
  refine ⟨by decide +kernel, by decide +kernel, by decide +kernel⟩

/-- The machine of a fetched word: its move, its offer, its fetch and what it decodes to; a lane word; a word that decodes to nothing; and an
event of the agenda. -/
theorem witness_StepRunsDecoded : let s (w : Nat) := State.reset.withFetchWord 32 w
    let u (w : Nat) := (s w).nextMove.1
    let o : Offer := ⟨0, 0, 0, 0, 0, 64, false⟩
    let v (w : Nat) := (u w).takeTurn o
    (∀ w ∈ [0x14100004, 9], (s w).nextMove = (u w, .issue 0 0) ∧ (u w).pickScalar 0 0 = some o ∧ (v w).entryRun = .ok (v w, ()) ∧
      (v w).codeReady (v w).agent [((v w).curPc.toNat, 4)] = (v w, true) ∧ (v w).codeRead (v w).agent false (v w).curPc.toNat 4 = .ok (bytesOfNat 4 w)) ∧
    decodeScalarBytes (bytesOfNat 4 0x14100004) = .ok (.addi 1 0 4) ∧ (v 0x14100004).scalarPoisoned (.addi 1 0 4) = false ∧
    (let p (w : Nat) : State := { v w with wgs := [{ w0 [{ g0 [(2, 65)] with poison := [.s 1] }] with placed := 0 }] }
     (p 0).scalarPoisoned (.lxr 1 2) = true ∧ (p 0).trapsFirst (.lxr 1 2) = true) ∧
    (∃ e, decodeScalarBytes (bytesOfNat 4 9) = .error e) ∧
    (let l := State.reset.withFetchWord 96 vfaddWord
     l.nextMove.2 = .laneIssue 0 0 ∧ l.nextMove.1.pickLane 0 0 = some (0, 0) ∧ (l.nextMove.1.group? 0 0).any (fun g => g.laneQ.head?.any fun e => e.item == .word vfaddWord 0) = true ∧
       laneInstr? vfaddWord = some (.vfadd ⟨.f32, .rne, ⟨⟨false, 3⟩, ⟨true, 5⟩, .and⟩, .v 4, .v 1, .v 2, .v 0, .v 0, 0, false, 0⟩)) ∧
    (let b : State := { onBank (some { run0 with word := 3 }) bank0 with
       agenda := [(5, .bankStep 0)], pcs := modVec (fun (p : Pc) => { p with store := Vector.replicate 256 0x50000000 }) (onBank (some { run0 with word := 3 }) bank0).pcs 0 }
     b.nextMove.2 = .bankStep 0 ∧ (b.nextMove.1.pc 0).run = some { run0 with word := 3 } ∧
       decodeBankBytes (bytesOfNat 4 (getVec (b.nextMove.1.pc 0).store 3 0).toNat) = .ok .bstop) ∧
    (let e := { State.reset with agenda := [(5, .event .patrol)] }
     e.nextMove.2 = .event .patrol ∧ isEvent .patrol = true) := by
  refine ⟨?_, okOf_spec (by decide), by decide, by decide, ⟨_, rfl⟩, ⟨by decide, by decide, by decide, by decide +kernel⟩, ⟨rfl, by decide, ?_⟩, by decide, by decide⟩
  rotate_left
  · exact okOf_spec (by decide +kernel)
  intro w hw
  simp only [List.mem_cons, List.not_mem_nil, or_false] at hw
  rcases hw with rfl | rfl
  · exact ⟨rfl, by decide +kernel, rfl, State.askPeers_plain _ _ _ (by decide +kernel), okOf_spec (by decide +kernel)⟩
  · exact ⟨rfl, by decide +kernel, rfl, State.askPeers_plain _ _ _ (by decide +kernel), okOf_spec (by decide +kernel)⟩

theorem answered {o : Host.Outcome State Fault Refusal} (h : (answer o).isSome = true) : ∃ t, o = .next t := by
  cases o with
  | next t => exact ⟨t, rfl⟩
  | fault f => cases h
  | refused r => cases h

/-- A machine with bytes in every memory steps to another. -/
theorem witness_InvariantStep : let s := { booted id with wgs := [{ w0 [g0 []] with vault := Memory.writeRun [] 64 [1, 2] }], agenda := [(0, .event .patrol)] }
    s.memoryOk = true ∧ (∃ t, step s = .next t) ∧ State.reset.memoryOk = true := by
  exact ⟨by decide, answered (by decide +kernel), by decide⟩

end Sys2Proof.Tests
end

/-! The lane stream's loads and stores by address (O32): which lanes are active, what lane memory leaves alone, the group that runs,
stores nibble by nibble, the end of an instruction at the head, and VLD, VST and VPREF from these. -/

namespace Sys2Proof.Machine

/-! The active lanes of the head, and what a list by lane holds for one of them. -/

theorem Group.guardMask_getLsbD (g : Group) (m : GuardMask) {l : Nat} (hl : l < 64) :
    (g.guardMask m).getLsbD l = ((getVec g.m m.mask.toNat 0).getLsbD l != m.negate) := by
  unfold Group.guardMask
  cases m.negate <;> simp [hl]

theorem Group.active_getLsbD (g : Group) (x : Guard) {l : Nat} (hl : l < 64) :
    (g.active x).getLsbD l = activeLanes g g.headTag x l := by
  unfold Group.active Group.guard activeLanes
  rw [BitVec.getLsbD_and]
  cases x.combine <;> simp [g.guardMask_getLsbD _ hl]

theorem Group.lanesOf_active (g : Group) (o : MemOp) : lanesOf (g.active o.guard) = memLanes g g.headTag o :=
  List.filter_congr fun _ hl => g.active_getLsbD o.guard (List.mem_range.1 hl)

theorem find?_lane {α : Type} (f : Nat → α) {lanes : List Nat} {i : Nat} (h : i ∈ lanes) :
    (lanes.map fun l => (l, f l)).find? (fun x => x.1 == i) = some (i, f i) := by
  induction lanes with
  | nil => cases h
  | cons a as ih =>
    by_cases e : a = i
    · subst e; simp
    · have : i ∈ as := (List.mem_cons.1 h).resolve_left fun k => e k.symm
      simpa [e] using ih this

/-! Elements after a register write (R126). -/

theorem Group.elem_setReg (g : Group) (k : Nat) (lanes : LaneMask) (f : Nat → Elem) {r l : Nat} (hr : r < 256) (hl : l < 64) :
    (g.setReg k lanes f).elem r l = if r = k ∧ lanes.getLsbD l = true then f l else g.elem r l := by
  unfold Group.elem Group.setReg
  rw [getVec_modVec]
  by_cases h : r = k
  · subst h
    by_cases hb : lanes.getLsbD l = true <;> simp [getVec, hr, hl, hb]
  · simp [h]

theorem extend_eq {ty : ElemTy} (v : Nat) (h : tyBits ty ≠ 64) :
    extend ty v = if ty = .i8 ∨ ty = .i16 then BitVec.ofInt 32 (signed (tyBits ty) v) else BitVec.ofNat 32 (v % 2 ^ tyBits ty) := by
  cases ty with
  | i64 | n64 | b64 | f64 => exact absurd rfl h
  | _ => rfl

/-- A result written into a vector operand is what R126 leaves in each active lane. -/
theorem Group.elem_setVector (g : Group) (ty : ElemTy) (d : VReg) (lanes : LaneMask) (f : Nat → Nat) {r l : Nat} (hr : r < 256) (hl : l < 64) :
    (g.setVector ty (tyBits ty) d.toNat lanes f).elem r l =
      if lanes.getLsbD l = true then (elemResult ty (tyBits ty) (.v d) (f l) r).getD (g.elem r l) else g.elem r l := by
  unfold Group.setVector elemResult
  by_cases hw : tyBits ty = 64
  · rw [if_pos hw, Group.elem_setReg _ _ _ _ hr hl, Group.elem_setReg _ _ _ _ hr hl]
    by_cases hd : r = d.toNat
    · have : r ≠ d.toNat + 1 := by omega
      by_cases hb : lanes.getLsbD l = true <;> simp [hw, hd, hb]
    · by_cases hd' : r = d.toNat + 1 <;> by_cases hb : lanes.getLsbD l = true <;> simp [hw, hd, hd', hb]
  · rw [if_neg hw, if_pos rfl, Group.elem_setReg _ _ _ _ hr hl, extend_eq _ hw]
    by_cases hd : r = d.toNat <;> by_cases hb : lanes.getLsbD l = true <;> simp [hw, hd, hb]

/-- The group after a load delivered v to the lanes of its mask, and under .st the status words kv to E (R142, R228). -/
def Group.loaded (g : Group) (o : MemOp) (active : LaneMask) (v : Nat → Nat) (kv : Nat → Elem) : Group :=
  if o.bit6 then (loadWrite o active v g).setReg (vectorNo o.e) active kv else loadWrite o active v g

theorem Group.setVector_with (g : Group) (ty : ElemTy) (w r : Nat) (lanes : LaneMask) (f : Nat → Nat) :
    ∃ vs, ∀ p a, ({ g with priv := p, acquired := a } : Group).setVector ty w r lanes f = { g with v := vs, priv := p, acquired := a } := by
  refine ⟨(g.setVector ty w r lanes f).v, fun p a => ?_⟩
  unfold Group.setVector
  split
  · rfl
  · split <;> rfl

/-- A load's registers are all it changes, whatever the group's own bytes and acquires are. -/
theorem Group.loaded_with (g : Group) (o : MemOp) (active : LaneMask) (v : Nat → Nat) (kv : Nat → Elem) :
    ∃ vs, ∀ p a, ({ g with priv := p, acquired := a } : Group).loaded o active v kv = { g with v := vs, priv := p, acquired := a } := by
  obtain ⟨vs, h⟩ := g.setVector_with o.ty (tyBits o.ty) (vectorNo o.d) active v
  unfold Group.loaded loadWrite
  cases o.bit6 with
  | false => exact ⟨vs, h⟩
  | true => exact ⟨(({ g with v := vs } : Group).setReg (vectorNo o.e) active kv).v, fun p a => by rw [if_pos rfl, h]; rfl⟩

theorem exists_of_opV {o : Operand} (h : opV o = true) : ∃ d, o = .v d := by
  cases o with
  | v d => exact ⟨d, rfl⟩
  | _ => cases h

theorem Group.elem_loaded (g : Group) (o : MemOp) (active : LaneMask) (v : Nat → Nat) (kv : Nat → Elem) (hd : opV o.d = true)
    {r l : Nat} (hr : r < 256) (hl : l < 64) :
    (g.loaded o active v kv).elem r l = if active.getLsbD l = true then
      (if o.bit6 = true ∧ r = vectorNo o.e then some (kv l) else elemResult o.ty (tyBits o.ty) o.d (v l) r).getD (g.elem r l)
      else g.elem r l := by
  obtain ⟨d, e⟩ := exists_of_opV hd
  unfold Group.loaded loadWrite
  rw [e, vectorNo]
  cases o.bit6
  · simp [g.elem_setVector _ _ _ _ hr hl]
  · rw [if_pos rfl, Group.elem_setReg _ _ _ _ hr hl, g.elem_setVector _ _ _ _ hr hl]
    by_cases hb : active.getLsbD l = true <;> by_cases hk : r = vectorNo o.e <;> simp [hb, hk]

/-! What may change beside bytes. -/

/-- A core but for its caches and its eddy queue. -/
def Core.quiet (c : Core) : Core := { c with l1 := [], scalarCode := [], laneCode := [], eddy := Vector.replicate 4 [] }

/-- A region but for what it has been charged (R399). -/
def Region.uncharged (r : Region) : Region := { r with hbmUsed := 0, fabricUsed := 0, throttledNow := [] }

/-- From s to t only caches, host lines, charges, eddy queues and the requests to peers changed: no byte and no group. -/
structure Quiet (s t : State) : Prop where
  cur : t.cur = s.cur
  wgs : t.wgs = s.wgs
  mem : t.mem = s.mem
  cc : t.cc = s.cc
  host : t.host = s.host
  hidden : t.hidden = s.hidden
  free : t.free = s.free
  contexts : t.contexts = s.contexts
  launches : t.launches = s.launches
  pending : t.pending = s.pending
  pcs : t.pcs = s.pcs
  regions : t.regions.map Region.uncharged = s.regions.map Region.uncharged
  reaches : ∀ q, Reach.sameButL2 (t.reach q) (s.reach q)
  hostif : { t.hostif with lines := [] } = { s.hostif with lines := [] }
  cores : ∀ c, (t.core c).quiet = (s.core c).quiet

theorem Quiet.refl (s : State) : Quiet s s :=
  ⟨rfl, rfl, rfl, rfl, rfl, rfl, rfl, rfl, rfl, rfl, rfl, rfl, fun _ => rfl, rfl, fun _ => rfl⟩

theorem Quiet.trans {s t u : State} (h : Quiet s t) (k : Quiet t u) : Quiet s u where
  cur := k.cur.trans h.cur
  wgs := k.wgs.trans h.wgs
  mem := k.mem.trans h.mem
  cc := k.cc.trans h.cc
  host := k.host.trans h.host
  hidden := k.hidden.trans h.hidden
  free := k.free.trans h.free
  contexts := k.contexts.trans h.contexts
  launches := k.launches.trans h.launches
  pending := k.pending.trans h.pending
  pcs := k.pcs.trans h.pcs
  regions := k.regions.trans h.regions
  reaches := fun q => (k.reaches q).trans (h.reaches q)
  hostif := k.hostif.trans h.hostif
  cores := fun c => (k.cores c).trans (h.cores c)

theorem Quiet.foldl {α : Type} (f : State → α → State) (hf : ∀ s x, Quiet s (f s x)) (l : List α) (s : State) : Quiet s (l.foldl f s) := by
  induction l generalizing s with
  | nil => exact Quiet.refl s
  | cons x l ih => exact (hf s x).trans (ih _)

theorem quiet_modCore (s : State) (c : CoreIx) (f : Core → Core) (hf : ∀ x, (f x).quiet = x.quiet) : Quiet s (s.modCore c f) :=
  { Quiet.refl s with
    cores := fun k => by
      unfold State.core State.modCore
      rw [getVec_modVec]
      split
      · exact hf _
      · rfl }

theorem quiet_modFabric (s : State) (f : Fabric → Fabric) : Quiet s (s.modFabric f) :=
  ⟨rfl, rfl, rfl, rfl, rfl, rfl, rfl, rfl, rfl, rfl, rfl, rfl, fun _ => rfl, rfl, fun _ => rfl⟩

theorem quiet_l2Serve (s : State) (w : WgIx) (write : Bool) (hint : Nat) (keys : List Nat) : Quiet s (s.l2Serve w write hint keys) :=
  { Quiet.refl s with
    regions := by simp [State.l2Serve, State.l2ServeFor, State.chargeHbm, Region.uncharged]
    reaches := reachesButL2_step _ _ _ _ _ }

theorem quiet_lines (s : State) (ls : List HostLine) : Quiet s { s with hostif := { s.hostif with lines := ls } } :=
  ⟨rfl, rfl, rfl, rfl, rfl, rfl, rfl, rfl, rfl, rfl, rfl, rfl, fun _ => rfl, rfl, fun _ => rfl⟩

theorem quiet_fetchLines (s : State) (refs : List ByteRef) : Quiet s (s.fetchLines refs) := by
  obtain ⟨ls, e⟩ := s.fetchLines_frame refs
  rw [e]
  exact quiet_lines s ls

theorem quiet_holdLines (s : State) (refs : List ByteRef) : Quiet s (s.holdLines refs) := by
  obtain ⟨ls, e⟩ := holdLines_frame (hostLinesOf refs) (fun h x => h.holdLine .m x) (fun h x => h.holdLine_frame _ x) s.hostif
  unfold State.holdLines
  rw [e]
  exact quiet_lines s ls

theorem quiet_l1Drop (s : State) (ag : Agent) (refs : List ByteRef) : Quiet s (s.l1Drop ag refs) := quiet_modCore s _ _ fun _ => rfl

theorem quiet_l1Fill (s : State) (c : CoreIx) (keep : Bool) (keys : List Nat) : Quiet s (s.l1Fill c keep keys) :=
  quiet_modCore s c _ fun _ => rfl

/-- A read changes caches and charges only (R214 to R217, R399, R431). -/
theorem quiet_served (s : State) (ag : Agent) (hint : Nat) (past : Bool) (refs : List ByteRef) : Quiet s (s.served ag hint past refs) := by
  unfold State.served
  dsimp only
  split
  · exact ((quiet_l2Serve s _ _ _ _).trans (quiet_fetchLines _ refs)).trans (quiet_l1Drop _ ag refs)
  · split
    · exact ((quiet_l2Serve s _ _ _ _).trans (quiet_fetchLines _ refs)).trans (quiet_l1Fill _ _ _ _)
    · exact (quiet_l2Serve s _ _ _ _).trans (quiet_fetchLines _ refs)

theorem quiet_servedAll (s : State) (hint : Nat) (past : Bool) (rs : List (Nat × Resolved)) : Quiet s (s.servedAll hint past rs) :=
  Quiet.foldl _ (fun s _ => quiet_served s _ _ _ _) rs s

theorem quiet_eddyCopy (s : State) (i : Instr) : Quiet s (s.eddyCopy i) := by
  unfold State.eddyCopy
  split
  · exact Quiet.refl s
  · split
    · split
      · split
        · exact quiet_modCore _ _ _ fun _ => rfl
        · exact Quiet.refl s
      · exact Quiet.refl s
    · exact Quiet.refl s

theorem quiet_laneTake (s : State) : Quiet s s.laneTake := quiet_modFabric s _

theorem quiet_l1Invalidate (s : State) (c : CoreIx) : Quiet s (s.l1Invalidate c) := quiet_modCore s c _ fun _ => rfl

theorem Quiet.homeSame {s t : State} (h : Quiet s t) : HomeSame s t := by
  intro ag p
  have hw : ∀ w, t.wg? w = s.wg? w := fun w => by unfold State.wg?; rw [h.wgs]
  have hg : ∀ w g, t.group? w g = s.group? w g := fun w g => by unfold State.group?; rw [h.wgs]
  cases p with
  | hbm pa => simp [State.readPlace, h.mem]
  | repl pa => simp [State.readPlace, h.mem]
  | cc key =>
    show t.homeCc key = s.homeCc key
    unfold State.homeCc State.hiddenByte State.freeBool
    rw [h.hidden, h.free, h.cc]
  | host port hpa => simp [State.readPlace, h.host]
  | peer d a => rfl
  | vault w off => simp only [State.readPlace, hw]
  | priv w g key => simp only [State.readPlace, hg]
  | null => rfl

theorem Quiet.curGroup {s t : State} (h : Quiet s t) : t.curGroup = s.curGroup := by
  unfold State.curGroup State.group?
  rw [h.cur, h.wgs]

theorem HomeSame.trans {s t u : State} (h : HomeSame s t) (k : HomeSame t u) : HomeSame s u := fun ag p => (k ag p).trans (h ag p)

/-- A change of the executing group that keeps its backing block changes no byte at its home. -/
theorem homeSame_modCurGroup (s : State) (f : Group → Group) (hf : ∀ g, (f g).priv = g.priv) : HomeSame s (s.modCurGroup f) := by
  intro ag p
  cases p with
  | hbm pa => rfl
  | repl pa => rfl
  | cc key => rfl
  | host port hpa => rfl
  | peer d a => rfl
  | null => rfl
  | vault w off =>
    simp only [State.readPlace, State.modCurGroup, State.modGroup, State.wg?_modWg]
    split <;> simp [Option.map_map, Function.comp_def]
  | priv w g key =>
    simp only [State.readPlace, State.modCurGroup, State.group?_modGroup]
    split <;> simp [Option.map_map, Function.comp_def, hf]

/-! What lane memory leaves alone. -/

/-- From s to t nothing changed but bytes of memory, caches, charges, eddy queues, requests to peers and the executing group. -/
structure LaneFrame (s t : State) : Prop where
  cur : t.cur = s.cur
  contexts : t.contexts = s.contexts
  launches : t.launches = s.launches
  pending : t.pending = s.pending
  pcs : t.pcs = s.pcs
  regions : t.regions.map Region.uncharged = s.regions.map Region.uncharged
  reaches : ∀ q, Reach.sameButL2 (t.reach q) (s.reach q)
  hostif : { t.hostif with lines := [] } = { s.hostif with lines := [] }
  cores : ∀ c, (t.core c).quiet = (s.core c).quiet
  wgs : t.wgs.map Wg.frame = s.wgs.map Wg.frame
  groups : ∀ w n, (w, n) ≠ (s.cur.wg, s.cur.g) →
    (t.group? w n).map (fun h => { h with priv := [] }) = (s.group? w n).map fun h => { h with priv := [] }
  side : SideSame s t

theorem Quiet.laneFrame {s t : State} (h : Quiet s t) : LaneFrame s t :=
  { h with
    wgs := by rw [h.wgs]
    groups := fun w n _ => by unfold State.group?; rw [h.wgs]
    side := fun w => by unfold State.wg?; rw [h.wgs] }

theorem LaneFrame.trans {s t u : State} (h : LaneFrame s t) (k : LaneFrame t u) : LaneFrame s u where
  cur := k.cur.trans h.cur
  contexts := k.contexts.trans h.contexts
  launches := k.launches.trans h.launches
  pending := k.pending.trans h.pending
  pcs := k.pcs.trans h.pcs
  regions := k.regions.trans h.regions
  reaches := fun q => (k.reaches q).trans (h.reaches q)
  hostif := k.hostif.trans h.hostif
  cores := fun c => (k.cores c).trans (h.cores c)
  wgs := k.wgs.trans h.wgs
  groups := fun w n hn => (k.groups w n (by rw [h.cur]; exact hn)).trans (h.groups w n hn)
  side := fun w => (k.side w).trans (h.side w)

theorem modAt_map_same {α β : Type} (φ : α → β) (f : α → α) (hf : ∀ a, φ (f a) = φ a) (l : List α) (n : Nat) :
    (modAt f l n).map φ = l.map φ := by
  induction l generalizing n with
  | nil => rfl
  | cons a as ih => cases n <;> simp [modAt, hf, ih]

/-- A change of a workgroup that keeps its groups. -/
theorem State.group?_modWg_same (s : State) (w v : WgIx) (n : GroupIx) (f : Wg → Wg) (hf : ∀ x, (f x).groups = x.groups) :
    (s.modWg w f).group? v n = s.group? v n := by
  rw [State.group?_modWg]
  split
  · simp only [hf]; rfl
  · rfl

/-- A change of a workgroup's vault bytes and their poison. -/
theorem laneFrame_modWg (s : State) (w : WgIx) (f : Wg → Wg) (hframe : ∀ x, (f x).frame = x.frame) (hg : ∀ x, (f x).groups = x.groups)
    (hs : ∀ x, ((f x).full, (f x).engineFull, (f x).tiles) = (x.full, x.engineFull, x.tiles)) : LaneFrame s (s.modWg w f) :=
  { (Quiet.refl s).laneFrame with
    wgs := modAt_map_same _ _ hframe _ _
    groups := fun v n _ => by rw [State.group?_modWg_same s w v n f hg]
    side := fun v => by
      rw [State.wg?_modWg]
      split
      · rw [Option.map_map]; exact congrArg (fun k => Option.map k (s.wg? v)) (funext hs)
      · rfl }

/-- A change of a group: the executing one, or the bytes of its backing block. -/
theorem laneFrame_modGroup (s : State) (w : WgIx) (n : GroupIx) (f : Group → Group)
    (h : (w, n) = (s.cur.wg, s.cur.g) ∨ ∀ g, ({ f g with priv := [] } : Group) = { g with priv := [] }) : LaneFrame s (s.modGroup w n f) :=
  { (Quiet.refl s).laneFrame with
    wgs := modAt_map_same Wg.frame (fun x => { x with groups := modAt f x.groups n }) (fun _ => rfl) s.wgs w
    groups := fun v k hk => by
      rw [State.group?_modGroup]
      split
      · next e =>
        obtain ⟨rfl, rfl⟩ := e
        have hf := h.resolve_left hk
        rw [Option.map_map]
        exact congrArg (fun k => Option.map k _) (funext hf)
      · rfl
    side := fun v => by
      unfold State.modGroup
      rw [State.wg?_modWg]
      split <;> simp [Option.map_map, Function.comp_def] }

theorem laneFrame_modCurGroup (s : State) (f : Group → Group) : LaneFrame s (s.modCurGroup f) := laneFrame_modGroup s _ _ f (.inl rfl)

/-! The state with another's caches and charges, field by field. -/

@[simp] theorem State.cachesOf_cur (s t : State) : (s.cachesOf t).cur = s.cur := by simp only [State.cachesOf]
@[simp] theorem State.cachesOf_contexts (s t : State) : (s.cachesOf t).contexts = s.contexts := by simp only [State.cachesOf]
@[simp] theorem State.cachesOf_launches (s t : State) : (s.cachesOf t).launches = s.launches := by simp only [State.cachesOf]
@[simp] theorem State.cachesOf_pending (s t : State) : (s.cachesOf t).pending = s.pending := by simp only [State.cachesOf]
@[simp] theorem State.cachesOf_pcs (s t : State) : (s.cachesOf t).pcs = s.pcs := by simp only [State.cachesOf]
@[simp] theorem State.cachesOf_wgs (s t : State) : (s.cachesOf t).wgs = s.wgs := by simp only [State.cachesOf]
@[simp] theorem State.cachesOf_group? (s t : State) (w : WgIx) (n : GroupIx) : (s.cachesOf t).group? w n = s.group? w n := by
  simp only [State.group?, State.cachesOf_wgs]
@[simp] theorem State.cachesOf_hostif (s t : State) : (s.cachesOf t).hostif = { s.hostif with lines := t.hostif.lines } := by
  simp only [State.cachesOf]

theorem State.cachesOf_regions {s t : State} (h : t.regions.map Region.uncharged = s.regions.map Region.uncharged) :
    (s.cachesOf t).regions = t.regions := by
  have hl : t.regions.length = s.regions.length := by simpa using congrArg List.length h
  simp only [State.cachesOf]
  refine List.ext_getElem (by simp [hl]) fun k _ hk => ?_
  have hs : k < s.regions.length := hl ▸ hk
  have e : (t.regions[k]).uncharged = (s.regions[k]).uncharged := by
    have := congrArg (fun l : List Region => l[k]?) h
    simpa [hk, hs] using this
  simp only [List.getElem_map, List.getElem_zipIdx, Nat.zero_add, List.getElem?_eq_getElem hk, Option.getD_some]
  generalize t.regions[k] = r at e ⊢
  generalize s.regions[k] = r' at e ⊢
  cases r; cases r'
  simp only [Region.uncharged, Region.mk.injEq] at e ⊢
  simp [e]

theorem State.cachesOf_reaches {s t : State} (h : ∀ q, Reach.sameButL2 (t.reach q) (s.reach q)) : (s.cachesOf t).reaches = t.reaches := by
  ext1 q hq
  have e := h q
  simp only [State.reach, getVec, hq, dite_true, Reach.sameButL2] at e
  simp only [State.cachesOf, Vector.getElem_ofFn]
  generalize t.reaches[q] = r at e ⊢
  generalize s.reaches[q] = r' at e ⊢
  cases r; cases r'
  simp only [Reach.mk.injEq] at e ⊢
  simp [e]

theorem State.cachesOf_core {s t : State} (c : CoreIx) (h : (t.core c).quiet = (s.core c).quiet) :
    { t.core c with eddy := ((s.cachesOf t).core c).eddy } = (s.cachesOf t).core c := by
  by_cases hc : c < 192
  · simp only [State.core, getVec, hc, dite_true] at h
    simp only [State.core, State.cachesOf, getVec, hc, dite_true, Vector.getElem_ofFn]
    generalize t.cores[c] = x at h ⊢
    generalize s.cores[c] = y at h ⊢
    cases x; cases y
    simp only [Core.quiet, Core.mk.injEq] at h ⊢
    simp [h]
  · simp [State.core, getVec, hc]

/-- Beside the caches and the charges of t, lane memory leaves everything outside the group alone. -/
theorem LaneFrame.elsewhere {u t : State} (h : LaneFrame u t) : ElsewhereSame (u.cachesOf t) t := by
  simp only [ElsewhereSame, State.cachesOf_cur, State.cachesOf_contexts, State.cachesOf_launches, State.cachesOf_pending,
    State.cachesOf_pcs, State.cachesOf_wgs, State.cachesOf_group?, State.cachesOf_hostif, State.cachesOf_regions h.regions,
    State.cachesOf_reaches h.reaches, true_and]
  exact ⟨h.cur, congrArg (List.map Ctx.frame) h.contexts, h.launches, h.pending, h.pcs, h.hostif, h.wgs,
    fun c => State.cachesOf_core c (h.cores c), h.groups⟩

/-! The executing group, but for its backing block and whether its reads see their homes. -/

/-- The executing group is g but for its backing block and the acquires it has made. -/
def State.hasGroup (s : State) (g : Group) : Prop := ∃ p a, s.curGroup = some { g with priv := p, acquired := a }

theorem State.hasGroup_of {s : State} {g : Group} (h : s.curGroup = some g) : s.hasGroup g := ⟨g.priv, g.acquired, h⟩

theorem State.hasGroup_congr {s t : State} {g : Group} (h : t.curGroup = s.curGroup) (hs : s.hasGroup g) : t.hasGroup g := by
  unfold State.hasGroup; rwa [h]

theorem Quiet.hasGroup {s t : State} {g : Group} (h : Quiet s t) (hs : s.hasGroup g) : t.hasGroup g := State.hasGroup_congr h.curGroup hs

/-- A change of a group's backing block, or of its acquires. -/
theorem State.hasGroup_modGroup {s : State} {g : Group} (hs : s.hasGroup g) (w : WgIx) (n : GroupIx) (f : Group → Group)
    (hf : ∀ p a, ∃ p' a', f { g with priv := p, acquired := a } = { g with priv := p', acquired := a' }) : (s.modGroup w n f).hasGroup g := by
  obtain ⟨p, a, h⟩ := hs
  have e : (s.modGroup w n f).curGroup = if s.cur.wg = w ∧ s.cur.g = n then s.curGroup.map f else s.curGroup :=
    State.group?_modGroup ..
  by_cases hw : s.cur.wg = w ∧ s.cur.g = n
  · obtain ⟨p', a', k⟩ := hf p a
    exact ⟨p', a', by rw [e, if_pos hw, h, Option.map_some, k]⟩
  · exact ⟨p, a, by rw [e, if_neg hw, h]⟩

/-- A change of a workgroup that keeps its groups. -/
theorem State.hasGroup_modWg {s : State} {g : Group} (hs : s.hasGroup g) (w : WgIx) (f : Wg → Wg) (hf : ∀ x, (f x).groups = x.groups) :
    (s.modWg w f).hasGroup g :=
  State.hasGroup_congr (s.group?_modWg_same w _ _ f hf) hs

theorem State.hasGroup_modCurGroup {s : State} {g h : Group} (hs : s.hasGroup g) (f : Group → Group)
    (hf : ∀ p a, f { g with priv := p, acquired := a } = { h with priv := p, acquired := a }) : (s.modCurGroup f).hasGroup h := by
  obtain ⟨p, a, e⟩ := hs
  exact ⟨p, a, by rw [State.curGroup_modCurGroup, e, Option.map_some, hf]⟩

/-! What the view unit reads for an access leaves the groups as they are, but for an acquire (R219, R226). -/

/-- The workgroups, and who executes, are the same. -/
def SameGroups (s t : State) : Prop := t.cur = s.cur ∧ t.wgs = s.wgs

theorem SameGroups.refl (s : State) : SameGroups s s := ⟨rfl, rfl⟩

theorem SameGroups.trans {s t u : State} (h : SameGroups s t) (k : SameGroups t u) : SameGroups s u :=
  ⟨k.1.trans h.1, k.2.trans h.2⟩

theorem SameGroups.foldl {α : Type} (f : State → α → State) (hf : ∀ s x, SameGroups s (f s x)) (l : List α) (s : State) :
    SameGroups s (l.foldl f s) := by
  induction l generalizing s with
  | nil => exact SameGroups.refl s
  | cons x l ih => exact (hf s x).trans (ih _)

theorem SameGroups.curGroup {s t : State} (h : SameGroups s t) : t.curGroup = s.curGroup := by
  unfold State.curGroup State.group?
  rw [h.1, h.2]

theorem Quiet.sameGroups {s t : State} (h : Quiet s t) : SameGroups s t := ⟨h.cur, h.wgs⟩

theorem sameGroups_replicaApplyOne (s : State) (q r : Nat) : SameGroups s (s.replicaApplyOne q r) := by
  unfold State.replicaApplyOne
  dsimp only
  split
  · exact SameGroups.refl s
  · split <;> exact ⟨rfl, rfl⟩

theorem sameGroups_replicaDrain (s : State) (q r : Nat) : SameGroups s (s.replicaDrain q r) :=
  SameGroups.foldl _ (fun s _ => sameGroups_replicaApplyOne s q r) _ s

theorem sameGroups_replRefresh (s : State) (ag : Agent) (rs : List ByteRef) : SameGroups s (s.replRefresh ag rs) := by
  unfold State.replRefresh
  split
  · refine SameGroups.foldl _ (fun s q => ?_) _ s
    dsimp only
    split
    · exact sameGroups_replicaDrain s _ _
    · exact SameGroups.refl s
  · exact SameGroups.refl s

theorem sameGroups_modFabric (s : State) (f : Fabric → Fabric) : SameGroups s (s.modFabric f) := ⟨rfl, rfl⟩
theorem sameGroups_modRegion (s : State) (c : BitVec 20) (rcb : Nat) (f : Region → Region) : SameGroups s (s.modRegion c rcb f) :=
  ⟨rfl, rfl⟩
theorem sameGroups_modStream (s : State) (r : ReqId) (o : Nat) (f : ReqStream → ReqStream) : SameGroups s (s.modStream r o f) :=
  sameGroups_modFabric s _
theorem sameGroups_modOp (s : State) (n : Nat) (f : RemoteOp → RemoteOp) : SameGroups s (s.modOp n f) := sameGroups_modFabric s _

theorem sameGroups_emit (s : State) (f : Flit) : SameGroups s (s.emit f) := by
  unfold State.emit
  split
  · exact sameGroups_modFabric s _
  · exact SameGroups.refl s

theorem sameGroups_chargeFabric (s : State) (i : Issuer) (n : Nat) : SameGroups s (s.chargeFabric i n) := by
  unfold State.chargeFabric
  split
  · exact SameGroups.refl s
  · exact SameGroups.foldl _ (fun s (r : Region) => sameGroups_modRegion s r.ctx r.rcb _) _ s

theorem sameGroups_transmit (s : State) (o : RemoteOp) : SameGroups s (s.transmit o) := by
  unfold State.transmit
  dsimp only
  refine SameGroups.trans ?_ (sameGroups_chargeFabric _ _ _)
  refine SameGroups.trans ?_ (sameGroups_emit _ _)
  split
  · exact sameGroups_modStream s _ _ _
  · exact SameGroups.refl s

theorem sameGroups_noteFabric (s : State) (i : Issuer) : SameGroups s (s.noteFabric i) := by
  unfold State.noteFabric
  split
  · exact SameGroups.refl s
  · exact sameGroups_modRegion s _ _ _

theorem sameGroups_trySend (s : State) (id : Nat) : SameGroups s (s.trySend id) := by
  have sent (t : State) (ht : SameGroups s t) (o : RemoteOp) : SameGroups s ((t.modOp id fun _ => o).transmit o) :=
    (ht.trans (sameGroups_modOp t id _)).trans (sameGroups_transmit _ o)
  unfold State.trySend
  split
  · exact SameGroups.refl s
  · dsimp only
    split
    · exact SameGroups.refl s
    · split
      · exact sameGroups_noteFabric s _
      · split
        · split
          · exact sameGroups_modFabric s _
          · split
            · exact SameGroups.refl s
            · exact sent _ (sameGroups_modStream s _ _ _) _
        · exact sent _ (SameGroups.refl s) _

theorem sameGroups_pump (s : State) : SameGroups s s.pump := by
  have go (s : State) : SameGroups s ((s.fabric.ops.map (·.id)).foldl (fun s id => s.trySend id) s) :=
    SameGroups.foldl _ (fun s id => sameGroups_trySend s id) _ s
  exact (go s).trans (go _)

theorem sameGroups_remoteBatch (s : State) (iss : Issuer) (ctx : BitVec 20) (engine : Nat) (rs : List RemoteReq) :
    SameGroups s (s.remoteBatch iss ctx engine rs).1 := by
  refine SameGroups.trans (SameGroups.foldl _ (fun s r => ?_) rs s) (sameGroups_pump _)
  split
  · exact SameGroups.refl s
  · exact sameGroups_modFabric s _

theorem sameGroups_askPeers (s : State) (ag : Agent) (rs : List (List ByteRef)) : SameGroups s (s.askPeers ag rs).1 := by
  have h := SameGroups.foldl _ (fun s r => sameGroups_replRefresh s ag r) rs s
  unfold State.askPeers
  dsimp only
  split
  · exact h
  · exact h.trans (sameGroups_remoteBatch _ _ _ _ _)

theorem sameGroups_viewAsk (s : State) (ag : Agent) (acc : Acc) (va : Nat) : SameGroups s (s.viewAsk ag acc va).1 :=
  sameGroups_askPeers s ag _

/-- The group on whose behalf the view unit reads may acquire, and no group changes otherwise. -/
theorem State.viewReady_groups (s : State) (ag : Agent) (acc : Acc) (va : Nat) :
    SameGroups s (s.viewReady ag acc va).1 ∨
      ∃ v, SameGroups s v ∧ (s.viewReady ag acc va).1 = v.acquireAs ag.core ag.wg ag.g := by
  have h1 := sameGroups_viewAsk s ag acc va
  unfold State.viewReady
  split
  · exact .inl (SameGroups.refl s)
  · split
    · next e => rw [e] at h1; exact .inl h1
    · next v e =>
      rw [e] at h1
      have h2 := h1.trans (sameGroups_viewAsk v ag acc va)
      split
      · next e' => rw [e'] at h2; exact .inl h2
      · next w e' =>
        rw [e'] at h2
        split
        · exact .inl h2
        · split
          · exact .inr ⟨w, h2, rfl⟩
          · split
            · refine .inl (h2.trans (SameGroups.foldl _ (fun s x => ?_) _ w))
              split
              · exact (quiet_served s _ _ _ _).sameGroups
              · exact SameGroups.refl s
            · exact .inl h2

theorem State.viewReady_hasGroup {s : State} {g : Group} (hs : s.hasGroup g) (ag : Agent) (acc : Acc) (va : Nat) :
    (s.viewReady ag acc va).1.hasGroup g := by
  rcases s.viewReady_groups ag acc va with h | ⟨v, h, e⟩
  · exact State.hasGroup_congr h.curGroup hs
  · rw [e]
    have hv : (v.l1Invalidate ag.core).hasGroup g := State.hasGroup_congr h.curGroup hs
    exact State.hasGroup_modGroup hv _ _ _ fun p _ => ⟨p, true, rfl⟩

/-- Looking up the lanes' accesses leaves the executing group, but for an acquire. -/
theorem State.laneLooks_hasGroup {s : State} {g : Group} (hs : s.hasGroup g) (lanes : List Nat) (acc : Acc) (addr : Nat → Nat) :
    (s.laneLooks lanes acc addr).1.hasGroup g := by
  have fold : ∀ (ls : List Nat) (x : State × Bool), x.1.hasGroup g → (ls.foldl (fun (a : State × Bool) i =>
      let q := a.1.viewReady (s.laneAgent i) acc (addr i)
      (q.1, a.2 && q.2)) x).1.hasGroup g := by
    intro ls
    induction ls with
    | nil => exact fun _ h => h
    | cons l ls ih => exact fun x h => ih _ (State.viewReady_hasGroup h _ _ _)
  unfold State.laneLooks
  split
  · exact hs
  · exact fold lanes (s, true) hs

/-! Stores, nibble by nibble (R37, R222). -/

theorem nibble_withNibble (b : Byte) (high h : Bool) (n : Nat) :
    nibble (withNibble b high n) h = if high = h then n % 16 else nibble b h := by
  have hb := b.isLt
  cases high <;> cases h <;> simp [nibble, withNibble] <;> omega

/-- The bytes at the places of a store are one byte whoever reads it, through whichever port. -/
theorem State.readPlace_sameByte {s : State} {p q : Place} (hp : s.ownPlace p) (h : sameByte p q = true) (ag ag' : Agent) :
    s.readPlace ag true q = s.readPlace ag' true p := by
  have other (e : (p == q) = true) : q = p := (beq_iff_eq.1 e).symm
  cases p with
  | repl pa => exact hp.elim
  | peer d a => exact hp.elim
  | null => exact hp.elim
  | host port a =>
    cases q with
    | host port' a' =>
      have e : a = a' := by simpa using h
      subst e; rfl
    | _ => cases other h
  | _ => cases other h; rfl

theorem sameByte_null {s : State} {q : Place} (h : s.ownPlace q) : sameByte .null q = false := by
  cases q with
  | null => exact h.elim
  | _ => rfl

theorem lastNibble_append (ws ws' : List (Place × Bool × Nat)) (p : Place) (high : Bool) :
    lastNibble (ws ++ ws') p high = (lastNibble ws' p high).or (lastNibble ws p high) := by
  unfold lastNibble
  rw [List.filter_append, List.getLast?_append]
  cases (ws'.filter fun w => sameByte w.1 p && w.2.1 == high).getLast? <;> rfl

theorem lastNibble_single (p q : Place) (h high : Bool) (v : Nat) :
    lastNibble [(p, h, v)] q high = if sameByte p q = true ∧ h = high then some v else none := by
  unfold lastNibble
  by_cases e : sameByte p q = true ∧ h = high
  · simp [e]
  · rw [if_neg e]
    have : (sameByte p q && h == high) = false := by simpa using fun a => e ∘ And.intro a
    simp [this]

/-- From s to t exactly some nibbles were written, in order; beside them only what lane memory may change did. -/
structure Stored (s t : State) (ws : List (Place × Bool × Nat)) : Prop where
  frame : LaneFrame s t
  own : ∀ p, t.ownPlace p ↔ s.ownPlace p
  written : Written s t ws
  group : ∀ g, s.hasGroup g → t.hasGroup g

theorem Stored.trans {s t u : State} {ws ws' : List (Place × Bool × Nat)} (h : Stored s t ws) (k : Stored t u ws') :
    Stored s u (ws ++ ws') where
  frame := h.frame.trans k.frame
  own p := (k.own p).trans (h.own p)
  written ag p high hp := by
    rw [k.written ag p high ((h.own p).2 hp), h.written ag p high hp, lastNibble_append]
    cases lastNibble ws' p high <;> rfl
  group g hg := k.group g (h.group g hg)

theorem Written.of_homeSame {s t : State} (h : HomeSame s t) : Written s t [] := fun ag p _ _ => by
  unfold State.nibbleAt
  rw [h ag p]
  rfl

theorem Quiet.stored {s t : State} (h : Quiet s t) : Stored s t [] where
  frame := h.laneFrame
  own p := by
    cases p with
    | vault w off => simp only [State.ownPlace, State.wg?, h.wgs]
    | priv w g key => simp only [State.ownPlace, State.group?, h.wgs]
    | cc key => simp only [State.ownPlace, State.hiddenByte, h.hidden]
    | _ => exact Iff.rfl
  written := Written.of_homeSame h.homeSame
  group _ hg := h.hasGroup hg

theorem Stored.ownRef {s t : State} {ws : List (Place × Bool × Nat)} (h : Stored s t ws) {r : ByteRef} (hr : s.ownRef r) : t.ownRef r := by
  cases r with
  | whole p => exact hr.imp_left (h.own p).2
  | nibs lo _ hi _ => exact ⟨hr.1.imp_left (h.own lo).2, hr.2.imp_left (h.own hi).2⟩

/-- A list of stores one after another, each to references that were there from the start. -/
theorem Stored.foldl {α : Type} (f : State → α → State) (refs : α → List ByteRef) (ws : α → List (Place × Bool × Nat))
    (hf : ∀ s x, (∀ r ∈ refs x, s.ownRef r) → Stored s (f s x) (ws x)) (l : List α) (s : State)
    (hl : ∀ x ∈ l, ∀ r ∈ refs x, s.ownRef r) : Stored s (l.foldl f s) (l.flatMap ws) := by
  induction l generalizing s with
  | nil => exact (Quiet.refl s).stored
  | cons x l ih =>
    have hx := hf s x (hl x List.mem_cons_self)
    exact hx.trans (ih _ fun y hy r hr => hx.ownRef (hl y (List.mem_cons_of_mem _ hy) r hr))

/-- The places of its own stay as they are where a workgroup keeps its groups. -/
theorem State.ownPlace_modWg (s : State) (w : WgIx) (f : Wg → Wg) (hf : ∀ x, (f x).groups = x.groups) (p : Place) :
    (s.modWg w f).ownPlace p ↔ s.ownPlace p := by
  cases p with
  | vault v k => simp only [State.ownPlace, State.wg?_modWg]; split <;> simp
  | priv v n k => simp only [State.ownPlace, s.group?_modWg_same w v n f hf]
  | _ => exact Iff.rfl

/-- A change of a workgroup that keeps its groups and its vault changes no byte. -/
theorem homeSame_modWg (s : State) (w : WgIx) (f : Wg → Wg) (hf : ∀ x, (f x).groups = x.groups) (hv : ∀ x, (f x).vault = x.vault) :
    HomeSame s (s.modWg w f) := by
  intro ag p
  cases p with
  | vault v k => simp only [State.readPlace, State.wg?_modWg]; split <;> simp [Option.map_map, Function.comp_def, hv]
  | priv v n k => simp only [State.readPlace, s.group?_modWg_same w v n f hf]
  | _ => rfl

/-- A write of a place of its own changes, beside its byte, only what lane memory may change. -/
theorem State.writePlace_frame (s : State) (ag : Agent) (p : Place) (b : Byte) (h : s.ownPlace p) :
    LaneFrame s (s.writePlace ag p b) ∧ (∀ q, (s.writePlace ag p b).ownPlace q ↔ s.ownPlace q) ∧
      ∀ g, s.hasGroup g → (s.writePlace ag p b).hasGroup g := by
  cases p with
  | repl pa => exact h.elim
  | peer d a => exact h.elim
  | null => exact h.elim
  | hbm pa =>
    have k := quiet_modCore s ag.core (fun c => c.l1Store pa b) fun _ => rfl
    exact ⟨{ k.laneFrame with }, k.stored.own, k.stored.group⟩
  | host port a =>
    have k := quiet_modCore s ag.core (fun c => c.l1Store (hostKey a) b) fun _ => rfl
    exact ⟨{ k.laneFrame with }, k.stored.own, k.stored.group⟩
  | cc key =>
    have hw : s.writePlace ag (.cc key) b = { s with cc := s.cc.write key b, ccOld := (key, s.cc.read key) :: s.ccOld } := by
      have h' : s.hiddenByte key = none := h
      simp only [State.writePlace, State.writeCc, h']
    rw [hw]
    have k := Quiet.refl s
    exact ⟨{ k.laneFrame with }, k.stored.own, k.stored.group⟩
  | vault w off =>
    exact ⟨laneFrame_modWg s w _ (fun _ => rfl) (fun _ => rfl) fun _ => rfl, s.ownPlace_modWg w _ fun _ => rfl,
      fun g hg => State.hasGroup_modWg hg w _ fun _ => rfl⟩
  | priv w n key =>
    refine ⟨laneFrame_modGroup s w n _ (.inr fun _ => rfl), fun q => ?_, fun g hg => State.hasGroup_modGroup hg w n _ fun p a => ⟨_, a, rfl⟩⟩
    cases q with
    | vault v k => simp only [State.ownPlace, State.writePlace, State.modGroup, State.wg?_modWg]; split <;> simp
    | priv v m k => simp only [State.ownPlace, State.writePlace, State.group?_modGroup]; split <;> simp
    | _ => exact Iff.rfl

/-- A whole byte at a place of its own, or a null element. -/
theorem State.writePlace_stored (s : State) (ag : Agent) (p : Place) (b : Byte) (h : s.ownPlace p ∨ p = .null) :
    Stored s (s.writePlace ag p b) [(p, false, b.toNat % 16), (p, true, b.toNat / 16)] := by
  have hl (q : Place) (high : Bool) : lastNibble [(p, false, b.toNat % 16), (p, true, b.toNat / 16)] q high =
      if sameByte p q = true then some (nibble b high) else none := by
    rw [← List.singleton_append, lastNibble_append, lastNibble_single, lastNibble_single]
    cases high <;> by_cases e : sameByte p q = true <;> simp [e, nibble]
  rcases h with h | rfl
  · obtain ⟨hf, ho, hg⟩ := s.writePlace_frame ag p b h
    refine ⟨hf, ho, fun ag' q high hq => ?_, hg⟩
    rw [hl]
    unfold State.nibbleAt
    rw [State.readPlace_writePlace s ag ag' p q b h hq]
    split <;> rfl
  · have k := (Quiet.refl s).stored
    refine ⟨k.frame, k.own, fun ag' q high hq => ?_, k.group⟩
    rw [hl, sameByte_null hq]
    rfl

/-- A half byte keeps the other half as its home holds it (R222). -/
theorem State.writeNibble_stored (s : State) (ag : Agent) (p : Place) (high : Bool) (v : Nat) (hv : v < 16) (h : s.ownPlace p ∨ p = .null) :
    Stored s (s.writePlace ag p (withNibble (s.homePlace ag p) high v)) [(p, high, v)] := by
  have k := s.writePlace_stored ag p (withNibble (s.homePlace ag p) high v) h
  refine ⟨k.frame, k.own, fun ag' q h' hq => ?_, k.group⟩
  rcases h with h | rfl
  · have home : s.homePlace ag p = s.readPlace ag true p := by
      cases p with
      | repl pa => exact h.elim
      | _ => rfl
    unfold State.nibbleAt
    rw [State.readPlace_writePlace s ag ag' p q _ h hq, lastNibble_single]
    by_cases e : sameByte p q = true
    · rw [if_pos e, nibble_withNibble, home, ← State.readPlace_sameByte h e ag' ag]
      by_cases e' : high = h' <;> simp [e, e', Nat.mod_eq_of_lt hv]
    · simp [e]
  · rw [lastNibble_single, sameByte_null hq]
    simp [State.writePlace]

theorem State.writeRef_stored (s : State) (ag : Agent) (r : ByteRef) (b : Byte) (h : s.ownRef r) :
    Stored s (s.writeRef ag r b) (refNibbles r b) := by
  cases r with
  | whole p => exact s.writePlace_stored ag p b h
  | nibs lo lh hi hh =>
    have hb := b.isLt
    have k := s.writeNibble_stored ag lo lh (b.toNat % 16) (by omega) h.1
    exact k.trans (State.writeNibble_stored _ ag hi hh (b.toNat / 16) (by omega) (h.2.imp_left (k.own hi).2))

/-- Poison that ends leaves every byte (R386). -/
theorem clearPoison_stored (s : State) (rs : List ByteRef) : Stored s (s.clearPoison rs) [] := by
  have first : Quiet s (if s.poison.isEmpty then s else { s with poison := s.poison.filter fun p => !(fullSectors rs).contains p }) := by
    split
    · exact Quiet.refl s
    · exact { Quiet.refl s with }
  have step (s : State) (x : WgIx × Nat) :
      Stored s (s.modWg x.1 fun y => { y with poisonVault := y.poisonVault.filter (· != x.2) }) [] :=
    ⟨laneFrame_modWg s _ _ (fun _ => rfl) (fun _ => rfl) fun _ => rfl, s.ownPlace_modWg _ _ fun _ => rfl,
      Written.of_homeSame (homeSame_modWg s _ _ (fun _ => rfl) fun _ => rfl), fun g hg => State.hasGroup_modWg hg _ _ fun _ => rfl⟩
  have all : Stored s (s.clearPoison rs) ([] ++ (fullGranules rs).flatMap fun _ => []) :=
    first.stored.trans (Stored.foldl _ (fun _ => []) (fun _ => []) (fun s x _ => step s x) (fullGranules rs) _
      fun _ _ _ hr => absurd hr List.not_mem_nil)
  rwa [List.nil_append, List.flatMap_eq_nil_iff.2 fun _ _ => rfl] at all

theorem replRun_own {s : State} {rs : List ByteRef} (h : ∀ r ∈ rs, s.ownRef r) : replRun rs = none := by
  unfold replRun
  split
  · next pa rest =>
    rcases h _ List.mem_cons_self with h | h
    · exact h.elim
    · cases h
  · rfl

/-- A store to bytes of its own writes exactly its nibbles. -/
theorem State.writeHinted_stored (s : State) (ag : Agent) (hint : Nat) (rs : List ByteRef) (bs : List Byte) (h : ∀ r ∈ rs, s.ownRef r) :
    Stored s (s.writeHinted ag hint rs bs) (storeNibbles rs bs) := by
  have k := Stored.foldl (fun (s : State) (rb : ByteRef × Byte) => s.writeRef ag rb.1 rb.2) (fun x => [x.1]) (fun x => refNibbles x.1 x.2)
    (fun s x hx => s.writeRef_stored ag x.1 x.2 (hx _ (List.mem_singleton_self _))) (rs.zip bs) s
    fun x hx r hr => by
      rw [List.mem_singleton.1 hr]
      exact h _ (List.of_mem_zip hx).1
  unfold State.writeHinted
  rw [replRun_own h]
  have := ((k.trans (clearPoison_stored _ rs)).trans (quiet_holdLines _ rs).stored).trans (quiet_l2Serve _ ag.wg true hint (writtenKeys rs)).stored
  simpa [storeNibbles] using this

/-! An instruction leaves the head of the lane queue (R28, R29). -/

theorem modSplits_facts (f : Split → Split) (hf : ∀ x, splitFacts (f x) = splitFacts x) (ks : List SplitIx) (g : Group) :
    ∃ sp, ks.foldl (fun (g : Group) k => g.modSplit k f) g = { g with splits := sp } ∧
      ∀ k, (getVec sp k none).map splitFacts = (g.split k).map splitFacts := by
  induction ks generalizing g with
  | nil => exact ⟨g.splits, rfl, fun _ => rfl⟩
  | cons j ks ih =>
    obtain ⟨sp, e, h⟩ := ih (g.modSplit j f)
    refine ⟨sp, by rw [List.foldl_cons, e]; rfl, fun k => ?_⟩
    rw [h, Group.split_modSplit]
    split
    · rw [Option.map_map]; exact congrArg (fun φ => Option.map φ (g.split k)) (funext hf)
    · rfl

/-- The group whose head instruction has retired with its flags (R28, R50, R55). -/
def Group.retiredHead (g : Group) (i : Instr) (fl : Nat) : Group :=
  (({ (g.setFlags fl).advanceSeed (laneRnd i) with laneQ := g.laneQ.tail } : Group).emptyHead).wakeRetry

theorem Group.retiredHead_with (g : Group) (i : Instr) (fl : Nat) : ∃ sp,
    g.retiredHead i fl = { g with
      flags := g.flags ||| BitVec.ofNat 64 fl
      seed := if roundsSr (laneRnd i) (g.flags ||| BitVec.ofNat 64 fl) then g.seed + 1 else g.seed
      laneQ := g.laneQ.tail, head := Head.empty, splits := sp } ∧
    ∀ k, (getVec sp k none).map splitFacts = (g.split k).map splitFacts := by
  obtain ⟨sp, e, h⟩ := modSplits_facts (fun x => if x.status == .waiting .retry then x.toReady else x)
    (fun x => by split <;> rfl) splitIxs
    { g with
      flags := g.flags ||| BitVec.ofNat 64 fl
      seed := if roundsSr (laneRnd i) (g.flags ||| BitVec.ofNat 64 fl) then g.seed + 1 else g.seed
      laneQ := g.laneQ.tail, head := Head.empty }
  refine ⟨sp, Eq.trans ?_ e, h⟩
  unfold Group.retiredHead Group.advanceSeed Group.setFlags
  dsimp only
  split <;> rfl

/-- Whose bytes and acquires differ retires alike. -/
theorem Group.retiredHead_frame (g : Group) (i : Instr) (fl : Nat) (p : Memory) (a : Bool) :
    ({ g with priv := p, acquired := a } : Group).retiredHead i fl = { g.retiredHead i fl with priv := p, acquired := a } := by
  unfold Group.retiredHead Group.advanceSeed Group.setFlags
  dsimp only
  split <;> rfl

theorem Group.retiredHead_live (g : Group) (i : Instr) (fl : Nat) (h : ∃ k ∈ splitIxs, (g.split k).isSome) :
    (g.retiredHead i fl).drained = false := by
  obtain ⟨k, hk, hs⟩ := h
  obtain ⟨sp, e, hf⟩ := g.retiredHead_with i fl
  have hn : (getVec sp k none).isNone = false := by
    have := congrArg Option.isSome (hf k)
    simp only [Option.isSome_map] at this
    rw [Option.isNone_eq_false_iff, this]
    exact hs
  rw [e]
  simp only [Group.drained, Bool.and_eq_false_iff]
  exact .inl (.inl (List.all_eq_false.2 ⟨k, hk, by simp only [Group.split, hn]; decide⟩))

theorem State.eddyCopy_l1 (s : State) (i : Instr) (c : CoreIx) : ((s.eddyCopy i).core c).l1 = (s.core c).l1 := by
  have key (k : CoreIx) (f : Core → Core) (hf : ∀ x, (f x).l1 = x.l1) : ((s.modCore k f).core c).l1 = (s.core c).l1 := by
    unfold State.core State.modCore
    rw [getVec_modVec]
    split
    · exact hf _
    · rfl
  unfold State.eddyCopy
  split
  · rfl
  · split
    · split
      · split
        · exact key _ _ fun _ => rfl
        · rfl
      · rfl
    · rfl

/-- A memory instruction that has performed: its requests leave the table, it may be copied to the eddy queue, and the group goes on. -/
theorem State.memDone_eq {s : State} {g : Group} (h : s.curGroup = some g) (clean : g.poison = [])
    (live : ∃ k ∈ splitIxs, (g.split k).isSome) (i : Instr) (active : LaneMask) (fl : Nat) :
    s.memDone i active fl = (s.laneTake.eddyCopy i).modCurGroup fun g => g.retiredHead i fl := by
  have hu : s.laneTake.modCurGroup (fun g => g.unpoison i active) = s.laneTake :=
    s.laneTake.modCurGroup_same _ fun g' h' => by
      have hg : s.curGroup = some g' := h'
      rw [h] at hg
      cases hg
      simp [Group.unpoison, clean]
  have hc : (s.laneTake.eddyCopy i).curGroup = some g := by
    rw [(quiet_eddyCopy s.laneTake i).curGroup, (quiet_laneTake s).curGroup, h]
  have hn : ((s.laneTake.eddyCopy i).modCurGroup fun g => g.retiredHead i fl).curGroup = some (g.retiredHead i fl) := by
    rw [State.curGroup_modCurGroup, hc, Option.map_some]
  have hcur : (s.laneTake.eddyCopy i).cur = s.cur := (quiet_eddyCopy s.laneTake i).cur
  unfold State.memDone State.laneRetire
  rw [hu]
  show ((s.laneTake.eddyCopy i).modCurGroup fun g => g.retiredHead i fl).retireGroup s.cur.wg s.cur.g = _
  unfold State.retireGroup
  unfold State.curGroup at hn
  rw [State.modCurGroup_cur, hcur] at hn
  rw [hn]
  simp [g.retiredHead_live i fl live]

/-- What a memory instruction leaves when it has performed. -/
theorem State.memDone_spec {s : State} {g : Group} (h : s.hasGroup g) (clean : g.poison = [])
    (live : ∃ k ∈ splitIxs, (g.split k).isSome) (i : Instr) (active : LaneMask) (fl : Nat) :
    let t := s.memDone i active fl
    LaneFrame s t ∧ HomeSame s t ∧ t.hasGroup (g.retiredHead i fl) ∧ (∀ c, (t.core c).l1 = (s.core c).l1) ∧
      t.curGroup.map (·.acquired) = s.curGroup.map (·.acquired) := by
  obtain ⟨p, a, e⟩ := h
  have q := (quiet_laneTake s).trans (quiet_eddyCopy s.laneTake i)
  have priv (g : Group) : (g.retiredHead i fl).priv = g.priv ∧ (g.retiredHead i fl).acquired = g.acquired := by
    obtain ⟨sp, e, -⟩ := g.retiredHead_with i fl
    rw [e]
    exact ⟨rfl, rfl⟩
  rw [State.memDone_eq e clean live]
  refine ⟨q.laneFrame.trans (laneFrame_modCurGroup _ _), q.homeSame.trans (homeSame_modCurGroup _ _ fun g => (priv g).1),
    State.hasGroup_modCurGroup (q.hasGroup ⟨p, a, e⟩) _ fun p a => g.retiredHead_frame i fl p a, fun c => ?_, ?_⟩
  · exact s.laneTake.eddyCopy_l1 i c
  · rw [State.curGroup_modCurGroup, q.curGroup, e]
    exact congrArg some (priv _).2

/-- An instruction that delivers elements only has retired, once all but its registers is framed. -/
theorem LaneFrame.retired {u t : State} {g : Group} {i : Instr} {e : LaneEntry} {rest : List LaneEntry} {act : Nat → Bool}
    {d : Nat → Nat → Option Elem} {vs : Vector (Vector Elem 64) 256} (hf : LaneFrame u t) (hq : g.laneQ = e :: rest) (hp : g.poison = [])
    (hg : t.hasGroup (({ g with v := vs } : Group).retiredHead i 0))
    (hv : ∀ r l, r < 256 → l < 64 → ({ g with v := vs } : Group).elem r l = if act l then (d r l).getD (g.elem r l) else g.elem r l) :
    Retired (u.cachesOf t) t i g rest act { elem := d } := by
  obtain ⟨p, a, ht⟩ := hg
  obtain ⟨sp, er, hs⟩ := ({ g with v := vs } : Group).retiredHead_with i 0
  rw [er] at ht
  exact ⟨hf.elsewhere, _, ht, hv, fun _ _ _ _ => (ite_self _).symm, rfl, congrArg (fun n => g.flags ||| BitVec.ofNat 64 n) (ite_self 0).symm,
    rfl, congrArg List.tail hq, rfl, rfl, rfl, rfl, rfl, rfl, rfl, rfl, (List.append_nil _).symm, hp, rfl, hs⟩

/-! A trap of the lane stream (R143, R357, R362). -/

theorem posted_postRecord (u : State) (p : Pending) (n : GroupIx) (h : p.origin = .lane u.cur.wg n) : Posted u (u.postRecord p) p := by
  unfold Posted State.postRecord
  rw [h]
  split
  · rfl
  · cases u.tryRecord p <;> rfl

/-- What a change of a group leaves of its workgroup. -/
theorem State.wg?_modGroup_map {β : Type} (s : State) (w v : WgIx) (n : GroupIx) (f : Group → Group) (φ : Wg → β)
    (hφ : ∀ x gs, φ { x with groups := gs } = φ x) : ((s.modGroup w n f).wg? v).map φ = (s.wg? v).map φ := by
  unfold State.modGroup
  rw [State.wg?_modWg]
  split
  · rw [Option.map_map]; exact congrArg (fun k => Option.map k (s.wg? v)) (funext fun x => hφ x _)
  · rfl

theorem State.launchOf_modGroup (s : State) (w v : WgIx) (n : GroupIx) (f : Group → Group) : (s.modGroup w n f).launchOf v = s.launchOf v := by
  have h := s.wg?_modGroup_map w v n f (fun x => s.launch? x.launch) fun _ _ => rfl
  have bind (o : Option Wg) : o.bind (fun x => s.launch? x.launch) = (o.map fun x => s.launch? x.launch).join := by cases o <;> rfl
  show ((s.modGroup w n f).wg? v).bind (fun x => s.launch? x.launch) = (s.wg? v).bind fun x => s.launch? x.launch
  rw [bind, bind, h]

theorem State.ctxOf_modGroup (s : State) (w v : WgIx) (n : GroupIx) (f : Group → Group) : (s.modGroup w n f).ctxOf v = s.ctxOf v := by
  unfold State.ctxOf
  rw [State.launchOf_modGroup]

theorem State.coreOf_modGroup (s : State) (w v : WgIx) (n : GroupIx) (f : Group → Group) : (s.modGroup w n f).coreOf v = s.coreOf v := by
  unfold State.coreOf
  rw [s.wg?_modGroup_map w v n f (·.core) fun _ _ => rfl]

theorem State.trapQueueOf_congr {s t : State} (h : t.regions = s.regions) (c : BitVec 20) (rcb : Nat) :
    t.trapQueueOf c rcb = s.trapQueueOf c rcb := by
  have hr (rcb : Nat) : t.region? c rcb = s.region? c rcb := by unfold State.region?; rw [h]
  have hp (n rcb : Nat) : t.regionPath c rcb n = s.regionPath c rcb n := by
    induction n generalizing rcb with
    | zero => rfl
    | succ n ih => simp only [State.regionPath, hr, ih]
  unfold State.trapQueueOf State.path
  rw [hp]

theorem originByte_lane (split : Nat) (t : Trap) (h : t.fetch = false) :
    originByte 1 split t = 1 + 4 * (split % 4) + ((if t.write then 16 else 0) + if t.malformed then 64 else 0) := by
  unfold originByte boolNat
  rw [h]
  cases t.write <;> cases t.malformed <;> simp

/-- The group whose lane stream a trap has stopped (R143, R357). -/
def Group.stopLane (g : Group) (fault performed : LaneMask) : Group :=
  Group.parkForLane { g with head := { g.head with stopped := true, fault := fault, performed := performed, waiting := false, issued := false } }

/-- The lowest split that shares a lane with a tag (R362). -/
def Group.splitOfTag (g : Group) (tag : LaneMask) : SplitIx :=
  (splitIxs.find? fun k => (g.split k).any fun y => y.mask &&& tag != 0).getD 0

theorem State.laneTrap_eq {u : State} {g : Group} {e : LaneEntry} {rest : List LaneEntry} (hg : u.curGroup = some g)
    (hq : g.laneQ = e :: rest) (fault performed : LaneMask) (t : Trap) :
    u.laneTrap fault performed t = (u.putGroup (g.stopLane fault performed)).postWg (.lane u.cur.wg u.cur.g) u.cur.wg u.cur.g 1
      (g.splitOfTag e.tag) e.index e.pc.toNat fault.toNat performed.toNat t := by
  have hix : g.headIndex = e.index := by
    unfold Group.headIndex LaneEntry.index
    rw [hq]
    rfl
  have htag : g.headTag = e.tag := by simp [Group.headTag, hq]
  have hput : u.putGroup (g.stopLane fault performed) = u.modCurGroup fun x => x.stopLane fault performed :=
    (u.modCurGroup_eq_put (fun x => x.stopLane fault performed) g hg).symm
  unfold State.laneTrap State.trapLane
  rw [show u.group? u.cur.wg u.cur.g = some g from hg, hg, hput]
  dsimp only
  rw [hq]
  simp only [Option.map_some, Option.getD_some, List.head?_cons, hix]
  refine congrArg (fun n => State.postWg _ _ _ _ _ (Option.getD n 0) _ _ _ _ _) ?_
  refine congrArg (fun p => List.find? p splitIxs) (funext fun k => ?_)
  rw [htag]
  cases g.split k <;> rfl

/-- The trap of the instruction at the head: its record, and the stop of the lane stream. -/
theorem State.laneTrap_taken {u : State} {g : Group} {e : LaneEntry} {rest : List LaneEntry} (hg : u.curGroup = some g)
    (hq : g.laneQ = e :: rest) (fault performed : LaneMask) (t : Trap) (hf : t.fetch = false) :
    LaneTrapTaken u (u.laneTrap fault performed t) g fault performed
      (laneRecord u g e (classCode t.cls) ((if t.write then 16 else 0) + if t.malformed then 64 else 0) t.addr t.detail fault performed) := by
  have same (v : WgIx) (h : Group) : (u.putGroup h).launchOf v = u.launchOf v ∧ (u.putGroup h).ctxOf v = u.ctxOf v ∧
      (u.putGroup h).coreOf v = u.coreOf v ∧ ((u.putGroup h).wg? v).map (·.j) = (u.wg? v).map (·.j) :=
    ⟨u.launchOf_modGroup .., u.ctxOf_modGroup .., u.coreOf_modGroup .., u.wg?_modGroup_map _ v _ _ _ fun _ _ => rfl⟩
  obtain ⟨hl, hc, hk, hj⟩ := same u.cur.wg (g.stopLane fault performed)
  rw [State.laneTrap_eq hg hq]
  unfold State.postWg State.whereOf laneRecord State.curCtx State.curCore Group.splitOfTag
  dsimp only
  rw [hl, hc, hk, hj, originByte_lane _ t hf, State.trapQueueOf_congr (s := u) (t := u.putGroup (g.stopLane fault performed)) rfl]
  exact posted_postRecord (u.putGroup (g.stopLane fault performed)) _ u.cur.g rfl

/-! Releases and acquires (R215, R247, R405). -/

theorem State.replicaDrain_current (s : State) (q r : Nat) (h : (s.reach q).replLog.length ≤ getVec (s.reach q).replApplied r 0) :
    s.replicaDrain q r = s := by
  unfold State.replicaDrain
  dsimp only
  rw [Nat.sub_eq_zero_of_le h]
  rfl

/-- A release with every replica current waits for nothing (R405). -/
theorem Drained.release {s : State} (h : Drained s) (sc : Scope) : s.release s.curCore sc = s := by
  obtain ⟨hc, hr⟩ := h
  have drain (q r : Nat) (hq : q < 4) (hr4 : r < 4) : s.replicaDrain q r = s := s.replicaDrain_current q r (hr q r hq hr4)
  have hk : reachOfCore s.curCore < 4 := Nat.div_lt_of_lt_mul hc
  unfold State.release
  split
  · simp only [State.replicaDrainAll, List.foldl_cons, List.foldl_nil, drain, Nat.reduceLT]
  · simp only [State.replicaDrainLocal, List.foldl_cons, List.foldl_nil, drain _ _ _ hk, Nat.reduceLT]

theorem wideScope_iff (sc : Scope) : wideScope sc = true ↔ 2 ≤ scopeRank sc := by cases sc <;> decide

theorem LaneFrame.curCore {s t : State} (h : LaneFrame s t) : t.curCore = s.curCore := by
  have e : (t.wg? s.cur.wg).map Wg.frame = (s.wg? s.cur.wg).map Wg.frame := by
    simpa [State.wg?] using congrArg (fun l : List Wg => l[s.cur.wg]?) h.wgs
  have := congrArg (fun o : Option Wg => (o.map (·.core)).getD 0) e
  unfold State.curCore State.coreOf
  rw [h.cur]
  simpa [Option.map_map, Function.comp_def, Wg.frame] using this

/-- An acquire empties the core's caches from .cl up, and changes no byte. -/
theorem State.acquire_spec {s : State} {g : Group} (h : s.hasGroup g) (c : CoreIx) (sc : Scope) :
    LaneFrame s (s.acquire c sc) ∧ HomeSame s (s.acquire c sc) ∧ (s.acquire c sc).hasGroup g ∧
      (wideScope sc = true → c < 192 →
        ((s.acquire c sc).core c).l1 = [] ∧ (s.acquire c sc).curGroup.map (·.acquired) = some true) := by
  have q := quiet_l1Invalidate s c
  unfold State.acquire
  rw [wideScope_iff]
  split
  · refine ⟨q.laneFrame.trans (laneFrame_modCurGroup _ _), q.homeSame.trans (homeSame_modCurGroup _ _ fun _ => rfl),
      State.hasGroup_modGroup (q.hasGroup h) _ _ _ fun p _ => ⟨p, true, rfl⟩, fun _ hc => ⟨?_, ?_⟩⟩
    · show (getVec (modVec _ s.cores c) c Core.reset).l1 = []
      rw [getVec_modVec, if_pos ⟨rfl, hc⟩]
    · obtain ⟨p, a, e⟩ := h
      show ((s.l1Invalidate c).modCurGroup fun x => { x with acquired := true }).curGroup.map _ = _
      rw [State.curGroup_modCurGroup, q.curGroup, e]
      rfl
  · next hn => exact ⟨(Quiet.refl s).laneFrame, (Quiet.refl s).homeSame, h, fun hw => absurd hw hn⟩

/-! The checks before a lane memory instruction, and its lanes' accesses. -/

theorem LaneRuns.headTag {s : State} {i : Instr} {regs : List Nat} {g : Group} {e : LaneEntry} {rest : List LaneEntry}
    (h : LaneRuns s i regs g e rest) : g.headTag = e.tag := by
  simp [Group.headTag, h.queue]

/-- A legal instruction whose registers are allocated and clean runs on its active lanes (R20, R83). -/
theorem LaneRuns.runMem {s : State} {i : Instr} {regs : List Nat} {g : Group} {e : LaneEntry} {rest : List LaneEntry}
    (h : LaneRuns s i regs g e rest) (o : MemOp) (named bs : List Nat) (x : Bool) (f : Group → LaneMask → State)
    (hr : ∀ r ∈ named ++ indexRegs o, r ∈ regs) : s.runMem i o named bs x f = f g (g.active o.guard) := by
  have ha : g.allocated (named ++ indexRegs o) = true := List.all_eq_true.2 fun r hm => decide_eq_true (h.allocated r (hr r hm))
  unfold State.runMem
  rw [h.group]
  simp [h.legal, ha, Group.guardPoisoned, Group.wholePoisoned, h.clean]

/-- The looks of lanes that all reach their bytes. -/
def ownLooks (lanes : List Nat) (r : Nat → Resolved) : List (Nat × Look) := lanes.map fun l => (l, ⟨.ok (r l), none⟩)

/-- The looks of lanes of which some meet a condition. -/
def badLooks (lanes bad : List Nat) (c : Nat → Cond) (r : Nat → Resolved) : List (Nat × Look) :=
  lanes.map fun k => (k, if k ∈ bad then ⟨.error (c k), none⟩ else ⟨.ok (r k), none⟩)

theorem okLooks_ownLooks (lanes : List Nat) (r : Nat → Resolved) : okLooks (ownLooks lanes r) = lanes.map fun l => (l, r l) := by
  unfold okLooks ownLooks
  rw [List.filterMap_map]
  exact List.filterMap_eq_map ▸ rfl

theorem foldl_fixed {α β : Type} (f : β → α → β) (l : List α) (b : β) (h : ∀ x ∈ l, f b x = b) : l.foldl f b = b := by
  induction l with
  | nil => rfl
  | cons x l ih => rw [List.foldl_cons, h x List.mem_cons_self]; exact ih fun y hy => h y (List.mem_cons_of_mem _ hy)

/-- With no tier accounting, looks without a miss leave nothing behind (R436, R437). -/
theorem State.noteLooks_ownLooks (s : State) (lanes : List Nat) (r : Nat → Resolved) (h : s.hostif.params.tierHot = 0) :
    s.noteLooks (ownLooks lanes r) = s := by
  refine foldl_fixed _ _ _ fun x hx => ?_
  obtain ⟨l, -, rfl⟩ := List.mem_map.1 hx
  simp [State.noteAccess, State.countTier, h]

theorem State.noteMisses_badLooks (s : State) (lanes bad : List Nat) (c : Nat → Cond) (r : Nat → Resolved) :
    s.noteMisses (badLooks lanes bad c r) = s := by
  refine foldl_fixed _ _ _ fun x hx => ?_
  obtain ⟨l, -, rfl⟩ := List.mem_map.1 hx
  dsimp only
  split <;> rfl

section
variable {u : State} {g : Group} (hg : u.hasGroup g) (clean : g.poison = []) (write : Bool) (addr : Nat → Nat) (index data : List Nat) (k : Nat)
include hg clean

theorem State.lanePoisoned_clean (rs : List Nat) (l : Nat) : (u.curGroup.map fun g => g.lanePoisoned rs l).getD false = false := by
  obtain ⟨p, a, e⟩ := hg
  simp [e, Group.lanePoisoned, clean]

theorem State.lookGot_error (c : Cond) :
    u.lookGot write addr index data (k, ⟨.error c, none⟩) = (k, .cond (c.toTrap false write)) := by
  simp [State.lookGot, State.lanePoisoned_clean hg clean]

theorem State.lookGot_own {acc : Acc} {r : Resolved} (h : u.ownAccess acc r) :
    u.lookGot write addr index data (k, ⟨.ok r, none⟩) = (k, .bytes []) := by
  have : r.refs.any u.refPoisoned = false := List.any_eq_false.2 fun b hb => by simp [(h.2 b hb).2]
  simp [State.lookGot, State.lanePoisoned_clean hg clean, this]

end

/-- What each lane met, some a condition and the others their bytes. -/
def gotOf (bad : List Nat) (t : Nat → Trap) (b : Nat → List Byte) (k : Nat) : Nat × LaneGot :=
  (k, if k ∈ bad then .cond (t k) else .bytes (b k))

/-- The lanes that met a condition, none of which still waits: the lowest names it, the mask holds them all (R143, R355). -/
theorem laneFailure_gotOf (performed : LaneMask) {lanes bad : List Nat} (t : Nat → Trap) (b : Nat → List Byte)
    (hb : bad = lanes.filter (bad.contains ·)) :
    laneFailure performed (lanes.map (gotOf bad t b)) = bad.head?.map fun l => .fault (maskOf bad) performed (t l) := by
  have hw : ((lanes.map (gotOf bad t b)).any fun x => x.2 == .wait) = false := by
    rw [List.any_map]
    refine List.any_eq_false.2 fun k _ => ?_
    simp only [Function.comp_def, gotOf]
    split <;> exact Bool.false_ne_true
  have hf : ((lanes.map (gotOf bad t b)).filter fun x => match x.2 with | .cond _ => true | _ => false) = bad.map fun k => (k, .cond (t k)) := by
    rw [List.filter_map]
    refine Eq.trans ?_ (congrArg (List.map fun k => (k, LaneGot.cond (t k))) hb.symm)
    refine (congrArg (List.map _) (List.filter_congr (q := (bad.contains ·)) fun k _ => ?_)).trans ?_
    · by_cases hk : k ∈ bad <;> simp [gotOf, hk]
    · refine List.map_congr_left fun k hk => ?_
      have hk' : k ∈ bad := by simpa using (List.mem_filter.1 hk).2
      simp [gotOf, hk']
  unfold laneFailure
  rw [hw, if_neg Bool.false_ne_true]
  dsimp only
  split
  · next h =>
    have e : bad = [] := List.map_eq_nil_iff.1 (hf.symm.trans h)
    rw [e]
    rfl
  · next j t' rest h =>
    have e := hf.symm.trans h
    rw [h, ← e, List.map_map]
    cases bad with
    | nil => cases e
    | cons l ls =>
      simp only [List.map_cons, List.cons.injEq, Prod.mk.injEq, LaneGot.cond.injEq] at e
      obtain ⟨⟨rfl, rfl⟩, -⟩ := e
      simp [Function.comp_def]
  · next hn hc =>
    exfalso
    cases bad with
    | nil => exact hn hf
    | cons l ls => exact hc _ _ _ hf

/-! Lanes that fail (R143, R355, R357). -/

section
variable {u : State} {g : Group} (hg : u.hasGroup g) (clean : g.poison = []) (write : Bool) (addr : Nat → Nat) (index data : List Nat)
  {acc : Acc} {r : Nat → Resolved}
include hg clean

theorem State.lookGot_badLooks {lanes bad : List Nat} {c : Nat → Cond} (h : ∀ k ∈ lanes, k ∉ bad → u.ownAccess acc (r k)) :
    (badLooks lanes bad c r).map (u.lookGot write addr index data) =
      lanes.map (gotOf bad (fun k => (c k).toTrap false write) fun _ => []) := by
  unfold badLooks
  rw [List.map_map]
  refine List.map_congr_left fun k hk => ?_
  simp only [Function.comp_apply, gotOf]
  by_cases hb : k ∈ bad
  · rw [if_pos hb, if_pos hb]
    exact State.lookGot_error hg clean write addr index data k (c k)
  · rw [if_neg hb, if_neg hb]
    exact State.lookGot_own hg clean write addr index data k (h k hk hb)

/-- Where no lane meets a condition, nothing stands in the way of the bytes. -/
theorem State.laneFailure_ownLooks {lanes : List Nat} (h : ∀ k ∈ lanes, u.ownAccess acc (r k)) :
    laneFailure 0 ((ownLooks lanes r).map (u.lookGot write addr index data)) = none := by
  have e : ownLooks lanes r = badLooks lanes [] (fun _ => ⟨.illegal, 0, false⟩) r := by simp [ownLooks, badLooks]
  rw [e, State.lookGot_badLooks hg clean write addr index data fun k hk _ => h k hk, laneFailure_gotOf]
  · rfl
  · simp

/-- The end of an instruction whose bad lanes, l the lowest of them, meet a condition other than poison. -/
theorem State.laneFailure_badLooks {lanes bad : List Nat} {c : Nat → Cond} {l : Nat} (h : ∀ k ∈ lanes, k ∉ bad → u.ownAccess acc (r k))
    (hb : bad = lanes.filter (bad.contains ·)) (hl : bad.head? = some l) :
    laneFailure 0 ((badLooks lanes bad c r).map (u.lookGot write addr index data)) =
      some (.fault (maskOf bad) 0 ((c l).toTrap false write)) := by
  rw [State.lookGot_badLooks hg clean write addr index data h, laneFailure_gotOf 0 _ _ hb, hl]
  rfl

end

/-- A lane condition other than poison traps the instruction at the head; its requests leave the table. -/
theorem State.laneEnd_taken {u : State} {g : Group} {e : LaneEntry} {rest : List LaneEntry} (hg : u.curGroup = some g)
    (hq : g.laneQ = e :: rest) (fault performed : LaneMask) (c : Cond) (write : Bool) (hc : c.cls ≠ .poison) :
    LaneTrapTaken u.laneTake (u.laneEnd (.fault fault performed (c.toTrap false write))) g fault performed
      (laneRecord u g e (classCode c.cls) ((if write then 16 else 0) + if c.malformed then 64 else 0) c.addr 0 fault performed) := by
  have e' : u.laneEnd (.fault fault performed (c.toTrap false write)) = u.laneTake.laneTrap fault performed (c.toTrap false write) := by
    simp [State.laneEnd, Cond.toTrap, hc, stIndeterminate]
  rw [e']
  exact State.laneTrap_taken (u := u.laneTake) hg hq fault performed (c.toTrap false write) rfl

/-! Bytes of lanes that own them. -/

theorem ownRef_places {s : State} {b : ByteRef} (h : s.ownRef b) {p : Place} (hp : p ∈ b.places) : s.ownPlace p ∨ p = .null := by
  cases b with
  | whole q =>
    rw [List.mem_singleton.1 hp]
    exact h
  | nibs lo _ hi _ =>
    rcases List.mem_cons.1 hp with rfl | hp
    · exact h.1
    · rw [List.mem_singleton.1 hp]
      exact h.2

theorem hasPeer_own {s : State} {rs : List ByteRef} (h : ∀ b ∈ rs, s.ownRef b) : hasPeer rs = false := by
  refine List.any_eq_false.2 fun b hb => ?_
  rw [Bool.not_eq_true]
  refine List.any_eq_false.2 fun p hp => ?_
  rcases ownRef_places (h b hb) hp with hp | rfl
  · cases p with
    | peer d a => exact hp.elim
    | _ => exact Bool.false_ne_true
  · exact Bool.false_ne_true

/-- Reads of bytes that are no replica's wait for nothing (R248). -/
theorem State.replRefresh_own (s : State) (ag : Agent) {rs : List ByteRef} (h : ∀ b ∈ rs, s.ownRef b) : s.replRefresh ag rs = s := by
  unfold State.replRefresh
  refine if_neg ?_
  rw [Bool.not_eq_true]
  refine List.any_eq_false.2 fun p hp => ?_
  obtain ⟨b, hb, hp⟩ := List.mem_flatMap.1 hp
  rcases ownRef_places (h b hb) hp with hp | rfl
  · cases p with
    | repl pa => exact hp.elim
    | _ => exact Bool.false_ne_true
  · exact Bool.false_ne_true

theorem peerUnits_own {rs : List (Nat × Resolved)} (h : ∀ x ∈ rs, hasPeer x.2.refs = false) : peerUnits rs = [] := by
  induction rs with
  | nil => rfl
  | cons x xs ih =>
    rw [peerUnits, h x List.mem_cons_self]
    exact ih fun y hy => h y (List.mem_cons_of_mem _ hy)

/-- Lanes that own their bytes read them at once, and ask nobody (R141). -/
theorem State.loadBytes_own (s : State) (past : Bool) (addr : Nat → Nat) {rs : List (Nat × Resolved)}
    (h : ∀ x ∈ rs, ∀ b ∈ x.2.refs, s.ownRef b) :
    s.loadBytes past addr rs = (s, rs.map fun x => (x.1, .bytes (s.readRefs (s.laneAgent x.1) past x.2.refs))) := by
  have hp : ∀ x ∈ rs, hasPeer x.2.refs = false := fun x hx => hasPeer_own (h x hx)
  unfold State.loadBytes
  rw [foldl_fixed (fun (s : State) (x : Nat × Resolved) => s.replRefresh (s.laneAgent x.1) x.2.refs) rs s
    fun x hx => s.replRefresh_own _ (h x hx), peerUnits_own hp]
  dsimp only
  rw [List.filter_eq_self.2 fun x hx => by rw [hp x hx]; rfl]
  simp [State.askAll]

theorem gotNat_lane (f : Nat → List Byte) {lanes : List Nat} {l : Nat} (h : l ∈ lanes) :
    gotNat (lanes.map fun l => (l, .bytes (f l))) l = natOfBytes (f l) := by
  unfold gotNat
  rw [find?_lane (fun l => LaneGot.bytes (f l)) h]

theorem laneKv_lane (r : Nat → Resolved) {lanes : List Nat} {l : Nat} (h : l ∈ lanes) :
    laneKv (lanes.map fun l => (l, r l)) l = BitVec.ofNat 32 (statusWord (r l)) := by
  unfold laneKv
  rw [find?_lane r h]
  rfl

/-! VLD, VST and VPREF (R141 to R145). -/

section
variable {s u : State} {o : MemOp} {g : Group} {e : LaneEntry} {rest : List LaneEntry} {regs : List Nat} {r : Nat → Resolved}

theorem execVld_plain (h : LaneRuns s (.vld o) regs g e rest) (hfe : o.fe = false)
    (hr : ∀ k ∈ dataRegs o ++ (if o.bit6 then operandRegs 32 o.e else []) ++ indexRegs o, k ∈ regs) :
    exec (.vld o) s = .next (s.laneLoad (.vld o) o g (g.active o.guard)) := by
  show execVld o s = _
  unfold execVld
  rw [h.runMem o _ _ _ _ hr, hfe, if_neg Bool.false_ne_true]

theorem execVst_plain (h : LaneRuns s (.vst o) regs g e rest) (hfe : o.fe = false) (hr : ∀ k ∈ dataRegs o ++ indexRegs o, k ∈ regs) :
    exec (.vst o) s = .next (s.laneStore (.vst o) o g (g.active o.guard)) := by
  show execVst o s = _
  unfold execVst
  rw [h.runMem o _ _ _ _ hr, hfe, if_neg Bool.false_ne_true]

theorem LaneRuns.lanesOf_active {i : Instr} (h : LaneRuns s i regs g e rest) : lanesOf (g.active o.guard) = memLanes g e.tag o := by
  rw [g.lanesOf_active o, h.headTag]

/-- The group that runs is still there once the lanes' accesses are looked up. -/
theorem LaneRuns.looked {i : Instr} (h : LaneRuns s i regs g e rest) {lanes : List Nat} {acc : Acc} {addr : Nat → Nat}
    {ls : List (Nat × Look)} (hu : s.laneLooks lanes acc addr = (u, some ls)) : u.hasGroup g := by
  have := State.laneLooks_hasGroup (State.hasGroup_of h.group) lanes acc addr
  rwa [hu] at this

/-- A release before a store waits for nothing where every replica is current (R405). -/
theorem release_same (hd : Releases s o) (active : LaneMask) :
    (if o.order == .rel && active != 0 then s.release s.curCore o.scope else s) = s := by
  split
  · next h =>
    have : o.order = .rel := by simpa using (Bool.and_eq_true_iff.1 h).1
    exact Drained.release (hd (.inl this)) o.scope
  · rfl

theorem State.laneLoad_fails {looks : List (Nat × Look)} {ends : LaneEnd} (i : Instr) (active : LaneMask)
    (hu : s.laneLooks (lanesOf active) (memAcc o false) (laneAddr o g) = (u, some looks))
    (hf : laneFailure 0 (looks.map (u.lookGot false (laneAddr o g) (indexRegs o) [])) = some ends) :
    s.laneLoad i o g active = (u.noteMisses looks).laneEnd ends := by
  unfold State.laneLoad
  dsimp only
  rw [hu]
  dsimp only
  rw [hf]

theorem State.laneStore_fails {looks : List (Nat × Look)} {ends : LaneEnd} (i : Instr) (active : LaneMask) (hd : Releases s o)
    (hu : s.laneLooks (lanesOf active) (memAcc o true) (laneAddr o g) = (u, some looks))
    (hf : laneFailure 0 (looks.map (u.lookGot true (laneAddr o g) (indexRegs o) (operandRegs (tyBits o.ty) o.d))) = some ends) :
    s.laneStore i o g active = (u.noteMisses looks).laneEnd ends := by
  unfold State.laneStore
  dsimp only
  rw [release_same hd active, hu]
  dsimp only
  rw [hf]

/-- A load of lanes that own their bytes: the bytes read, the caches they leave, the registers, the acquire, the retirement. -/
theorem State.laneLoad_own (i : Instr) (active : LaneMask) (hg : u.hasGroup g) (clean : g.poison = [])
    (hu : s.lanesLocal u (lanesOf active) (memAcc o false) (laneAddr o g) r) :
    let rs := (lanesOf active).map fun l => (l, r l)
    let v := (u.servedAll o.hint.toNat (loadPast o) rs).modCurGroup fun g =>
      g.loaded o active (gotNat (rs.map fun x => (x.1, .bytes (u.readRefs (u.laneAgent x.1) (loadPast o) x.2.refs)))) (laneKv rs)
    s.laneLoad i o g active = (if o.order == .acq && active != 0 then v.acquire v.curCore o.scope else v).memDone i active 0 := by
  obtain ⟨ht, hl, ho⟩ := hu
  intro rs v
  have hrs : ∀ x ∈ rs, ∀ b ∈ x.2.refs, u.ownRef b := fun x hx b hb => by
    obtain ⟨l, hm, rfl⟩ := List.mem_map.1 hx
    exact ((ho l hm).2 b hb).1
  have hb (m : LaneMask) : laneFailure m (rs.map fun x => (x.1, .bytes (u.readRefs (u.laneAgent x.1) (loadPast o) x.2.refs))) = none := by
    have := laneFailure_gotOf m (bad := []) (fun _ => Trap.plain .illegal)
      (fun l => u.readRefs (u.laneAgent l) (loadPast o) (r l).refs) (lanes := lanesOf active) (by simp)
    rw [List.map_map]
    exact this
  have hl' : s.laneLooks (lanesOf active) (memAcc o false) (laneAddr o g) = (u, some (ownLooks (lanesOf active) r)) := hl
  unfold State.laneLoad
  dsimp only
  rw [hl']
  dsimp only
  rw [State.laneFailure_ownLooks hg clean false _ _ _ ho]
  dsimp only
  rw [okLooks_ownLooks, State.loadBytes_own u _ _ hrs]
  dsimp only
  rw [hb]
  dsimp only
  rw [State.noteLooks_ownLooks u _ _ ht]
  rfl

@[simp] theorem State.askAll_nil (s : State) (write : Bool) (addr : Nat → Nat) (mk : List (Nat × Resolved) → List RemoteReq)
    (fill : State → List (Nat × Resolved) → List (List Byte) → List Byte) : s.askAll write addr [] mk fill = (s, []) := rfl

@[simp] theorem laneFailure_nil (performed : LaneMask) : laneFailure performed [] = none := rfl

/-- A store of lanes that own their bytes: each lane's element, in ascending order (R37), and the retirement. -/
theorem State.laneStore_own (i : Instr) (active : LaneMask) (hd : Releases s o) (hg : u.hasGroup g) (clean : g.poison = [])
    (hu : s.lanesLocal u (lanesOf active) (memAcc o true) (laneAddr o g) r) :
    s.laneStore i o g active =
      (((lanesOf active).map fun l => (l, r l)).foldl (fun (s : State) x => s.writeHinted (s.laneAgent x.1) o.hint.toNat x.2.refs
        (bytesOfNat (tyBits o.ty / 8) (dElem o g x.1))) u).memDone i active 0 := by
  obtain ⟨ht, hl, ho⟩ := hu
  have hl' : s.laneLooks (lanesOf active) (memAcc o true) (laneAddr o g) = (u, some (ownLooks (lanesOf active) r)) := hl
  have hp : peerUnits ((lanesOf active).map fun l => (l, r l)) = [] := peerUnits_own fun x hx => by
    obtain ⟨l, hm, rfl⟩ := List.mem_map.1 hx
    exact hasPeer_own fun b hb => ((ho l hm).2 b hb).1
  unfold State.laneStore
  dsimp only
  rw [release_same hd active, hl']
  dsimp only
  rw [State.laneFailure_ownLooks hg clean true _ _ _ ho]
  dsimp only
  rw [okLooks_ownLooks, hp, State.askAll_nil]
  dsimp only
  rw [laneFailure_nil]
  dsimp only
  rw [State.noteLooks_ownLooks u _ _ ht]
  rfl

/-- The acquire of a load: some lane is active, and the order is .acq (R247, R254). -/
theorem State.loadAcquire_spec {v : State} {h : Group} (hv : v.hasGroup h) (o : MemOp) (active : LaneMask) :
    let t := if o.order == .acq && active != 0 then v.acquire v.curCore o.scope else v
    LaneFrame v t ∧ HomeSame v t ∧ t.hasGroup h ∧
      (o.order = .acq → active ≠ 0 → wideScope o.scope = true → v.curCore < 192 →
        (t.core v.curCore).l1 = [] ∧ t.curGroup.map (·.acquired) = some true) := by
  dsimp only
  split
  · obtain ⟨hf, hm, hg, hw⟩ := State.acquire_spec hv v.curCore o.scope
    exact ⟨hf, hm, hg, fun _ _ => hw⟩
  · next hn =>
    exact ⟨(Quiet.refl v).laneFrame, (Quiet.refl v).homeSame, hv, fun ho ha => absurd (by simpa [ho] using ha) hn⟩

/-- Once its reads have left w, a load delivers v and kv to its active lanes, acquires and retires (R141, R142, R228, R247, R254). -/
theorem State.loadEnd_retired {w : State} {i : Instr} (h : LaneRuns s i regs g e rest) (hg : u.hasGroup g) (hq : Quiet u w) (hd : opV o.d = true)
    (hord : o.order = .rlx ∨ o.order = .acq) (v : Nat → Nat) (kv : Nat → Elem) (d : Nat → Nat → Option Elem)
    (hdel : ∀ k, ∀ l ∈ memLanes g e.tag o,
      d k l = if o.bit6 = true ∧ k = vectorNo o.e then some (kv l) else elemResult o.ty (tyBits o.ty) o.d (v l) k) :
    let m := w.modCurGroup fun g' => g'.loaded o (g.active o.guard) v kv
    let t := (if o.order == .acq && g.active o.guard != 0 then m.acquire m.curCore o.scope else m).memDone i (g.active o.guard) 0
    HomeSame u t ∧ SideSame u t ∧ Acquired u t o (memLanes g e.tag o) ∧
      Retired (u.cachesOf t) t i g rest (activeLanes g e.tag o.guard) { elem := d } := by
  obtain ⟨vs, hvs⟩ := g.loaded_with o (g.active o.guard) v kv
  intro m
  have hm : m.hasGroup { g with v := vs } := State.hasGroup_modCurGroup (hq.hasGroup hg) _ hvs
  have fm : LaneFrame u m := hq.laneFrame.trans (laneFrame_modCurGroup w _)
  have priv (x : Group) : (x.loaded o (g.active o.guard) v kv).priv = x.priv := by
    obtain ⟨vs, e⟩ := x.loaded_with o (g.active o.guard) v kv
    exact (congrArg Group.priv (e x.priv x.acquired)).trans rfl
  have bm : HomeSame u m := hq.homeSame.trans (homeSame_modCurGroup w _ priv)
  obtain ⟨fa, ba, ha, acq⟩ := State.loadAcquire_spec hm o (g.active o.guard)
  generalize (if o.order == .acq && g.active o.guard != 0 then m.acquire m.curCore o.scope else m) = n at fa ba ha acq ⊢
  obtain ⟨fd, bd, hd', hl1, hacq⟩ := State.memDone_spec ha h.clean h.live i (g.active o.guard) 0
  have ft := (fm.trans fa).trans fd
  refine ⟨(bm.trans ba).trans bd, ft.side, fun ho hl hw hc => ?_, ft.retired h.queue h.clean hd' fun k l hk hl => ?_⟩
  · have ho' : o.order = .acq := by
      rcases hord with e | e
      · rw [e] at ho; rcases ho with ho | ho <;> cases ho
      · exact e
    have hne : g.active o.guard ≠ 0 := fun e0 => hl (by rw [← h.lanesOf_active, e0]; decide)
    rw [← fm.curCore] at hc ⊢
    obtain ⟨he, hs⟩ := acq ho' hne hw hc
    refine ⟨by rw [hl1, he], fun x hx => ?_⟩
    have := hacq.trans hs
    rw [hx] at this
    exact Option.some.inj this
  · have e1 : ({ g with v := vs } : Group).elem k l = (g.loaded o (g.active o.guard) v kv).elem k l := by
      rw [show g.loaded o (g.active o.guard) v kv = { g with v := vs } from hvs g.priv g.acquired]
    rw [e1, g.elem_loaded o _ v kv hd hk hl, g.active_getLsbD o.guard hl, h.headTag]
    split
    · next hact => rw [hdel k l (List.mem_filter.2 ⟨List.mem_range.2 hl, hact⟩)]
    · rfl

theorem State.laneLoad_retired (h : LaneRuns s (.vld o) regs g e rest) (hfe : o.fe = false)
    (hu : s.lanesLocal u (memLanes g e.tag o) (memAcc o false) (laneAddr o g) r) :
    let t := s.laneLoad (.vld o) o g (g.active o.guard)
    HomeSame u t ∧ SideSame u t ∧ Acquired u t o (memLanes g e.tag o) ∧
      Retired (u.cachesOf t) t (.vld o) g rest (activeLanes g e.tag o.guard)
        { elem := fun k l =>
            if o.bit6 = true ∧ k = vectorNo o.e then some (BitVec.ofNat 32 ((r l).kv.1 + (r l).kv.2 * 2 ^ 8))
            else elemResult o.ty (tyBits o.ty) o.d (natOfBytes (u.readRefs (u.laneAgent l) (o.order != .rlx || o.bypass) (r l).refs)) k } := by
  have hg := h.looked hu.2.1
  have wf : vldOk o = true := h.legal
  obtain ⟨hd, hord⟩ : opV o.d = true ∧ (o.order = .rlx ∨ o.order = .acq) := by
    simp only [vldOk, vecOk, hfe, Bool.false_eq_true, if_false, Bool.and_eq_true, Bool.or_eq_true, beq_iff_eq] at wf
    exact ⟨wf.1.1.2.1, wf.1.2⟩
  have hu' := hu
  rw [← h.lanesOf_active] at hu'
  have hload := State.laneLoad_own (.vld o) (g.active o.guard) hg h.clean hu'
  dsimp only at hload ⊢
  rw [hload]
  refine State.loadEnd_retired h hg (quiet_servedAll u _ _ _) hd hord _ _ _ fun k l hl => ?_
  rw [← h.lanesOf_active] at hl
  rw [List.map_map, laneKv_lane r hl, show gotNat (List.map (_ ∘ _) _) l = _ from
    gotNat_lane (fun l => u.readRefs (u.laneAgent l) (loadPast o) (r l).refs) hl]
  rfl

/-- What VST leaves: its lanes' nibbles in ascending lane order, caches and charges, and the retirement (R37, R143, R145). -/
theorem State.laneStore_retired {i : Instr} (h : LaneRuns s i regs g e rest) (hd : Releases s o)
    (hu : s.lanesLocal u (memLanes g e.tag o) (memAcc o true) (laneAddr o g) r) :
    let t := s.laneStore i o g (g.active o.guard)
    SideSame u t ∧ Retired (u.cachesOf t) t i g rest (activeLanes g e.tag o.guard) {} ∧
      Written u t ((memLanes g e.tag o).flatMap fun l => storeNibbles (r l).refs (bytesOfNat (tyBits o.ty / 8) (dElem o g l))) := by
  have hg := h.looked hu.2.1
  have hu' := hu
  rw [← h.lanesOf_active] at hu'
  dsimp only
  rw [State.laneStore_own i (g.active o.guard) hd hg h.clean hu', h.lanesOf_active]
  have st := Stored.foldl (fun (s : State) (x : Nat × Resolved) => s.writeHinted (s.laneAgent x.1) o.hint.toNat x.2.refs
      (bytesOfNat (tyBits o.ty / 8) (dElem o g x.1))) (fun x => x.2.refs)
    (fun x => storeNibbles x.2.refs (bytesOfNat (tyBits o.ty / 8) (dElem o g x.1)))
    (fun s x hx => s.writeHinted_stored _ _ _ _ hx) ((memLanes g e.tag o).map fun l => (l, r l)) u fun x hx b hb => by
      obtain ⟨l, hm, rfl⟩ := List.mem_map.1 hx
      exact ((hu.2.2 l hm).2 b hb).1
  rw [List.flatMap_map] at st
  obtain ⟨fd, bd, hd', -, -⟩ := State.memDone_spec (st.group g hg) h.clean h.live i (g.active o.guard) 0
  have ft := st.frame.trans fd
  refine ⟨ft.side, ft.retired (vs := g.v) h.queue h.clean hd' fun _ _ _ _ => (ite_self _).symm, fun ag p high hp => ?_⟩
  rw [← st.written ag p high hp]
  unfold State.nibbleAt
  rw [bd ag p]

/-- VPREF changes caches and charges only, and retires (R144). -/
theorem execVpref_retired (h : LaneRuns s (.vpref o) (indexRegs o) g e rest) :
    ∃ t, exec (.vpref o) s = .next t ∧ HomeSame s t ∧ SideSame s t ∧
      Retired (s.cachesOf t) t (.vpref o) g rest (activeLanes g e.tag o.guard) {} := by
  have he : exec (.vpref o) s = execVpref o s := rfl
  unfold execVpref at he
  rw [h.runMem o [] [] false _ fun r hr => hr] at he
  refine ⟨_, he, ?_⟩
  have hq := quiet_servedAll s o.hint.toNat o.bypass
    ((okLooks (s.laneResolve (lanesOf (g.active o.guard)) (memAcc o false) (laneAddr o g))).filter fun x =>
      !x.2.refs.any s.refPoisoned && !g.lanePoisoned (indexRegs o) x.1)
  obtain ⟨fd, bd, hd, -, -⟩ := State.memDone_spec (hq.hasGroup (State.hasGroup_of h.group)) h.clean h.live (.vpref o) (g.active o.guard) 0
  have ft := hq.laneFrame.trans fd
  exact ⟨hq.homeSame.trans bd, ft.side, ft.retired (vs := g.v) h.queue h.clean hd fun _ _ _ _ => (ite_self _).symm⟩

/-- Some active lane meets a condition other than poison: the whole instruction traps, whatever it would have loaded or stored (R143,
R355, R357; log 56). -/
theorem badLooks_taken {i : Instr} {bad : List Nat} {c : Nat → Cond} {l : Nat} {g' : Group} {lanes : List Nat}
    (h : LaneRuns s i regs g e rest) (hu : u.hasGroup g) (hg' : u.curGroup = some g') (write : Bool) (hc : (c l).cls ≠ .poison) :
    LaneTrapTaken u.laneTake ((u.noteMisses (badLooks lanes bad c r)).laneEnd (.fault (maskOf bad) 0 ((c l).toTrap false write))) g' (maskOf bad) 0
      (laneRecord u g' e (classCode (c l).cls) ((if write then 16 else 0) + if (c l).malformed then 64 else 0) (c l).addr 0 (maskOf bad) 0) := by
  have hq : g'.laneQ = e :: rest := by
    obtain ⟨p, a, he⟩ := hu
    rw [hg'] at he
    cases he
    exact h.queue
  rw [State.noteMisses_badLooks]
  exact State.laneEnd_taken hg' hq _ _ _ _ hc

section
variable {bad : List Nat} {c : Nat → Cond} {l : Nat} {g' : Group}
  (hb : bad = (memLanes g e.tag o).filter (bad.contains ·)) (hl : bad.head? = some l) (hc : ∀ k ∈ bad, (c k).cls ≠ .poison)
  (hg' : u.curGroup = some g')
include hb hl hc hg'

theorem State.laneLoad_traps {i : Instr} (h : LaneRuns s i regs g e rest)
    (hu : s.laneLooks (memLanes g e.tag o) (memAcc o false) (laneAddr o g) = (u, some (badLooks (memLanes g e.tag o) bad c r)))
    (ho : ∀ k ∈ memLanes g e.tag o, k ∉ bad → u.ownAccess (memAcc o false) (r k)) :
    LaneTrapTaken u.laneTake (s.laneLoad i o g (g.active o.guard)) g' (maskOf bad) 0
      (laneRecord u g' e (classCode (c l).cls) (0 + if (c l).malformed then 64 else 0) (c l).addr 0 (maskOf bad) 0) := by
  have hg := h.looked hu
  have hf := State.laneFailure_badLooks (c := c) hg h.clean false (laneAddr o g) (indexRegs o) [] ho hb hl
  rw [← h.lanesOf_active] at hu hf
  rw [State.laneLoad_fails i _ hu hf]
  exact badLooks_taken h hg hg' false (hc l (List.mem_of_mem_head? hl))

theorem State.laneStore_traps {i : Instr} (h : LaneRuns s i regs g e rest) (hd : Releases s o)
    (hu : s.laneLooks (memLanes g e.tag o) (memAcc o true) (laneAddr o g) = (u, some (badLooks (memLanes g e.tag o) bad c r)))
    (ho : ∀ k ∈ memLanes g e.tag o, k ∉ bad → u.ownAccess (memAcc o true) (r k)) :
    LaneTrapTaken u.laneTake (s.laneStore i o g (g.active o.guard)) g' (maskOf bad) 0
      (laneRecord u g' e (classCode (c l).cls) (16 + if (c l).malformed then 64 else 0) (c l).addr 0 (maskOf bad) 0) := by
  have hg := h.looked hu
  have hf := State.laneFailure_badLooks (c := c) hg h.clean true (laneAddr o g) (indexRegs o) (operandRegs (tyBits o.ty) o.d) ho hb hl
  rw [← h.lanesOf_active] at hu hf
  rw [State.laneStore_fails i _ hd hu hf]
  exact badLooks_taken h hg hg' true (hc l (List.mem_of_mem_head? hl))

end

end

/-- Settles O32: VLD and VST of lanes that own their bytes, their traps where some lane meets a condition, and VPREF. That an access is
performed whole in its step is log 55, and that a VST that traps has written nothing is log 56. -/
theorem laneLoadStoreResult : Obligations.LaneLoadStoreResult := by
  unfold Obligations.LaneLoadStoreResult
  intro s o g e rest r hfe lanes act n regs fails
  refine ⟨fun h => ?vld, fun h hd => ?vst, execVpref_retired⟩
  case vld =>
    have hx := execVld_plain h hfe fun k hk => hk
    exact ⟨fun u g' bad c l hb hl hc hg' _ hu ho => ⟨_, hx, State.laneLoad_traps hb hl hc hg' h hu ho⟩,
      fun u hu => ⟨_, hx, State.laneLoad_retired h hfe hu⟩⟩
  case vst =>
    have hx := execVst_plain h hfe fun k hk => by
      rcases List.mem_append.1 hk with hk | hk
      · exact List.mem_append_left _ (List.mem_append_left _ hk)
      · exact List.mem_append_right _ hk
    exact ⟨fun u g' bad c l hb hl hc hg' _ hu ho => ⟨_, hx, State.laneStore_traps hb hl hc hg' h hd hu ho⟩,
      fun u hu => ⟨_, hx, State.laneStore_retired h hd hu⟩⟩

end Sys2Proof.Machine

/-! The branch on a mask (O4): what the executing split reads of its group, the target of a direct branch, and the division of a
split. -/

namespace Sys2Proof.Machine

/-- Taking off an address's distance from its block leaves the block's start. -/
theorem blockOf_eq_blockStart (pc : Word) : blockOf pc = blockStart pc := by
  unfold blockOf blockStart
  bv_omega

section
variable {s : State} {g : Group} {x : Split} (h : Runs s g x)
include h

/-- What waits in the lane queue is what waits in the queue of the executing group (R33). -/
theorem Runs.queued (p : LaneEntry → Bool) : s.queued p = g.laneQ.any p := by
  simp [State.queued, h.1]

/-- The mask that BRM names is read in the executing group (R112). -/
theorem Runs.maskReg (m : MReg) : (s.curGroup.map fun g => getVec g.m m.toNat 0).getD 0 = getVec g.m m.toNat 0 := by
  rw [h.1]; rfl

/-- A direct branch of the executing split goes where R68 says, in words as over unbounded integers. -/
theorem Runs.target {n : Nat} (off : BitVec n) : s.target off = branchTarget x.pc off := by
  unfold State.target branchTarget
  rw [h.curPc, blockOf_eq_blockStart, BitVec.ofInt_add, BitVec.ofInt_mul, BitVec.ofInt_natCast, BitVec.ofNat_toNat, BitVec.setWidth_eq]
  rfl

end

/-! R113 and R171: a division, by whether the table has a free entry. -/

/-- The split as a division leaves one of its parts: some of its lanes, READY at an address (R113). -/
def Split.part (x : Split) (lanes : LaneMask) (pc : Word) : Split :=
  { x with mask := lanes, pc := pc, status := .ready, stalled := false }

section
variable {g : Group} {k : SplitIx} {x : Split} (hx : g.split k = some x) (taken : LaneMask) (target : Word)
include hx

/-- The taken lanes take the lowest free entry; both parts stand in the table before either arrives (R113; log 31). -/
theorem Group.divide_of_free {n : SplitIx} (hn : g.freeEntry = some n) :
    g.divide k taken target =
      (((g.setSplit k (some (x.part (x.mask &&& ~~~ taken) (x.pc + 4)))).setSplit n (some (x.part taken target))).arrive k).arrive n := by
  unfold Group.divide
  rw [hx, hn]
  rfl

/-- With no free entry the taken lanes wait in an overflow record, behind those already there (R171). -/
theorem Group.divide_of_full (hn : g.freeEntry = none) :
    g.divide k taken target =
      Group.arrive { g.setSplit k (some (x.part (x.mask &&& ~~~ taken) (x.pc + 4))) with
        overflow := g.overflow ++ [⟨target, taken, x.regs, x.region⟩] } k := by
  unfold Group.divide
  rw [hx, hn]
  rfl

end

/-- BRM.DIV with some but not all lanes taken changes the executing group only, by the division (R113). -/
theorem Runs.divide {s : State} {g : Group} {x : Split} (h : Runs s g x) (taken : LaneMask) (target : Word) :
    (s.modCurGroup fun g => g.divide s.cur.split taken target) = s.putGroup (g.divide s.cur.split taken target) :=
  s.modCurGroup_eq_put _ g h.1

/-- Settles O4: BRM of every kind, while a writer of its mask is queued and when none is. That both parts of a division stand in the
table before either makes its block entry is log 31. -/
theorem maskBranchResult : Obligations.MaskBranchResult := by
  unfold Obligations.MaskBranchResult
  intro s g x m off h taken away past
  have run (kind : BrmKind) : exec (.brm kind m off) s = execBrm kind m off s := rfl
  split
  case isTrue hq => exact fun kind => ⟨s.stall, by rw [run, execBrm, h.queued, if_pos hq], h.stall⟩
  case isFalse hq =>
    simp only [run, execBrm, h.queued, if_neg hq, h.maskReg, h.curMask, h.target, h.jumped, h.next4, h.divide]
    refine ⟨rfl, rfl, rfl, ?_⟩
    cases hn : g.freeEntry with
    | some n =>
      rw [Group.divide_of_free h.2 _ _ hn, show (splitIxs.find? fun k => (g.split k).isNone) = some n from hn]
      rfl
    | none =>
      rw [Group.divide_of_full h.2 _ _ hn, show (splitIxs.find? fun k => (g.split k).isNone) = none from hn]
      rfl

end Sys2Proof.Machine

/-! The barrier instructions (O16): a trap of scalar origin, FENCE's wait at group scope, arrivals and tokens, and the acquire that
ends a wait. -/

namespace Sys2Proof.Machine

/-! A trap of the executing split (R99, R356, R362). -/

theorem posted_postRecord_scalar (u : State) (p : Pending) (n : GroupIx) (k : SplitIx) (h : p.origin = .scalar u.cur.wg n k) :
    Posted u (u.postRecord p) p := by
  unfold Posted State.postRecord
  rw [h]
  split
  · rfl
  · cases u.tryRecord p <;> rfl

/-- The trap that the executing split takes: it is parked, and its record names the class, the flags, the address and the detail. -/
theorem Runs.trapTaken {s : State} {g : Group} {x : Split} (h : Runs s g x) (t : Trap) :
    TrapTaken s (s.trap t) g (scalarRecord s x (classCode t.cls)
      (16 * boolNat t.write + 32 * boolNat t.fetch + 64 * boolNat t.malformed) t.addr t.detail) := by
  have hp : s.modCurSplit Split.park = s.putGroup (g.modSplit s.cur.split Split.park) := s.modCurGroup_eq_put _ g h.1
  have hl := s.launchOf_modGroup s.cur.wg s.cur.wg s.cur.g fun _ => g.modSplit s.cur.split Split.park
  have hc := s.ctxOf_modGroup s.cur.wg s.cur.wg s.cur.g fun _ => g.modSplit s.cur.split Split.park
  have hk := s.coreOf_modGroup s.cur.wg s.cur.wg s.cur.g fun _ => g.modSplit s.cur.split Split.park
  have hj := s.wg?_modGroup_map s.cur.wg s.cur.wg s.cur.g (fun _ => g.modSplit s.cur.split Split.park) (·.j) fun _ _ => rfl
  have hq := State.trapQueueOf_congr (s := s) (t := s.putGroup (g.modSplit s.cur.split Split.park)) rfl
  unfold TrapTaken State.trap State.postWg State.whereOf scalarRecord originByte State.curCtx State.curCore
  rw [hp, h.curPc]
  unfold State.putGroup State.modCurGroup at hq ⊢
  dsimp only
  rw [hl, hc, hk, hj, hq]
  simp only [Nat.zero_add, Nat.add_assoc]
  exact posted_postRecord_scalar _ _ s.cur.g s.cur.split rfl

/-! FENCE's wait at group scope (R33). -/

/-- With no lane memory work of the group outstanding an instruction that first waits as FENCE goes on (R33, R267, R291). -/
theorem State.noLaneMemory.fenceWaits {s : State} {g : Group} (h : s.noLaneMemory g) (hg : s.curGroup = some g) : s.fenceWaits = false := by
  obtain ⟨hq, hb, ho⟩ := h
  simpa [State.fenceWaits, State.queued, hg, hb] using ⟨hq, ho⟩

/-! Barrier words: arrivals and tokens (R190 to R192). -/

/-- An arrival completes the phase, or is counted in it under the expected count of its first arrival (R191). -/
theorem Barrier.arrived1_cases (b : Barrier) (c : Nat) :
    b.arrived1 c = ⟨b.phase + 1, 0, 0, b.engine⟩ ∨ ∃ e, b.arrived1 c = ⟨b.phase, e, b.arrived + 1, b.engine⟩ := by
  by_cases h : b.arrived + 1 = if b.expected = 0 then c else b.expected
  · exact .inl (if_pos h)
  · exact .inr ⟨_, if_neg h⟩

/-- An arrival of an instruction leaves whether an engine has arrived (R196). -/
@[simp] theorem Barrier.arrived1_engine (b : Barrier) (c : Nat) : (b.arrived1 c).engine = b.engine := by
  rcases b.arrived1_cases c with h | ⟨e, h⟩ <;> rw [h]

theorem Barrier.passed_iff (b : Barrier) (t : BitVec 32) : b.passed t = true ↔ tokenPassed b t := by
  have hd : (b.phase - t).toNat = (b.phase.toNat + 2 ^ 32 - t.toNat) % 2 ^ 32 := by bv_omega
  simp only [Barrier.passed, hd, tokenPassed, Bool.and_eq_true, decide_eq_true_eq]
  omega

/-- The token of an arrival is passed at once exactly when the arrival completed the phase (R191, R192). -/
theorem Barrier.tokenPassed_arrived1 (b : Barrier) (c : Nat) : tokenPassed (b.arrived1 c) b.phase ↔ (b.arrived1 c).phase ≠ b.phase := by
  unfold tokenPassed
  rcases b.arrived1_cases c with h | ⟨e, h⟩ <;> rw [h] <;> dsimp only
  · have hp : b.phase + 1 ≠ b.phase := by bv_omega
    have hn : (b.phase + 1).toNat = (b.phase.toNat + 1) % 2 ^ 32 := BitVec.toNat_add ..
    exact iff_of_true (by omega) hp
  · exact iff_of_false (by omega) fun hp => hp rfl

theorem State.barrier_eq {s : State} {v : WgIx} {y : Wg} (h : s.wg? v = some y) (n : Nat) :
    s.barrier v n = getVec y.barriers n Barrier.zero := by
  unfold State.barrier
  rw [h]
  rfl

theorem State.modWg_modWg (s : State) (v : WgIx) (f f' : Wg → Wg) : (s.modWg v f).modWg v f' = s.modWg v fun w => f' (f w) := by
  simp only [State.modWg, modAt_modAt]

/-- Two changes of a workgroup that agree on it are one. -/
theorem State.modWg_congr {s : State} {v : WgIx} {y : Wg} (h : s.wg? v = some y) {f f' : Wg → Wg} (e : f y = f' y) :
    s.modWg v f = s.modWg v f' := by
  unfold State.modWg
  rw [modAt_congr f f' s.wgs v fun w hw => Option.some.inj (h.symm.trans hw) ▸ e]

/-- An arrival on the word of a workgroup changes that workgroup only, and gives the phase before it; a mismatch sets WGERR.BARX where
the word is (R191; log 83). -/
theorem State.arriveAt_eq {s : State} {v : WgIx} {y : Wg} (h : s.wg? v = some y) (n c : Nat) :
    s.arriveAt v n c = (s.modWg v fun w => w.arrived n c, (getVec y.barriers n Barrier.zero).phase) := by
  have hm : (getVec y.barriers n Barrier.zero).mismatch c = true ↔
      (getVec y.barriers n Barrier.zero).expected ≠ 0 ∧ c ≠ (getVec y.barriers n Barrier.zero).expected := by
    simp [Barrier.mismatch]
  unfold State.arriveAt State.setWgerr
  rw [State.barrier_eq h]
  refine Prod.ext ?_ rfl
  dsimp only
  split
  case isTrue he =>
    rw [State.modWg_modWg]
    refine State.modWg_congr h ?_
    simp only [Wg.arrived, if_pos (hm.1 he)]
    rfl
  case isFalse he =>
    refine State.modWg_congr h ?_
    simp only [Wg.arrived, if_neg (mt hm.2 he)]
    rfl

/-- The word after an arrival on it. -/
theorem State.barrier_arrived {s : State} {v : WgIx} {y : Wg} (h : s.wg? v = some y) {n : Nat} (hn : n < 16) (c : Nat) :
    (s.modWg v fun w => w.arrived n c).barrier v n = (getVec y.barriers n Barrier.zero).arrived1 c := by
  unfold State.barrier
  rw [State.wg?_modWg, if_pos rfl, h]
  show getVec (modVec _ y.barriers n) n Barrier.zero = _
  rw [getVec_modVec, if_pos ⟨rfl, hn⟩]

/-- An arrival leaves the executing split as it is. -/
theorem Runs.arrived {s : State} {g : Group} {x : Split} (h : Runs s g x) (v : WgIx) (n c : Nat) :
    Runs (s.modWg v fun w => w.arrived n c) g x :=
  ⟨(s.group?_modWg_same v _ _ (fun w => w.arrived n c) fun _ => rfl).trans h.1, h.2⟩

/-! The acquire that ends a wait (R195, R196, R215, R247). -/

theorem wideScope_bar (engine cl : Bool) : wideScope (widen engine (barScope cl)) = (cl || engine) := by
  cases engine <;> cases cl <;> rfl

@[simp] theorem State.putGroup_putGroup (s : State) (g h : Group) : (s.putGroup g).putGroup h = s.putGroup h :=
  s.modCurGroup_modCurGroup _ _

/-- An acquire of the executing group: the caches of its core, and that its later reads see their homes. -/
theorem State.acquire_eq {s : State} {g : Group} (hg : s.curGroup = some g) (sc : Scope) :
    s.acquire s.curCore sc = (s.emptied (wideScope sc)).putGroup (g.newer (wideScope sc)) := by
  unfold State.acquire
  split
  case isTrue hw =>
    rw [(wideScope_iff sc).2 hw]
    exact (s.l1Invalidate s.curCore).modCurGroup_eq_put (fun g => { g with acquired := true }) g hg
  case isFalse hw =>
    rw [Bool.eq_false_iff.2 (mt (wideScope_iff sc).1 hw)]
    exact (s.modCurGroup_same _ fun _ h => Option.some.inj (hg.symm.trans h)).symm

@[simp] theorem State.emptied_curGroup (s : State) (a : Bool) : (s.emptied a).curGroup = s.curGroup := by cases a <;> rfl

/-- The executing split after the acquire. -/
theorem Runs.acquire {s : State} {g : Group} {x : Split} (h : Runs s g x) (sc : Scope) :
    Runs (s.acquire s.curCore sc) (g.newer (wideScope sc)) x := by
  rw [State.acquire_eq h.1]
  refine ⟨State.curGroup_putGroup _ g _ (by simpa using h.1), ?_⟩
  cases wideScope sc <;> exact h.2

theorem Group.wrote_acquired (g : Group) (k : SplitIx) (r : SReg) (v : Word) :
    ({ g with acquired := true } : Group).wrote k r v = { g.wrote k r v with acquired := true } := by
  unfold Group.wrote
  split
  · rfl
  · dsimp only
    split <;> rfl

/-- A register's write and an acquire may change places. -/
theorem State.ws_acquire (s : State) (r : SReg) (v : Word) (c : CoreIx) (sc : Scope) :
    (s.ws r v).acquire c sc = (s.acquire c sc).ws r v := by
  unfold State.acquire
  split
  · rw [State.ws_eq, State.ws_eq]
    show ((s.l1Invalidate c).modCurGroup _).modCurGroup (fun g => { g with acquired := true }) =
      ((s.l1Invalidate c).modCurGroup fun g => { g with acquired := true }).modCurGroup _
    simp only [State.modCurGroup_modCurGroup, Group.wrote_acquired]
    rfl
  · rfl

/-- A register's write leaves the barrier words and the core of the workgroup. -/
theorem State.ws_barrier (s : State) (r : SReg) (v : Word) (n : Nat) :
    (s.ws r v).barrier (s.ws r v).cur.wg n = s.barrier s.cur.wg n ∧ (s.ws r v).curCore = s.curCore := by
  rw [State.ws_eq]
  refine ⟨?_, s.coreOf_modGroup ..⟩
  unfold State.barrier
  exact congrArg (·.getD Barrier.zero) (s.wg?_modGroup_map s.cur.wg s.cur.wg s.cur.g _ (·.barrier n) fun _ _ => rfl)

section
variable {s : State} {g : Group} {x : Split} (h : Runs s g x) (n : Nat) (cl : Bool)
include h

/-- The end of a WAIT: its acquire, and the next instruction (R195, R196). -/
theorem Runs.barEnd : s.barEnd n cl =
    (s.emptied (cl || (s.barrier s.cur.wg n).engine)).jumped (g.newer (cl || (s.barrier s.cur.wg n).engine)) (x.pc + 4) := by
  unfold State.barEnd
  rw [(h.acquire _).next4, State.acquire_eq h.1, wideScope_bar]
  exact State.putGroup_putGroup ..

/-- The end of a SYNC, which also gives its token (R193, R195, R196). -/
theorem Runs.ws_barEnd (r : SReg) (v : Word) : (s.ws r v).barEnd n cl =
    (s.emptied (cl || (s.barrier s.cur.wg n).engine)).resulted (g.newer (cl || (s.barrier s.cur.wg n).engine)) x r v := by
  obtain ⟨hb, hc⟩ := s.ws_barrier r v n
  unfold State.barEnd
  rw [hb, hc, State.ws_acquire, (h.acquire _).resulted, State.acquire_eq h.1, wideScope_bar]
  exact State.putGroup_putGroup ..

/-- The wait part of a SYNC whose token is passed ends. -/
theorem Runs.syncWait_passed {t : BitVec 32} (ht : tokenPassed (s.barrier s.cur.wg n) t) (r : SReg) : s.syncWait cl n t r =
    (s.emptied (cl || (s.barrier s.cur.wg n).engine)).resulted (g.newer (cl || (s.barrier s.cur.wg n).engine)) x r (t.setWidth 64) := by
  unfold State.syncWait
  rw [if_pos ((Barrier.passed_iff _ _).2 ht), h.ws_barEnd]

/-- The wait part of a SYNC whose token is not passed waits. -/
theorem Runs.syncWait_waits {t : BitVec 32} (ht : ¬ tokenPassed (s.barrier s.cur.wg n) t) (r : SReg) :
    Waits s (s.syncWait cl n t r) g (.sync n t cl r) := by
  unfold State.syncWait
  rw [if_neg (mt (Barrier.passed_iff _ _).1 ht)]
  exact h.wait _

end

/-! The four instructions (R193 to R195). -/

theorem barCountOk_iff (v : Word) : barCountOk v = true ↔ 1 ≤ v.toNat ∧ v.toNat ≤ 1023 := by simp [barCountOk]

section
variable {s : State} {g : Group} {x : Split} (h : Runs s g x) (cl : Bool) (bar : BitVec 4) (sa sb sc : SReg)
include h

theorem Runs.syncToken : s.curSplit.bind (·.syncToken) = x.syncToken := by
  rw [h.curSplit]
  rfl

/-- WAIT looks whether its token is passed: the one it holds from before a pre-emption, else its register's (R192, R197). -/
theorem Runs.barWait : exec (.barWait cl bar sb) s =
    .next (if (s.barrier s.cur.wg bar.toNat).passed (x.syncToken.getD ((scalarReg g x sb).setWidth 32)) then s.barEnd bar.toNat cl
      else s.wait (.barrier bar.toNat (x.syncToken.getD ((scalarReg g x sb).setWidth 32)) cl)) := by
  show execBarWait cl bar sb s = _
  unfold execBarWait tokenOf
  rw [h.syncToken, h.rs]

/-- A SYNC that holds a token does not arrive (R197). -/
theorem Runs.barSync_held {k : BitVec 32} (hk : x.syncToken = some k) :
    exec (.barSync cl bar sa sb) s = .next (s.syncWait cl bar.toNat k sb) := by
  show execBarSync cl bar sa sb s = _
  unfold execBarSync
  rw [h.syncToken, hk]

/-- A count that no arrival may name raises ILLEGAL (R193). -/
theorem Runs.bar_illegal (hc : ¬ (1 ≤ (scalarReg g x sa).toNat ∧ (scalarReg g x sa).toNat ≤ 1023)) :
    exec (.barArrive cl bar sa sb) s = .next (s.trap (Trap.plain .illegal)) ∧
    (x.syncToken = none → exec (.barSync cl bar sa sb) s = .next (s.trap (Trap.plain .illegal))) ∧
    exec (.barRemote bar sa sb sc) s = .next (s.trap (Trap.plain .illegal)) := by
  have hok : (!barCountOk (s.rs sa)) = true := by
    rw [h.rs, Bool.eq_false_iff.2 (mt (barCountOk_iff _).1 hc)]
    rfl
  refine ⟨?_, fun hn => ?_, ?_⟩
  · show execBarArrive cl bar sa sb s = _
    rw [execBarArrive, if_pos hok]
  · show execBarSync cl bar sa sb s = _
    unfold execBarSync
    rw [h.syncToken, hn]
    exact if_pos hok
  · show execBarRemote bar sa sb sc s = _
    rw [execBarRemote, if_pos hok]

section
variable (hc : 1 ≤ (scalarReg g x sa).toNat ∧ (scalarReg g x sa).toNat ≤ 1023)
include hc

/-- An arrival's count passes the check. -/
theorem Runs.barCountOk : ¬ (!barCountOk (s.rs sa)) = true := by
  rw [h.rs, (barCountOk_iff _).2 hc]
  exact Bool.false_ne_true

/-- A rank outside the cluster raises ADDRESS before any wait (R194). -/
theorem Runs.barRemote_outside (hr : (s.clusterOf s.cur.wg).2 ≤ (scalarReg g x sc).toNat) :
    exec (.barRemote bar sa sb sc) s = .next (s.trap (Trap.plain .address)) := by
  show execBarRemote bar sa sb sc s = _
  rw [execBarRemote, if_neg (h.barCountOk sa hc), if_pos (by rwa [h.rs])]

variable (hm : s.noLaneMemory g) (hd : Drained s)
include hm hd

/-- ARRIVE: one arrival on the own word, whose phase before it is the token (R191, R193). -/
theorem Runs.barArrive {w : Wg} (hw : s.wg? s.cur.wg = some w) : exec (.barArrive cl bar sa sb) s =
    .next ((s.modWg s.cur.wg fun w => w.arrived bar.toNat (scalarReg g x sa).toNat).resulted g x sb
      ((getVec w.barriers bar.toNat Barrier.zero).phase.setWidth 64)) := by
  show execBarArrive cl bar sa sb s = _
  unfold execBarArrive
  rw [if_neg (h.barCountOk sa hc), hm.fenceWaits h.1, if_neg Bool.false_ne_true, hd.release, h.rs, State.arriveAt_eq hw]
  dsimp only
  rw [(h.arrived _ _ _).resulted]

/-- A SYNC that holds no token arrives, and waits for the token of its arrival (R191, R193). -/
theorem Runs.barSync_arrives {w : Wg} (hw : s.wg? s.cur.wg = some w) (hn : x.syncToken = none) : exec (.barSync cl bar sa sb) s =
    .next ((s.modWg s.cur.wg fun w => w.arrived bar.toNat (scalarReg g x sa).toNat).syncWait cl bar.toNat
      (getVec w.barriers bar.toNat Barrier.zero).phase sb) := by
  show execBarSync cl bar sa sb s = _
  unfold execBarSync
  rw [h.syncToken, hn]
  dsimp only
  rw [if_neg (h.barCountOk sa hc), hm.fenceWaits h.1, if_neg Bool.false_ne_true, hd.release, h.rs, State.arriveAt_eq hw]

/-- REMOTE: one arrival on the word of the resident workgroup at a rank of the cluster (R191, R194). -/
theorem Runs.barRemote_arrives {v : WgIx} {y : Wg} (hv : s.rankWg s.cur.wg (scalarReg g x sc).toNat = some v)
    (hr : (scalarReg g x sc).toNat < (s.clusterOf s.cur.wg).2) (hy : s.wg? v = some y) (hs : y.state = .resident) :
    exec (.barRemote bar sa sb sc) s =
      .next ((s.modWg v fun w => w.arrived bar.toNat (scalarReg g x sa).toNat).resulted g x sb
        ((getVec y.barriers bar.toNat Barrier.zero).phase.setWidth 64)) := by
  have hres : s.wgState v = some .resident := by rw [State.wgState, hy, Option.map_some, hs]
  show execBarRemote bar sa sb sc s = _
  unfold execBarRemote
  rw [if_neg (h.barCountOk sa hc), h.rs, h.rs, if_neg (Nat.not_le.2 hr), hm.fenceWaits h.1, if_neg Bool.false_ne_true, hv]
  dsimp only
  rw [if_pos hres, hd.release, State.arriveAt_eq hy]
  dsimp only
  rw [(h.arrived _ _ _).resulted]

end

end

/-- Settles O16: ARRIVE, WAIT, SYNC and REMOTE by the word they name, and their traps. That a mismatched arrival sets WGERR.BARX of the
workgroup that holds the word, whoever arrives, is log 83. -/
theorem barrierResult : Obligations.BarrierResult := by
  unfold Obligations.BarrierResult
  refine ⟨fun s g x w cl bar sa sb h hw => ?results, fun s g x cl bar sa sb sc h => ?traps⟩
  case results =>
    have hb := State.barrier_eq hw bar.toNat
    have wake := h.barWait cl bar sb
    rw [hb] at wake
    refine ⟨fun ht => ?_, fun ht => ⟨_, wake, ?_⟩, fun k hk => ?held, fun h1 h2 hm hd => ?arrives⟩
    · rw [wake, if_pos ((Barrier.passed_iff _ _).2 ht), h.barEnd, hb]
    · rw [if_neg (mt (Barrier.passed_iff _ _).1 ht)]
      exact h.wait _
    case held =>
      rw [h.barSync_held cl bar sa sb hk, ← hb]
      exact ⟨fun ht => congrArg Host.Outcome.next (h.syncWait_passed _ cl ht sb), fun ht => ⟨_, rfl, h.syncWait_waits _ cl ht sb⟩⟩
    case arrives =>
      have hu := h.arrived s.cur.wg bar.toNat (scalarReg g x sa).toNat
      have hba := State.barrier_arrived hw bar.isLt (scalarReg g x sa).toNat
      have passed := (getVec w.barriers bar.toNat Barrier.zero).tokenPassed_arrived1 (scalarReg g x sa).toNat
      rw [← hba] at passed
      refine ⟨h.barArrive cl bar sa sb ⟨h1, h2⟩ hm hd hw, fun hn hp => ?_, fun hn hp => ?_, fun sd v y hv hr hy hs =>
        h.barRemote_arrives bar sa sb sd ⟨h1, h2⟩ hm hd hv hr hy hs⟩
      · have ends := hu.syncWait_passed _ cl (passed.2 (hba ▸ hp)) sb
        rw [State.modWg_cur, hba, Barrier.arrived1_engine] at ends
        rw [h.barSync_arrives cl bar sa sb ⟨h1, h2⟩ hm hd hw hn, ends]
      · exact ⟨_, h.barSync_arrives cl bar sa sb ⟨h1, h2⟩ hm hd hw hn,
          hu.syncWait_waits _ cl (fun ht => passed.1 ht (hba ▸ hp)) sb⟩
  case traps =>
    refine ⟨fun hc => ?_, fun h1 h2 hr =>
      ⟨_, h.barRemote_outside bar sa sb sc ⟨h1, h2⟩ hr, h.trapTaken (Trap.plain .address)⟩⟩
    obtain ⟨arrive, sync, remote⟩ := h.bar_illegal cl bar sa sb sc (by omega)
    have taken := h.trapTaken (Trap.plain .illegal)
    exact ⟨⟨_, arrive, taken⟩, fun hn => ⟨_, sync hn, taken⟩, ⟨_, remote, taken⟩⟩

end Sys2Proof.Machine

/-! The period and the watchdog (O48): a mark for pre-emption and what it leaves, a region at a boundary, the records of BUDGET, and the
watchdog's answers by what a context waits for. -/

namespace Sys2Proof.Machine

/-! Marking for pre-emption (R372). -/

/-- A workgroup but for its mark. -/
def Wg.unmarked (x : Wg) : Wg := { x with preempt := false }

/-- From s to t only marks for pre-emption changed. -/
structure MarksOnly (s t : State) : Prop where
  state : { t with wgs := s.wgs } = s
  wgs : t.wgs.map Wg.unmarked = s.wgs.map Wg.unmarked

theorem MarksOnly.refl (s : State) : MarksOnly s s := ⟨rfl, rfl⟩

theorem MarksOnly.trans {s t u : State} (h : MarksOnly s t) (k : MarksOnly t u) : MarksOnly s u where
  state := by rw [← h.state, ← k.state]
  wgs := k.wgs.trans h.wgs

theorem MarksOnly.foldl {α : Type} (f : State → α → State) (hf : ∀ s x, MarksOnly s (f s x)) (l : List α) (s : State) :
    MarksOnly s (l.foldl f s) :=
  List.foldlRecOn l f (MarksOnly.refl s) fun u h x _ => h.trans (hf u x)

theorem marksOnly_modWg_preempt (s : State) (w : WgIx) : MarksOnly s (s.modWg w fun x => { x with preempt := true }) :=
  ⟨rfl, modAt_map_same Wg.unmarked (fun x => { x with preempt := true }) (fun _ => rfl) s.wgs w⟩

theorem marksOnly_markUnits (s : State) (ws : List WgIx) : MarksOnly s (s.markUnits ws) :=
  MarksOnly.foldl _ marksOnly_modWg_preempt _ s

/-- A part of the state that the workgroups are no part of is as it was. -/
theorem MarksOnly.same {s t : State} (h : MarksOnly s t) {β : Type} (φ : State → β) (hφ : ∀ u ws, φ { u with wgs := ws } = φ u) :
    φ t = φ s := (hφ t s.wgs).symm.trans (congrArg φ h.state)

/-- Everything of a workgroup but its mark is as it was. -/
theorem MarksOnly.wg?_map {s t : State} (h : MarksOnly s t) {β : Type} (φ : Wg → β) (hφ : ∀ x, φ x.unmarked = φ x) (w : WgIx) :
    (t.wg? w).map φ = (s.wg? w).map φ := by
  have same : (t.wg? w).map Wg.unmarked = (s.wg? w).map Wg.unmarked := by
    simpa [State.wg?] using congrArg (fun l => l[w]?) h.wgs
  simpa [Option.map_map, Function.comp_def, hφ] using congrArg (Option.map φ) same

theorem MarksOnly.memorySame {s t : State} (h : MarksOnly s t) : MemorySame s t := by
  refine memorySame_of s t (h.same (·.mem) fun _ _ => rfl) (h.same (·.cc) fun _ _ => rfl) (h.same (·.host) fun _ _ => rfl)
    (h.same (·.hidden) fun _ _ => rfl) (h.same (·.free) fun _ _ => rfl) (fun c key => h.same (fun u => (u.core c).l1Byte key) fun _ _ => rfl)
    (h.wg?_map (·.vault) fun _ => rfl) fun w n => ?_
  have groups := congrArg (Option.bind · fun gs : List Group => gs[n]?) (h.wg?_map (·.groups) (fun _ => rfl) w)
  simp only [Option.bind_map] at groups
  exact congrArg _ groups

theorem MarksOnly.wg? {s t : State} (h : MarksOnly s t) {w : WgIx} {y : Wg} (hy : s.wg? w = some y) :
    ∃ z, t.wg? w = some z ∧ { z with preempt := y.preempt } = y := by
  have same := h.wg?_map Wg.unmarked (fun _ => rfl) w
  rw [hy] at same
  obtain ⟨z, hz, e⟩ := Option.map_eq_some_iff.1 same
  exact ⟨z, hz, congrArg (fun x : Wg => { x with preempt := y.preempt }) e⟩

/-! A region at a boundary (R176, R188, R399, R400). -/

/-- A count of held boundaries goes up to 10 and stays there; one boundary without begins it anew. -/
theorem heldNext_contains (n k : Nat) (l : List Nat) : heldNext n (l.contains k) = if k ∈ l then min (n + 1) (max n 10) else 0 := by
  unfold heldNext Config.budgetBoundaries
  by_cases h : k ∈ l
  · simp only [List.contains_iff_mem.2 h, h, Bool.not_true, Bool.false_eq_true, if_false, if_true]
    split <;> omega
  · simp [h]

/-- A region read again keeps its name and its mask. -/
theorem State.rereadRegion_frame (s : State) (r : Region) :
    (s.rereadRegion r).rcb = r.rcb ∧ (s.rereadRegion r).ctx = r.ctx ∧ (s.rereadRegion r).own.mask = r.own.mask := by
  unfold State.rereadRegion
  split
  · split <;> exact ⟨rfl, rfl, rfl⟩
  · exact ⟨rfl, rfl, rfl⟩

theorem State.rereadRegion_fault {s : State} {r : Region} {c : Cond} (h : s.devRead (devAgent r.ctx 0) r.rcb 256 = .error c) :
    s.rereadRegion r = r := by
  unfold State.rereadRegion
  rw [h]
  cases s.ctx? r.ctx <;> rfl

theorem State.rereadRegion_valid {s : State} {r : Region} {bs : List Byte} {c : Ctx}
    (h : s.devRead (devAgent r.ctx 0) r.rcb 256 = .ok bs) (hc : s.ctx? r.ctx = some c) (ok : rcbOk c r.rcb bs = true) :
    s.rereadRegion r = r.reread bs := by
  unfold State.rereadRegion
  rw [h, hc]
  exact if_pos ok

@[simp] theorem State.boundaryRegion_own (s : State) (r : Region) : (s.boundaryRegion r).own = (s.rereadRegion r).own := rfl

/-! PERIOD. -/

/-- The machine once its regions and the CONFIG values have crossed a boundary, before workgroups are marked. -/
def State.atBoundary (s : State) : State :=
  { s with
    regions := s.regions.map s.boundaryRegion
    lastPeriod := s.now / 100000
    hostif := { s.hostif with params := s.hostif.newParams.foldl Params.set s.hostif.params, newParams := [] } }

theorem memorySame_atBoundary (s : State) : MemorySame s s.atBoundary :=
  memorySame_of _ _ rfl rfl rfl rfl rfl (fun _ _ => rfl) (fun _ => rfl) fun _ _ => rfl

theorem exec_period_early {s : State} (h : s.now / 100000 ≤ s.lastPeriod) : exec .period s = .next s := if_pos h

/-- A boundary that has come: what exceeds its limits is marked (R372), and nothing else follows. -/
theorem exec_period_due {s : State} (h : s.lastPeriod < s.now / 100000) :
    ∃ t, exec .period s = .next t ∧ MarksOnly s.atBoundary t :=
  ⟨_, if_neg (Nat.not_le.2 h), MarksOnly.foldl _ (fun u _ => marksOnly_markUnits u _) _ s.atBoundary⟩

/-! BUDGET (R363, R400): the activity of a record. -/

/-- Boundaries at which an activity of a region has been held. -/
def Region.heldAt (r : Region) (which : Nat) : Nat :=
  if which = 1 then r.heldHbm else if which = 2 then r.heldBank else r.heldFabric

/-- A region that notes n boundaries for an activity. -/
def Region.noteHeld (r : Region) (which n : Nat) : Region :=
  if which = 1 then { r with heldHbm := n } else if which = 2 then { r with heldBank := n } else { r with heldFabric := n }

theorem exec_budget {s : State} {ix which : Nat} {r : Region} (hr : s.regions[ix]? = some r) (h1 : 1 ≤ which) (h3 : which ≤ 3) {held : Nat}
    (hheld : r.heldAt which = held) :
    exec (.budget ix which) s = if held ≠ 10 then .next s else
      .next (State.postDevice (s.modRegion r.ctx r.rcb (·.noteHeld which (held + 1))) (.budget r.rcb) r.ctx r.rcb
        ⟨.budget, 0, false, false, false, r.rcb ||| which⟩) := by
  show execBudget ix which s = _
  unfold execBudget
  rw [hr]
  subst hheld
  obtain rfl | rfl | rfl : which = 1 ∨ which = 2 ∨ which = 3 := by omega
  all_goals rfl

/-! WATCHDOG (R382 to R384): what a context waits for. -/

section

variable {s : State} {ctx : BitVec 20} {c : Ctx}

/-- P has passed without progress of a context that has resident workgroups and no record pending. -/
def State.watchdogDue (s : State) (ctx : BitVec 20) (c : Ctx) : Prop :=
  s.hostif.params.watchdog ≤ s.time - c.lastProgress ∧ s.contextWgs ctx ≠ [] ∧ c.watchdogHeld = false

theorem State.watchdogDue_iff :
    s.watchdogDue ctx c ↔
      ¬ (s.time - c.lastProgress < s.hostif.params.watchdog || (s.contextWgs ctx).isEmpty || c.watchdogHeld) = true := by
  simp [State.watchdogDue, and_assoc]

theorem exec_watchdog_early (hc : s.ctx? ctx = some c) (h : ¬ s.watchdogDue ctx c) : exec (.watchdog ctx) s = .next s := by
  show execWatchdog ctx s = _
  unfold execWatchdog
  rw [hc]
  exact if_pos (Classical.not_not.1 (mt State.watchdogDue_iff.2 h))

theorem exec_watchdog_due (hc : s.ctx? ctx = some c) (h : s.watchdogDue ctx c) :
    exec (.watchdog ctx) s =
      if (s.contextWaits ctx ++ s.launchesHeld ctx).all (!·) then
        .next (State.postDevice ((s.markUnits (s.contextWgs ctx)).modCtx ctx fun c => { c with watchdogHeld := true })
          (.watchdog ctx) ctx c.rootRcb ⟨.watchdog, 0, false, false, false, (s.time - c.lastProgress) / 1000⟩)
      else if (s.contextWaits ctx ++ s.launchesHeld ctx).all id && !c.quietPosted then
        .next ((s.postEvent .quiescentExternal 0 ctx.toNat ((s.time - c.lastProgress) / 1000) 0).modCtx ctx fun c =>
          { c with quietPosted := true })
      else .next s := by
  show execWatchdog ctx s = _
  unfold execWatchdog
  rw [hc]
  exact if_neg (State.watchdogDue_iff.1 h)

end

/-- Settles O48: a boundary changes regions, CONFIG values and marks; BUDGET and WATCHDOG branch on the activity and on the waits. That a
region whose RCB cannot be read keeps its limits is log 81; what counts as progress, and that a pending record holds the next one
back, is log 63. -/
theorem periodAndWatchdog : Obligations.PeriodAndWatchdog := by
  unfold Obligations.PeriodAndWatchdog
  refine fun s => ⟨exec_period_early, fun due => ?period, fun ix which r hr h1 h3 => ?budget, fun ctx c hc => ?watchdog⟩
  case period =>
    obtain ⟨t, ran, marks⟩ := exec_period_due due
    have regions : t.regions = s.regions.map s.boundaryRegion := marks.same (·.regions) fun _ _ => rfl
    have hostif : t.hostif = s.atBoundary.hostif := marks.same (·.hostif) fun _ _ => rfl
    refine ⟨t, ran, (memorySame_atBoundary s).trans marks.memorySame, marks.same (·.lastPeriod) fun _ _ => rfl, by rw [hostif]; rfl,
      by rw [hostif]; rfl, by rw [regions, List.length_map], fun i r hr => ?_, fun w y hy => marks.wg? hy⟩
    obtain ⟨rcb, ctx, mask⟩ := s.rereadRegion_frame r
    refine ⟨s.boundaryRegion r, by rw [regions, List.getElem?_map, hr]; rfl, rcb, ctx, mask, rfl, rfl, rfl, rfl, rfl,
      heldNext_contains _ _ _, heldNext_contains _ _ _, fun c fault => ?_, fun bs c read hc ok => ?_⟩
    · rw [State.boundaryRegion_own, State.rereadRegion_fault fault]
    · rw [State.boundaryRegion_own, State.rereadRegion_valid read hc ok]
      rfl
  case budget =>
    exact ⟨fun held => (exec_budget hr h1 h3 rfl).trans (if_pos held), fun held =>
      (exec_budget hr h1 h3 held).trans (if_neg (not_not_intro rfl))⟩
  case watchdog =>
    intro quiet waits ready
    refine ⟨exec_watchdog_early hc, fun due external inside => ?mixed, fun due inside => ?inside, fun due waiting external => ?external⟩
    case mixed =>
      obtain ⟨a, ha, rfl⟩ := external
      obtain ⟨b, hb, rfl⟩ := inside
      rw [exec_watchdog_due hc due, if_neg fun h => by simpa using List.all_eq_true.1 h _ ha,
        if_neg fun h => by simpa using List.all_eq_true.1 (Bool.and_eq_true_iff.1 h).1 _ hb]
    case inside =>
      rw [exec_watchdog_due hc due, if_pos (List.all_eq_true.2 fun a ha => by rw [inside a ha]; rfl)]
    case external =>
      obtain ⟨a, ha⟩ := List.exists_mem_of_ne_nil _ waiting
      have allExternal : waits.all id = true := List.all_eq_true.2 external
      rw [exec_watchdog_due hc due, if_neg fun h => by simpa [external a ha] using List.all_eq_true.1 h _ ha, allExternal]
      cases c.quietPosted <;> rfl

end Sys2Proof.Machine
